-- ==== Sys2Proof/Word.lean ====
section
/-! DEFINITION. The two word types of the line: a byte and the 16-bit word of the check (R5, R185). Quantities that the
spec only counts, compares or adds (stages, volumes, seconds, counters) are natural numbers or integers, not words. -/

namespace Sys2Proof

/-- One byte of a frame, a line address, an index as a request carries it (R5, R186). -/
abbrev Byte := BitVec 8

/-- A 16-bit word: the check register (R185), a PRBS state or another pattern parameter (R155, R156). -/
abbrev Half := BitVec 16

end Sys2Proof
end

