-- ==== Sys2Proof/Config.lean ====
section
/-! DEFINITION. The constants the spec fixes: capacities, limits and reserved values, each with the place that gives it.
The spec leaves no value free, so there is no free value here (INVENTORY.md, "What the manual leaves open"). -/

namespace Sys2Proof.Config

/-- The preamble byte of every frame (Frame header and check; R6). -/
def preamble : Byte := 0xA5

/-- The broadcast address (Overview, Frames). -/
def broadcast : Byte := 0xFF

/-- The address the part takes when the straps read 0 or 255 (Straps and reset pin, R4). -/
def fallbackAddress : Byte := 254

/-- The longest payload, in bytes (R7). -/
def maxPayload : Nat := 48

/-- The number of header bytes the receiver takes after the preamble (R7). -/
def headerBytes : Nat := 6

/-- Gap limit in byte times (R8). The model has no line clock: the row GAP_TIMEOUT stands for its passing. -/
def gapLimitByteTimes : Nat := 4

/-- Break detection in byte times (R10). The row BREAK_DETECTED stands for its passing. -/
def breakByteTimes : Nat := 20

/-- Frames a forward queue holds (R16). -/
def forwardQueueMax : Nat := 16

/-- High watermark of the UD queue, in frames (R20, R21). -/
def udWatermark : Nat := 12

/-- Requests the request queue holds (R167, R168). -/
def requestQueueMax : Nat := 2

/-- Replies the reply queue holds (R172). -/
def replyQueueMax : Nat := 4

/-- Largest occurrence count of a notice (R179). -/
def noticeCountMax : Nat := 255

/-- Where a saturating counter stops unless its own table gives another limit (R1). -/
def counterMax : Nat := 65535

/-- Where part time holds (R3). -/
def partTimeMax : Nat := 4294967295

/-- Entries of a surge ring (R60). -/
def surgeRingMax : Nat := 16

/-- Records of a history ring (R95). -/
def historyMax : Nat := 8

/-- Largest stage, in cm (Units; R52). -/
def stageMax : Nat := 4095

/-- The raw value of a missing STAGE reading (R51). -/
def missingRaw : Nat := 65535

/-- Where a miss run saturates (R51). -/
def missRunMax : Nat := 15

/-- The TTF or available time that means "none" (Units; R98, R118). -/
def noMinutes : Nat := 65535

/-- Largest TTF or available time that is a time (R98, R118). -/
def minutesMax : Nat := 65534

/-- Fill of a full basin, in per-mille; a fill floor of this value never applies (R81, R119). -/
def fullFill : Nat := 1000

/-- Bounds of a rate, in 10 m³/min (R96, R97). -/
def rateMax : Nat := 32767

/-- Largest travel time, in minutes (R116). -/
def travelMax : Nat := 1440

end Sys2Proof.Config
end

