-- ==== Sys2Proof/Syntax.lean ====
section
/-! DEFINITION. The commands of the part: one constructor per row of spec/opcode_table.json. A row is one indivisible step
(spec/95_what_each_step_holds.md): an event at a pin or on a line, the expiry of a timer, an internal step of a transmitter,
the arbiter or the Evaluation Unit, or the execution of the request at the head of the request queue. What a step needs
from outside the part is its operand; what the part already holds (the frame at a queue's head, the request being executed
with its argument bytes) is read from the state. -/

namespace Sys2Proof

/-- The two line ports (Line Ports and Forwarding). -/
inductive Port
  | u
  | d
  deriving DecidableEq, Repr

/-- What a receiver delivers: a byte whose stop bit was marking, or a byte error (R5). -/
inductive RxItem
  | byte (b : Byte)
  | error
  deriving DecidableEq, Repr

/-- One whole frame: the header fields, the payload and the two check bytes as one word, high byte first (Frame header and
check). The payload length byte is the payload's length. -/
structure Frame where
  dst     : Byte
  src     : Byte
  kind    : Byte
  seq     : Byte
  flags   : Byte
  payload : List Byte
  check   : Half
  deriving DecidableEq, Repr

/-- The strap inputs ADDR7..ADDR0 and RATE1, RATE0 (R4). -/
structure Straps where
  addr : Byte
  rate : BitVec 2
  deriving DecidableEq, Repr

/-- The levels at the part's input pins when it comes out of reset: the straps, and whether each receive line is in the
spacing state (R4, R26). -/
structure Pins where
  straps   : Straps
  uSpacing : Bool
  dSpacing : Bool
  deriving DecidableEq, Repr

/-- The commands, in the order of spec/opcode_table.json. -/
inductive Instr
  /-- POWER_ON (R4). -/
  | powerOn (pins : Pins)
  /-- NRESET_ASSERT (R4). -/
  | nresetAssert
  /-- NRESET_RELEASE (R4). -/
  | nresetRelease (pins : Pins)
  /-- RECEIVE_BYTE (R5 to R9). -/
  | receiveByte (port : Port) (item : RxItem)
  /-- GAP_TIMEOUT (R8). -/
  | gapTimeout (port : Port)
  /-- BREAK_DETECTED (R10). -/
  | breakDetected (port : Port)
  /-- BREAK_END (R10). -/
  | breakEnd (port : Port)
  /-- GOOD_FRAME_U (R9, R11, R14): a whole frame arrives on port U. -/
  | goodFrameU (frame : Frame)
  /-- GOOD_FRAME_D (R9, R11, R15): a whole frame arrives on port D. -/
  | goodFrameD (frame : Frame)
  /-- U_TRANSMIT_START (R18). -/
  | uTransmitStart
  /-- U_TRANSMIT_COMPLETION (R18). -/
  | uTransmitCompletion
  /-- GRANT (R20 to R23). -/
  | grant
  /-- D_TRANSMIT_COMPLETION (R19). -/
  | dTransmitCompletion
  /-- SILENCE_TIMER_EXPIRY (R37). -/
  | silenceTimerExpiry (station : Fin 24)
  /-- SURGE_HOLD_EXPIRY (R105). -/
  | surgeHoldExpiry (barrier : Fin 4)
  /-- EVALUATION_BEGIN (R93). -/
  | evaluationBegin
  /-- BARRIER_EVALUATION_COMPLETION (R94). -/
  | barrierEvaluationCompletion
  /-- EXERCISE_EVALUATION_COMPLETION (R108). -/
  | exerciseEvaluationCompletion
  /-- HOLD_TIMER_EXPIRY (R125). -/
  | holdTimerExpiry (village : Fin 8)
  /-- ACK_TIMER_EXPIRY (R143). -/
  | ackTimerExpiry (village : Fin 8)
  /-- REACH_TIMER_EXPIRY (R144). -/
  | reachTimerExpiry (village : Fin 8)
  /-- REPEAT_TIMER_EXPIRY (R145). -/
  | repeatTimerExpiry (village : Fin 8)
  /-- DURATION_TIMER_EXPIRY (R162). -/
  | durationTimerExpiry
  /-- UNKNOWN_REQUEST (R169). -/
  | unknownRequest
  /-- SET_PART (R176). -/
  | setPart
  /-- STATUS_PART (R178). -/
  | statusPart
  /-- STATUS_LINES (R13). -/
  | statusLines
  /-- CLEAR_COUNTERS (R177). -/
  | clearCounters
  /-- INSPECT_ON (R174). -/
  | inspectOn
  /-- INSPECT_OFF (R174). -/
  | inspectOff
  /-- RESET_EVAL (R182): a RESET request that is not of scope LINES or ALL. -/
  | resetEval
  /-- RESET_LINES (R25, R182). -/
  | resetLines
  /-- RESET_ALL (R183); the straps as they stand when it executes. -/
  | resetAll (straps : Straps)
  /-- LOAD_STATION (R27). -/
  | loadStation
  /-- RETIRE_STATION (R30). -/
  | retireStation
  /-- READ_STATION (R41). -/
  | readStation
  /-- LOAD_CHANNEL (R46). -/
  | loadChannel
  /-- REARM_WIRE (R64). -/
  | rearmWire
  /-- READ_CHANNEL (R65). -/
  | readChannel
  /-- LOAD_PATTERN (R155). -/
  | loadPattern
  /-- READ_PATTERN (R157). -/
  | readPattern
  /-- LOAD_STAGE_POINTS (R71). -/
  | loadStagePoints
  /-- READ_STAGE_POINTS (R76). -/
  | readStagePoints
  /-- LOAD_BARRIER (R84). -/
  | loadBarrier
  /-- BARRIER_HOLD (R85). -/
  | barrierHold
  /-- BARRIER_RUN (R86). -/
  | barrierRun
  /-- READ_BARRIER (R109). -/
  | readBarrier
  /-- STATUS_BARRIER (R109). -/
  | statusBarrier
  /-- LOAD_VILLAGE (R113). -/
  | loadVillage
  /-- LOAD_ROUTE (R116). -/
  | loadRoute
  /-- MASK_VILLAGE (R117). -/
  | maskVillage
  /-- RELEASE_BREACH (R126). -/
  | releaseBreach
  /-- READ_VILLAGE (R132). -/
  | readVillage
  /-- STATUS_VILLAGE (R132). -/
  | statusVillage
  /-- EXERCISE_BEGIN (R159). -/
  | exerciseBegin
  /-- EXERCISE_SYNC (R161). -/
  | exerciseSync
  /-- EXERCISE_END (R164). -/
  | exerciseEnd
  /-- WHOLE_SECOND_BOUNDARY (R3). -/
  | wholeSecondBoundary
  deriving DecidableEq, Repr

end Sys2Proof
end

