-- ==== Sys2Proof/Decode.lean ====
section
/-! DEFINITION. The decoder of opcode-table words. No row of spec/opcode_table.json gives bits (its rows are events and
requests, not encodings), so no word spells a command. The bytes of a request are read where the request is executed
(Machine/Operands.lean). -/

namespace Sys2Proof

/-- The command that a word of opcode-table bits spells: none, since no row of the table gives bits. -/
def decodeTableWord (nbits w : Nat) : Option Instr :=
  match nbits, w with
  | _, _ => none

end Sys2Proof
end

