-- ==== Sys2Proof/Machine/Check.lean ====
section
/-! DEFINITION. The check of a frame (R185), the bytes of a frame on the line (R17, Frame header and check), the frame flags
(Frame header and check) and the codes of the frame kinds. -/

namespace Sys2Proof.Machine

/-- One step of the check register: shift left, and exclusive-or with 0x1021 if the top bit was 1 (R185). -/
def checkStep (r : Half) : Half :=
  if r.getLsbD 15 then (r <<< 1) ^^^ 0x1021 else r <<< 1

/-- One byte enters the check register: exclusive-or into the high 8 bits, then eight steps (R185). -/
def checkByte (r : Half) (b : Byte) : Half :=
  Nat.repeat checkStep 8 (r ^^^ (b.setWidth 16 <<< 8))

/-- The start value of the check register (R185). -/
def checkStart : Half := 0xFFFF

/-- The check over a list of bytes (R185). -/
def checkOf (bytes : List Byte) : Half := bytes.foldl checkByte checkStart

/-- The high byte of a 16-bit word, sent first (R185, R186). -/
def highByte (w : Half) : Byte := (w >>> 8).setWidth 8

/-- The low byte of a 16-bit word. -/
def lowByte (w : Half) : Byte := w.setWidth 8

/-- The 16-bit word of two bytes, high byte first (R186). -/
def wordOf (hi lo : Byte) : Half := hi ++ lo

end Sys2Proof.Machine

namespace Sys2Proof

/-- The payload length byte of a frame. -/
def Frame.length (f : Frame) : Byte := BitVec.ofNat 8 f.payload.length

/-- The bytes the check covers: destination through the last payload byte (R185). -/
def Frame.covered (f : Frame) : List Byte :=
  [f.dst, f.src, f.kind, f.seq, f.flags, f.length] ++ f.payload

/-- A frame as it goes over the line, preamble first (R17). -/
def Frame.bytes (f : Frame) : List Byte :=
  Config.preamble :: f.covered ++ [Machine.highByte f.check, Machine.lowByte f.check]

/-- How long a frame takes on the line, in byte times (R17, R19). -/
def Frame.byteTimes (f : Frame) : Nat := 9 + f.payload.length

/-- A frame whose length is within the limit of R7. -/
def Frame.withinLength (f : Frame) : Bool := decide (f.payload.length ≤ Config.maxPayload)

/-- A frame whose check bytes match its fields (R9, R185). -/
def Frame.checkMatches (f : Frame) : Bool := f.check == Machine.checkOf f.covered

/-- A good frame is one received whole, within length, with a matching check (Overview, Frames). -/
def Frame.good (f : Frame) : Bool := f.withinLength && f.checkMatches

/-- The EXERCISE flag, bit 0 (Frame header and check). -/
def Frame.exerciseFlag (f : Frame) : Bool := f.flags.getLsbD 0

/-- The QUIET flag, bit 1. -/
def Frame.quietFlag (f : Frame) : Bool := f.flags.getLsbD 1

/-- The AFTER_EVAL flag, bit 2. -/
def Frame.afterEvalFlag (f : Frame) : Bool := f.flags.getLsbD 2

end Sys2Proof

namespace Sys2Proof.Machine

/-- Kind codes of the frames (Frame header and check, kind table). -/
def kindSample : Byte := 0x10
/-- ALERT. -/
def kindAlert : Byte := 0x20
/-- ALERT_ACK. -/
def kindAlertAck : Byte := 0x21
/-- REQUEST. -/
def kindRequest : Byte := 0x30
/-- REPLY. -/
def kindReply : Byte := 0x31
/-- NOTICE. -/
def kindNotice : Byte := 0x32

/-- A frame the part builds: the check is computed over the fields fixed at the grant (R22, R185). -/
def buildFrame (dst src kind seq flags : Byte) (payload : List Byte) : Frame :=
  let f : Frame := ⟨dst, src, kind, seq, flags, payload, 0⟩
  { f with check := checkOf f.covered }

end Sys2Proof.Machine
end

