-- ==== Sys2Proof/Machine/Records.lean ====
section
/-! DEFINITION. The records of the part, chapter by chapter: what each block's records hold. Fields the spec derives from
others (a barrier's quality and evaluation state, a channel's role, the due list) have no field here: they are computed in
Machine/Views.lean, so that each fact has one home. -/

namespace Sys2Proof.Machine

/-- A timer of whole seconds: `none` while stopped, otherwise the whole-second boundaries that remain before it expires;
`some 0` is a timer whose expiry is due now (Part time and timers). -/
abbrev Timer := Option Nat

/-! ### Line ports (chapter 1) -/

/-- Port states (R11); a DOWN port keeps the part time at which it entered DOWN. -/
inductive PortState
  | waiting
  | up
  | down (since : Nat)
  deriving DecidableEq, Repr

/-- Break states (R10). -/
inductive BreakState
  | marking
  | spacing
  | broken
  deriving DecidableEq, Repr

/-- The header fields of a frame in reception (R7). -/
structure Header where
  dst   : Byte
  src   : Byte
  kind  : Byte
  seq   : Byte
  flags : Byte
  deriving DecidableEq, Repr

/-- Receive states with the frame in reception (R6 to R9): the bytes taken so far and the check in progress. Outside HUNT
the gap timer of R8 runs. -/
inductive RxState
  | hunt
  | header (got : List Byte) (crc : Half)
  | payload (h : Header) (length : Nat) (got : List Byte) (crc : Half)
  | check (h : Header) (payload : List Byte) (crc : Half) (high : Option Byte)
  deriving DecidableEq, Repr

/-- The record of one port, its receive side and its counters (Port record). Its transmit side is in `Line`. -/
structure PortRec where
  state   : PortState
  rx      : RxState
  brk     : BreakState
  good    : Nat
  check   : Nat
  framing : Nat
  breaks  : Nat
  drops   : Nat
  deriving DecidableEq, Repr

/-- The last grant kind (R21). -/
inductive GrantKind
  | none
  | forward
  | other
  deriving DecidableEq, Repr

/-- Alert levels, lowest first (Alert levels and causes). -/
inductive Level
  | clear
  | watch
  | warn
  | evacuate
  | breach
  deriving DecidableEq, Repr

/-- Causes of a level, in code order (Code values). -/
inductive Cause
  | projection
  | fill
  | surge
  | blind
  | held
  | wire
  | overtop
  | allClear
  deriving DecidableEq, Repr

/-- Alert content: a level and the EXERCISE mark (Announcements, Content). -/
structure Content where
  level  : Level
  marked : Bool
  deriving DecidableEq, Repr

/-- What the frame on D-tx is. An ALERT keeps its village and the offered content and open offer that its record held
before the grant, which a cut restores (R142). -/
inductive DOrigin
  | forward
  | alert (village : Fin 8) (offered : Option Content) (openOffer : Bool)
  | reply
  | notice
  deriving DecidableEq, Repr

/-- The frame in transmission on D-tx (R19). -/
structure DTransmission where
  frame  : Frame
  origin : DOrigin
  deriving DecidableEq, Repr

/-- Ports, forward queues, transmitters and arbiter (chapter 1). A transmitter is IDLE while it holds no frame. -/
structure Line where
  u         : PortRec
  d         : PortRec
  ud        : List Frame
  du        : List Frame
  uTx       : Option Frame
  dTx       : Option DTransmission
  originSeq : Byte
  lastGrant : GrantKind
  deriving DecidableEq, Repr

/-! ### Stations (chapter 2) -/

/-- Station states; a SILENT station keeps the part time at which it fell silent (R37). -/
inductive StationState
  | unknown
  | live
  | late
  | silent (since : Nat)
  | retired
  deriving DecidableEq, Repr

/-- Station record (R27 to R40). -/
structure Station where
  inUse     : Bool
  addr      : Byte
  slots     : Vector (Option (Fin 48)) 8
  timeout   : Nat
  state     : StationState
  timer     : Timer
  lastSeq   : Option Byte
  accepted  : Nat
  duplicate : Nat
  gap       : Nat
  malformed : Nat
  deriving DecidableEq, Repr

/-! ### Channels and patterns (chapters 3 and 8) -/

/-- Channel kinds. -/
inductive ChannelKind
  | stage
  | surge
  | wire
  deriving DecidableEq, Repr

/-- One conditioning path of a STAGE channel (The STAGE chain). The averaging ring is oldest first. -/
structure StagePath where
  valid    : Bool
  previous : Option Nat
  spikeRun : Nat
  missRun  : Nat
  ring     : List Nat
  latest   : Option Nat
  clamped  : Bool
  deriving DecidableEq, Repr

/-- The most recent reading of a WIRE channel. -/
inductive WireReading
  | intact
  | broken
  deriving DecidableEq, Repr

/-- Channel record: settings, both STAGE paths, and the SURGE and WIRE state. `eligible` is the source field, `valid` the
validity of a SURGE or WIRE channel; the surge ring holds (part time, count), oldest first. -/
structure Channel where
  inUse          : Bool
  enabled        : Bool
  kind           : ChannelKind
  barrier        : Option (Fin 4)
  eligible       : Bool
  gain           : Nat
  offset         : Int
  invert         : Bool
  slew           : Nat
  spikeAccept    : Nat
  window         : Nat
  missLimit      : Nat
  surgeWindow    : Nat
  surgeThreshold : Nat
  real           : StagePath
  exer           : StagePath
  surgeRing      : List (Nat × Nat)
  windowSum      : Nat
  surging        : Bool
  valid          : Bool
  latch          : Bool
  lastReading    : Option WireReading
  deriving DecidableEq, Repr

/-- Pattern kinds (Pattern records). -/
inductive PatternKind
  | none
  | ramp
  | alternate
  | prbs
  deriving DecidableEq, Repr

/-- Pattern record: settings and running state (Pattern records). `phaseB` says that the next ALTERNATE yield is value B. -/
structure Pattern where
  kind   : PatternKind
  start  : Half
  step   : Int
  valueA : Half
  valueB : Half
  seed   : Half
  ramp   : Half
  phaseB : Bool
  gen    : Half
  yields : Nat
  deriving DecidableEq, Repr

/-! ### Tables and barriers (chapters 4 and 5) -/

/-- A stage–storage point. -/
structure Point where
  stage  : Nat
  volume : Nat
  deriving DecidableEq, Repr

/-- Reasons of an INVALID verdict (R74). -/
inductive TableReason
  | count
  | origin
  | stageOrder
  | volumeOrder
  | capacity
  deriving DecidableEq, Repr

/-- The verdict with what is present only under it: crest stage and capacity of a VALID table, reason and reason point of an
INVALID one (Table record). -/
inductive Verdict
  | unchecked
  | valid (crest capacity : Nat)
  | invalid (reason : TableReason) (point : Option Nat)
  deriving DecidableEq, Repr

/-- Stage–storage table record. -/
structure Table where
  count   : Nat
  points  : Vector Point 16
  verdict : Verdict
  deriving DecidableEq, Repr

/-- Barrier states. -/
inductive BarrierState
  | unloaded
  | loading
  | active
  deriving DecidableEq, Repr

/-- Vote qualities (R88). -/
inductive VoteQuality
  | good
  | degraded
  | blind
  deriving DecidableEq, Repr

/-- The estimate of a barrier or of the exercise (R94 to R99). -/
structure Estimate where
  volume   : Nat
  fill     : Nat
  ownRate  : Int
  effRate  : Nat
  ttf      : Nat
  above    : Bool
  rated    : Bool
  deriving DecidableEq, Repr

/-- A history record: part time and volume (R95). -/
structure HistoryRec where
  time   : Nat
  volume : Nat
  deriving DecidableEq, Repr

/-- Barrier record. `wire` and `overtop` are its breach causes. The history ring is oldest first. -/
structure Barrier where
  state        : BarrierState
  rateWindow   : Nat
  watchFill    : Nat
  warnFill     : Nat
  surgeHold    : Nat
  overtopBreach : Bool
  validCount   : Nat
  voteQuality  : Option VoteQuality
  lastStage    : Option Nat
  estimate     : Option Estimate
  history      : List HistoryRec
  surgeFlag    : Bool
  surgeTimer   : Timer
  wire         : Bool
  overtop      : Bool
  superseded   : Nat
  deriving DecidableEq, Repr

/-- Who an evaluation is for (Evaluation queue). -/
inductive EvalOwner
  | barrier (k : Fin 4)
  | exercise
  deriving DecidableEq, Repr

/-- An entry of the evaluation queue (R91). -/
structure EvalEntry where
  owner : EvalOwner
  stage : Nat
  deriving DecidableEq, Repr

/-- The evaluation in flight: its owner and its snapshot (R93). -/
structure Flight where
  owner   : EvalOwner
  stage   : Nat
  table   : Table
  history : List HistoryRec
  carried : Nat
  now     : Nat
  deriving DecidableEq, Repr

/-- The exercise estimate record (R108). -/
structure ExerciseRec where
  estimate   : Option Estimate
  history    : List HistoryRec
  validCount : Nat
  lastStage  : Option Nat
  superseded : Nat
  deriving DecidableEq, Repr

/-! ### Villages and dispatch (chapters 6 and 7) -/

/-- Acknowledgement modes. -/
inductive AckMode
  | confirmed
  | unconfirmed
  deriving DecidableEq, Repr

/-- A mask: a subset of WATCH, WARN, EVACUATE (R117). -/
structure Mask where
  watch    : Bool
  warn     : Bool
  evacuate : Bool
  deriving DecidableEq, Repr

/-- A route entry; its barrier is its place among the village's routes. -/
structure Route where
  travel    : Nat
  level     : Level
  cause     : Cause
  available : Nat
  fill      : Option Nat
  held      : Level
  deriving DecidableEq, Repr

/-- Village record. Routes are indexed by barrier, so there is at most one per barrier. -/
structure Village where
  inUse          : Bool
  addr           : Byte
  evac           : Nat
  warn           : Nat
  watch          : Nat
  holdTime       : Nat
  ackMode        : AckMode
  ackTimeout     : Nat
  retryLimit     : Nat
  reachInterval  : Nat
  repeatInterval : Nat
  permit         : Bool
  mask           : Mask
  routes         : Vector (Option Route) 4
  computed       : Level
  decBarrier     : Option (Fin 4)
  decCause       : Cause
  decAvailable   : Nat
  decFill        : Option Nat
  announced      : Level
  holdTimer      : Timer
  latch          : Bool
  exComputed     : Level
  exAnnounced    : Level
  exCause        : Cause
  exAvailable    : Nat
  deriving DecidableEq, Repr

/-- Due reasons (Dispatch record). -/
inductive DueReason
  | change
  | retry
  | reach
  | repeated
  deriving DecidableEq, Repr

/-- Dispatch states, with what is present only while DUE. -/
inductive DispatchState
  | quiet
  | due (reason : DueReason) (time : Nat) (pending : Content)
  | await
  | unreached
  deriving DecidableEq, Repr

/-- What the ladder handed the dispatcher last for a village (R127, R135). -/
structure HandOn where
  announced   : Level
  exAnnounced : Level
  mask        : Mask
  permit      : Bool
  deriving DecidableEq, Repr

/-- Dispatch record. `current` and `suppressed` are the current content and current suppression. -/
structure Dispatch where
  state          : DispatchState
  onLine         : Bool
  handed         : HandOn
  current        : Content
  suppressed     : Bool
  offered        : Option Content
  openOffer      : Bool
  delivered      : Content
  retry          : Nat
  ackTimer       : Timer
  reachTimer     : Timer
  repeatTimer    : Timer
  unreachedSince : Option Nat
  stale          : Nat
  deriving DecidableEq, Repr

/-! ### Session and Request Unit (chapters 8 and 9) -/

/-- Why a session ended (Session record), in code order. -/
inductive EndReason
  | none
  | ended
  | expired
  | ceiling
  | surge
  | breach
  | barrierLeft
  | reset
  deriving DecidableEq, Repr

/-- Session record. -/
structure Session where
  active    : Bool
  barrier   : Option (Fin 4)
  start     : Option Nat
  timer     : Timer
  endReason : EndReason
  endTime   : Option Nat
  deriving DecidableEq, Repr

/-- Notice kinds (The notice set). -/
inductive NoticeKind
  | unconfigured
  | lineDown
  | lineUp
  | stationSilent
  | stationBack
  | barrierBlind
  | villageUnreached
  | villageReached
  | exerciseEnded
  | breachRaised
  deriving DecidableEq, Repr

/-- An entry of the notice set (R179). -/
structure Notice where
  kind      : NoticeKind
  subject   : Nat
  value     : Nat
  count     : Nat
  firstPost : Nat
  deriving DecidableEq, Repr

/-- Outcomes of a request, in code order (Code values). -/
inductive ReqOutcome
  | done
  | locked
  | notManager
  | inspecting
  | badIndex
  | badValue
  | wrongState
  | tableInvalid
  deriving DecidableEq, Repr

/-- A request as the queue keeps it: source, code, target index, QUIET and AFTER_EVAL flags and argument bytes as received
(Request Unit state). -/
structure Request where
  src       : Byte
  code      : Byte
  target    : Byte
  quiet     : Bool
  afterEval : Bool
  args      : List Byte
  deriving DecidableEq, Repr

/-- The event a long-running request waits for (R170): BARRIER_RUN its barrier's first completion, a barrier read under
AFTER_EVAL the barrier's next completion or change to IDLE. -/
inductive Wait
  | run (k : Fin 4)
  | read (k : Fin 4)
  | status (k : Fin 4)
  deriving DecidableEq, Repr

/-- A reply, fixed when it is made (Request Unit state). -/
structure Reply where
  dst     : Byte
  code    : Byte
  target  : Byte
  outcome : ReqOutcome
  data    : List Byte
  deriving DecidableEq, Repr

/-- Part settings record (R175). -/
structure PartSettings where
  report     : Option Byte
  managers   : List Byte
  ceiling    : Nat
  duration   : Nat
  inspecting : Bool
  deriving DecidableEq, Repr

/-- Request Unit: queues, the long-running request's wait, settings and discarded replies (Request Unit state). The notice
set is in `Plant`, beside the blocks that post into it. -/
structure Mgmt where
  requests  : List Request
  executing : Option Wait
  replies   : List Reply
  settings  : PartSettings
  discarded : Nat
  deriving DecidableEq, Repr

/-- The measuring, judging and announcing blocks: part time, Station Table, Channel Conditioner, Stage Table Store, Barrier
Estimator with its queue and Evaluation Unit, Village Alert Ladder, Announcement Dispatcher, Exercise Unit, and the notice
set they post into. The steps inside these blocks are functions of this record alone, so they change no port, forward
queue, transmitter, request, reply or part setting. -/
structure Plant where
  now       : Nat
  stations  : Vector Station 24
  channels  : Vector Channel 48
  patterns  : Vector Pattern 48
  tables    : Vector Table 4
  barriers  : Vector Barrier 4
  evalQueue : List EvalEntry
  flight    : Option Flight
  exercise  : ExerciseRec
  villages  : Vector Village 8
  dispatch  : Vector Dispatch 8
  session   : Session
  notices   : List Notice
  deriving DecidableEq, Repr

end Sys2Proof.Machine
end

