-- ==== Sys2Proof/Machine/Cleared.lean ====
section
/-! DEFINITION. Every record in the value a full reset gives it: the reset rule of each chapter, and the defaults of its
tables of limits. -/

namespace Sys2Proof.Machine

/-- A port after a full reset; its break state follows the line as it stands (R26). -/
def PortRec.cleared (spacing : Bool) : PortRec :=
  { state := .waiting, rx := .hunt, brk := if spacing then .spacing else .marking,
    good := 0, check := 0, framing := 0, breaks := 0, drops := 0 }

/-- Ports, queues, transmitters and arbiter after a full reset (R26). -/
def Line.cleared (uSpacing dSpacing : Bool) : Line :=
  { u := .cleared uSpacing, d := .cleared dSpacing, ud := [], du := [], uTx := none, dTx := none,
    originSeq := 0, lastGrant := .none }

/-- A cleared station record (R29, R45). -/
def Station.cleared : Station :=
  { inUse := false, addr := 0, slots := Vector.replicate 8 none, timeout := 300, state := .unknown, timer := none,
    lastSeq := none, accepted := 0, duplicate := 0, gap := 0, malformed := 0 }

/-- A STAGE path with all its state cleared and INVALID (R58). -/
def StagePath.cleared : StagePath :=
  { valid := false, previous := none, spikeRun := 0, missRun := 0, ring := [], latest := none, clamped := false }

/-- A cleared channel record (R48, R69); the settings are the defaults of the channel table of limits. That table has no
row for invert, which is no (DESIGN CHOICE, log entry 22). -/
def Channel.cleared : Channel :=
  { inUse := false, enabled := false, kind := .stage, barrier := none, eligible := false, gain := 4096, offset := 0,
    invert := false, slew := 0, spikeAccept := 3, window := 1, missLimit := 3, surgeWindow := 60, surgeThreshold := 1,
    real := .cleared, exer := .cleared, surgeRing := [], windowSum := 0, surging := false, valid := false, latch := false,
    lastReading := none }

/-- A pattern record after a full reset (R154). -/
def Pattern.cleared : Pattern :=
  { kind := .none, start := 0, step := 0, valueA := 0, valueB := 0, seed := 1, ramp := 0, phaseB := false, gen := 1,
    yields := 0 }

/-- A cleared table record (R70). -/
def Table.cleared : Table :=
  { count := 0, points := Vector.replicate 16 ⟨0, 0⟩, verdict := .unchecked }

/-- A barrier record after a full reset (R111; barrier table of limits). -/
def Barrier.cleared : Barrier :=
  { state := .unloaded, rateWindow := 600, watchFill := 1000, warnFill := 1000, surgeHold := 30, overtopBreach := false,
    validCount := 0, voteQuality := none, lastStage := none, estimate := none, history := [], surgeFlag := false,
    surgeTimer := none, wire := false, overtop := false, superseded := 0 }

/-- The exercise estimate record after a full reset (R108, R111). -/
def ExerciseRec.cleared : ExerciseRec :=
  { estimate := none, history := [], validCount := 0, lastStage := none, superseded := 0 }

/-- The empty mask (R112). -/
def Mask.empty : Mask := { watch := false, warn := false, evacuate := false }

/-- A cleared village record (R112; village table of limits). -/
def Village.cleared : Village :=
  { inUse := false, addr := 0, evac := 30, warn := 60, watch := 120, holdTime := 20, ackMode := .confirmed,
    ackTimeout := 10, retryLimit := 3, reachInterval := 300, repeatInterval := 120, permit := false, mask := .empty,
    routes := Vector.replicate 4 none, computed := .clear, decBarrier := none, decCause := .projection,
    decAvailable := 65535, decFill := none, announced := .clear, holdTimer := none, latch := false, exComputed := .clear,
    exAnnounced := .clear, exCause := .projection, exAvailable := 65535 }

/-- The content (CLEAR, unmarked). -/
def Content.clear : Content := { level := .clear, marked := false }

/-- The hand-on of a village that has handed nothing on yet: its cleared levels (R112, R152). -/
def HandOn.cleared : HandOn :=
  { announced := .clear, exAnnounced := .clear, mask := .empty, permit := false }

/-- A cleared dispatch record (R150, R152). -/
def Dispatch.cleared : Dispatch :=
  { state := .quiet, onLine := false, handed := .cleared, current := .clear, suppressed := false, offered := none,
    openOffer := false, delivered := .clear, retry := 0, ackTimer := none, reachTimer := none, repeatTimer := none,
    unreachedSince := none, stale := 0 }

/-- The session record after a full reset (R158). -/
def Session.cleared : Session :=
  { active := false, barrier := none, start := none, timer := none, endReason := .none, endTime := none }

/-- The part settings record after a full reset (R175). -/
def PartSettings.cleared : PartSettings :=
  { report := none, managers := [], ceiling := 300, duration := 60, inspecting := false }

/-- The Request Unit after a full reset (R184). -/
def Mgmt.cleared : Mgmt :=
  { requests := [], executing := none, replies := [], settings := .cleared, discarded := 0 }

/-- The notice a full reset posts: UNCONFIGURED with subject 0 and the address strap value, at part time 0 (R184). -/
def unconfiguredNotice (strap : Byte) : Notice :=
  { kind := .unconfigured, subject := 0, value := strap.toNat, count := 1, firstPost := 0 }

/-- The measuring, judging and announcing blocks after a full reset, with UNCONFIGURED posted (R3, R45, R69, R70, R111,
R112, R152, R154, R158, R184). -/
def Plant.afterReset (strap : Byte) : Plant :=
  { now := 0, stations := Vector.replicate 24 .cleared, channels := Vector.replicate 48 .cleared,
    patterns := Vector.replicate 48 .cleared, tables := Vector.replicate 4 .cleared,
    barriers := Vector.replicate 4 .cleared, evalQueue := [], flight := none, exercise := .cleared,
    villages := Vector.replicate 8 .cleared, dispatch := Vector.replicate 8 .cleared, session := .cleared,
    notices := [unconfiguredNotice strap] }

end Sys2Proof.Machine
end

