-- ==== Sys2Proof/Machine/State.lean ====
section
/-! DEFINITION. The state of the part, the reasons a step can stop, and the state after reset. -/

namespace Sys2Proof.Machine

/-- The part: whether nRESET is held low, the straps as sampled at the last full reset, the line side, the measuring,
judging and announcing blocks, the Request Unit, and the queue of commands that wait, first in, first out. -/
structure State where
  nresetLow : Bool
  straps    : Straps
  line      : Line
  plant     : Plant
  mgmt      : Mgmt
  pending   : List Instr
  deriving DecidableEq, Repr

/-- Reasons for a fault. The spec names no command that stops the part, and no meaning faults. -/
inductive Fault
  /-- A step to which the spec gives no effect. Raised by no meaning: every row of the table has an effect, or the spec
  says that it changes nothing, in every state. Safe: no run ends in it. -/
  | unspecified
  deriving DecidableEq, Repr

/-- Reasons for a refusal. -/
inductive Refusal
  /-- Raised by exec alone, for a row that has no meaning yet (no row, at present). Safe: the model stops. -/
  | notModelled (mnemonic : String)
  deriving DecidableEq, Repr

/-- The strap pins at power-on with nothing connected: the internal pull-downs read 0 (Pins and electrical summary).
DESIGN CHOICE, log entry 1. -/
def openStraps : Straps := { addr := 0, rate := 0 }

/-- The part right after power-on with open strap pins and both receive lines marking: every block in its full-reset state
and UNCONFIGURED posted (R4, R184). DESIGN CHOICE for the pins, log entry 1. -/
def State.reset : State :=
  { nresetLow := false, straps := openStraps, line := .cleared false false, plant := .afterReset openStraps.addr,
    mgmt := .cleared, pending := [] }

end Sys2Proof.Machine
end

