-- ==== Sys2Proof/Machine/Flags.lean ====
section
/-! DEFINITION. The code values of levels, causes, states, qualities, outcomes and kinds (Frame and Record Layouts, Code
values), and the order of alert levels that their codes carry (Alert levels and causes). -/

namespace Sys2Proof.Machine

/-- The code of a level; the order of levels is the order of codes (Alert levels and causes). -/
def Level.code : Level → Nat
  | .clear => 0
  | .watch => 1
  | .warn => 2
  | .evacuate => 3
  | .breach => 4

/-- The level of a code, if it is one (R146). -/
def Level.ofCode : Nat → Option Level
  | 0 => some .clear
  | 1 => some .watch
  | 2 => some .warn
  | 3 => some .evacuate
  | 4 => some .breach
  | _ => none

/-- The level one step higher; BREACH has none above it. -/
def Level.up : Level → Level
  | .clear => .watch
  | .watch => .warn
  | .warn => .evacuate
  | .evacuate => .breach
  | .breach => .breach

/-- The level one step lower; CLEAR has none below it. -/
def Level.down : Level → Level
  | .clear => .clear
  | .watch => .clear
  | .warn => .watch
  | .evacuate => .warn
  | .breach => .evacuate

/-- The higher of two levels (R1). -/
def Level.higher (a b : Level) : Level := if a.code < b.code then b else a

/-- Cause codes. -/
def Cause.code : Cause → Nat
  | .projection => 0
  | .fill => 1
  | .surge => 2
  | .blind => 3
  | .held => 4
  | .wire => 5
  | .overtop => 6
  | .allClear => 7

/-- Outcome codes. -/
def ReqOutcome.code : ReqOutcome → Nat
  | .done => 0
  | .locked => 1
  | .notManager => 2
  | .inspecting => 3
  | .badIndex => 4
  | .badValue => 5
  | .wrongState => 6
  | .tableInvalid => 7

/-- Notice kind codes; 0 is unused. -/
def NoticeKind.code : NoticeKind → Nat
  | .unconfigured => 1
  | .lineDown => 2
  | .lineUp => 3
  | .stationSilent => 4
  | .stationBack => 5
  | .barrierBlind => 6
  | .villageUnreached => 7
  | .villageReached => 8
  | .exerciseEnded => 9
  | .breachRaised => 10

/-- End reason codes. -/
def EndReason.code : EndReason → Nat
  | .none => 0
  | .ended => 1
  | .expired => 2
  | .ceiling => 3
  | .surge => 4
  | .breach => 5
  | .barrierLeft => 6
  | .reset => 7

/-- Port state codes. -/
def PortState.code : PortState → Nat
  | .waiting => 0
  | .up => 1
  | .down _ => 2

/-- Station state codes. -/
def StationState.code : StationState → Nat
  | .unknown => 0
  | .live => 1
  | .late => 2
  | .silent _ => 3
  | .retired => 4

/-- Channel kind codes; the role of a channel with a barrier has the same code (LEVEL, SURGE, BREACH_WIRE). -/
def ChannelKind.code : ChannelKind → Nat
  | .stage => 0
  | .surge => 1
  | .wire => 2

/-- Pattern kind codes. -/
def PatternKind.code : PatternKind → Nat
  | .none => 0
  | .ramp => 1
  | .alternate => 2
  | .prbs => 3

/-- Barrier state codes. -/
def BarrierState.code : BarrierState → Nat
  | .unloaded => 0
  | .loading => 1
  | .active => 2

/-- Codes of a vote quality; the quality NONE is 3 and the vote quality none is 255. -/
def VoteQuality.code : VoteQuality → Nat
  | .good => 0
  | .degraded => 1
  | .blind => 2

/-- Verdict codes. -/
def Verdict.code : Verdict → Nat
  | .unchecked => 0
  | .valid _ _ => 1
  | .invalid _ _ => 2

/-- Reason codes; NONE is 0. -/
def TableReason.code : TableReason → Nat
  | .count => 1
  | .origin => 2
  | .stageOrder => 3
  | .volumeOrder => 4
  | .capacity => 5

/-- The reason of a verdict, NONE unless INVALID (Table record). -/
def Verdict.reasonCode : Verdict → Nat
  | .invalid r _ => r.code
  | _ => 0

/-- The reason point of a verdict, if any. -/
def Verdict.reasonPoint : Verdict → Option Nat
  | .invalid _ p => p
  | _ => none

/-- Crest stage and capacity, present only while VALID (R75). -/
def Verdict.crest? : Verdict → Option (Nat × Nat)
  | .valid crest capacity => some (crest, capacity)
  | _ => none

/-- Dispatch state codes. -/
def DispatchState.code : DispatchState → Nat
  | .quiet => 0
  | .due _ _ _ => 1
  | .await => 2
  | .unreached => 3

/-- Due reason codes. -/
def DueReason.code : DueReason → Nat
  | .change => 0
  | .retry => 1
  | .reach => 2
  | .repeated => 3

/-- Acknowledgement mode codes. -/
def AckMode.code : AckMode → Nat
  | .confirmed => 0
  | .unconfirmed => 1

/-- yes/no and similar two-valued fields: 1 for yes (R186). -/
def boolCode (b : Bool) : Nat := if b then 1 else 0

/-- A mask holds a level (R117); CLEAR and BREACH are in no mask. -/
def Mask.holds (m : Mask) : Level → Bool
  | .watch => m.watch
  | .warn => m.warn
  | .evacuate => m.evacuate
  | .clear | .breach => false

/-- A mask as its byte: the bit of a level is its code (Request codes and arguments, note 1). Bits 7..5, which
name no level, are sent 0 (DESIGN CHOICE, log entry 25). -/
def Mask.code (m : Mask) : Nat := 2 * boolCode m.watch + 4 * boolCode m.warn + 8 * boolCode m.evacuate

/-- A content byte: the mark in bit 7, the level code in bits 2..0 (R186). R186 gives bits 6..3 no field; they are sent 0 (DESIGN
CHOICE, log entry 25). -/
def Content.code (c : Content) : Nat := 128 * boolCode c.marked + c.level.code

/-- The line rate in bit/s of the RATE straps (Straps and reset pin). -/
def lineRate (rate : BitVec 2) : Nat := 9600 * 2 ^ rate.toNat

end Sys2Proof.Machine
end

