-- ==== Sys2Proof/Machine/Views.lean ====
section
/-! DEFINITION. Reading and writing one record of the plant, timers, and the fields the spec derives from others: channel
roles and lists (R49), the quality of a barrier (R90), evaluation states (R93), the own address (R4), the session barrier of
a running session. -/

namespace Sys2Proof.Machine

/-! ### Timers (Part time and timers) -/

/-- A timer started for `n` seconds. -/
def Timer.start (n : Nat) : Timer := some n

/-- A timer started for `n` minutes: 60 × `n` seconds. -/
def Timer.startMin (n : Nat) : Timer := some (60 * n)

/-- A timer is running. -/
def Timer.running (t : Timer) : Bool := t.isSome

/-- A timer is due: it runs and its last whole-second boundary has come. -/
def Timer.due (t : Timer) : Bool := t == some 0

/-- Seconds left, 0 if stopped (R186). -/
def Timer.left (t : Timer) : Nat := t.getD 0

/-- A whole-second boundary passes. -/
def Timer.tick (t : Timer) : Timer := t.map (· - 1)

/-! ### Records of the plant -/

/-- Station record `i`. -/
def Plant.station (p : Plant) (i : Fin 24) : Station := p.stations.get i
/-- Channel record `c`. -/
def Plant.channel (p : Plant) (c : Fin 48) : Channel := p.channels.get c
/-- Pattern record `c`. -/
def Plant.pattern (p : Plant) (c : Fin 48) : Pattern := p.patterns.get c
/-- Table record `k`. -/
def Plant.table (p : Plant) (k : Fin 4) : Table := p.tables.get k
/-- Barrier record `k`. -/
def Plant.barrier (p : Plant) (k : Fin 4) : Barrier := p.barriers.get k
/-- Village record `v`. -/
def Plant.village (p : Plant) (v : Fin 8) : Village := p.villages.get v
/-- Dispatch record `v`. -/
def Plant.disp (p : Plant) (v : Fin 8) : Dispatch := p.dispatch.get v

/-- Write station record `i`. -/
def Plant.setStation (p : Plant) (i : Fin 24) (r : Station) : Plant := { p with stations := p.stations.set i.1 r i.2 }
/-- Write channel record `c`. -/
def Plant.setChannel (p : Plant) (c : Fin 48) (r : Channel) : Plant := { p with channels := p.channels.set c.1 r c.2 }
/-- Write pattern record `c`. -/
def Plant.setPattern (p : Plant) (c : Fin 48) (r : Pattern) : Plant := { p with patterns := p.patterns.set c.1 r c.2 }
/-- Write table record `k`. -/
def Plant.setTable (p : Plant) (k : Fin 4) (r : Table) : Plant := { p with tables := p.tables.set k.1 r k.2 }
/-- Write barrier record `k`. -/
def Plant.setBarrier (p : Plant) (k : Fin 4) (r : Barrier) : Plant := { p with barriers := p.barriers.set k.1 r k.2 }
/-- Write village record `v`. -/
def Plant.setVillage (p : Plant) (v : Fin 8) (r : Village) : Plant := { p with villages := p.villages.set v.1 r v.2 }
/-- Write dispatch record `v`. -/
def Plant.setDisp (p : Plant) (v : Fin 8) (r : Dispatch) : Plant := { p with dispatch := p.dispatch.set v.1 r v.2 }

/-- Every record of a table rewritten. -/
def mapAll {α β : Type} {n : Nat} (v : Vector α n) (f : α → β) : Vector β n := Vector.ofFn fun i => f (v.get i)

/-! ### Derived fields -/

/-- A station is eligible while LIVE or LATE (Station record). -/
def Station.eligible (s : Station) : Bool :=
  match s.state with
  | .live | .late => true
  | .unknown | .silent _ | .retired => false

/-- A station's slot map names a channel. -/
def Station.maps (s : Station) (c : Fin 48) : Bool := s.slots.toList.contains (some c)

/-- The channels a station's slot map names, in ascending index, each once (R38). -/
def Station.channels (s : Station) : List (Fin 48) := (List.finRange 48).filter s.maps

/-- The mapping station of a channel: the record in use whose slot map names it (Channel record). -/
def Plant.mappingStation (p : Plant) (c : Fin 48) : Option (Fin 24) :=
  (List.finRange 24).find? fun i => (p.station i).inUse && (p.station i).maps c

/-- A channel record is in use at a barrier with a kind, so it plays that kind's role there (R47, R49). -/
def Channel.at (ch : Channel) (k : Fin 4) (kind : ChannelKind) : Bool :=
  ch.inUse && ch.barrier == some k && ch.kind == kind

/-- The list of a barrier's channels of one kind, in ascending index (R49). -/
def Plant.channelsAt (p : Plant) (k : Fin 4) (kind : ChannelKind) : List (Fin 48) :=
  (List.finRange 48).filter fun c => (p.channel c).at k kind

/-- The assigned count: LEVEL channels of a barrier, disabled ones included (Barrier record). -/
def Plant.assigned (p : Plant) (k : Fin 4) : Nat := (p.channelsAt k .stage).length

/-- The quality of a barrier: NONE (here `none`) while the estimate is absent, the vote quality otherwise (Barrier record,
R90). -/
def Barrier.quality (b : Barrier) : Option VoteQuality :=
  match b.estimate with
  | none => none
  | some _ => b.voteQuality

/-- History spacing: W / 8, truncated (R84). -/
def Barrier.spacing (b : Barrier) : Nat := b.rateWindow / 8

/-- The breach causes are not empty. -/
def Barrier.breached (b : Barrier) : Bool := b.wire || b.overtop

/-- A barrier is full: its estimate is present with F = 1000 (R93, R101). -/
def Barrier.full (b : Barrier) : Bool :=
  match b.estimate with
  | none => false
  | some e => e.fill == Config.fullFill

/-- An owner has an entry in the evaluation queue. -/
def Plant.queued (p : Plant) (o : EvalOwner) : Bool := p.evalQueue.any fun e => e.owner == o

/-- An owner's evaluation is in flight. -/
def Plant.inFlight (p : Plant) (o : EvalOwner) : Bool := p.flight.any fun f => f.owner == o

/-- Evaluation states (R93). -/
inductive EvalState
  | idle
  | queued
  | inFlight
  deriving DecidableEq, Repr

/-- The evaluation state of a barrier or of the exercise estimate (R93). -/
def Plant.evalState (p : Plant) (o : EvalOwner) : EvalState :=
  if p.inFlight o then .inFlight else if p.queued o then .queued else .idle

/-- Evaluation state codes. -/
def EvalState.code : EvalState → Nat
  | .idle => 0
  | .queued => 1
  | .inFlight => 2

/-- The session barrier while a session is active. -/
def Session.current (s : Session) : Option (Fin 4) := if s.active then s.barrier else none

/-- The own address: the strap value, or 254 where that is 0 or 255 (R4). -/
def State.ownAddr (s : State) : Byte :=
  if s.straps.addr = 0 ∨ s.straps.addr = Config.broadcast then Config.fallbackAddress else s.straps.addr

/-- A port's record. -/
def Line.port (l : Line) : Port → PortRec
  | .u => l.u
  | .d => l.d

/-- Write a port's record. -/
def Line.setPort (l : Line) : Port → PortRec → Line
  | .u, r => { l with u := r }
  | .d, r => { l with d := r }

/-- A port is DOWN (R11). -/
def PortRec.isDown (r : PortRec) : Bool :=
  match r.state with
  | .down _ => true
  | .waiting | .up => false

/-- The level at the output UTXD or DTXD may leave marking: the transmitter is SENDING and the part is out of reset (R4). -/
def State.driving (s : State) : Port → Bool
  | .u => !s.nresetLow && s.line.uTx.isSome
  | .d => !s.nresetLow && s.line.dTx.isSome

/-- The output nALIVE: low (`false`) while the part is out of reset (Pins and electrical summary). -/
def State.nAlive (s : State) : Bool := s.nresetLow

/-! ### Saturating counts (R1) -/

/-- Raise a count by `k`, holding at 65535 (R1). -/
def raise (n k : Nat) : Nat := min (n + k) Config.counterMax

/-- Seconds from `since` to `now`, reported saturating at 65535 (R12, R39, R148). -/
def secondsSince (now since : Nat) : Nat := min (now - since) Config.counterMax

end Sys2Proof.Machine
end

