-- ==== Sys2Proof/Machine/Notices.lean ====
section
/-! DEFINITION. Posting into the notice set (R179). -/

namespace Sys2Proof.Machine

/-- A posting folds into the entry of its kind, or is placed last with count 1 and the current part time (R179). -/
def postInto (now : Nat) (kind : NoticeKind) (subject value : Nat) (set : List Notice) : List Notice :=
  if set.any fun n => n.kind == kind then
    set.map fun n =>
      if n.kind == kind then
        { n with subject := subject, value := value, count := min (n.count + 1) Config.noticeCountMax }
      else n
  else
    set ++ [{ kind := kind, subject := subject, value := value, count := 1, firstPost := now }]

/-- A block posts a notice (R179). -/
def Plant.post (p : Plant) (kind : NoticeKind) (subject value : Nat) : Plant :=
  { p with notices := postInto p.now kind subject value p.notices }

end Sys2Proof.Machine
end

