-- ==== Sys2Proof/Machine/Dispatcher.lean ====
section
/-! DEFINITION. The Announcement Dispatcher (chapter 7): content, due test, due list, transmission ends, timers,
acknowledgements and the restart of a record. Each is a function of one dispatch record. -/

namespace Sys2Proof.Machine

/-- An outstanding offer is marked (R135, row 2). -/
def Dispatch.openMarked (d : Dispatch) : Bool := d.openOffer && d.offered.any fun c => c.marked

/-- The content of a village, from the levels of the latest hand-on, its dispatch record and whether a session is active
(R135). -/
def Dispatch.formContent (active : Bool) (d : Dispatch) : Content :=
  if d.handed.announced ≠ .clear then ⟨d.handed.announced, false⟩
  else if d.handed.permit && (active || d.delivered.marked || d.openMarked) then ⟨d.handed.exAnnounced, true⟩
  else .clear

/-- Whether a content is suppressed: unmarked, with its level in the village's mask (R135). -/
def Dispatch.suppresses (d : Dispatch) (c : Content) : Bool := !c.marked && d.handed.mask.holds c.level

/-- A content is wanted (R137): not suppressed, different from the delivered content, and not a CLEAR content while the
delivered level is CLEAR. -/
def Dispatch.wants (d : Dispatch) (c : Content) : Bool :=
  !d.suppresses c && c != d.delivered && !(c.level == .clear && d.delivered.level == .clear)

/-- A correction is wanted (R137): an outstanding offer exists and the content differs from the offered content. -/
def Dispatch.corrects (d : Dispatch) (c : Content) : Bool := d.openOffer && d.offered != some c

/-- The record is already pursuing a content (R137). -/
def Dispatch.pursues (d : Dispatch) (c : Content) : Bool :=
  match d.state with
  | .quiet => false
  | .due _ _ pending => pending == c
  | .await | .unreached => d.offered == some c

/-- Entry to DUE by CHANGE from QUIET, AWAIT or UNREACHED (R137, second row). -/
def Dispatch.becomeDue (now : Nat) (d : Dispatch) (c : Content) : Dispatch :=
  { d with state := .due .change now c, retry := 0, ackTimer := none, reachTimer := none, repeatTimer := none }

/-- The due test (R137): the content is formed again, and the record becomes DUE, has its pending content replaced, is
withdrawn, or stays as it is. -/
def Dispatch.dueTest (active : Bool) (now : Nat) (d₀ : Dispatch) : Dispatch :=
  let c := d₀.formContent active
  let d := { d₀ with current := c, suppressed := d₀.suppresses c }
  if d.wants c || d.corrects c then
    if d.pursues c then d
    else
      match d.state with
      | .due _ time _ => { d with state := .due .change time c, retry := 0 }
      | .quiet | .await | .unreached => d.becomeDue now c
  else
    match d.state with
    | .due .repeated _ pending => if pending = c then d else { d with state := .quiet }
    | .due .change time _ => if d.openOffer then { d with state := .due .change time c } else { d with state := .quiet }
    | .due .retry _ _ | .due .reach _ _ | .quiet | .await | .unreached => d

/-- A hand-on from the ladder (R136): a due test is made if the content or its suppression differs from the record's. -/
def Dispatch.handOn (active : Bool) (now : Nat) (h : HandOn) (d₀ : Dispatch) : Dispatch :=
  let d := { d₀ with handed := h }
  let c := d.formContent active
  if c = d.current ∧ d.suppresses c = d.suppressed then d else d.dueTest active now

/-- The state is QUIET. -/
def Dispatch.isQuiet (d : Dispatch) : Bool := d.state == .quiet

/-- The repeat timer starts, for a QUIET record whose delivered content is unmarked and above CLEAR (R141, R150). -/
def Dispatch.startRepeat (interval : Nat) (d : Dispatch) : Dispatch :=
  if d.isQuiet && !d.delivered.marked && d.delivered.level != .clear then { d with repeatTimer := .start interval } else d

/-- The candidate's ALERT is granted (R139): its pending content is offered and it is on the line. -/
def Dispatch.granted (d : Dispatch) : Dispatch :=
  match d.state with
  | .due _ _ pending => { d with offered := some pending, openOffer := true, onLine := true }
  | .quiet | .await | .unreached => d

/-- Completion of an ALERT to a CONFIRMED village (R140). -/
def Dispatch.doneConfirmed (vl : Village) (d₀ : Dispatch) : Dispatch :=
  let d := { d₀ with onLine := false }
  match d.state with
  | .due .change _ pending | .due .retry _ pending =>
      if d.offered = some pending then
        { d with state := .await, retry := d.retry + 1, ackTimer := .start vl.ackTimeout }
      else d
  | .due .reach _ pending =>
      if d.offered = some pending then { d with state := .unreached, reachTimer := .start vl.reachInterval } else d
  | .due .repeated _ _ | .quiet | .await | .unreached => d

/-- Completion of an ALERT to an UNCONFIRMED village (R141). -/
def Dispatch.doneUnconfirmed (active : Bool) (now : Nat) (vl : Village) (d₀ : Dispatch) : Dispatch :=
  let d := { d₀ with onLine := false, delivered := d₀.offered.getD d₀.delivered, openOffer := false, state := .quiet }
  (d.dueTest active now).startRepeat vl.repeatInterval

/-- Completion of an ALERT, taken by the record only while it is on the line (R140, R141, R150). -/
def Dispatch.alertDone (active : Bool) (now : Nat) (vl : Village) (d : Dispatch) : Dispatch :=
  if d.onLine then
    match vl.ackMode with
    | .confirmed => d.doneConfirmed vl
    | .unconfirmed => d.doneUnconfirmed active now vl
  else d

/-- Cut of an ALERT by RESET LINES (R142): `offered` and `openOffer` are what the record held before the grant. -/
def Dispatch.alertCut (offered : Option Content) (openOffer : Bool) (d : Dispatch) : Dispatch :=
  if d.onLine then
    match d.state with
    | .due _ _ _ => { d with onLine := false, offered := offered, openOffer := openOffer }
    | .quiet | .await | .unreached => { d with onLine := false }
  else d

/-- The record becomes DUE again with its offered content (R143, R144). -/
def Dispatch.offerAgain (now : Nat) (reason : DueReason) (d : Dispatch) : Dispatch :=
  match d.offered with
  | some c => { d with state := .due reason now c }
  | none => d

/-- Expiry of the ack timer (R143); the second component says that VILLAGE_UNREACHED is posted. -/
def Dispatch.ackExpired (now : Nat) (vl : Village) (d₀ : Dispatch) : Dispatch × Bool :=
  let d := { d₀ with ackTimer := none }
  if d.retry < vl.retryLimit then (d.offerAgain now .retry, false)
  else
    ({ d with state := .unreached, reachTimer := .start vl.reachInterval,
              unreachedSince := some (d.unreachedSince.getD now) }, true)

/-- Expiry of the reach timer (R144). -/
def Dispatch.reachExpired (now : Nat) (d : Dispatch) : Dispatch :=
  { d with reachTimer := none }.offerAgain now .reach

/-- Expiry of the repeat timer (R145). -/
def Dispatch.repeatExpired (now : Nat) (d₀ : Dispatch) : Dispatch :=
  let d := { d₀ with repeatTimer := none }
  if d.current = d.delivered then { d with state := .due .repeated now d.delivered } else d

/-- The states in which an acknowledgement may be accepted (R146). -/
def Dispatch.acceptsAck (d : Dispatch) : Bool :=
  match d.state with
  | .await | .unreached | .due .retry _ _ | .due .reach _ _ => true
  | .quiet | .due .change _ _ | .due .repeated _ _ => false

/-- The content an ALERT_ACK acknowledges, if its payload is well formed (R146). -/
def ackContent (f : Frame) : Option Content :=
  match f.payload with
  | [b] => (Level.ofCode b.toNat).map fun l => ⟨l, f.exerciseFlag⟩
  | _ => none

/-- An accepted acknowledgement (R146), up to the notice of R148. -/
def Dispatch.acked (active : Bool) (now : Nat) (d : Dispatch) : Dispatch :=
  { d with delivered := d.offered.getD d.delivered, openOffer := false, retry := 0, ackTimer := none,
           reachTimer := none, state := .quiet, unreachedSince := none }.dueTest active now

/-- The restart of a record by LOAD_VILLAGE (R150); `vl` holds the settings as just written. -/
def Dispatch.restart (active : Bool) (now : Nat) (vl : Village) (newAddress : Bool) (d₀ : Dispatch) : Dispatch :=
  let d := { d₀ with state := .quiet, openOffer := false, retry := 0, ackTimer := none, reachTimer := none,
                     repeatTimer := none, unreachedSince := none, onLine := false,
                     delivered := if newAddress then .clear else d₀.delivered,
                     offered := if newAddress then none else d₀.offered }
  let d := d.dueTest active now
  match vl.ackMode with
  | .confirmed => d
  | .unconfirmed => d.startRepeat vl.repeatInterval

/-! ### Due list (R138) -/

/-- The place of a DUE village in the due list: its pending content and due time, if it is DUE and not on the line. -/
def Dispatch.listed (d : Dispatch) : Option (Content × Nat) :=
  match d.state with
  | .due _ time pending => if d.onLine then none else some (pending, time)
  | .quiet | .await | .unreached => none

/-- The order of the due list: higher pending level, then unmarked before marked, then earlier due time, then lower village
index (R138). -/
def dueBefore (a b : Content × Nat × Fin 8) : Bool :=
  if a.1.level ≠ b.1.level then decide (b.1.level.code < a.1.level.code)
  else if a.1.marked ≠ b.1.marked then b.1.marked
  else if a.2.1 ≠ b.2.1 then decide (a.2.1 < b.2.1)
  else decide (a.2.2 ≤ b.2.2)

/-- The villages on the due list with what orders them, by village index. -/
def Plant.dueEntries (p : Plant) : List (Content × Nat × Fin 8) :=
  (List.finRange 8).filterMap fun v => (p.disp v).listed.map fun e => (e.1, e.2, v)

/-- The due list in its order (R138). -/
def Plant.dueList (p : Plant) : List (Content × Nat × Fin 8) :=
  p.dueEntries.insertionSort fun a b => dueBefore a b = true

/-- The dispatcher's candidate with its pending content: the head of the due list (R138). -/
def Plant.candidate (p : Plant) : Option (Content × Fin 8) :=
  p.dueList.head?.map fun e => (e.1, e.2.2)

/-- A dispatch record acts with the session's activity and part time as they stand. -/
def Plant.updateDisp (p : Plant) (v : Fin 8) (f : Bool → Nat → Dispatch → Dispatch) : Plant :=
  p.setDisp v (f p.session.active p.now (p.disp v))

/-- The ladder hands a village's levels, mask and permit to the dispatcher (R127, R136). -/
def Plant.handOn (p : Plant) (v : Fin 8) : Plant :=
  let vl := p.village v
  p.updateDisp v fun active now d => d.handOn active now ⟨vl.announced, vl.exAnnounced, vl.mask, vl.permit⟩

/-- The village record in use whose line address is a source (R146). -/
def Plant.villageOf (p : Plant) (addr : Byte) : Option (Fin 8) :=
  (List.finRange 8).find? fun v => (p.village v).inUse && (p.village v).addr == addr

/-- An ALERT_ACK reaches the dispatcher (R146, R147, R148). -/
def Plant.alertAck (p : Plant) (f : Frame) : Plant :=
  match p.villageOf f.src with
  | none => p
  | some v =>
    let d := p.disp v
    if d.acceptsAck && (ackContent f).isSome && ackContent f == d.offered then
      let p₁ :=
        match d.unreachedSince with
        | some since => p.post .villageReached v.1 (secondsSince p.now since)
        | none => p
      p₁.updateDisp v Dispatch.acked
    else p.setDisp v { d with stale := raise d.stale 1 }

end Sys2Proof.Machine
end

