-- ==== Sys2Proof/Machine/Ladder.lean ====
section
/-! DEFINITION. The Village Alert Ladder (chapter 6): entry levels, computed level, breach latch, announced level, exercise
levels, and recomputation with its hand-on to the dispatcher. -/

namespace Sys2Proof.Machine

/-- Available time: TTF plus travel, saturating at 65534; 65535 where the TTF is 65535 (R118). -/
def availableTime (ttf travel : Nat) : Nat :=
  if ttf = Config.noMinutes then Config.noMinutes else min (ttf + travel) Config.minutesMax

/-- Projection level of an available time under a village's thresholds (R118). -/
def Village.project (vl : Village) (a : Nat) : Level :=
  if a ≤ vl.evac then .evacuate else if a ≤ vl.warn then .warn else if a ≤ vl.watch then .watch else .clear

/-- A step that raises a level to at least another, and sets the cause if it raised it (R119). -/
def raiseTo (floor : Level) (cause : Cause) (lc : Level × Cause) : Level × Cause :=
  if lc.1.code < floor.code then (floor, cause) else lc

/-- The two fill floors, WARN first (R119); a floor of 1000 never applies. -/
def fillFloors (watchFill warnFill fill : Nat) (lc : Level × Cause) : Level × Cause :=
  let lc := if warnFill ≤ fill ∧ warnFill ≠ Config.fullFill then raiseTo .warn .fill lc else lc
  if watchFill ≤ fill ∧ watchFill ≠ Config.fullFill then raiseTo .watch .fill lc else lc

/-- The blind floor (R119). -/
def blindFloor (b : Barrier) (lc : Level × Cause) : Level × Cause :=
  if b.quality = some .blind then raiseTo .watch .blind lc else lc

/-- The surge step: one step higher, at most EVACUATE (R119). -/
def surgeStep (b : Barrier) (lc : Level × Cause) : Level × Cause :=
  if b.surgeFlag ∧ lc.1.code < Level.evacuate.code then (lc.1.up, .surge) else lc

/-- The breach step (R119, R120): BREACH with cause WIRE or OVERTOP while the barrier has a breach cause. -/
def breachStep (b : Barrier) (lc : Level × Cause) : Level × Cause :=
  if b.breached then (.breach, if b.wire then .wire else .overtop) else lc

/-- The level an entry is held at: its level, capped at EVACUATE (R119, R121). -/
def Level.heldAt (l : Level) : Level := if l = .breach then .evacuate else l

/-- The entry of a barrier that is ACTIVE with an estimate (R118, R119). -/
def Route.judged (b : Barrier) (e : Estimate) (vl : Village) (r : Route) : Route :=
  let a := availableTime e.ttf r.travel
  let lc := breachStep b <| surgeStep b <| blindFloor b <|
    fillFloors b.watchFill b.warnFill e.fill (vl.project a, .projection)
  { r with level := lc.1, cause := lc.2, available := a, fill := some e.fill, held := lc.1.heldAt }

/-- The entry of a barrier that is UNLOADED, or ACTIVE without an estimate (R120). -/
def Route.unjudged (b : Barrier) (r : Route) : Route :=
  let lc := breachStep b (.clear, .projection)
  { r with level := lc.1, cause := lc.2, available := Config.noMinutes, fill := none, held := .clear }

/-- The entry of a barrier in LOADING: the held level with cause HELD (R120, R121). -/
def Route.heldOver (b : Barrier) (r : Route) : Route :=
  let lc := breachStep b (r.held, .held)
  { r with level := lc.1, cause := lc.2 }

/-- An entry formed from the barrier record as it stands (R118 to R121). -/
def Route.form (b : Barrier) (vl : Village) (r : Route) : Route :=
  match b.state, b.estimate with
  | .active, some e => r.judged b e vl
  | .active, none => r.unjudged b
  | .loading, _ => r.heldOver b
  | .unloaded, _ => r.unjudged b

/-- A village's entries with their barriers, in ascending barrier index. -/
def Village.entries (vl : Village) : List (Fin 4 × Route) :=
  (List.finRange 4).filterMap fun k => (vl.routes.get k).map fun r => (k, r)

/-- The deciding entry: highest level, then smaller available, then lower barrier index (R122). -/
def decidingEntry (entries : List (Fin 4 × Route)) : Option (Fin 4 × Route) :=
  entries.foldl (init := none) fun best e =>
    match best with
    | none => some e
    | some b =>
      if b.2.level.code < e.2.level.code ∨ (b.2.level = e.2.level ∧ e.2.available < b.2.available) then some e
      else some b

/-- The announced level and hold timer after a recomputation (R124). -/
def Village.announce (vl : Village) : Village :=
  if vl.latch then { vl with announced := .breach, holdTimer := none }
  else if vl.announced.code < vl.computed.code then
    { vl with announced := vl.computed, holdTimer := .startMin vl.holdTime }
  else if vl.computed = vl.announced then { vl with holdTimer := .startMin vl.holdTime }
  else if vl.holdTimer.running then vl
  else { vl with announced := vl.announced.down, holdTimer := .startMin vl.holdTime }

/-- The computed level and the deciding fields of the entries (R122). -/
def Village.judge (vl : Village) : Village :=
  match decidingEntry vl.entries with
  | none => { vl with computed := .clear, decBarrier := none, decCause := .projection,
                      decAvailable := Config.noMinutes, decFill := none }
  | some (k, r) => { vl with computed := r.level, decBarrier := some k, decCause := r.cause,
                             decAvailable := r.available, decFill := r.fill }

/-- The breach latch (R123): set while an entry is at BREACH; setting a clear latch stops the hold timer. -/
def Village.latchBreach (vl : Village) : Village :=
  if vl.computed = .breach ∧ vl.latch = false then { vl with latch := true, holdTimer := none } else vl

/-- A village's real levels formed from the barrier records (R118 to R124). -/
def Village.form (barrier : Fin 4 → Barrier) (vl : Village) : Village :=
  let formed : Village :=
    { vl with routes := Vector.ofFn fun k => (vl.routes.get k).map fun r => r.form (barrier k) vl }
  formed.judge.latchBreach.announce

/-- The ladder forms a village's real levels and posts BREACH_RAISED if that set its latch (R123, R127), without the hand-on. -/
def Plant.formVillage (p : Plant) (v : Fin 8) : Plant :=
  let old := p.village v
  let vl := old.form p.barrier
  let p := p.setVillage v vl
  if vl.latch && !old.latch then p.post .breachRaised v.1 ((vl.decBarrier.map Fin.val).getD 255) else p

/-- A recomputation of a village (R127); an UNUSED record takes none (R112). -/
def Plant.recompute (p : Plant) (v : Fin 8) : Plant :=
  if (p.village v).inUse then (p.formVillage v).handOn v else p

/-- A village has a route entry for a barrier. -/
def Village.routed (vl : Village) (k : Fin 4) : Bool := (vl.routes.get k).isSome

/-- The villages with a route entry for a barrier are recomputed, in ascending index (R127). -/
def Plant.recomputeFor (p : Plant) (k : Fin 4) : Plant :=
  (List.finRange 8).foldl (init := p) fun q v => if (q.village v).routed k then q.recompute v else q

/-! ### Exercise levels (R128, R129) -/

/-- What exercise levels are formed from: the session barrier and its settings, and the exercise estimate, if a session is
active and the estimate present (R128). -/
def Plant.exerciseBasis (p : Plant) : Option (Fin 4 × Barrier × Estimate) :=
  match p.session.current, p.exercise.estimate with
  | some k, some e => some (k, p.barrier k, e)
  | _, _ => none

/-- A village's exercise level, cause and available time (R128). -/
def Village.exerciseLevel (vl : Village) (basis : Option (Fin 4 × Barrier × Estimate)) : Level × Cause × Nat :=
  match basis with
  | none => (.clear, .projection, Config.noMinutes)
  | some (k, b, e) =>
    match vl.permit, vl.routes.get k with
    | true, some r =>
      let a := availableTime e.ttf r.travel
      let lc := fillFloors b.watchFill b.warnFill e.fill (vl.project a, .projection)
      (lc.1, lc.2, a)
    | _, _ => (.clear, .projection, Config.noMinutes)

/-- A village's exercise levels formed (R128): the exercise announced level follows at once. -/
def Village.formExercise (vl : Village) (basis : Option (Fin 4 × Barrier × Estimate)) : Village :=
  let (level, cause, a) := vl.exerciseLevel basis
  { vl with exComputed := level, exAnnounced := level, exCause := cause, exAvailable := a }

/-- The ladder forms a village's exercise levels, without the hand-on. -/
def Plant.formVillageExercise (p : Plant) (v : Fin 8) : Plant :=
  p.setVillage v ((p.village v).formExercise p.exerciseBasis)

/-- An exercise recomputation of a village (R129). -/
def Plant.recomputeExercise (p : Plant) (v : Fin 8) : Plant :=
  if (p.village v).inUse then (p.formVillageExercise v).handOn v else p

/-- Both recomputations of a village and one hand-on, after LOAD_VILLAGE and LOAD_ROUTE (R127, R129; log entry 8). -/
def Plant.recomputeBoth (p : Plant) (v : Fin 8) : Plant :=
  if (p.village v).inUse then ((p.formVillage v).formVillageExercise v).handOn v else p

/-- The permitted villages routed to the session barrier are recomputed for their exercise levels (R129). -/
def Plant.recomputeExerciseFor (p : Plant) (k : Fin 4) : Plant :=
  (List.finRange 8).foldl (init := p) fun q v =>
    if (q.village v).permit && (q.village v).routed k then q.recomputeExercise v else q

/-- An exercise level of a village stands above CLEAR. -/
def Village.exercising (vl : Village) : Bool := vl.exComputed != .clear || vl.exAnnounced != .clear

/-- The villages with an exercise level above CLEAR (R129, end of a session). -/
def Plant.exercising (p : Plant) : List (Fin 8) :=
  (List.finRange 8).filter fun v => (p.village v).inUse && (p.village v).exercising

end Sys2Proof.Machine
end

