-- ==== Sys2Proof/Machine/Tables.lean ====
section
/-! DEFINITION. Stage–storage tables (chapter 4): loading a half, the table check, interpolation and fill. -/

namespace Sys2Proof.Machine

/-- The points in use: positions 0 up to (point count − 1) (R73, R74). -/
def Table.inUse (t : Table) : List Point := t.points.toList.take t.count

/-- The smallest i ≥ 1 whose point stands in a relation to its predecessor, counting positions from `i` (R74). -/
def firstBroken (bad : Point → Point → Bool) : Nat → List Point → Option Nat
  | i, a :: b :: rest => if bad a b then some i else firstBroken bad (i + 1) (b :: rest)
  | _, _ => none

/-- The table check (R74, R75): the first condition broken gives the verdict. -/
def Table.checked (t : Table) : Verdict :=
  let ps := t.inUse
  match ps.head?, ps.getLast? with
  | some first, some last =>
    if t.count < 2 then .invalid .count none
    else if first ≠ ⟨0, 0⟩ then .invalid .origin (some 0)
    else
      match firstBroken (fun a b => b.stage ≤ a.stage) 1 ps with
      | some i => .invalid .stageOrder (some i)
      | none =>
        match firstBroken (fun a b => b.volume < a.volume) 1 ps with
        | some i => .invalid .volumeOrder (some i)
        | none => if last.volume = 0 then .invalid .capacity (some (t.count - 1)) else .valid last.stage last.volume
  | _, _ => .invalid .count none

/-- The table with the verdict of its check. -/
def Table.check (t : Table) : Table := { t with verdict := t.checked }

/-- An accepted LOAD_STAGE_POINTS: eight points into the positions of a half, the point count, and the verdict UNCHECKED
(R72). -/
def Table.loadHalf (t : Table) (half count : Nat) (new : Nat → Point) : Table :=
  { count := count, verdict := .unchecked,
    points := Vector.ofFn fun i : Fin 16 => if i.1 / 8 = half then new (i.1 % 8) else t.points.get i }

/-- The volume of a stage in the segment that holds it (R79): with stages rising from 0, the first point above the stage
ends that segment. -/
def segmentVolume (s : Nat) : List Point → Nat
  | a :: b :: rest =>
    if s < b.stage then a.volume + ((b.volume - a.volume) * (s - a.stage)) / (b.stage - a.stage)
    else segmentVolume s (b :: rest)
  | [a] => a.volume
  | [] => 0

/-- The conversion of a stage: volume and the ABOVE_TABLE indication (R78, R79). A table without a crest, which no barrier
that is evaluated has (R75), gives volume 0. -/
def Table.interpolate (t : Table) (s : Nat) : Nat × Bool :=
  match t.verdict.crest? with
  | some (crest, capacity) =>
    if crest ≤ s then (capacity, Nat.blt crest s) else (segmentVolume s t.inUse, false)
  | none => (0, false)

/-- The capacity C of a table (R75, R77). -/
def Table.capacity (t : Table) : Nat := (t.verdict.crest?.map Prod.snd).getD 0

/-- The fill of a volume, in per-mille, truncated and capped at 1000 (R81). -/
def fillOf (volume capacity : Nat) : Nat := min (volume * 1000 / capacity) Config.fullFill

end Sys2Proof.Machine
end

