-- ==== Sys2Proof/Machine/Estimator.lean ====
section
/-! DEFINITION. The Barrier Estimator (chapter 5) and the end of an exercise session (R163), which its events may cause: the
vote, the evaluation queue, evaluation, completion with cascade, surge and breach assessment. -/

namespace Sys2Proof.Machine

/-! ### The Evaluation Unit takes the head (R77, R93) -/

/-- The carried rate of barrier `k`: the effective rate of barrier k−1 if that is ACTIVE and full, 0 otherwise (R93). -/
def Plant.carriedRate (p : Plant) (k : Fin 4) : Nat :=
  if h : 0 < k.1 then
    let above := p.barrier ⟨k.1 - 1, by omega⟩
    if above.state = .active ∧ above.full then (above.estimate.map Estimate.effRate).getD 0 else 0
  else 0

/-- The Evaluation Unit, idle with a queue that is not empty, takes the head entry and its snapshot (R77, R93). -/
def Plant.beginEvaluation (p : Plant) : Plant :=
  match p.flight, p.evalQueue with
  | none, e :: rest =>
    let flight : Flight :=
      match e.owner with
      | .barrier k => { owner := e.owner, stage := e.stage, table := p.table k, history := (p.barrier k).history,
                        carried := p.carriedRate k, now := p.now }
      | .exercise => { owner := e.owner, stage := e.stage,
                       table := (p.session.barrier.map p.table).getD .cleared, history := p.exercise.history,
                       carried := 0, now := p.now }
    { p with evalQueue := rest, flight := some flight }
  | _, _ => p

/-! ### Evaluation queue (R91, R92) and abandonment (R102) -/

/-- The superseded-stage count of an owner rises by 1 (R92). -/
def Plant.countSuperseded (p : Plant) : EvalOwner → Plant
  | .barrier k => p.setBarrier k { p.barrier k with superseded := raise (p.barrier k).superseded 1 }
  | .exercise => { p with exercise := { p.exercise with superseded := raise p.exercise.superseded 1 } }

/-- A stage joins the queue: it replaces the stage of the owner's waiting entry in place, or is appended at the tail (R92). -/
def Plant.enqueue (p : Plant) (o : EvalOwner) (stage : Nat) : Plant :=
  if p.queued o then
    { p.countSuperseded o with
      evalQueue := p.evalQueue.map fun e => if e.owner == o then { e with stage := stage } else e }
  else { p with evalQueue := p.evalQueue ++ [⟨o, stage⟩] }

/-- An offer of a stage (R92): an entry it creates in an empty queue is taken at once if the unit is idle (R93). -/
def Plant.offer (p : Plant) (o : EvalOwner) (stage : Nat) : Plant :=
  if p.evalQueue = [] then (p.enqueue o stage).beginEvaluation else p.enqueue o stage

/-- An owner's entry leaves the queue, and its evaluation in flight is abandoned, whereupon the unit takes the next head at
once (R85, R93, R102, R161, R163). -/
def Plant.abandon (p : Plant) (o : EvalOwner) : Plant :=
  let q := { p with evalQueue := p.evalQueue.filter fun e => e.owner != o }
  if p.inFlight o then { q with flight := none }.beginEvaluation else q

/-! ### End of a session (R163) -/

/-- The session record as an end leaves it (R163). -/
def Session.ended (x : Session) (reason : EndReason) (now : Nat) : Session :=
  { x with active := false, endReason := reason, endTime := some now, timer := none }

/-- The session record ends, and the exercise evaluation work is abandoned (R163). -/
def Plant.stopSession (p : Plant) (reason : EndReason) : Plant :=
  { p with session := p.session.ended reason p.now }.abandon .exercise

/-- The end of an active session, for a reason, with the villages that stood above CLEAR on an exercise level (R163). -/
def Plant.endSessionOf (p : Plant) (reason : EndReason) (noted : List (Fin 8)) : Plant :=
  if p.session.active then
    (noted.foldl (init := p.stopSession reason) fun q v => q.recomputeExercise v).post .exerciseEnded
      ((p.session.barrier.map Fin.val).getD 255) reason.code
  else p

/-- The end of an active session by any event but RESET EVAL (R162, R163). -/
def Plant.endSession (p : Plant) (reason : EndReason) : Plant := p.endSessionOf reason p.exercising

/-- An event of a barrier that ends a session running on it (R162). -/
def Plant.endSessionOn (p : Plant) (k : Fin 4) (reason : EndReason) : Plant :=
  if p.session.current = some k then p.endSession reason else p

/-! ### The vote (R88 to R90, R160) -/

/-- The median of three values (R88). -/
def median (a b c : Nat) : Nat := max (min a b) (min (max a b) c)

/-- The stage voted from the values of the VALID channels: the value, the higher of two, the median of three (R88, R160). A
barrier has at most three LEVEL channels (R49). -/
def voteStage : List Nat → Option Nat
  | [a] => some a
  | [a, b] => some (max a b)
  | [a, b, c] => some (median a b c)
  | _ => none

/-- The vote quality of a valid count and an assigned count (R88). -/
def qualityOf (valid assigned : Nat) : VoteQuality :=
  if valid = 0 then .blind else if valid = assigned then .good else .degraded

/-- The value a path contributes to a vote. -/
def StagePath.vote (s : StagePath) : Option Nat := if s.valid then s.latest else none

/-- The latest conditioned values of a barrier's VALID LEVEL channels, real paths (R88). -/
def Plant.realVotes (p : Plant) (k : Fin 4) : List Nat := (p.channelsAt k .stage).filterMap fun c => (p.channel c).real.vote

/-- The same of the exercise paths (R160). -/
def Plant.exerciseVotes (p : Plant) (k : Fin 4) : List Nat :=
  (p.channelsAt k .stage).filterMap fun c => (p.channel c).exer.vote

/-- A change of a barrier's quality is handed on: BARRIER_BLIND is posted if the new quality is BLIND (R90). -/
def Plant.postBlind (p : Plant) (k : Fin 4) : Plant :=
  if (p.barrier k).quality = some .blind then
    p.post .barrierBlind k.1 (((p.barrier k).estimate.map Estimate.fill).getD 0)
  else p

/-- A barrier's record with the counts and quality of a vote (R88). -/
def Barrier.counted (b : Barrier) (valid assigned : Nat) : Barrier :=
  { b with validCount := valid, voteQuality := some (qualityOf valid assigned) }

/-- The counts of a barrier's vote, with the hand-on of a change of quality (R88, R90). -/
def Plant.countVotes (p : Plant) (k : Fin 4) : Plant :=
  let b := (p.barrier k).counted (p.realVotes k).length (p.assigned k)
  let p₁ := p.setBarrier k b
  if b.quality = (p.barrier k).quality then p₁ else (p₁.postBlind k).recomputeFor k

/-- A barrier's last stage is written and offered (R89, R92). -/
def Plant.takeStage (p : Plant) (k : Fin 4) (stage : Nat) : Plant :=
  (p.setBarrier k { p.barrier k with lastStage := some stage }).offer (.barrier k) stage

/-- The vote of a barrier (R88 to R90): it runs while ACTIVE; a change of quality is handed to the ladder; a stage is kept as
the last stage and offered. -/
def Plant.vote (p : Plant) (k : Fin 4) : Plant :=
  match (p.barrier k).state with
  | .active =>
    match voteStage (p.realVotes k) with
    | some stage => (p.countVotes k).takeStage k stage
    | none => p.countVotes k
  | .unloaded | .loading => p

/-- The exercise vote (R160), for a session running on barrier `k`. -/
def Plant.exerciseVote (p : Plant) (k : Fin 4) : Plant :=
  if p.session.current = some k then
    let votes := p.exerciseVotes k
    match voteStage votes with
    | some stage =>
      { p with exercise := { p.exercise with validCount := votes.length, lastStage := some stage } }.offer .exercise stage
    | none => { p with exercise := { p.exercise with validCount := votes.length } }
  else p

/-! ### Evaluation (R94 to R99) -/

/-- The history ring after a completion at `now` with a volume (R95). -/
def updateHistory (spacing now volume : Nat) (ring : List HistoryRec) : List HistoryRec :=
  let record : HistoryRec := ⟨now, volume⟩
  match ring.reverse with
  | [] => [record]
  | newest :: older =>
    if newest.time = now then older.reverse ++ [record]
    else
      match older with
      | [] => ring ++ [record]
      | second :: _ =>
        if now - second.time < spacing then older.reverse ++ [record]
        else (ring ++ [record]).drop (ring.length + 1 - Config.historyMax)

/-- A rate clamped to −32768..32767 (R96). -/
def clampRate (r : Int) : Int := max (-32768) (min r Config.rateMax)

/-- The own rate from an updated ring, and whether it is RATED (R96): the old record is the oldest one other than the newest
that is within the rate window. -/
def ownRate (window now volume : Nat) (ring : List HistoryRec) : Int × Bool :=
  match ring.dropLast.find? fun r => now - r.time ≤ window with
  | some old => (clampRate ((((volume : Int) - old.volume) * 60).tdiv ((now : Int) - old.time)), true)
  | none => (0, false)

/-- The effective rate (R97). -/
def effectiveRate (own : Int) (carried : Nat) : Nat := min (own.toNat + carried) Config.rateMax

/-- A quotient rounded up, the one division that is not truncated (R1, R98). -/
def ceilDiv (a b : Nat) : Nat := (a + b - 1) / b

/-- The time-to-full (R98). -/
def timeToFull (fill capacity volume rate : Nat) : Nat :=
  if fill = Config.fullFill then 0
  else if rate = 0 then Config.noMinutes
  else min (ceilDiv (capacity - volume) rate) Config.minutesMax

/-- The estimate and history ring that an evaluation gives, with the rate window and spacing of its barrier (R94 to R98). -/
def Flight.evaluate (f : Flight) (window spacing : Nat) : Estimate × List HistoryRec :=
  let (volume, above) := f.table.interpolate f.stage
  let fill := fillOf volume f.table.capacity
  let ring := updateHistory spacing f.now volume f.history
  let (own, rated) := ownRate window f.now volume ring
  let eff := effectiveRate own f.carried
  ({ volume := volume, fill := fill, ownRate := own, effRate := eff,
     ttf := timeToFull fill f.table.capacity volume eff, above := above, rated := rated }, ring)

/-! ### Completion and cascade (R99 to R101) -/

/-- Barrier k+1 is re-offered its last stage, if it exists, is ACTIVE, has one and its vote quality is not BLIND (R101). -/
def Plant.reofferBelow (p : Plant) (k : Fin 4) : Plant :=
  if h : k.1 + 1 < 4 then
    let below : Fin 4 := ⟨k.1 + 1, h⟩
    let b := p.barrier below
    match b.state, b.lastStage with
    | .active, some stage => if b.voteQuality = some .blind then p else p.offer (.barrier below) stage
    | _, _ => p
  else p

/-- The completion's condition for a re-offer: fullness changed, or full with a changed effective rate (R101). -/
def reoffers (before : Option Estimate) (after : Estimate) : Bool :=
  let wasFull := before.any fun e => e.fill == Config.fullFill
  let isFull := after.fill == Config.fullFill
  wasFull != isFull || (isFull && (before.map Estimate.effRate) != some after.effRate)

/-- What a completion tells the Exercise Unit (R100, R162): BREACH if OVERTOP appeared, CEILING if the fill is at or above
the exercise ceiling. -/
def Plant.testSession (p : Plant) (k : Fin 4) (ceiling fill : Nat) (overtopAppeared : Bool) : Plant :=
  if overtopAppeared then p.endSessionOn k .breach
  else if ceiling ≤ fill then p.endSessionOn k .ceiling
  else p

/-- A barrier's record with the results of an evaluation (R94, R95, R99). -/
def Barrier.completed (b : Barrier) (e : Estimate) (ring : List HistoryRec) : Barrier :=
  { b with estimate := some e, history := ring, overtop := b.overtopBreach && e.fill == Config.fullFill }

/-- The results of an evaluation of barrier `k` are written and handed on (R94 to R100), up to the re-offer of R101. -/
def Plant.takeResult (p : Plant) (ceiling : Nat) (k : Fin 4) (e : Estimate) (ring : List HistoryRec) : Plant :=
  let b := (p.barrier k).completed e ring
  let p₁ := { p with flight := none }.setBarrier k b
  let p₂ := if b.quality = (p.barrier k).quality then p₁ else p₁.postBlind k
  (p₂.recomputeFor k).testSession k ceiling e.fill (b.overtop && !(p.barrier k).overtop)

/-- Completion of an evaluation of barrier `k` with its results (R94 to R101). -/
def Plant.completeWith (p : Plant) (ceiling : Nat) (k : Fin 4) (e : Estimate) (ring : List HistoryRec) : Plant :=
  if reoffers (p.barrier k).estimate e then (p.takeResult ceiling k e ring).reofferBelow k
  else p.takeResult ceiling k e ring

/-- Completion of an evaluation of barrier `k` (R94 to R101). The Request Unit's part of R100 is in `State.wake`; the unit takes
its next head after that (R93). -/
def Plant.completeBarrier (p : Plant) (ceiling : Nat) (k : Fin 4) (f : Flight) : Plant :=
  let result := f.evaluate (p.barrier k).rateWindow (p.barrier k).spacing
  p.completeWith ceiling k result.1 result.2

/-- The exercise estimate record with the results of an evaluation (R108). -/
def ExerciseRec.completed (x : ExerciseRec) (e : Estimate) (ring : List HistoryRec) : ExerciseRec :=
  { x with estimate := some e, history := ring }

/-- Completion of an evaluation of the exercise estimate (R108): it writes the exercise estimate and its ring, and the
permitted villages routed to the session barrier are recomputed for their exercise levels (R129). -/
def Plant.completeExercise (p : Plant) (f : Flight) : Plant :=
  match p.session.current with
  | some k =>
    let result := f.evaluate (p.barrier k).rateWindow (p.barrier k).spacing
    { p with flight := none, exercise := p.exercise.completed result.1 result.2 }.recomputeExerciseFor k
  | none => { p with flight := none }

/-! ### Surge assessment (R104, R105) -/

/-- A SURGE channel counts as surging: VALID and surging at its latest test (R104). -/
def Channel.surges (ch : Channel) : Bool := ch.valid && ch.surging

/-- Any SURGE channel of a barrier is surging. -/
def Plant.anySurging (p : Plant) (k : Fin 4) : Bool := (p.channelsAt k .surge).any fun c => (p.channel c).surges

/-- A surge flag changes: the ladder recomputes the barrier's villages (R104, R105). -/
def Plant.setSurgeFlag (p : Plant) (k : Fin 4) (flag : Bool) (timer : Timer) : Plant :=
  let b := p.barrier k
  let p₁ := p.setBarrier k { b with surgeFlag := flag, surgeTimer := timer }
  if b.surgeFlag = flag then p₁ else p₁.recomputeFor k

/-- The surge assessment at a result of one of the barrier's SURGE channels (R104). -/
def Plant.assessSurge (p : Plant) (k : Fin 4) : Plant :=
  let b := p.barrier k
  if p.anySurging k then
    let p₁ := p.setSurgeFlag k true (.startMin b.surgeHold)
    if b.surgeFlag then p₁ else p₁.endSessionOn k .surge
  else if b.surgeTimer.running then p
  else p.setSurgeFlag k false none

/-- The ring without the entries whose age has reached the window (R60, step 1). -/
def ageRing (window now : Nat) (ring : List (Nat × Nat)) : List (Nat × Nat) := ring.filter fun e => now - e.1 < window

/-- The surging test of a SURGE channel (R61). -/
def Channel.testSurge (ch : Channel) (now : Nat) : Channel :=
  let ring := ageRing ch.surgeWindow now ch.surgeRing
  let sum := min (ring.map Prod.snd).sum Config.counterMax
  { ch with surgeRing := ring, windowSum := sum, surging := ch.valid && Nat.ble ch.surgeThreshold sum }

/-- Expiry of a barrier's surge hold timer (R105): every SURGE channel of the barrier is tested, then the flag is cleared or
the hold restarted. -/
def Plant.surgeHoldExpired (p : Plant) (k : Fin 4) : Plant :=
  let p₁ := (p.channelsAt k .surge).foldl (init := p) fun q c => q.setChannel c ((q.channel c).testSurge q.now)
  if p₁.anySurging k then p₁.setSurgeFlag k (p.barrier k).surgeFlag (.startMin (p.barrier k).surgeHold)
  else p₁.setSurgeFlag k false none

/-! ### Breach assessment (R106) -/

/-- Any BREACH_WIRE channel of a barrier holds a set latch (R106). -/
def Plant.anyLatched (p : Plant) (k : Fin 4) : Bool := (p.channelsAt k .wire).any fun c => (p.channel c).latch

/-- The breach assessment at a change of a wire latch (R106): a change of the causes is handed to the ladder, and the
appearance of WIRE to the Exercise Unit. -/
def Plant.assessBreach (p : Plant) (k : Fin 4) : Plant :=
  let b := p.barrier k
  let wire := p.anyLatched k
  if wire = b.wire then p
  else
    let p₁ := (p.setBarrier k { b with wire := wire }).recomputeFor k
    if wire then p₁.endSessionOn k .breach else p₁

end Sys2Proof.Machine
end

