-- ==== Sys2Proof/Machine/Conditioning.lean ====
section
/-! DEFINITION. The Channel Conditioner (chapter 3) and the patterns that drive its exercise paths (R156): the STAGE chain,
SURGE and WIRE arrivals, lapse and return, and clearing. -/

namespace Sys2Proof.Machine

/-! ### The STAGE chain (R51 to R56) -/

/-- The clear at the miss limit (R51): the miss run and the clamp flag are kept. -/
def StagePath.clearMissed (s : StagePath) : StagePath :=
  { s with previous := none, ring := [], spikeRun := 0, latest := none, valid := false }

/-- A missing reading (R51); the second component says that a VALID path became INVALID. -/
def StagePath.miss (missLimit : Nat) (s : StagePath) : StagePath × Bool :=
  let m := min (s.missRun + 1) Config.missRunMax
  if m < missLimit then ({ s with missRun := m }, false)
  else ({ s.clearMissed with missRun := m }, s.valid)

/-- The scaled stage before the clamp (R52). -/
def Channel.scaled (ch : Channel) (r : Nat) : Int :=
  let p : Int := (r * ch.gain / 4096 : Nat)
  if ch.invert then ch.offset - p else ch.offset + p

/-- The clamp to 0..4095, with its flag (R52). -/
def clampStage (s : Int) : Nat × Bool :=
  if s < 0 then (0, true) else if (Config.stageMax : Int) < s then (Config.stageMax, true) else (s.toNat, false)

/-- The distance of two stages. -/
def stageGap (a b : Nat) : Nat := (a - b) + (b - a)

/-- The slew limit (R53): the value taken and the spike run after it. -/
def slewLimit (limit accept : Nat) (previous : Option Nat) (run s : Nat) : Nat × Nat :=
  match previous with
  | none => (s, 0)
  | some v =>
    if limit = 0 ∨ stageGap s v ≤ limit then (s, 0)
    else if run + 1 < accept then (if v < s then v + limit else v - limit, run + 1)
    else (s, 0)

/-- The averaging ring takes a value; its oldest leaves when it would hold more than N (R54). -/
def pushRing (n v : Nat) (ring : List Nat) : List Nat := (ring ++ [v]).drop (ring.length + 1 - n)

/-- The truncated mean of a ring (R54). -/
def ringMean (ring : List Nat) : Nat := ring.sum / ring.length

/-- A raw value other than a missing reading (R52 to R55); the second component says that the path hands a value on (R56). -/
def StagePath.value (ch : Channel) (r : Nat) (s : StagePath) : StagePath × Bool :=
  let (stage, clamped) := clampStage (ch.scaled r)
  let (taken, run) := slewLimit ch.slew ch.spikeAccept s.previous s.spikeRun stage
  let ring := pushRing ch.window taken s.ring
  ({ valid := ch.eligible, previous := some taken, spikeRun := run, missRun := 0, ring := ring,
     latest := some (ringMean ring), clamped := clamped }, ch.eligible)

/-- A path conditions one raw value (R51 to R56), with whether it makes a report to its vote. -/
def StagePath.condition (ch : Channel) (r : Nat) (s : StagePath) : StagePath × Bool :=
  if r = Config.missingRaw then s.miss ch.missLimit else s.value ch r

/-! ### Patterns (R154, R156) -/

/-- A restart of a pattern (Pattern records). -/
def Pattern.restart (q : Pattern) : Pattern := { q with ramp := q.start, phaseB := false, gen := q.seed, yields := 0 }

/-- One PRBS step (R156). -/
def prbsStep (g : Half) : Half := if g.getLsbD 0 then (g >>> 1) ^^^ 0xB400 else g >>> 1

/-- A pattern yields one raw value for a reading of raw value `r` (R156). -/
def Pattern.yield (q₀ : Pattern) (r : Nat) : Nat × Pattern :=
  let q := { q₀ with yields := raise q₀.yields 1 }
  match q.kind with
  | .none => (r, q)
  | .ramp => (q.ramp.toNat, { q with ramp := q.ramp + BitVec.ofInt 16 q.step })
  | .alternate => ((if q.phaseB then q.valueB else q.valueA).toNat, { q with phaseB := !q.phaseB })
  | .prbs => ((prbsStep q.gen).toNat, { q with gen := prbsStep q.gen })

/-! ### Arrival of a reading (R50) -/

/-- A report of a LEVEL channel's real path reaches its barrier's vote (R56, R57). -/
def Plant.reportReal (p : Plant) (ch : Channel) (report : Bool) : Plant :=
  match report, ch.barrier with
  | true, some k => p.vote k
  | _, _ => p

/-- A report of a channel's exercise path reaches the exercise vote, if the channel is of the session barrier while a
session is active (R56, R57). -/
def Plant.reportExercise (p : Plant) (ch : Channel) (report : Bool) : Plant :=
  match report, ch.barrier with
  | true, some k => p.exerciseVote k
  | _, _ => p

/-- A reading drives the exercise path of a LEVEL channel of the session barrier (R50, R156). -/
def Plant.driveExercise (p : Plant) (c : Fin 48) (r : Nat) : Plant :=
  let ch := p.channel c
  if ch.barrier.isSome ∧ p.session.current = ch.barrier then
    let (raw, pattern) := (p.pattern c).yield r
    let (path, report) := ch.exer.condition ch raw
    ((p.setPattern c pattern).setChannel c { ch with exer := path }).reportExercise ch report
  else p

/-- A reading at a STAGE channel: the real path, then the exercise path (R50). -/
def Plant.stageArrival (p : Plant) (c : Fin 48) (r : Nat) : Plant :=
  let ch := p.channel c
  let (path, report) := ch.real.condition ch r
  ((p.setChannel c { ch with real := path }).reportReal ch report).driveExercise c r

/-- The entry of a count into an aged surge ring (R60, step 2). -/
def enterRing (now r : Nat) (ring : List (Nat × Nat)) : List (Nat × Nat) :=
  match ring.reverse with
  | [] => [(now, min r Config.counterMax)]
  | (t, n) :: older =>
    if t = now ∨ ring.length = Config.surgeRingMax then older.reverse ++ [(t, raise n r)]
    else ring ++ [(now, min r Config.counterMax)]

/-- The report of a SURGE channel reaches its barrier's surge assessment (R57, R60). -/
def Plant.reportSurge (p : Plant) (ch : Channel) : Plant :=
  match ch.barrier with
  | some k => p.assessSurge k
  | none => p

/-- An arrival at a SURGE channel (R60). -/
def Plant.surgeArrival (p : Plant) (c : Fin 48) (r : Nat) : Plant :=
  let ch := p.channel c
  let entered := { ch with surgeRing := enterRing p.now r (ageRing ch.surgeWindow p.now ch.surgeRing), valid := ch.eligible }
  (p.setChannel c (entered.testSurge p.now)).reportSurge ch

/-- A change of a wire latch is handed to its barrier's breach assessment (R62). -/
def Plant.reportLatch (p : Plant) (ch : Channel) (changed : Bool) : Plant :=
  match changed, ch.barrier with
  | true, some k => p.assessBreach k
  | _, _ => p

/-- An arrival at a WIRE channel (R63). -/
def Plant.wireArrival (p : Plant) (c : Fin 48) (r : Nat) : Plant :=
  let ch := p.channel c
  let broken := r != 0
  (p.setChannel c { ch with lastReading := some (if broken then .broken else .intact), latch := ch.latch || broken,
                            valid := ch.eligible }).reportLatch ch (broken && !ch.latch)

/-- A reading reaches a channel (R50). -/
def Plant.reading (p : Plant) (c : Fin 48) (r : Nat) : Plant :=
  let ch := p.channel c
  if ch.inUse && ch.enabled then
    match ch.kind with
    | .stage => p.stageArrival c r
    | .surge => p.surgeArrival c r
    | .wire => p.wireArrival c r
  else p

/-! ### Lapse, return, clearing (R57 to R59, R62, R68) -/

/-- The reports of a channel whose validity is lost (R57), from what it was before. -/
def Plant.reportLost (p : Plant) (old : Channel) : Plant :=
  if old.inUse then
    match old.kind with
    | .stage => (p.reportReal old old.real.valid).reportExercise old old.exer.valid
    | .surge => if old.valid then p.reportSurge old else p
    | .wire => p
  else p

/-- What a lapse does to a channel record (R58). -/
def Channel.lapsed (ch : Channel) : Channel :=
  if ch.inUse then
    match ch.kind with
    | .stage => { ch with eligible := false, real := .cleared, exer := .cleared }
    | .surge => { ch with eligible := false, valid := false, surging := false }
    | .wire => { ch with eligible := false, valid := false }
  else { ch with eligible := false }

/-- A lapse reaches a channel (R58) and is reported (R57). -/
def Plant.lapse (p : Plant) (c : Fin 48) : Plant :=
  (p.setChannel c (p.channel c).lapsed).reportLost (p.channel c)

/-- A lapse is sent to channels in turn (R38, R57). -/
def Plant.lapseAll (p : Plant) (cs : List (Fin 48)) : Plant := cs.foldl (init := p) fun q c => q.lapse c

/-- A return is sent to channels (R38, R59). -/
def Plant.returnAll (p : Plant) (cs : List (Fin 48)) : Plant :=
  cs.foldl (init := p) fun q c => q.setChannel c { q.channel c with eligible := true }

/-- All conditioning state of a channel cleared: paths, surge ring, latch and last reading (R47, R48, R68). -/
def Channel.clearState (ch : Channel) : Channel :=
  { ch with real := .cleared, exer := .cleared, surgeRing := [], windowSum := 0, surging := false, valid := false,
            latch := false, lastReading := none }

/-- Whether a station maps a channel and is LIVE or LATE (R47, R59). -/
def Plant.sourceOf (p : Plant) (c : Fin 48) : Bool :=
  (p.mappingStation c).any fun i => (p.station i).eligible

/-- An accepted LOAD_CHANNEL writes a record (R47, R48); the old role is withdrawn and the latch's clearing reported. -/
def Plant.writeChannel (p : Plant) (c : Fin 48) (new : Channel) : Plant :=
  let old := p.channel c
  let p₁ := p.setChannel c { new.clearState with eligible := p.sourceOf c }
  (p₁.reportLost old).reportLatch old (old.inUse && old.kind == .wire && old.latch)

/-- The exercise paths of a barrier's LEVEL channels are cleared and the exercise vote with them (R159, R161; log entry 9). -/
def Plant.clearExercisePaths (p : Plant) (k : Fin 4) : Plant :=
  (p.channelsAt k .stage).foldl (init := p) fun q c => q.setChannel c { q.channel c with exer := .cleared }

/-- All pattern records restarted (R159, R161). -/
def Plant.restartPatterns (p : Plant) : Plant := { p with patterns := mapAll p.patterns Pattern.restart }

/-- The exercise estimate record cleared; its superseded count is kept (R92, R108). -/
def ExerciseRec.clear (x : ExerciseRec) : ExerciseRec :=
  { x with estimate := none, history := [], validCount := 0, lastStage := none }

end Sys2Proof.Machine
end

