-- ==== Sys2Proof/Machine/Intake.lean ====
section
/-! DEFINITION. The Station Table (chapter 2): SAMPLE intake, silence, loading and retiring of stations. -/

namespace Sys2Proof.Machine

/-- The station record in use whose line address is a source (R14, R31). -/
def Plant.stationOf (p : Plant) (addr : Byte) : Option (Fin 24) :=
  (List.finRange 24).find? fun i => (p.station i).inUse && (p.station i).addr == addr

/-- The readings of a payload after its count: slot and raw value, high byte first (Payloads). -/
def readingsOf : List Byte → List (Nat × Nat)
  | slot :: hi :: lo :: rest => (slot.toNat, (wordOf hi lo).toNat) :: readingsOf rest
  | _ => []

/-- The length check of a SAMPLE payload (R32). -/
def malformedSample (payload : List Byte) : Bool :=
  match payload with
  | [] => true
  | n :: rest => n.toNat == 0 || Nat.blt 8 n.toNat || rest.length != 3 * n.toNat

/-- What an accepted frame adds to the gap count (R34). -/
def gapAdded (last : Option Byte) (seq : Byte) : Nat :=
  match last with
  | none => 0
  | some l => if seq = 0 then 0 else (seq - l - 1).toNat

/-- The channel a slot number names in a slot map, if it names one (R35). -/
def Station.slotChannel (st : Station) (slot : Nat) : Option (Fin 48) :=
  if h : slot < 8 then st.slots.get ⟨slot, h⟩ else none

/-- An accepted frame's readings handed to the channels, in payload order (R35). -/
def Plant.handReadings (p : Plant) (st : Station) (rs : List (Nat × Nat)) : Plant :=
  rs.foldl (init := p) fun q r =>
    match st.slotChannel r.1 with
    | some c => q.reading c r.2
    | none => q

/-- The station is updated after the readings of an accepted frame (R36, R39). -/
def Plant.stationHeard (p : Plant) (i : Fin 24) (seq : Byte) : Plant :=
  let st := p.station i
  let p₁ := p.setStation i { st with accepted := raise st.accepted 1, lastSeq := some seq,
                                     timer := .start st.timeout, state := .live }
  match st.state with
  | .unknown => p₁.returnAll st.channels
  | .silent since => (p₁.returnAll st.channels).post .stationBack i.1 (secondsSince p.now since)
  | .live | .late => p₁
  | .retired => p

/-- A SAMPLE handed to the Station Table for a station record (R31 to R36). -/
def Plant.readSample (p : Plant) (i : Fin 24) (f : Frame) : Plant :=
  let st := p.station i
  if st.state = .retired then p
  else if malformedSample f.payload then p.setStation i { st with malformed := raise st.malformed 1 }
  else if st.lastSeq = some f.seq then p.setStation i { st with duplicate := raise st.duplicate 1 }
  else
    let p₁ := p.setStation i { st with gap := raise st.gap (gapAdded st.lastSeq f.seq) }
    (p₁.handReadings st (readingsOf f.payload.tail)).stationHeard i f.seq

/-- Expiry of a station's silence timer (R37, R39). -/
def Plant.silenceExpired (p : Plant) (i : Fin 24) : Plant :=
  let st := p.station i
  match st.state with
  | .live => p.setStation i { st with state := .late, timer := .start st.timeout }
  | .late =>
    ((p.setStation i { st with state := .silent p.now, timer := none }).lapseAll st.channels).post
      .stationSilent i.1 ((st.lastSeq.map BitVec.toNat).getD Config.counterMax)
  | .unknown | .silent _ | .retired => p

/-- The channels of an old or a new slot map, in ascending index, each once (R28). -/
def mappedByEither (old new : Station) : List (Fin 48) := (List.finRange 48).filter fun c => old.maps c || new.maps c

/-- A station record is rewritten by LOAD_STATION, and the channels of both maps are sent a lapse (R28, R29). -/
def Plant.writeStation (p : Plant) (i : Fin 24) (new : Station) : Plant :=
  (p.setStation i new).lapseAll (mappedByEither (p.station i) new)

/-- A station record that is not RETIRED yet is retired (R30). -/
def Plant.retire (p : Plant) (i : Fin 24) : Plant :=
  let st := p.station i
  if st.state = .retired then p
  else (p.setStation i { st with state := .retired, timer := none, lastSeq := none }).lapseAll st.channels

/-- A station record touches a barrier: one of its slots maps a channel in use at it (Station record). -/
def Plant.touches (p : Plant) (st : Station) (k : Fin 4) : Bool :=
  st.channels.any fun c => (p.channel c).inUse && (p.channel c).barrier == some k

/-- A station record touches an ACTIVE barrier (R27). -/
def Plant.touchesActive (p : Plant) (st : Station) : Bool :=
  (List.finRange 4).any fun k => p.touches st k && (p.barrier k).state == .active

end Sys2Proof.Machine
end

