-- ==== Sys2Proof/Machine/Operands.lean ====
section
/-! DEFINITION. The operands of a request: the fields of its argument bytes (R186, Request codes and arguments) and its place
in the catalogue of requests (R169). -/

namespace Sys2Proof.Machine

/-- Argument byte `i` (R186). -/
def Request.byte (r : Request) (i : Nat) : Byte := r.args.getD i 0

/-- Argument byte `i` as a number. -/
def Request.num (r : Request) (i : Nat) : Nat := (r.byte i).toNat

/-- The 16-bit argument field at offset `i`, high byte first (R186). -/
def Request.word (r : Request) (i : Nat) : Half := wordOf (r.byte i) (r.byte (i + 1))

/-- The same as a number. -/
def Request.num16 (r : Request) (i : Nat) : Nat := (r.word i).toNat

/-- A signed 16-bit field, two's complement (R186). -/
def Request.int16 (r : Request) (i : Nat) : Int := (r.word i).toInt

/-- A target index as an index of a table of `n` records, if it is one. -/
def Request.index (r : Request) (n : Nat) : Option (Fin n) :=
  if h : r.target.toNat < n then some ⟨r.target.toNat, h⟩ else none

/-- A byte as an index below `n`, or 255 for NONE (R186); `none` if it is neither. -/
def indexOrNone (n : Nat) (b : Byte) : Option (Option (Fin n)) :=
  if h : b.toNat < n then some (some ⟨b.toNat, h⟩) else if b = 255 then some none else none

/-- A value clamped to a range (R2). -/
def clampTo (lo hi x : Nat) : Nat := max lo (min x hi)

/-- Request classes (R169). -/
inductive ReqClass
  | read
  | status
  | write
  | inspectOff
  deriving DecidableEq, Repr

/-- A request of the catalogue: its class and the argument length its code asks for (R169; Request codes and arguments). -/
def catalogue (code : Byte) : Option (ReqClass × Nat) :=
  match code.toNat with
  | 0x01 => some (.write, 7)
  | 0x02 => some (.status, 0)
  | 0x03 => some (.status, 0)
  | 0x04 => some (.write, 0)
  | 0x05 => some (.write, 0)
  | 0x06 => some (.inspectOff, 0)
  | 0x07 => some (.write, 1)
  | 0x10 => some (.write, 11)
  | 0x11 => some (.write, 0)
  | 0x12 => some (.read, 0)
  | 0x18 => some (.write, 18)
  | 0x19 => some (.write, 0)
  | 0x1A => some (.read, 0)
  | 0x1B => some (.write, 11)
  | 0x1C => some (.read, 0)
  | 0x20 => some (.write, 34)
  | 0x21 => some (.read, 1)
  | 0x22 => some (.write, 8)
  | 0x23 => some (.write, 0)
  | 0x24 => some (.write, 0)
  | 0x25 => some (.read, 0)
  | 0x26 => some (.status, 0)
  | 0x30 => some (.write, 16)
  | 0x31 => some (.write, 3)
  | 0x32 => some (.write, 1)
  | 0x33 => some (.write, 0)
  | 0x34 => some (.read, 0)
  | 0x35 => some (.status, 0)
  | 0x40 => some (.write, 0)
  | 0x41 => some (.write, 0)
  | 0x42 => some (.write, 0)
  | _ => none

/-- The code of RESET. -/
def codeReset : Byte := 0x07

/-- Scope codes of RESET (Code values). -/
def scopeEval : Nat := 1
/-- LINES. -/
def scopeLines : Nat := 2
/-- ALL. -/
def scopeAll : Nat := 3

/-- A RESET request that carries a scope, and no more than the one argument byte. -/
def Request.resetOf (r : Request) (scope : Nat) : Bool :=
  r.code == codeReset && r.args.length == 1 && r.num 0 == scope

/-- A mask byte read (R117): `none` if it names CLEAR or BREACH; bits 5..7 are unused. -/
def maskOf (b : Byte) : Option Mask :=
  if b.getLsbD 0 || b.getLsbD 4 then none
  else some { watch := b.getLsbD 1, warn := b.getLsbD 2, evacuate := b.getLsbD 3 }

end Sys2Proof.Machine
end

