-- ==== Sys2Proof/Machine/Reports.lean ====
section
/-! DEFINITION. The bytes the part sends in replies, notices and alerts (R186, R187; Reply data, Payloads). -/

namespace Sys2Proof.Machine

/-- A one-byte field, reported saturating (R186). -/
def field8 (n : Nat) : Byte := BitVec.ofNat 8 (min n 255)

/-- A two-byte field, high byte first, reported saturating (R186). -/
def field16 (n : Nat) : List Byte :=
  let m := min n 65535
  [BitVec.ofNat 8 (m / 256), BitVec.ofNat 8 m]

/-- A four-byte field: part time (R186). -/
def field32 (n : Nat) : List Byte :=
  let m := min n 4294967295
  [BitVec.ofNat 8 (m / 16777216), BitVec.ofNat 8 (m / 65536), BitVec.ofNat 8 (m / 256), BitVec.ofNat 8 m]

/-- A word sent high byte first. -/
def fieldWord (w : Half) : List Byte := [highByte w, lowByte w]

/-- A signed two-byte field, two's complement (R186). -/
def fieldInt (i : Int) : List Byte := fieldWord (BitVec.ofInt 16 i)

/-- A two-byte field whose absent value is 0xFFFF (R186). -/
def field16? (o : Option Nat) : List Byte := field16 (o.getD 65535)

/-- An index or address byte whose none is 255 (R186). -/
def fieldIx {n : Nat} (o : Option (Fin n)) : Byte := (o.map fun i => BitVec.ofNat 8 i.1).getD 255

/-- A yes/no byte (R186). -/
def fieldBool (b : Bool) : Byte := field8 (boolCode b)

/-- The 10-bit fill of a packed word; none is 1023 (R186). -/
def fill10 (o : Option Nat) : Nat := min (o.getD 1023) 1023

/-- READ_STATION data (R41). -/
def stationData (now : Nat) (st : Station) : List Byte :=
  let silent := match st.state with
    | .silent since => secondsSince now since
    | .unknown | .live | .late | .retired => 0
  [fieldBool st.inUse, st.addr] ++ st.slots.toList.map fieldIx ++ field16 st.timeout ++
    [field8 st.state.code] ++ field16? (st.lastSeq.map BitVec.toNat) ++ field16 silent ++
    field16 st.accepted ++ field16 st.duplicate ++ field16 st.gap ++ field16 st.malformed

/-- The report of one STAGE path (R65); VALID and a set clamp flag are 1 (DEDUCED, log entry 26). -/
def pathData (s : StagePath) : List Byte :=
  [fieldBool s.valid] ++ field16? s.latest ++ field16? s.previous ++
    [field8 s.spikeRun, field8 s.missRun, field8 s.ring.length, fieldBool s.clamped]

/-- The kind block of READ_CHANNEL (R65); VALID and a set latch are 1 (DEDUCED, log entry 26). -/
def channelBlock (ch : Channel) : List Byte :=
  match ch.kind with
  | .stage => pathData ch.real ++ pathData ch.exer
  | .surge => [fieldBool ch.valid, field8 ch.surgeRing.length] ++ field16 ch.windowSum ++ [fieldBool ch.surging]
  | .wire => [fieldBool ch.valid, fieldBool ch.latch,
      match ch.lastReading with
      | some .intact => 0
      | some .broken => 1
      | none => 255]

/-- READ_CHANNEL data (R65). -/
def channelData (ch : Channel) : List Byte :=
  [fieldBool ch.inUse, fieldBool ch.enabled, field8 ch.kind.code, fieldIx ch.barrier,
    if ch.barrier.isSome then field8 ch.kind.code else 255, fieldBool ch.eligible] ++
    field16 ch.gain ++ fieldInt ch.offset ++ [fieldBool ch.invert] ++ field16 ch.slew ++
    [field8 ch.spikeAccept, field8 ch.window, field8 ch.missLimit] ++ field16 ch.surgeWindow ++
    field16 ch.surgeThreshold ++ channelBlock ch

/-- READ_PATTERN data (R157). -/
def patternData (q : Pattern) : List Byte :=
  [field8 q.kind.code] ++ fieldWord q.start ++ fieldInt q.step ++ fieldWord q.valueA ++ fieldWord q.valueB ++
    fieldWord q.seed ++ fieldWord q.ramp ++ [fieldBool q.phaseB] ++ fieldWord q.gen ++ field16 q.yields

/-- One point. -/
def pointData (q : Point) : List Byte := field16 q.stage ++ field16 q.volume

/-- READ_STAGE_POINTS data (R76): an absent crest stage is 0xFFFF, an absent capacity 0. -/
def tableData (t : Table) (half : Nat) : List Byte :=
  [field8 t.count, field8 t.verdict.code, field8 t.verdict.reasonCode, field8 (t.verdict.reasonPoint.getD 255)] ++
    field16? (t.verdict.crest?.map Prod.fst) ++ field16 ((t.verdict.crest?.map Prod.snd).getD 0) ++
    (((t.points.toList.drop (8 * half)).take 8).map pointData).flatten

/-- READ_BARRIER data (R109). -/
def barrierData (b : Barrier) : List Byte :=
  field16 b.rateWindow ++ field16 b.spacing ++ field16 b.watchFill ++ field16 b.warnFill ++
    [field8 b.surgeHold, fieldBool b.overtopBreach]

/-- The estimate block; an absent estimate is a block of 0s (Reply data). Bits 7..3 of byte 0 are 0 (DESIGN CHOICE, log
entry 25). -/
def estimateBlock (o : Option Estimate) : List Byte :=
  match o with
  | none => List.replicate 11 0
  | some e => [field8 (1 + 2 * boolCode e.above + 4 * boolCode e.rated)] ++ field16 e.volume ++ field16 e.fill ++
      fieldInt e.ownRate ++ field16 e.effRate ++ field16 e.ttf

/-- The time and volume of a history record; 0 while the ring is empty (R109, R187; DESIGN CHOICE, log entry 23). -/
def historyData (o : Option HistoryRec) : List Byte :=
  field32 ((o.map HistoryRec.time).getD 0) ++ field16 ((o.map HistoryRec.volume).getD 0)

/-- STATUS_BARRIER data (R109). A set surge flag is 1 (DEDUCED, log entry 26); bits 7..2 of the breach causes are 0 (DESIGN
CHOICE, log entry 25). -/
def barrierStatus (p : Plant) (k : Fin 4) : List Byte :=
  let b := p.barrier k
  [field8 b.state.code, field8 (p.evalState (.barrier k)).code, fieldBool (p.queued (.barrier k)), field8 b.validCount,
    field8 (p.assigned k), field8 ((b.voteQuality.map VoteQuality.code).getD 255),
    field8 ((b.quality.map VoteQuality.code).getD 3)] ++ field16? b.lastStage ++ estimateBlock b.estimate ++
    [field8 b.history.length] ++ historyData b.history.head? ++ historyData b.history.getLast? ++
    [fieldBool b.surgeFlag] ++ field16 b.surgeTimer.left ++ [field8 (boolCode b.wire + 2 * boolCode b.overtop)] ++
    field16 b.superseded

/-- Places filled up with bytes of 0. -/
def padTo (n : Nat) (bytes : List Byte) : List Byte := bytes ++ List.replicate (n - bytes.length) 0

/-- READ_VILLAGE data (R132). -/
def villageData (vl : Village) : List Byte :=
  [fieldBool vl.inUse, vl.addr] ++ field16 vl.evac ++ field16 vl.warn ++ field16 vl.watch ++
    [field8 vl.holdTime, field8 vl.ackMode.code, field8 vl.ackTimeout, field8 vl.retryLimit] ++
    field16 vl.reachInterval ++ field16 vl.repeatInterval ++ [fieldBool vl.permit, field8 vl.mask.code] ++
    [field8 vl.routes.toList.reduceOption.length] ++
    padTo 12 ((List.finRange 4).filterMap fun k => (vl.routes.get k).map fun r =>
      [BitVec.ofNat 8 k.1] ++ field16 r.travel).flatten

/-- One route entry of STATUS_VILLAGE; bits 12..10 of its word are 0 (DESIGN CHOICE, log entry 25). -/
def routeStatus (k : Fin 4) (r : Route) : List Byte :=
  [field8 (64 * k.1 + 8 * r.level.code + r.held.code)] ++ field16 (8192 * r.cause.code + fill10 r.fill) ++ field16 r.available

/-- A content byte, 0xFF for none (R186); bits 6..3 of a content present are 0 (DESIGN CHOICE, log entry 25). -/
def contentByte (o : Option Content) : Byte := (o.map fun c => field8 c.code).getD 255

/-- Byte 31 and the reports of the dispatch record in STATUS_VILLAGE (R153). The due reason is 0 unless DUE, and bit 0 of byte
31 is 0 (DESIGN CHOICE, log entries 24 and 25). -/
def dispatchStatus (now : Nat) (ackMode : AckMode) (d : Dispatch) : List Byte :=
  let (reason, time, pending) := match d.state with
    | .due reason time pending => (reason.code, min (now - time) 255, some pending)
    | .quiet | .await | .unreached => (0, 0, none)
  [field8 (64 * d.state.code + 16 * reason + 8 * boolCode d.onLine + 4 * boolCode d.openOffer + 2 * boolCode d.suppressed),
    contentByte pending, contentByte (some d.current), contentByte d.offered, contentByte (some d.delivered),
    field8 d.retry, field8 d.ackTimer.left, field8 time] ++
    field16 (match ackMode with
      | .confirmed => d.reachTimer.left
      | .unconfirmed => d.repeatTimer.left) ++
    field16 ((d.unreachedSince.map fun since => now - since).getD 0) ++ field16 d.stale

/-- STATUS_VILLAGE data (R132, R153); bits 7 and 3 of byte 1 are 0 (DESIGN CHOICE, log entry 25). -/
def villageStatus (now : Nat) (vl : Village) (d : Dispatch) : List Byte :=
  let routes := vl.routes.toList.reduceOption.length
  [field8 (128 * boolCode vl.latch + 16 * vl.computed.code + 8 * boolCode (vl.exCause == .fill) + vl.announced.code),
    field8 (16 * vl.exComputed.code + vl.exAnnounced.code)] ++ field16 vl.holdTimer.left ++ [fieldIx vl.decBarrier] ++
    field16 (8192 * vl.decCause.code + 1024 * routes + fill10 vl.decFill) ++ field16 vl.decAvailable ++
    field16 vl.exAvailable ++
    padTo 20 ((List.finRange 4).filterMap fun k => (vl.routes.get k).map (routeStatus k)).flatten ++
    dispatchStatus now vl.ackMode d

/-- One port of STATUS_LINES, with the length of the forward queue its receiver feeds (R13). -/
def portStatus (now : Nat) (r : PortRec) (queue : List Frame) : List Byte :=
  let downSeconds := match r.state with
    | .down since => secondsSince now since
    | .waiting | .up => 0
  [field8 r.state.code] ++ field16 downSeconds ++ field16 r.good ++ field16 r.check ++ field16 r.framing ++
    field16 r.breaks ++ field16 r.drops ++ [field8 queue.length]

/-- STATUS_LINES data (R13). -/
def linesStatus (s : State) : List Byte :=
  portStatus s.plant.now s.line.u s.line.ud ++ portStatus s.plant.now s.line.d s.line.du

/-- Notice kinds in set order, one per half-byte, high half first, 0 where empty (STATUS_PART). -/
def noticeNibbles : Nat → List Nat → List Byte
  | 0, _ => []
  | n + 1, a :: b :: rest => BitVec.ofNat 8 (16 * a + b) :: noticeNibbles n rest
  | n + 1, [a] => BitVec.ofNat 8 (16 * a) :: noticeNibbles n []
  | n + 1, [] => 0 :: noticeNibbles n []

/-- The seconds of a session: since its start while active, its length once ended, 0 if none has run (R166). -/
def sessionSeconds (now : Nat) (s : Session) : Nat :=
  match s.start with
  | none => 0
  | some start => if s.active then now - start else (s.endTime.map fun e => e - start).getD 0

/-- The session report of STATUS_PART (R166); bits 6..3 of byte 21 are 0 (DESIGN CHOICE, log entry 25). -/
def sessionStatus (p : Plant) : List Byte :=
  let x := p.exercise
  [field8 (128 * boolCode p.session.active + p.session.endReason.code), fieldIx p.session.barrier] ++
    field16 (sessionSeconds p.now p.session) ++ field16 p.session.timer.left ++
    [field8 (16 * x.history.length + 4 * (p.evalState .exercise).code + x.validCount)] ++ field16? x.lastStage ++
    estimateBlock x.estimate ++ field16 x.superseded

/-- STATUS_PART data (R178): no report address is 0, no manager address 255 (R186). -/
def partStatus (s : State) : List Byte :=
  let set := s.mgmt.settings
  [s.ownAddr, s.straps.addr,
    field8 (32 * s.mgmt.replies.length + 8 * s.mgmt.requests.length + 4 * boolCode set.inspecting + s.straps.rate.toNat)] ++
    field32 s.plant.now ++ [set.report.getD 0, field8 set.managers.length, set.managers.getD 0 255, set.managers.getD 1 255] ++
    field16 set.ceiling ++ [field8 set.duration] ++
    noticeNibbles 5 (s.plant.notices.map fun n => n.kind.code) ++ field16 s.mgmt.discarded ++ sessionStatus s.plant

/-- The payload of a REPLY: data only for DONE (R187). -/
def Reply.payload (r : Reply) : List Byte :=
  [r.code, r.target, field8 r.outcome.code] ++ if r.outcome = .done then r.data else []

/-- The payload of a NOTICE (R187, Payloads). -/
def Notice.payload (n : Notice) : List Byte :=
  [field8 n.kind.code, field8 n.subject, field8 n.count] ++ field16 n.value

/-- The payload of an ALERT to a village for its pending content (R139, Payloads). -/
def alertPayload (p : Plant) (v : Fin 8) (c : Content) : List Byte :=
  let vl := p.village v
  let cause := if c.level = .clear then Cause.allClear else if c.marked then vl.exCause else vl.decCause
  let barrier := if c.marked then p.session.current else vl.decBarrier
  let fill := if c.marked then p.exercise.estimate.map Estimate.fill else vl.decFill
  let available := if c.marked then vl.exAvailable else vl.decAvailable
  field16 (8192 * c.level.code + 1024 * cause.code + fill10 fill) ++ [fieldIx barrier] ++ field16 available

end Sys2Proof.Machine
end

