-- ==== Sys2Proof/Machine/Ops.lean ====
section
/-! DEFINITION. The shared operations on the whole part: holding it in reset, the full reset, taking a request in, executing
the request at the head of the queue, replies, and the end of a long-running request. -/

namespace Sys2Proof.Machine

/-- A command's effect while the part is out of reset; while nRESET is held low it changes nothing (R4; log entry 3). -/
def State.running (s : State) (effect : State → State) : State := if s.nresetLow then s else effect s

/-- A step inside the plant. -/
def State.onPlant (s : State) (f : Plant → Plant) : State := { s with plant := f s.plant }

/-- The full reset: every block in its full-reset state, the straps sampled, part time 0 and UNCONFIGURED posted; the
commands that wait are kept (R3, R4, R26, R184). -/
def State.fullReset (s : State) (straps : Straps) (uSpacing dSpacing : Bool) : State :=
  { nresetLow := false, straps := straps, line := .cleared uSpacing dSpacing, plant := .afterReset straps.addr,
    mgmt := .cleared, pending := s.pending }

/-! ### Replies (R172) -/

/-- A reply is appended to the reply queue, or discarded and counted when the queue holds 4 (R172). -/
def Mgmt.pushReply (m : Mgmt) (r : Reply) : Mgmt :=
  if m.replies.length < Config.replyQueueMax then { m with replies := m.replies ++ [r] }
  else { m with discarded := raise m.discarded 1 }

/-- The reply of a request with an outcome and data (R172, R187). -/
def Request.replyWith (r : Request) (o : ReqOutcome) (data : List Byte) : Reply :=
  { dst := r.src, code := r.code, target := r.target, outcome := o, data := data }

/-- A request completes: it leaves the head of the queue, and its reply is made unless it was QUIET and DONE (R168, R172). -/
def Mgmt.complete (m : Mgmt) (r : Request) (o : ReqOutcome) (data : List Byte) : Mgmt :=
  let m := { m with requests := m.requests.tail, executing := none }
  if r.quiet && o == .done then m else m.pushReply (r.replyWith o data)

/-! ### Taking a request in (R167) -/

/-- The request that a REQUEST frame carries; its payload begins with the code and the target index (Payloads). -/
def requestOf (f : Frame) : Option Request :=
  match f.payload with
  | code :: target :: args =>
    some { src := f.src, code := code, target := target, quiet := f.quietFlag, afterEval := f.afterEvalFlag, args := args }
  | _ => none

/-- The Request Unit takes a REQUEST frame (R167). -/
def Mgmt.takeIn (m : Mgmt) (f : Frame) : Mgmt :=
  match requestOf f with
  | none => m
  | some r =>
    if r.src = 0 ∨ r.src = Config.broadcast then m
    else if m.settings.managers ≠ [] ∧ r.src ∉ m.settings.managers then m.pushReply (r.replyWith .notManager [])
    else if Config.requestQueueMax ≤ m.requests.length then m.pushReply (r.replyWith .locked [])
    else { m with requests := m.requests ++ [r] }

/-! ### Executing a request (R168 to R171) -/

/-- What a request's own rule answers: DONE with data, another outcome, or a wait (R170). -/
inductive ReqResult
  | done (data : List Byte)
  | refused (o : ReqOutcome)
  | wait (w : Wait)
  deriving DecidableEq, Repr

/-- The request at the head of the queue, when its execution can begin: no other one is executing (R168). -/
def State.head (s : State) : Option Request :=
  if s.mgmt.executing.isSome then none else s.mgmt.requests.head?

/-- The checks at the beginning of execution, in order (R169). -/
def State.precheck (s : State) (r : Request) : Option ReqOutcome :=
  match catalogue r.code with
  | none => some .badValue
  | some (cls, length) =>
    if s.mgmt.settings.inspecting ∧ cls = .write then some .inspecting
    else if r.args.length ≠ length then some .badValue
    else none

/-- What a result does to the executing request (R170, R172). -/
def State.settle (s : State) (r : Request) : ReqResult → State
  | .done data => { s with mgmt := s.mgmt.complete r .done data }
  | .refused o => { s with mgmt := s.mgmt.complete r o [] }
  | .wait w => { s with mgmt := { s.mgmt with executing := some w } }

/-- A request is executed: the checks of R169, then its own rule. -/
def State.execute (s : State) (r : Request) (rule : Request → State → State × ReqResult) : State :=
  match s.precheck r with
  | some o => s.settle r (.refused o)
  | none =>
    let (t, result) := rule r s
    t.settle r result

/-- The step that executes the head request, if that is a request `mine` recognises; otherwise the step does not occur and
nothing changes (R168; log entry 4). -/
def State.request (s : State) (mine : Request → Bool) (rule : Request → State → State × ReqResult) : State :=
  s.running fun s =>
    match s.head with
    | some r => if mine r then s.execute r rule else s
    | none => s

/-- A request recognised by its code. -/
def isCode (code : Nat) (r : Request) : Bool := r.code == BitVec.ofNat 8 code

/-- A rule that changes the plant alone. -/
def onPlant (rule : Request → State → Plant × ReqResult) (r : Request) (s : State) : State × ReqResult :=
  let (p, result) := rule r s
  ({ s with plant := p }, result)

/-- A rule that changes nothing and only answers. -/
def reading (rule : Request → State → ReqResult) (r : Request) (s : State) : State × ReqResult := (s, rule r s)

/-- A rule that changes nothing and refuses. -/
def refuse (s : State) (o : ReqOutcome) : Plant × ReqResult := (s.plant, .refused o)

/-- A rule that changes the plant and is done, with no data (R187). -/
def finished (p : Plant) : Plant × ReqResult := (p, .done [])

/-! ### The end of a long-running request (R87, R100, R170, R171) -/

/-- The barrier a wait is for. -/
def Wait.barrier : Wait → Fin 4
  | .run k | .read k | .status k => k

/-- The reply data of a wait that ends at a completion of its barrier: the new fill for BARRIER_RUN, the report for a read
(R87, R171). -/
def Wait.data (p : Plant) : Wait → List Byte
  | .run k => field16 (((p.barrier k).estimate.map Estimate.fill).getD 0)
  | .read k => barrierData (p.barrier k)
  | .status k => barrierStatus p k

/-- A completion of barrier `k` is handed to the Request Unit, and ends a wait for it (R93, R100, R170, R171). -/
def State.wake (s : State) (k : Fin 4) : State :=
  match s.mgmt.executing, s.mgmt.requests with
  | some w, r :: _ => if w.barrier = k then { s with mgmt := s.mgmt.complete r .done (w.data s.plant) } else s
  | _, _ => s

end Sys2Proof.Machine
end

