-- ==== Sys2Proof/Machine/Ports.lean ====
section
/-! DEFINITION. Line ports, forward queues, transmitters and arbiter (chapter 1): receiving bytes and frames, breaks, port
states, classification, grants and completions, and RESET LINES. -/

namespace Sys2Proof.Machine

/-! ### Receiving (R5 to R9) -/

/-- A port abandons the frame in reception as FRAMING (R7, R8, R10). -/
def PortRec.abandonFrame (r : PortRec) : PortRec := { r with framing := raise r.framing 1, rx := .hunt }

/-- A check mismatch (R9). -/
def PortRec.mismatch (r : PortRec) : PortRec := { r with check := raise r.check 1, rx := .hunt }

/-- A frame received whole with matching check, as far as the receiver goes (R9). -/
def PortRec.matched (r : PortRec) : PortRec := { r with good := raise r.good 1, rx := .hunt }

/-- The receive state after six header bytes (R7): `none` for a payload length above 48. -/
def afterHeader (got : List Byte) (crc : Half) : Option RxState :=
  match got with
  | [dst, src, kind, seq, flags, length] =>
    let h : Header := ⟨dst, src, kind, seq, flags⟩
    if Config.maxPayload < length.toNat then none
    else if length.toNat = 0 then some (.check h [] crc none)
    else some (.payload h length.toNat [] crc)
  | _ => some (.header got crc)

/-- A whole frame from its parts. -/
def Header.frame (h : Header) (payload : List Byte) (check : Half) : Frame :=
  ⟨h.dst, h.src, h.kind, h.seq, h.flags, payload, check⟩

/-- A byte reaches the receive state (R6, R7, R9): the port after it, and the good frame if the byte completes one. -/
def PortRec.byte (r : PortRec) (b : Byte) : PortRec × Option Frame :=
  match r.rx with
  | .hunt => (if b = Config.preamble then { r with rx := .header [] checkStart } else r, none)
  | .header got crc =>
    match afterHeader (got ++ [b]) (checkByte crc b) with
    | some rx => ({ r with rx := rx }, none)
    | none => (r.abandonFrame, none)
  | .payload h length got crc =>
    let got := got ++ [b]
    let crc := checkByte crc b
    (if got.length < length then { r with rx := .payload h length got crc } else { r with rx := .check h got crc none }, none)
  | .check h payload crc none => ({ r with rx := .check h payload crc (some b) }, none)
  | .check h payload crc (some high) =>
    if wordOf high b = crc then (r.matched, some (h.frame payload crc)) else (r.mismatch, none)

/-- A byte error reaches the receive state (R6, R7, R9). -/
def PortRec.byteError (r : PortRec) : PortRec :=
  match r.rx with
  | .hunt => r
  | .header _ _ | .payload _ _ _ _ | .check _ _ _ _ => r.abandonFrame

/-- A receiver takes an item (R5): its stop bit shows the line marking, or spacing for a byte error (R10; log entry 6).
Nothing is delivered while the break state is BREAK. -/
def PortRec.take (r : PortRec) (x : RxItem) : PortRec × Option Frame :=
  if r.brk = .broken then (r, none)
  else
    match x with
    | .byte b => { r with brk := .marking }.byte b
    | .error => ({ r with brk := .spacing }.byteError, none)

/-- A receiver takes a whole frame at once (R7, R9; log entry 5): the frame is good, or it is what its bytes make it, a
FRAMING error for its length or a CHECK error. A frame in reception is dropped uncounted, and the new one is taken from
its preamble (DESIGN CHOICE, log entry 21). -/
def PortRec.takeFrame (r : PortRec) (f : Frame) : PortRec × Option Frame :=
  if r.brk = .broken then (r, none)
  else
    let r := { r with brk := .marking, rx := .hunt }
    if !f.withinLength then (r.abandonFrame, none)
    else if f.checkMatches then (r.matched, some f)
    else (r.mismatch, none)

/-! ### Port states (R11, R12) -/

/-- The subject index of a port's notices (R12). -/
def portSubject : Port → Nat
  | .u => 0
  | .d => 1

/-- Write a port's record in the state. -/
def State.setPort (s : State) (port : Port) (r : PortRec) : State := { s with line := s.line.setPort port r }

/-- A good frame reaches the port state (R11): a DOWN port comes UP and posts LINE_UP. -/
def State.portUp (s : State) (port : Port) : State :=
  let r := s.line.port port
  let t := s.setPort port { r with state := .up }
  match r.state with
  | .down since => t.onPlant fun p => p.post .lineUp (portSubject port) (secondsSince p.now since)
  | .waiting | .up => t

/-- A detected break reaches the port state (R11): a port that is not DOWN enters DOWN and posts LINE_DOWN. -/
def State.portDown (s : State) (port : Port) : State :=
  let r := s.line.port port
  match r.state with
  | .down _ => s
  | .waiting | .up =>
    (s.setPort port { r with state := .down s.plant.now }).onPlant fun p => p.post .lineDown (portSubject port) r.breaks

/-- A break is detected (R10). -/
def State.breakOn (s : State) (port : Port) : State :=
  let r := s.line.port port
  if r.brk = .broken then s
  else
    let r := { r with breaks := raise r.breaks 1, brk := .broken }.byteError
    (s.setPort port r).portDown port

/-! ### Classification and forward queues (R14 to R16) -/

/-- A frame is appended to the UD queue, or dropped and counted at port U (R16). -/
def Line.forwardDown (l : Line) (f : Frame) : Line :=
  if l.ud.length < Config.forwardQueueMax then { l with ud := l.ud ++ [f] }
  else { l with u := { l.u with drops := raise l.u.drops 1 } }

/-- A frame is appended to the DU queue, or dropped and counted at port D (R16). -/
def Line.forwardUp (l : Line) (f : Frame) : Line :=
  if l.du.length < Config.forwardQueueMax then { l with du := l.du ++ [f] }
  else { l with d := { l.d with drops := raise l.d.drops 1 } }

/-- A good frame received on port U is classified (R14). -/
def State.classifyU (s : State) (f : Frame) : State :=
  let s₁ := if f.dst = s.ownAddr then s else { s with line := s.line.forwardDown f }
  if f.kind = kindSample then
    match s.plant.stationOf f.src with
    | some i => s₁.onPlant fun p => p.readSample i f
    | none => s₁
  else s₁

/-- A good frame received on port D is classified (R15). -/
def State.classifyD (s : State) (f : Frame) : State :=
  let s₁ := if f.dst = s.ownAddr then s else { s with line := s.line.forwardUp f }
  if f.dst = s.ownAddr ∨ f.dst = Config.broadcast then
    if f.kind = kindRequest then { s₁ with mgmt := s₁.mgmt.takeIn f }
    else if f.kind = kindAlertAck then s₁.onPlant fun p => p.alertAck f
    else s₁
  else s₁

/-- A good frame is handed to the port state and then to the Frame Classifier (R9, R11). -/
def State.goodFrame (s : State) (port : Port) (f : Frame) : State :=
  match port with
  | .u => (s.portUp .u).classifyU f
  | .d => (s.portUp .d).classifyD f

/-- What a receiver made of its line is taken up: its record, and a good frame if there is one (R9). -/
def State.received (s : State) (port : Port) (taken : PortRec × Option Frame) : State :=
  let t := s.setPort port taken.1
  match taken.2 with
  | some f => t.goodFrame port f
  | none => t

/-! ### The U transmitter (R18) -/

/-- The U transmitter, idle with port U not DOWN, takes the head of the DU queue (R16, R18). -/
def Line.startU (l : Line) : Line :=
  match l.uTx, l.du with
  | none, f :: rest => if l.u.isDown then l else { l with du := rest, uTx := some f }
  | _, _ => l

/-- A transmission on U-tx ends, and the next head leaves at once if there is one and port U is not DOWN (R18). -/
def Line.completeU (l : Line) : Line := if l.uTx.isSome then { l with uTx := none }.startU else l

/-! ### The arbiter of D-tx (R20 to R23) -/

/-- What the arbiter grants. -/
inductive Grant
  | candidate (v : Fin 8) (c : Content)
  | forward (f : Frame)
  | reply (r : Reply)
  | notice (n : Notice)
  deriving DecidableEq, Repr

/-- The first entry of the list of R20 that applies, from what the sources hold. -/
def State.nextGrant (s : State) : Option Grant :=
  let cand := s.plant.candidate.map fun e => Grant.candidate e.2 e.1
  let urgent := s.plant.candidate.any fun e => Nat.ble Level.evacuate.code e.1.level.code
  let forward := s.line.ud.head?.map Grant.forward
  let pressing := Nat.ble Config.udWatermark s.line.ud.length && s.line.lastGrant != .forward
  (if urgent then cand else none) <|> (if pressing then forward else none) <|> cand <|>
    s.mgmt.replies.head?.map Grant.reply <|> s.plant.notices.head?.map Grant.notice <|> forward

/-- A frame the part builds takes the origin sequence counter, which then increases by 1 modulo 256 (R22, R23). -/
def State.sendOwn (s : State) (dst kind flags : Byte) (payload : List Byte) (origin : DOrigin) : State :=
  { s with line := { s.line with
      dTx := some { frame := buildFrame dst s.ownAddr kind s.line.originSeq flags payload, origin := origin },
      originSeq := s.line.originSeq + 1, lastGrant := .other } }

/-- The granted source gives up its frame, and the frame is fixed (R21, R22, R23, R139, R180). -/
def State.give (s : State) : Grant → State
  | .forward f => { s with line := { s.line with
      ud := s.line.ud.tail, dTx := some { frame := f, origin := .forward }, lastGrant := .forward } }
  | .candidate v c =>
    let d := s.plant.disp v
    (s.sendOwn (s.plant.village v).addr kindAlert (if c.marked then 1 else 0) (alertPayload s.plant v c)
      (.alert v d.offered d.openOffer)).onPlant fun p => p.setDisp v d.granted
  | .reply r =>
    let t := s.sendOwn r.dst kindReply 0 r.payload .reply
    { t with mgmt := { t.mgmt with replies := t.mgmt.replies.tail } }
  | .notice n =>
    (s.sendOwn (s.mgmt.settings.report.getD Config.broadcast) kindNotice 0 n.payload .notice).onPlant fun p =>
      { p with notices := p.notices.tail }

/-- The arbiter makes a grant if D-tx is IDLE, port D is not DOWN and a source holds something (R20). -/
def State.grant (s : State) : State :=
  if s.line.dTx.isNone ∧ s.line.d.isDown = false then
    match s.nextGrant with
    | some g => s.give g
    | none => s
  else s

/-- A transmission on D-tx ends: an ALERT's completion is handed to the dispatcher (R19, R140, R141). -/
def State.completeD (s : State) : State :=
  match s.line.dTx with
  | none => s
  | some tx =>
    let t := { s with line := { s.line with dTx := none } }
    match tx.origin with
    | .alert v _ _ => t.onPlant fun p => p.updateDisp v fun active now d => d.alertDone active now (p.village v)
    | .forward | .reply | .notice => t

/-! ### RESET LINES (R25) -/

/-- A port after RESET LINES: its break state follows the line as it stands, never BREAK (R25). -/
def PortRec.resetLine (r : PortRec) : PortRec := .cleared (r.brk != .marking)

/-- The transmission on D-tx is cut; for an ALERT the dispatcher is told (R25, R142). -/
def State.cutD (s : State) : State :=
  match s.line.dTx with
  | some { origin := .alert v offered openOffer, .. } =>
    s.onPlant fun p => p.updateDisp v fun _ _ d => d.alertCut offered openOffer
  | _ => s

/-- RESET LINES on both ports, both forward queues and the arbiter (R25). -/
def State.resetLineSide (s : State) : State :=
  let t := s.cutD
  { t with line := { u := t.line.u.resetLine, d := t.line.d.resetLine, ud := [], du := [], uTx := none, dTx := none,
                     originSeq := 0, lastGrant := .none } }

end Sys2Proof.Machine
end

