-- ==== Sys2Proof/Machine/PowerEvents.lean ====
section
/-! DEFINITION. The rows of power, the reset pin and the second: POWER_ON, NRESET_ASSERT, NRESET_RELEASE,
WHOLE_SECOND_BOUNDARY (R3, R4, R26). -/

namespace Sys2Proof.Machine

/-- What a row answers: the next state. No row of this part faults or refuses. -/
abbrev Answer := Host.Outcome State Fault Refusal

/-- POWER_ON (R3, R4, R26, R184). -/
def execPowerOn (pins : Pins) (s : State) : Answer :=
  .next (s.fullReset pins.straps pins.uSpacing pins.dSpacing)

/-- NRESET_ASSERT (R4, R26): the part is held in reset, its transmit lines mark and its receivers ignore the lines. Whatever
else it holds is taken up anew at release (log entry 3). -/
def execNresetAssert (s : State) : Answer :=
  .next { s with nresetLow := true,
                 line := { s.line with uTx := none, dTx := none, u := { s.line.u with rx := .hunt },
                                       d := { s.line.d with rx := .hunt } } }

/-- NRESET_RELEASE (R3, R4, R26, R184): the same effect on every block as power-on (log entry 3). -/
def execNresetRelease (pins : Pins) (s : State) : Answer :=
  .next (s.fullReset pins.straps pins.uSpacing pins.dSpacing)

/-- A whole-second boundary passes for a dispatch record's timers. -/
def Dispatch.tick (d : Dispatch) : Dispatch :=
  { d with ackTimer := d.ackTimer.tick, reachTimer := d.reachTimer.tick, repeatTimer := d.repeatTimer.tick }

/-- A whole-second boundary passes: part time counts and holds at its end, and every running timer comes one boundary nearer
to its expiry (R3; Part time and timers). -/
def Plant.tick (p : Plant) : Plant :=
  { p with
    now := min (p.now + 1) Config.partTimeMax
    stations := mapAll p.stations fun st => { st with timer := st.timer.tick }
    barriers := mapAll p.barriers fun b => { b with surgeTimer := b.surgeTimer.tick }
    villages := mapAll p.villages fun vl => { vl with holdTimer := vl.holdTimer.tick }
    dispatch := mapAll p.dispatch Dispatch.tick
    session := { p.session with timer := p.session.timer.tick } }

/-- WHOLE_SECOND_BOUNDARY (R3). -/
def execWholeSecondBoundary (s : State) : Answer := .next (s.running fun s => s.onPlant Plant.tick)

end Sys2Proof.Machine
end

