-- ==== Sys2Proof/Machine/BarrierRequests.lean ====
section
/-! DEFINITION. The rows of requests to the Stage Table Store and the Barrier Estimator (chapters 4 and 5):
LOAD_STAGE_POINTS, READ_STAGE_POINTS, LOAD_BARRIER, BARRIER_HOLD, BARRIER_RUN, READ_BARRIER, STATUS_BARRIER. -/

namespace Sys2Proof.Machine

/-- Point `i` of the eight points of a LOAD_STAGE_POINTS. -/
def Request.point (r : Request) (i : Nat) : Point := { stage := r.num16 (2 + 4 * i), volume := r.num16 (4 + 4 * i) }

/-- A half, a point count and eight stages that their fields can hold (R71, orders 2 to 4). -/
def Request.pointsGood (r : Request) : Bool :=
  Nat.ble (r.num 0) 1 && Nat.ble (r.num 1) 16 && (List.range 8).all fun i => Nat.ble (r.point i).stage Config.stageMax

/-- The rule of LOAD_STAGE_POINTS (R71, R72). -/
def loadStagePointsRule (r : Request) (s : State) : Plant × ReqResult :=
  match r.index 4 with
  | none => refuse s .badIndex
  | some k =>
    if !r.pointsGood then refuse s .badValue
    else if (s.plant.barrier k).state = .active then refuse s .wrongState
    else finished (s.plant.setTable k ((s.plant.table k).loadHalf (r.num 0) (r.num 1) r.point))

/-- LOAD_STAGE_POINTS (R71, R72). -/
def execLoadStagePoints (s : State) : Answer := .next (s.request (isCode 0x20) (onPlant loadStagePointsRule))

/-- The rule of READ_STAGE_POINTS (R76). -/
def readStagePointsRule (r : Request) (s : State) : ReqResult :=
  match r.index 4 with
  | none => .refused .badIndex
  | some k => if 1 < r.num 0 then .refused .badValue else .done (tableData (s.plant.table k) (r.num 0))

/-- READ_STAGE_POINTS (R76). -/
def execReadStagePoints (s : State) : Answer := .next (s.request (isCode 0x21) (reading readStagePointsRule))

/-- The settings of a LOAD_BARRIER are in range (R84, orders 2 to 4). -/
def Request.barrierGood (r : Request) : Bool :=
  Nat.ble 1 (r.num16 2) && Nat.ble (r.num16 2) 1000 && Nat.ble 1 (r.num16 4) && Nat.ble (r.num16 4) 1000 &&
    Nat.ble (r.num16 2) (r.num16 4) && Nat.ble (r.num 7) 1

/-- A barrier with the settings of a LOAD_BARRIER (R84). -/
def Barrier.load (b : Barrier) (r : Request) : Barrier :=
  { b with rateWindow := clampTo 60 3600 (r.num16 0), watchFill := r.num16 2, warnFill := r.num16 4,
           surgeHold := clampTo 1 240 (r.num 6), overtopBreach := r.num 7 == 1 }

/-- The rule of LOAD_BARRIER (R84). -/
def loadBarrierRule (r : Request) (s : State) : Plant × ReqResult :=
  match r.index 4 with
  | none => refuse s .badIndex
  | some k =>
    if !r.barrierGood then refuse s .badValue
    else if (s.plant.barrier k).state = .active then refuse s .wrongState
    else finished (s.plant.setBarrier k ((s.plant.barrier k).load r))

/-- LOAD_BARRIER (R84). -/
def execLoadBarrier (s : State) : Answer := .next (s.request (isCode 0x22) (onPlant loadBarrierRule))

/-- A barrier changes its state, which is handed to the ladder (R85, R87, R127). -/
def Plant.changeState (p : Plant) (k : Fin 4) (b : Barrier) : Plant := (p.setBarrier k b).recomputeFor k

/-- BARRIER_HOLD of an ACTIVE barrier (R85): it leaves ACTIVE, the ladder is told, its work is abandoned, barrier k+1 is told,
and a session on it ends. -/
def Plant.holdActive (p : Plant) (k : Fin 4) : Plant :=
  let b := p.barrier k
  let p₁ := (p.changeState k { b with state := .loading }).abandon (.barrier k)
  let p₂ := if b.full then p₁.reofferBelow k else p₁
  p₂.endSessionOn k .barrierLeft

/-- BARRIER_HOLD in each barrier state (R85). -/
def Plant.holdBarrier (p : Plant) (k : Fin 4) : Plant :=
  match (p.barrier k).state with
  | .loading => p
  | .unloaded => p.changeState k { p.barrier k with state := .loading }
  | .active => p.holdActive k

/-- The rule of BARRIER_HOLD (R85). -/
def barrierHoldRule (r : Request) (s : State) : Plant × ReqResult :=
  match r.index 4 with
  | none => refuse s .badIndex
  | some k => finished (s.plant.holdBarrier k)

/-- BARRIER_HOLD (R85). -/
def execBarrierHold (s : State) : Answer := .next (s.request (isCode 0x23) (onPlant barrierHoldRule))

/-- A barrier as an accepted BARRIER_RUN leaves it, before its first vote (R87, steps 1 and 2). -/
def Barrier.started (b : Barrier) : Barrier :=
  { b with state := .active, estimate := none, voteQuality := none, history := [], lastStage := none, overtop := false }

/-- An accepted BARRIER_RUN (R87): the barrier starts, the ladder is told, and the vote runs. -/
def Plant.runBarrier (p : Plant) (k : Fin 4) : Plant := (p.changeState k (p.barrier k).started).vote k

/-- The table of barrier `k` with the verdict of its check (R74). -/
def Plant.checkTable (p : Plant) (k : Fin 4) : Plant := p.setTable k (p.table k).check

/-- The rule of BARRIER_RUN (R74, R86, R87): the verdict of the check is kept whether or not the run is accepted, and the
request waits for the first completion if the vote gives a stage. -/
def barrierRunRule (r : Request) (s : State) : Plant × ReqResult :=
  match r.index 4 with
  | none => refuse s .badIndex
  | some k =>
    match (s.plant.barrier k).state with
    | .unloaded | .active => refuse s .wrongState
    | .loading =>
      let p := s.plant.checkTable k
      if (p.table k).verdict.crest?.isNone ∨ p.assigned k = 0 then (p, .refused .tableInvalid)
      else (p.runBarrier k, if (voteStage (p.realVotes k)).isSome then .wait (.run k) else .done [])

/-- BARRIER_RUN (R86, R87). -/
def execBarrierRun (s : State) : Answer := .next (s.request (isCode 0x24) (onPlant barrierRunRule))

/-- The answer of a barrier read: at once, or under AFTER_EVAL at the barrier's next completion if it is ACTIVE and not IDLE
(R109, R171). -/
def readBarrierWith (wait : Fin 4 → Wait) (r : Request) (s : State) : ReqResult :=
  match r.index 4 with
  | none => .refused .badIndex
  | some k =>
    if r.afterEval ∧ (s.plant.barrier k).state = .active ∧ s.plant.evalState (.barrier k) ≠ .idle then .wait (wait k)
    else .done ((wait k).data s.plant)

/-- READ_BARRIER (R109, R171). -/
def execReadBarrier (s : State) : Answer := .next (s.request (isCode 0x25) (reading (readBarrierWith .read)))

/-- STATUS_BARRIER (R109, R171). -/
def execStatusBarrier (s : State) : Answer := .next (s.request (isCode 0x26) (reading (readBarrierWith .status)))

end Sys2Proof.Machine
end

