-- ==== Sys2Proof/Machine/ChannelRequests.lean ====
section
/-! DEFINITION. The rows of requests to the Channel Conditioner and its patterns (chapters 3 and 8): LOAD_CHANNEL, REARM_WIRE,
READ_CHANNEL, LOAD_PATTERN, READ_PATTERN. -/

namespace Sys2Proof.Machine

/-- The kind of a kind code, if it is one (R46, order 3). -/
def kindOf : Nat → Option ChannelKind
  | 0 => some .stage
  | 1 => some .surge
  | 2 => some .wire
  | _ => none

/-- The most channels of one kind that a barrier may have (R49). -/
def channelCap : ChannelKind → Nat
  | .stage => 3
  | .surge => 4
  | .wire => 2

/-- A barrier holds its cap of channels of a kind without counting channel `c` (R46 order 6, R49). -/
def Plant.atCap (p : Plant) (c : Fin 48) (k : Fin 4) (kind : ChannelKind) : Bool :=
  Nat.ble (channelCap kind) ((p.channelsAt k kind).filter fun j => j != c).length

/-- The record a LOAD_CHANNEL with use IN_USE asks for, its conditioning state and source aside (R47). -/
def Request.channelRecord (r : Request) (kind : ChannelKind) (barrier : Option (Fin 4)) : Channel :=
  { Channel.cleared with
    inUse := true, enabled := r.num 1 != 0, kind := kind, barrier := barrier, gain := r.num16 4, offset := r.int16 6,
    invert := r.num 8 != 0, slew := r.num16 9, spikeAccept := r.num 11, window := r.num 12, missLimit := r.num 13,
    surgeWindow := clampTo 10 600 (r.num16 14), surgeThreshold := r.num16 16 }

/-- The settings of a requested record are in range for its kind (R46, orders 4 and 5). -/
def Channel.settingsGood (ch : Channel) : Bool :=
  match ch.kind with
  | .stage => Nat.ble ch.slew Config.stageMax && Nat.ble 1 ch.spikeAccept && Nat.ble ch.spikeAccept 7 &&
      [1, 2, 4, 8].contains ch.window && Nat.ble 1 ch.missLimit && Nat.ble ch.missLimit 15
  | .surge => ch.surgeThreshold != 0
  | .wire => true

/-- The record that a LOAD_CHANNEL asks for if checks 2 to 6 of R46 pass. -/
def Plant.requestedChannel (p : Plant) (c : Fin 48) (r : Request) : Option Channel :=
  if r.num 0 = 0 then some .cleared
  else if r.num 0 = 1 then
    match kindOf (r.num 2), indexOrNone 4 (r.byte 3) with
    | some kind, some barrier =>
      let ch := r.channelRecord kind barrier
      if ch.settingsGood && !(barrier.any fun k => p.atCap c k kind) then some ch else none
    | _, _ => none
  else none

/-- A channel record is in use at an ACTIVE barrier (R46, order 7). -/
def Plant.atActive (p : Plant) (ch : Channel) : Bool := ch.inUse && ch.barrier.any fun k => (p.barrier k).state == .active

/-- The rule of LOAD_CHANNEL (R46 to R48). -/
def loadChannelRule (r : Request) (s : State) : Plant × ReqResult :=
  match r.index 48 with
  | none => refuse s .badIndex
  | some c =>
    match s.plant.requestedChannel c r with
    | none => refuse s .badValue
    | some new =>
      if s.plant.atActive (s.plant.channel c) || s.plant.atActive new then refuse s .wrongState
      else finished (s.plant.writeChannel c new)

/-- LOAD_CHANNEL (R46 to R48). -/
def execLoadChannel (s : State) : Answer := .next (s.request (isCode 0x18) (onPlant loadChannelRule))

/-- A wire latch is cleared, and the change reported (R62, R64). -/
def Plant.rearm (p : Plant) (c : Fin 48) : Plant :=
  let ch := p.channel c
  (p.setChannel c { ch with latch := false }).reportLatch ch ch.latch

/-- The rule of REARM_WIRE (R64). -/
def rearmWireRule (r : Request) (s : State) : Plant × ReqResult :=
  match r.index 48 with
  | none => refuse s .badIndex
  | some c =>
    if (s.plant.channel c).inUse ∧ (s.plant.channel c).kind = .wire then finished (s.plant.rearm c)
    else refuse s .wrongState

/-- REARM_WIRE (R64). -/
def execRearmWire (s : State) : Answer := .next (s.request (isCode 0x19) (onPlant rearmWireRule))

/-- The rule of READ_CHANNEL (R65). -/
def readChannelRule (r : Request) (s : State) : ReqResult :=
  match r.index 48 with
  | none => .refused .badIndex
  | some c => .done (channelData (s.plant.channel c))

/-- READ_CHANNEL (R65). -/
def execReadChannel (s : State) : Answer := .next (s.request (isCode 0x1A) (reading readChannelRule))

/-- The pattern record that a LOAD_PATTERN makes of a record, before its restart, if checks 2 and 3 of R155 pass: the kind
and the parameters of that kind. -/
def Pattern.load (q : Pattern) (r : Request) : Option Pattern :=
  match r.num 0 with
  | 0 => some { q with kind := .none }
  | 1 => if r.int16 3 < -4096 ∨ 4095 < r.int16 3 then none
      else some { q with kind := .ramp, start := r.word 1, step := r.int16 3 }
  | 2 => some { q with kind := .alternate, valueA := r.word 5, valueB := r.word 7 }
  | 3 => some { q with kind := .prbs, seed := if r.word 9 = 0 then 1 else r.word 9 }
  | _ => none

/-- The rule of LOAD_PATTERN (R155). -/
def loadPatternRule (r : Request) (s : State) : Plant × ReqResult :=
  match r.index 48 with
  | none => refuse s .badIndex
  | some c =>
    match (s.plant.pattern c).load r with
    | none => refuse s .badValue
    | some q => if s.plant.session.active then refuse s .wrongState else finished (s.plant.setPattern c q.restart)

/-- LOAD_PATTERN (R155). -/
def execLoadPattern (s : State) : Answer := .next (s.request (isCode 0x1B) (onPlant loadPatternRule))

/-- The rule of READ_PATTERN (R157). -/
def readPatternRule (r : Request) (s : State) : ReqResult :=
  match r.index 48 with
  | none => .refused .badIndex
  | some c => .done (patternData (s.plant.pattern c))

/-- READ_PATTERN (R157). -/
def execReadPattern (s : State) : Answer := .next (s.request (isCode 0x1C) (reading readPatternRule))

end Sys2Proof.Machine
end

