-- ==== Sys2Proof/Machine/EvaluationEvents.lean ====
section
/-! DEFINITION. The rows of the Evaluation Unit (R93, R94, R108). A completion without an evaluation of its kind in flight does
not occur, and the row then changes nothing (log entry 4). -/

namespace Sys2Proof.Machine

/-- EVALUATION_BEGIN (R77, R93). The steps that leave the unit idle, or bring an entry to an empty queue, take the head
themselves, so in a run from reset this row finds the unit at work or the queue empty (log entry 12). -/
def execEvaluationBegin (s : State) : Answer := .next (s.running fun s => s.onPlant Plant.beginEvaluation)

/-- Completion of the barrier evaluation in flight, its hand-on to the Request Unit (R94 to R101), and the take of the next
head (R93). -/
def State.barrierDone (s : State) : State :=
  match s.plant.flight with
  | some f =>
    match f.owner with
    | .barrier k =>
      ((s.onPlant fun p => p.completeBarrier s.mgmt.settings.ceiling k f).wake k).onPlant Plant.beginEvaluation
    | .exercise => s
  | none => s

/-- BARRIER_EVALUATION_COMPLETION (R94 to R101). -/
def execBarrierEvaluationCompletion (s : State) : Answer := .next (s.running State.barrierDone)

/-- Completion of the exercise evaluation in flight (R108), and the take of the next head (R93). -/
def Plant.exerciseDone (p : Plant) : Plant :=
  match p.flight with
  | some f => if f.owner = .exercise then (p.completeExercise f).beginEvaluation else p
  | none => p

/-- EXERCISE_EVALUATION_COMPLETION (R108, R129). -/
def execExerciseEvaluationCompletion (s : State) : Answer := .next (s.running fun s => s.onPlant Plant.exerciseDone)

end Sys2Proof.Machine
end

