-- ==== Sys2Proof/Machine/ExerciseRequests.lean ====
section
/-! DEFINITION. The rows of requests to the Exercise Unit (chapter 8): EXERCISE_BEGIN, EXERCISE_SYNC, EXERCISE_END. -/

namespace Sys2Proof.Machine

/-- The front end of a session on barrier `k` starts anew (R159, R161): patterns restarted, exercise paths and vote cleared,
exercise estimate record cleared. -/
def Plant.restartExercise (p : Plant) (k : Fin 4) : Plant :=
  let q := p.restartPatterns.clearExercisePaths k
  { q with exercise := q.exercise.clear }

/-- The session record at an accepted EXERCISE_BEGIN (R159). -/
def Session.begun (x : Session) (k : Fin 4) (now duration : Nat) : Session :=
  { x with active := true, barrier := some k, start := some now, endTime := none, timer := .startMin duration }

/-- An accepted EXERCISE_BEGIN (R159). -/
def Plant.beginExercise (p : Plant) (k : Fin 4) (duration : Nat) : Plant :=
  ({ p with session := p.session.begun k p.now duration }.restartExercise k).recomputeExerciseFor k

/-- Checks 2 to 6 of EXERCISE_BEGIN pass (R159). -/
def Plant.mayExercise (p : Plant) (k : Fin 4) (ceiling : Nat) : Bool :=
  let b := p.barrier k
  !p.session.active && b.state == .active && !(b.estimate.any fun e => Nat.ble ceiling e.fill) && !b.surgeFlag && !b.breached

/-- The rule of EXERCISE_BEGIN (R159). -/
def exerciseBeginRule (r : Request) (s : State) : Plant × ReqResult :=
  match r.index 4 with
  | none => refuse s .badIndex
  | some k =>
    if s.plant.mayExercise k s.mgmt.settings.ceiling then finished (s.plant.beginExercise k s.mgmt.settings.duration)
    else refuse s .wrongState

/-- EXERCISE_BEGIN (R159). -/
def execExerciseBegin (s : State) : Answer := .next (s.request (isCode 0x40) (onPlant exerciseBeginRule))

/-- An accepted EXERCISE_SYNC on a session running on barrier `k` (R161). -/
def Plant.syncExercise (p : Plant) (k : Fin 4) : Plant :=
  ((p.restartExercise k).abandon .exercise).recomputeExerciseFor k

/-- The rule of EXERCISE_SYNC (R161). -/
def exerciseSyncRule (_ : Request) (s : State) : Plant × ReqResult :=
  match s.plant.session.current with
  | none => refuse s .wrongState
  | some k => finished (s.plant.syncExercise k)

/-- EXERCISE_SYNC (R161). -/
def execExerciseSync (s : State) : Answer := .next (s.request (isCode 0x41) (onPlant exerciseSyncRule))

/-- EXERCISE_END (R164). -/
def execExerciseEnd (s : State) : Answer :=
  .next (s.request (isCode 0x42) (onPlant fun _ s => finished (s.plant.endSession .ended)))

end Sys2Proof.Machine
end

