-- ==== Sys2Proof/Machine/LineEvents.lean ====
section
/-! DEFINITION. The rows of the line side: receiving, breaks, good frames, both transmitters and the arbiter (chapter 1). -/

namespace Sys2Proof.Machine

/-- RECEIVE_BYTE (R5 to R9). -/
def execReceiveByte (port : Port) (x : RxItem) (s : State) : Answer :=
  .next (s.running fun s => s.received port ((s.line.port port).take x))

/-- GAP_TIMEOUT (R8): in HUNT the gap timer does not run and nothing changes. -/
def execGapTimeout (port : Port) (s : State) : Answer :=
  .next (s.running fun s => s.setPort port (s.line.port port).byteError)

/-- BREAK_DETECTED (R10, R11): a break that has been detected is not counted again. -/
def execBreakDetected (port : Port) (s : State) : Answer := .next (s.running fun s => s.breakOn port)

/-- BREAK_END (R10): the line is marking again, and the receiver goes on from HUNT after a break. -/
def execBreakEnd (port : Port) (s : State) : Answer :=
  .next (s.running fun s =>
    let r := s.line.port port
    s.setPort port { r with brk := .marking, rx := if r.brk = .broken then .hunt else r.rx })

/-- GOOD_FRAME_U (R9, R11, R14). -/
def execGoodFrameU (f : Frame) (s : State) : Answer :=
  .next (s.running fun s => s.received .u (s.line.u.takeFrame f))

/-- GOOD_FRAME_D (R9, R11, R15). -/
def execGoodFrameD (f : Frame) (s : State) : Answer :=
  .next (s.running fun s => s.received .d (s.line.d.takeFrame f))

/-- U_TRANSMIT_START (R18). -/
def execUTransmitStart (s : State) : Answer := .next (s.running fun s => { s with line := s.line.startU })

/-- U_TRANSMIT_COMPLETION (R18). -/
def execUTransmitCompletion (s : State) : Answer :=
  .next (s.running fun s => { s with line := s.line.completeU })

/-- GRANT (R20 to R23, R139, R180). -/
def execGrant (s : State) : Answer := .next (s.running State.grant)

/-- D_TRANSMIT_COMPLETION (R19, R140, R141). -/
def execDTransmitCompletion (s : State) : Answer := .next (s.running State.completeD)

end Sys2Proof.Machine
end

