-- ==== Sys2Proof/Machine/PartRequests.lean ====
section
/-! DEFINITION. The rows of requests to the part as a whole (chapter 9): settings, status, counters, inspection and resets.
Each row is the execution of the request at the head of the request queue, if that is the row's request. -/

namespace Sys2Proof.Machine

/-- UNKNOWN_REQUEST (R169, order 1): the admission refuses it, so its rule is never reached. -/
def execUnknownRequest (s : State) : Answer :=
  .next (s.request (fun r => (catalogue r.code).isNone) fun _ s => (s, .refused .badValue))

/-- The manager addresses a SET_PART names within its count (R176). -/
def Request.managers (r : Request) : List Byte := [r.byte 2, r.byte 3].take (r.num 1)

/-- The checks of SET_PART (R176). -/
def partAccepted (own : Byte) (r : Request) : Bool :=
  r.byte 0 != Config.broadcast && r.byte 0 != own && Nat.ble (r.num 1) 2 &&
    (r.managers.all fun m => m != 0 && m != Config.broadcast && m != own) && r.managers.Nodup &&
    Nat.ble 1 (r.num16 4) && Nat.ble (r.num16 4) 1000

/-- The rule of SET_PART (R176). -/
def setPartRule (r : Request) (s : State) : State × ReqResult :=
  if partAccepted s.ownAddr r then
    let settings := { s.mgmt.settings with
      report := if r.byte 0 = 0 then none else some (r.byte 0), managers := r.managers, ceiling := r.num16 4,
      duration := clampTo 5 240 (r.num 6) }
    ({ s with mgmt := { s.mgmt with settings := settings } }, .done [])
  else (s, .refused .badValue)

/-- SET_PART (R176). -/
def execSetPart (s : State) : Answer := .next (s.request (isCode 0x01) setPartRule)

/-- STATUS_PART (R178). -/
def execStatusPart (s : State) : Answer := .next (s.request (isCode 0x02) (reading fun _ s => .done (partStatus s)))

/-- STATUS_LINES (R13). -/
def execStatusLines (s : State) : Answer := .next (s.request (isCode 0x03) (reading fun _ s => .done (linesStatus s)))

/-- The five counters of a port at 0 (R13). -/
def PortRec.clearCounters (r : PortRec) : PortRec := { r with good := 0, check := 0, framing := 0, breaks := 0, drops := 0 }

/-- The four counts of a station at 0 (R40). -/
def Station.clearCounters (st : Station) : Station := { st with accepted := 0, duplicate := 0, gap := 0, malformed := 0 }

/-- The counters CLEAR_COUNTERS sets to 0 (R177). -/
def State.clearCounters (s : State) : State :=
  { s with
    line := { s.line with u := s.line.u.clearCounters, d := s.line.d.clearCounters }
    plant := { s.plant with
      stations := mapAll s.plant.stations Station.clearCounters
      barriers := mapAll s.plant.barriers fun b => { b with superseded := 0 }
      exercise := { s.plant.exercise with superseded := 0 }
      dispatch := mapAll s.plant.dispatch fun d => { d with stale := 0 } }
    mgmt := { s.mgmt with discarded := 0 } }

/-- CLEAR_COUNTERS (R177). -/
def execClearCounters (s : State) : Answer :=
  .next (s.request (isCode 0x04) fun _ s => (s.clearCounters, .done []))

/-- The inspection flag written (R174). -/
def State.setInspecting (s : State) (on : Bool) : State :=
  { s with mgmt := { s.mgmt with settings := { s.mgmt.settings with inspecting := on } } }

/-- INSPECT_ON (R174). -/
def execInspectOn (s : State) : Answer :=
  .next (s.request (isCode 0x05) fun _ s => (s.setInspecting true, .done []))

/-- INSPECT_OFF (R174). -/
def execInspectOff (s : State) : Answer :=
  .next (s.request (isCode 0x06) fun _ s => (s.setInspecting false, .done []))

/-! ### Resets requested (R182, R183) -/

/-- A station at RESET EVAL (R44). -/
def Station.resetEval (st : Station) : Station :=
  if st.inUse && st.state != .retired then { st with state := .unknown, timer := none, lastSeq := none } else st

/-- A channel at RESET EVAL (R68). -/
def Channel.resetEval (ch : Channel) : Channel := { ch.clearState with eligible := false }

/-- A barrier at RESET EVAL (R110). -/
def Barrier.resetEval (b : Barrier) : Barrier :=
  { b with estimate := none, voteQuality := none, validCount := 0, history := [], lastStage := none, surgeFlag := false,
           surgeTimer := none, wire := false, overtop := false }

/-- A route entry at RESET EVAL (R133). -/
def Route.resetEval (r : Route) : Route :=
  { r with level := .clear, cause := .projection, available := Config.noMinutes, fill := none, held := .clear }

/-- A village at RESET EVAL (R133). -/
def Village.resetEval (vl : Village) : Village :=
  if vl.inUse then
    { vl with routes := mapAll vl.routes fun r => r.map Route.resetEval, computed := .clear, decBarrier := none,
              decCause := .projection, decAvailable := Config.noMinutes, decFill := none, exComputed := .clear,
              exAnnounced := .clear, exCause := .projection, exAvailable := Config.noMinutes,
              holdTimer := if vl.latch then none else .startMin vl.holdTime }
  else vl

/-- RESET EVAL on every block that owns evaluation state (R182); an active session ends with reason RESET, for the villages
that stood above CLEAR before (R163). -/
def Plant.resetEval (p : Plant) : Plant :=
  let noted := p.exercising
  let cleared := { p with
    stations := mapAll p.stations Station.resetEval
    channels := mapAll p.channels Channel.resetEval
    barriers := mapAll p.barriers Barrier.resetEval
    evalQueue := []
    flight := none
    exercise := p.exercise.clear
    villages := mapAll p.villages Village.resetEval }
  cleared.endSessionOf .reset noted

/-- A RESET request that this row executes: one of scope EVAL, or one that R182 or R169 refuses, whatever its argument. -/
def isResetEval (r : Request) : Bool := r.code == codeReset && !r.resetOf scopeLines && !r.resetOf scopeAll

/-- The rule of RESET with scope EVAL, and the refusal of an unknown scope (R182). -/
def resetEvalRule (r : Request) (s : State) : Plant × ReqResult :=
  if r.num 0 = scopeEval then finished s.plant.resetEval else refuse s .badValue

/-- RESET_EVAL (R182). -/
def execResetEval (s : State) : Answer := .next (s.request isResetEval (onPlant resetEvalRule))

/-- RESET_LINES (R25, R182). -/
def execResetLines (s : State) : Answer :=
  .next (s.request (fun r => r.resetOf scopeLines) fun _ s => (s.resetLineSide, .done []))

/-- Whether a receive line stands in the spacing state, as the break state tells (R10, R26). -/
def PortRec.lineSpacing (r : PortRec) : Bool := r.brk != .marking

/-- RESET ALL (R183): a full reset with the straps sampled again, then the reply, whatever the QUIET flag, into the emptied
reply queue. UNCONFIGURED stands in the notice set. -/
def State.resetAll (s : State) (straps : Straps) (r : Request) : State :=
  let t := s.fullReset straps s.line.u.lineSpacing s.line.d.lineSpacing
  { t with mgmt := t.mgmt.pushReply (r.replyWith .done []) }

/-- RESET_ALL (R183). A full reset leaves no executing request to settle, so the row completes by itself. -/
def execResetAll (straps : Straps) (s : State) : Answer :=
  .next (s.running fun s =>
    match s.head with
    | some r =>
      if r.resetOf scopeAll then
        match s.precheck r with
        | some o => s.settle r (.refused o)
        | none => s.resetAll straps r
      else s
    | none => s)

end Sys2Proof.Machine
end

