-- ==== Sys2Proof/Machine/StationRequests.lean ====
section
/-! DEFINITION. The rows of requests to the Station Table (chapter 2): LOAD_STATION, RETIRE_STATION, READ_STATION. -/

namespace Sys2Proof.Machine

/-- An address is held by a station record in use, of any state, other than one of index `but` (R27, R113). -/
def Plant.stationHolds (p : Plant) (addr : Byte) (but : Option (Fin 24)) : Bool :=
  (List.finRange 24).any fun i => some i != but && (p.station i).inUse && (p.station i).addr == addr

/-- An address is held by a village record in use other than one of index `but` (R27, R113). -/
def Plant.villageHolds (p : Plant) (addr : Byte) (but : Option (Fin 8)) : Bool :=
  (List.finRange 8).any fun v => some v != but && (p.village v).inUse && (p.village v).addr == addr

/-- Slot entry `j` of a LOAD_STATION: `none` if it is neither NONE nor a channel index (R27, order 4). -/
def Request.slot (r : Request) (j : Fin 8) : Option (Option (Fin 48)) := indexOrNone 48 (r.byte (1 + j.1))

/-- The slot map a LOAD_STATION asks for. -/
def Request.slots (r : Request) : Vector (Option (Fin 48)) 8 := Vector.ofFn fun j => (r.slot j).getD none

/-- The record a LOAD_STATION asks for: R28, or R29 for line address 0. -/
def Request.stationRecord (r : Request) : Station :=
  if r.byte 0 = 0 then .cleared
  else { Station.cleared with
    inUse := true, addr := r.byte 0, slots := r.slots, timeout := clampTo 10 3600 (r.num16 9) }

/-- A requested slot map names a channel twice, or names one that another station record in use maps (R27, order 5). -/
def Plant.slotClash (p : Plant) (i : Fin 24) (slots : Vector (Option (Fin 48)) 8) : Bool :=
  !slots.toList.reduceOption.Nodup ||
    slots.toList.reduceOption.any fun c =>
      (List.finRange 24).any fun j => j != i && (p.station j).inUse && (p.station j).maps c

/-- Checks 3 to 5 of LOAD_STATION, skipped for line address 0 (R27). -/
def Plant.stationValuesBad (p : Plant) (i : Fin 24) (r : Request) : Bool :=
  r.byte 0 != 0 &&
    (p.stationHolds (r.byte 0) (some i) || p.villageHolds (r.byte 0) none ||
      ((List.finRange 8).any fun j => (r.slot j).isNone) || p.slotClash i r.slots)

/-- The rule of LOAD_STATION (R27 to R29). -/
def loadStationRule (r : Request) (s : State) : Plant × ReqResult :=
  match r.index 24 with
  | none => refuse s .badIndex
  | some i =>
    if r.byte 0 = Config.broadcast ∨ r.byte 0 = s.ownAddr then refuse s .badValue
    else if s.plant.stationValuesBad i r then refuse s .badValue
    else if s.plant.touchesActive (s.plant.station i) ∨ s.plant.touchesActive r.stationRecord then refuse s .wrongState
    else finished (s.plant.writeStation i r.stationRecord)

/-- LOAD_STATION (R27 to R29). -/
def execLoadStation (s : State) : Answer := .next (s.request (isCode 0x10) (onPlant loadStationRule))

/-- The rule of RETIRE_STATION (R30). -/
def retireStationRule (r : Request) (s : State) : Plant × ReqResult :=
  match r.index 24 with
  | none => refuse s .badIndex
  | some i => if (s.plant.station i).inUse then finished (s.plant.retire i) else refuse s .wrongState

/-- RETIRE_STATION (R30). -/
def execRetireStation (s : State) : Answer := .next (s.request (isCode 0x11) (onPlant retireStationRule))

/-- The rule of READ_STATION (R41). -/
def readStationRule (r : Request) (s : State) : ReqResult :=
  match r.index 24 with
  | none => .refused .badIndex
  | some i => .done (stationData s.plant.now (s.plant.station i))

/-- READ_STATION (R41). -/
def execReadStation (s : State) : Answer := .next (s.request (isCode 0x12) (reading readStationRule))

end Sys2Proof.Machine
end

