-- ==== Sys2Proof/Machine/TimerEvents.lean ====
section
/-! DEFINITION. The rows of timer expiries. A timer expires at the whole-second boundary at which it is due; a timer that is
stopped or not yet due does not expire, and the row then changes nothing (Part time and timers; log entry 4). -/

namespace Sys2Proof.Machine

/-- An expiry takes place in the plant if its timer is due. -/
def State.expire (s : State) (timer : Plant → Timer) (effect : Plant → Plant) : State :=
  s.running fun s => if (timer s.plant).due then s.onPlant effect else s

/-- SILENCE_TIMER_EXPIRY (R37 to R39). -/
def execSilenceTimerExpiry (i : Fin 24) (s : State) : Answer :=
  .next (s.expire (fun p => (p.station i).timer) fun p => p.silenceExpired i)

/-- SURGE_HOLD_EXPIRY (R105). -/
def execSurgeHoldExpiry (k : Fin 4) (s : State) : Answer :=
  .next (s.expire (fun p => (p.barrier k).surgeTimer) fun p => p.surgeHoldExpired k)

/-- The hold timer of a village is stopped and the village recomputed (R125). -/
def Plant.holdExpired (p : Plant) (v : Fin 8) : Plant :=
  (p.setVillage v { p.village v with holdTimer := none }).recompute v

/-- HOLD_TIMER_EXPIRY (R125). -/
def execHoldTimerExpiry (v : Fin 8) (s : State) : Answer :=
  .next (s.expire (fun p => (p.village v).holdTimer) fun p => p.holdExpired v)

/-- The ack timer of a village expires; VILLAGE_UNREACHED is posted if that finds it unreached (R143, R148). -/
def Plant.ackExpired (p : Plant) (v : Fin 8) : Plant :=
  let (d, unreached) := (p.disp v).ackExpired p.now (p.village v)
  let p₁ := p.setDisp v d
  if unreached then p₁.post .villageUnreached v.1 ((d.offered.map fun c => c.level.code).getD 0) else p₁

/-- ACK_TIMER_EXPIRY (R143, R148). -/
def execAckTimerExpiry (v : Fin 8) (s : State) : Answer :=
  .next (s.expire (fun p => (p.disp v).ackTimer) fun p => p.ackExpired v)

/-- REACH_TIMER_EXPIRY (R144). -/
def execReachTimerExpiry (v : Fin 8) (s : State) : Answer :=
  .next (s.expire (fun p => (p.disp v).reachTimer) fun p => p.updateDisp v fun _ now d => d.reachExpired now)

/-- REPEAT_TIMER_EXPIRY (R145). -/
def execRepeatTimerExpiry (v : Fin 8) (s : State) : Answer :=
  .next (s.expire (fun p => (p.disp v).repeatTimer) fun p => p.updateDisp v fun _ now d => d.repeatExpired now)

/-- DURATION_TIMER_EXPIRY (R162, R163). -/
def execDurationTimerExpiry (s : State) : Answer :=
  .next (s.expire (fun p => p.session.timer) fun p => p.endSession .expired)

end Sys2Proof.Machine
end

