-- ==== Sys2Proof/Machine/VillageRequests.lean ====
section
/-! DEFINITION. The rows of requests to the Village Alert Ladder (chapter 6): LOAD_VILLAGE with the dispatcher's part of it
(R150), LOAD_ROUTE, MASK_VILLAGE, RELEASE_BREACH, READ_VILLAGE, STATUS_VILLAGE. -/

namespace Sys2Proof.Machine

/-- Thresholds in range and strictly rising, and both coded fields codes (R113, orders 5 and 6). -/
def Request.villageGood (r : Request) : Bool :=
  Nat.ble 1 (r.num16 1) && Nat.blt (r.num16 1) (r.num16 3) && Nat.blt (r.num16 3) (r.num16 5) &&
    Nat.ble (r.num16 5) 1440 && Nat.ble (r.num 8) 1 && Nat.ble (r.num 15) 1

/-- A village record with the settings of a LOAD_VILLAGE (R114). -/
def Village.load (vl : Village) (r : Request) : Village :=
  { vl with
    inUse := true, addr := r.byte 0, evac := r.num16 1, warn := r.num16 3, watch := r.num16 5,
    holdTime := clampTo 1 240 (r.num 7), ackMode := if r.num 8 = 0 then .confirmed else .unconfirmed,
    ackTimeout := clampTo 2 60 (r.num 9), retryLimit := clampTo 1 8 (r.num 10),
    reachInterval := clampTo 60 1800 (r.num16 11), repeatInterval := clampTo 30 900 (r.num16 13), permit := r.num 15 == 1 }

/-- The record an accepted LOAD_VILLAGE leaves before the recomputations: settings over the record as it stands, or over a
cleared one if it was UNUSED (R114). -/
def Village.loaded (vl : Village) (r : Request) : Village := (if vl.inUse then vl else Village.cleared).load r

/-- The dispatcher's part of a LOAD_VILLAGE: the restart of the dispatch record if the line address or the ack mode changed
(R150). -/
def Plant.restartFor (p : Plant) (v : Fin 8) (old new : Village) : Plant :=
  if old.addr ≠ new.addr ∨ old.ackMode ≠ new.ackMode then
    p.updateDisp v fun active now d => d.restart active now new (old.addr != new.addr)
  else p

/-- An accepted LOAD_VILLAGE with a line address (R114, R150): the settings, the dispatcher's restart, then the
recomputations and their hand-on. -/
def Plant.writeVillage (p : Plant) (v : Fin 8) (new : Village) : Plant :=
  ((p.setVillage v new).restartFor v (p.village v) new).recomputeBoth v

/-- An accepted LOAD_VILLAGE with line address 0 (R115, R150): a record already UNUSED is left as it is. -/
def Plant.clearVillage (p : Plant) (v : Fin 8) : Plant :=
  if (p.village v).inUse then (p.setVillage v .cleared).setDisp v .cleared else p

/-- The rule of LOAD_VILLAGE (R113 to R115). -/
def loadVillageRule (r : Request) (s : State) : Plant × ReqResult :=
  match r.index 8 with
  | none => refuse s .badIndex
  | some v =>
    let vl := s.plant.village v
    if r.byte 0 = Config.broadcast ∨ r.byte 0 = s.ownAddr then refuse s .badValue
    else if r.byte 0 = 0 then
      if vl.inUse ∧ (vl.announced ≠ .clear ∨ vl.exAnnounced ≠ .clear) then refuse s .wrongState
      else finished (s.plant.clearVillage v)
    else if s.plant.villageHolds (r.byte 0) (some v) || s.plant.stationHolds (r.byte 0) none || !r.villageGood then
      refuse s .badValue
    else finished (s.plant.writeVillage v (vl.loaded r))

/-- LOAD_VILLAGE (R113 to R115, R150). -/
def execLoadVillage (s : State) : Answer := .next (s.request (isCode 0x30) (onPlant loadVillageRule))

/-- A new route entry with a travel time (R116). -/
def Route.fresh (travel : Nat) : Route :=
  { travel := travel, level := .clear, cause := .projection, available := Config.noMinutes, fill := none, held := .clear }

/-- The travel time a LOAD_ROUTE asks for: `some none` for "none", `none` above 1440 (R116). -/
def Request.travel (r : Request) : Option (Option Nat) :=
  if r.num16 1 = 65535 then some none else if Config.travelMax < r.num16 1 then none else some (some (r.num16 1))

/-- The route entry for a barrier after a LOAD_ROUTE (R116). -/
def Route.load (old : Option Route) (travel : Option Nat) : Option Route :=
  match travel, old with
  | none, _ => none
  | some t, none => some (.fresh t)
  | some t, some r => some { r with travel := t }

/-- An accepted LOAD_ROUTE (R116): "none" where there is no entry changes nothing; anything else recomputes the village. -/
def Plant.writeRoute (p : Plant) (v : Fin 8) (k : Fin 4) (travel : Option Nat) : Plant :=
  let vl := p.village v
  if travel.isNone ∧ (vl.routes.get k).isNone then p
  else
    (p.setVillage v { vl with routes := vl.routes.set k.1 (Route.load (vl.routes.get k) travel) k.2 }).recomputeBoth v

/-- The rule of LOAD_ROUTE (R116). -/
def loadRouteRule (r : Request) (s : State) : Plant × ReqResult :=
  match r.index 8, (if h : r.num 0 < 4 then some (⟨r.num 0, h⟩ : Fin 4) else none) with
  | some v, some k =>
    if (s.plant.village v).inUse then
      match r.travel with
      | some travel => finished (s.plant.writeRoute v k travel)
      | none => refuse s .badValue
    else refuse s .wrongState
  | _, _ => refuse s .badIndex

/-- LOAD_ROUTE (R116). -/
def execLoadRoute (s : State) : Answer := .next (s.request (isCode 0x31) (onPlant loadRouteRule))

/-- The rule of MASK_VILLAGE (R117). -/
def maskVillageRule (r : Request) (s : State) : Plant × ReqResult :=
  match r.index 8 with
  | none => refuse s .badIndex
  | some v =>
    if (s.plant.village v).inUse then
      match maskOf (r.byte 0) with
      | some mask => finished ((s.plant.setVillage v { s.plant.village v with mask := mask }).recompute v)
      | none => refuse s .badValue
    else refuse s .wrongState

/-- MASK_VILLAGE (R117). -/
def execMaskVillage (s : State) : Answer := .next (s.request (isCode 0x32) (onPlant maskVillageRule))

/-- A barrier named by one of a village's route entries has a breach cause (R126, order 4). -/
def Plant.stillBreached (p : Plant) (v : Fin 8) : Bool :=
  (List.finRange 4).any fun k => (p.village v).routed k && (p.barrier k).breached

/-- A village after an accepted RELEASE_BREACH (R126). -/
def Village.released (vl : Village) : Village :=
  { vl with latch := false, announced := .evacuate, holdTimer := .startMin vl.holdTime }

/-- The rule of RELEASE_BREACH (R126). -/
def releaseBreachRule (r : Request) (s : State) : Plant × ReqResult :=
  match r.index 8 with
  | none => refuse s .badIndex
  | some v =>
    let vl := s.plant.village v
    if vl.inUse = false then refuse s .wrongState
    else if vl.latch = false then finished s.plant
    else if s.plant.stillBreached v then refuse s .wrongState
    else finished ((s.plant.setVillage v vl.released).handOn v)

/-- RELEASE_BREACH (R126). -/
def execReleaseBreach (s : State) : Answer := .next (s.request (isCode 0x33) (onPlant releaseBreachRule))

/-- The rule of READ_VILLAGE (R132). -/
def readVillageRule (r : Request) (s : State) : ReqResult :=
  match r.index 8 with
  | none => .refused .badIndex
  | some v => .done (villageData (s.plant.village v))

/-- READ_VILLAGE (R132). -/
def execReadVillage (s : State) : Answer := .next (s.request (isCode 0x34) (reading readVillageRule))

/-- The rule of STATUS_VILLAGE (R132, R153). -/
def statusVillageRule (r : Request) (s : State) : ReqResult :=
  match r.index 8 with
  | none => .refused .badIndex
  | some v => .done (villageStatus s.plant.now (s.plant.village v) (s.plant.disp v))

/-- STATUS_VILLAGE (R132, R153). -/
def execStatusVillage (s : State) : Answer := .next (s.request (isCode 0x35) (reading statusVillageRule))

end Sys2Proof.Machine
end

