-- ==== Sys2Proof/Machine/Dispatch.lean ====
section
/-! DEFINITION. Dispatch: one arm per row of spec/opcode_table.json, each one call of the row's own meaning. -/

namespace Sys2Proof.Machine

def exec (i : Instr) (s : State) : Host.Outcome State Fault Refusal :=
  match i with
  | .powerOn pins => Sys2Proof.Machine.execPowerOn pins s
  | .nresetAssert => Sys2Proof.Machine.execNresetAssert s
  | .nresetRelease pins => Sys2Proof.Machine.execNresetRelease pins s
  | .receiveByte port item => Sys2Proof.Machine.execReceiveByte port item s
  | .gapTimeout port => Sys2Proof.Machine.execGapTimeout port s
  | .breakDetected port => Sys2Proof.Machine.execBreakDetected port s
  | .breakEnd port => Sys2Proof.Machine.execBreakEnd port s
  | .goodFrameU frame => Sys2Proof.Machine.execGoodFrameU frame s
  | .goodFrameD frame => Sys2Proof.Machine.execGoodFrameD frame s
  | .uTransmitStart => Sys2Proof.Machine.execUTransmitStart s
  | .uTransmitCompletion => Sys2Proof.Machine.execUTransmitCompletion s
  | .grant => Sys2Proof.Machine.execGrant s
  | .dTransmitCompletion => Sys2Proof.Machine.execDTransmitCompletion s
  | .silenceTimerExpiry station => Sys2Proof.Machine.execSilenceTimerExpiry station s
  | .surgeHoldExpiry barrier => Sys2Proof.Machine.execSurgeHoldExpiry barrier s
  | .evaluationBegin => Sys2Proof.Machine.execEvaluationBegin s
  | .barrierEvaluationCompletion => Sys2Proof.Machine.execBarrierEvaluationCompletion s
  | .exerciseEvaluationCompletion => Sys2Proof.Machine.execExerciseEvaluationCompletion s
  | .holdTimerExpiry village => Sys2Proof.Machine.execHoldTimerExpiry village s
  | .ackTimerExpiry village => Sys2Proof.Machine.execAckTimerExpiry village s
  | .reachTimerExpiry village => Sys2Proof.Machine.execReachTimerExpiry village s
  | .repeatTimerExpiry village => Sys2Proof.Machine.execRepeatTimerExpiry village s
  | .durationTimerExpiry => Sys2Proof.Machine.execDurationTimerExpiry s
  | .unknownRequest => Sys2Proof.Machine.execUnknownRequest s
  | .setPart => Sys2Proof.Machine.execSetPart s
  | .statusPart => Sys2Proof.Machine.execStatusPart s
  | .statusLines => Sys2Proof.Machine.execStatusLines s
  | .clearCounters => Sys2Proof.Machine.execClearCounters s
  | .inspectOn => Sys2Proof.Machine.execInspectOn s
  | .inspectOff => Sys2Proof.Machine.execInspectOff s
  | .resetEval => Sys2Proof.Machine.execResetEval s
  | .resetLines => Sys2Proof.Machine.execResetLines s
  | .resetAll straps => Sys2Proof.Machine.execResetAll straps s
  | .loadStation => Sys2Proof.Machine.execLoadStation s
  | .retireStation => Sys2Proof.Machine.execRetireStation s
  | .readStation => Sys2Proof.Machine.execReadStation s
  | .loadChannel => Sys2Proof.Machine.execLoadChannel s
  | .rearmWire => Sys2Proof.Machine.execRearmWire s
  | .readChannel => Sys2Proof.Machine.execReadChannel s
  | .loadPattern => Sys2Proof.Machine.execLoadPattern s
  | .readPattern => Sys2Proof.Machine.execReadPattern s
  | .loadStagePoints => Sys2Proof.Machine.execLoadStagePoints s
  | .readStagePoints => Sys2Proof.Machine.execReadStagePoints s
  | .loadBarrier => Sys2Proof.Machine.execLoadBarrier s
  | .barrierHold => Sys2Proof.Machine.execBarrierHold s
  | .barrierRun => Sys2Proof.Machine.execBarrierRun s
  | .readBarrier => Sys2Proof.Machine.execReadBarrier s
  | .statusBarrier => Sys2Proof.Machine.execStatusBarrier s
  | .loadVillage => Sys2Proof.Machine.execLoadVillage s
  | .loadRoute => Sys2Proof.Machine.execLoadRoute s
  | .maskVillage => Sys2Proof.Machine.execMaskVillage s
  | .releaseBreach => Sys2Proof.Machine.execReleaseBreach s
  | .readVillage => Sys2Proof.Machine.execReadVillage s
  | .statusVillage => Sys2Proof.Machine.execStatusVillage s
  | .exerciseBegin => Sys2Proof.Machine.execExerciseBegin s
  | .exerciseSync => Sys2Proof.Machine.execExerciseSync s
  | .exerciseEnd => Sys2Proof.Machine.execExerciseEnd s
  | .wholeSecondBoundary => Sys2Proof.Machine.execWholeSecondBoundary s

end Sys2Proof.Machine
end

