-- ==== Sys2Proof/Safety.lean ====
section
/-! DEFINITION. The terms in which statements about the part are made: when a request begins and how it is answered, what a
step may change, the line side after a good frame, and the invariants of the part. Nothing here is used by the step. -/

namespace Sys2Proof.Machine

/-! ### Requests -/

/-- A request's execution begins in a state: the part is out of reset, no request is executing, and the request is at the
head of the queue with a given code and argument length (R168, R169). -/
structure State.Begins (s : State) (r : Request) (code length : Nat) : Prop where
  running : s.nresetLow = false
  free : s.mgmt.executing = none
  head : s.mgmt.requests.head? = some r
  code : r.code = BitVec.ofNat 8 code
  length : r.args.length = length

/-- The Request Unit with one more reply, or one more discarded reply when the reply queue holds 4 (R172). -/
def Mgmt.withReply (m : Mgmt) (r : Reply) : Mgmt :=
  if m.replies.length < 4 then { m with replies := m.replies ++ [r] }
  else { m with discarded := min (m.discarded + 1) 65535 }

/-- The Request Unit after the head request has completed with an outcome and data: the request has left the queue, and its
reply is made unless it was QUIET and DONE (R168, R172). -/
def Mgmt.answered (m : Mgmt) (r : Request) (o : ReqOutcome) (data : List Byte) : Mgmt :=
  let done : Mgmt := { m with requests := m.requests.tail, executing := none }
  if r.quiet = true ∧ o = .done then done
  else done.withReply { dst := r.src, code := r.code, target := r.target, outcome := o, data := data }

/-- A step answers a request: the Request Unit completes it, and outside the plant nothing else changes. What the plant
becomes is said beside it. -/
def State.Answers (s : State) (r : Request) (o : ReqOutcome) (data : List Byte) (t : State) : Prop :=
  t = { s with plant := t.plant, mgmt := s.mgmt.answered r o data }

/-- A step answers a request with an outcome and no data, and changes nothing else: every refusal, and a DONE that changes
nothing (R2, R169, R187). -/
def State.OnlyAnswers (s : State) (r : Request) (o : ReqOutcome) (t : State) : Prop :=
  t = { s with mgmt := s.mgmt.answered r o [] }

end Sys2Proof.Machine

namespace Sys2Proof

open Machine

/-- The row of the table that executes a request. -/
def Instr.executes (r : Request) : Instr → Bool
  | .unknownRequest => (catalogue r.code).isNone
  | .setPart => r.code == 0x01
  | .statusPart => r.code == 0x02
  | .statusLines => r.code == 0x03
  | .clearCounters => r.code == 0x04
  | .inspectOn => r.code == 0x05
  | .inspectOff => r.code == 0x06
  | .resetEval => isResetEval r
  | .resetLines => r.resetOf scopeLines
  | .resetAll _ => r.resetOf scopeAll
  | .loadStation => r.code == 0x10
  | .retireStation => r.code == 0x11
  | .readStation => r.code == 0x12
  | .loadChannel => r.code == 0x18
  | .rearmWire => r.code == 0x19
  | .readChannel => r.code == 0x1A
  | .loadPattern => r.code == 0x1B
  | .readPattern => r.code == 0x1C
  | .loadStagePoints => r.code == 0x20
  | .readStagePoints => r.code == 0x21
  | .loadBarrier => r.code == 0x22
  | .barrierHold => r.code == 0x23
  | .barrierRun => r.code == 0x24
  | .readBarrier => r.code == 0x25
  | .statusBarrier => r.code == 0x26
  | .loadVillage => r.code == 0x30
  | .loadRoute => r.code == 0x31
  | .maskVillage => r.code == 0x32
  | .releaseBreach => r.code == 0x33
  | .readVillage => r.code == 0x34
  | .statusVillage => r.code == 0x35
  | .exerciseBegin => r.code == 0x40
  | .exerciseSync => r.code == 0x41
  | .exerciseEnd => r.code == 0x42
  | .powerOn _ | .nresetAssert | .nresetRelease _ | .receiveByte _ _ | .gapTimeout _ | .breakDetected _ | .breakEnd _
  | .goodFrameU _ | .goodFrameD _ | .uTransmitStart | .uTransmitCompletion | .grant | .dTransmitCompletion
  | .silenceTimerExpiry _ | .surgeHoldExpiry _ | .evaluationBegin | .barrierEvaluationCompletion
  | .exerciseEvaluationCompletion | .holdTimerExpiry _ | .ackTimerExpiry _ | .reachTimerExpiry _ | .repeatTimerExpiry _
  | .durationTimerExpiry | .wholeSecondBoundary => false

/-- A row that executes a request. -/
def Instr.isRequest : Instr → Bool
  | .unknownRequest | .setPart | .statusPart | .statusLines | .clearCounters | .inspectOn | .inspectOff | .resetEval
  | .resetLines | .resetAll _ | .loadStation | .retireStation | .readStation | .loadChannel | .rearmWire | .readChannel
  | .loadPattern | .readPattern | .loadStagePoints | .readStagePoints | .loadBarrier | .barrierHold | .barrierRun
  | .readBarrier | .statusBarrier | .loadVillage | .loadRoute | .maskVillage | .releaseBreach | .readVillage
  | .statusVillage | .exerciseBegin | .exerciseSync | .exerciseEnd => true
  | .powerOn _ | .nresetAssert | .nresetRelease _ | .receiveByte _ _ | .gapTimeout _ | .breakDetected _ | .breakEnd _
  | .goodFrameU _ | .goodFrameD _ | .uTransmitStart | .uTransmitCompletion | .grant | .dTransmitCompletion
  | .silenceTimerExpiry _ | .surgeHoldExpiry _ | .evaluationBegin | .barrierEvaluationCompletion
  | .exerciseEvaluationCompletion | .holdTimerExpiry _ | .ackTimerExpiry _ | .reachTimerExpiry _ | .repeatTimerExpiry _
  | .durationTimerExpiry | .wholeSecondBoundary => false

/-- A row whose effect is a full reset (R4, R183). -/
def Instr.isFullReset : Instr → Bool
  | .powerOn _ | .nresetRelease _ | .resetAll _ => true
  | _ => false

end Sys2Proof

namespace Sys2Proof.Machine

/-! ### What a step may change -/

/-- Two plants differ at most on the village side: village records, dispatch records and notices. -/
def Plant.VillageSideOnly (p q : Plant) : Prop :=
  q = { p with villages := q.villages, dispatch := q.dispatch, notices := q.notices }

/-- Two plants differ at most from the barriers downward: barrier records, evaluation queue and flight, exercise estimate,
session, and the village side. Part time, stations, channels, patterns and tables are the same. -/
def Plant.BarrierSideOnly (p q : Plant) : Prop :=
  q = { p with barriers := q.barriers, evalQueue := q.evalQueue, flight := q.flight, exercise := q.exercise,
               session := q.session, villages := q.villages, dispatch := q.dispatch, notices := q.notices }

/-- Two plants differ at most from the channels downward: channel and pattern records, and what `BarrierSideOnly` allows. -/
def Plant.ChannelSideOnly (p q : Plant) : Prop :=
  q = { p with channels := q.channels, patterns := q.patterns, barriers := q.barriers, evalQueue := q.evalQueue,
               flight := q.flight, exercise := q.exercise, session := q.session, villages := q.villages,
               dispatch := q.dispatch, notices := q.notices }

/-! ### Evaluation work -/

/-- The evaluation work after an owner's has left: its entry leaves the queue, and if its evaluation was in flight, the unit
takes the next head at once (R93, R102). -/
def Plant.workWithout (p : Plant) (o : EvalOwner) : List EvalEntry × Option Flight :=
  let rest := p.evalQueue.filter fun e => e.owner ≠ o
  if p.flight.map Flight.owner = some o then
    let q := { p with evalQueue := rest, flight := none }.beginEvaluation
    (q.evalQueue, q.flight)
  else (rest, p.flight)

/-- Barrier k+1, if there is one that is ACTIVE with a last stage and a vote that is not BLIND, is offered that stage (R101). -/
def Plant.reofferedBelow (p : Plant) (k : Fin 4) : Plant :=
  if below : k.1 + 1 < 4 then
    let b := p.barrier ⟨k.1 + 1, below⟩
    if b.state = .active ∧ b.voteQuality ≠ some .blind then
      b.lastStage.elim p fun stage => p.offer (.barrier ⟨k.1 + 1, below⟩) stage
    else p
  else p

/-- The Evaluation Unit is never idle while an entry waits (R93). -/
def Plant.AtWork (p : Plant) : Prop := p.flight = none → p.evalQueue = []

/-! ### Reply data, field by field -/

/-- A one-byte field, at most 255 (R186). -/
def b8 (n : Nat) : Byte := BitVec.ofNat 8 (min n 255)

/-- A yes/no byte: 1 for yes (R186). -/
def yes (b : Bool) : Byte := if b = true then 1 else 0

/-- An index byte, 255 for none (R186). -/
def ix {n : Nat} : Option (Fin n) → Byte
  | some i => BitVec.ofNat 8 i.1
  | none => 255

/-- A two-byte field, high byte first, at most 65535 (R186). -/
def be16 (n : Nat) : List Byte := [BitVec.ofNat 8 (min n 65535 / 256), BitVec.ofNat 8 (min n 65535 % 256)]

/-- A four-byte field, high byte first (R186). -/
def be32 (n : Nat) : List Byte :=
  let m := min n 4294967295
  [BitVec.ofNat 8 (m / 16777216), BitVec.ofNat 8 (m / 65536 % 256), BitVec.ofNat 8 (m / 256 % 256), BitVec.ofNat 8 (m % 256)]

/-- A 16-bit pattern word. -/
def word (w : Half) : List Byte := be16 w.toNat

/-- A signed two-byte field, two's complement (R186). -/
def signed (i : Int) : List Byte := word (BitVec.ofInt 16 i)

/-- An absent stage, last sequence or crest stage is 0xFFFF (R186). -/
def orAbsent (o : Option Nat) : List Byte := be16 (o.getD 65535)

/-- A content byte: the mark in bit 7, the level in bits 2..0, 0xFF for none (R186); bits 6..3 of a content present are 0 (DESIGN
CHOICE, log entry 25). -/
def contentOf : Option Content → Byte
  | some c => b8 ((if c.marked = true then 128 else 0) + c.level.code)
  | none => 255

/-- The fields of reply data, each at its offset (Reply data). -/
def FieldsAt (data : List Byte) (fields : List (Nat × List Byte)) : Prop :=
  ∀ f ∈ fields, (data.drop f.1).take f.2.length = f.2

/-- READ_STATION (R41). -/
def fieldsOfStation (now : Nat) (st : Station) : List (Nat × List Byte) :=
  [(0, [yes st.inUse, st.addr]), (2, st.slots.toList.map ix), (10, be16 st.timeout), (12, [b8 st.state.code]),
    (13, orAbsent (st.lastSeq.map BitVec.toNat)),
    (15, be16 (match st.state with | .silent since => now - since | .unknown | .live | .late | .retired => 0)),
    (17, be16 st.accepted), (19, be16 st.duplicate), (21, be16 st.gap), (23, be16 st.malformed)]

/-- READ_CHANNEL (R65). VALID and set are sent as 1, the model's inference (log entry 26). -/
def fieldsOfChannel (ch : Channel) : List (Nat × List Byte) :=
  let path (at_ : Nat) (s : StagePath) : List (Nat × List Byte) :=
    [(at_, [yes s.valid]), (at_ + 1, orAbsent s.latest), (at_ + 3, orAbsent s.previous),
      (at_ + 5, [b8 s.spikeRun, b8 s.missRun, b8 s.ring.length, yes s.clamped])]
  [(0, [yes ch.inUse, yes ch.enabled, b8 ch.kind.code, ix ch.barrier]),
    (4, [if ch.barrier = none then 255 else b8 ch.kind.code, yes ch.eligible]), (6, be16 ch.gain), (8, signed ch.offset),
    (10, [yes ch.invert]), (11, be16 ch.slew), (13, [b8 ch.spikeAccept, b8 ch.window, b8 ch.missLimit]),
    (16, be16 ch.surgeWindow), (18, be16 ch.surgeThreshold)] ++
  match ch.kind with
  | .stage => path 20 ch.real ++ path 29 ch.exer
  | .surge => [(20, [yes ch.valid, b8 ch.surgeRing.length]), (22, be16 ch.windowSum), (24, [yes ch.surging])]
  | .wire => [(20, [yes ch.valid, yes ch.latch]),
      (22, [match ch.lastReading with | some .intact => 0 | some .broken => 1 | none => 255])]

/-- READ_PATTERN (R157). -/
def fieldsOfPattern (q : Pattern) : List (Nat × List Byte) :=
  [(0, [b8 q.kind.code]), (1, word q.start), (3, signed q.step), (5, word q.valueA), (7, word q.valueB), (9, word q.seed),
    (11, word q.ramp), (13, [yes q.phaseB]), (14, word q.gen), (16, be16 q.yields)]

/-- READ_STAGE_POINTS (R76). -/
def fieldsOfTable (t : Table) (half : Nat) : List (Nat × List Byte) :=
  [(0, [b8 t.count, b8 t.verdict.code, b8 t.verdict.reasonCode, b8 (t.verdict.reasonPoint.getD 255)]),
    (4, orAbsent (t.verdict.crest?.map Prod.fst)), (6, be16 ((t.verdict.crest?.map Prod.snd).getD 0))] ++
  (List.range 8).flatMap fun i =>
    let q := t.points.toList.getD (8 * half + i) ⟨0, 0⟩
    [(8 + 4 * i, be16 q.stage), (10 + 4 * i, be16 q.volume)]

/-- READ_BARRIER (R109): the settings, with the history spacing W / 8. -/
def fieldsOfBarrier (b : Barrier) : List (Nat × List Byte) :=
  [(0, be16 b.rateWindow), (2, be16 (b.rateWindow / 8)), (4, be16 b.watchFill), (6, be16 b.warnFill),
    (8, [b8 b.surgeHold, yes b.overtopBreach])]

/-- The estimate block, all 0 while the estimate is absent (Reply data). -/
def fieldsOfEstimate (at_ : Nat) (o : Option Estimate) : List (Nat × List Byte) :=
  match o with
  | none => [(at_, List.replicate 11 0)]
  | some e => [(at_, [b8 (1 + (if e.above = true then 2 else 0) + (if e.rated = true then 4 else 0))]), (at_ + 1, be16 e.volume),
      (at_ + 3, be16 e.fill), (at_ + 5, signed e.ownRate), (at_ + 7, be16 e.effRate), (at_ + 9, be16 e.ttf)]

/-- STATUS_BARRIER (R109). While the ring is empty its times and volumes are 0, the model's choice (log entry 23). -/
def fieldsOfBarrierStatus (p : Plant) (k : Fin 4) : List (Nat × List Byte) :=
  let b := p.barrier k
  let waiting := p.evalQueue.any fun e => e.owner = .barrier k
  let flying := p.flight.any fun f => f.owner = .barrier k
  let record (at_ : Nat) (o : Option HistoryRec) : List (Nat × List Byte) :=
    [(at_, be32 ((o.map HistoryRec.time).getD 0)), (at_ + 4, be16 ((o.map HistoryRec.volume).getD 0))]
  [(0, [b8 b.state.code, if flying then 2 else if waiting then 1 else 0, yes waiting, b8 b.validCount,
      b8 (p.channelsAt k .stage).length, (b.voteQuality.map fun q => b8 q.code).getD 255,
      if b.estimate = none then 3 else (b.voteQuality.map fun q => b8 q.code).getD 3]),
    (7, orAbsent b.lastStage), (20, [b8 b.history.length]), (33, [yes b.surgeFlag]), (34, be16 (b.surgeTimer.getD 0)),
    (36, [b8 ((if b.wire = true then 1 else 0) + (if b.overtop = true then 2 else 0))]), (37, be16 b.superseded)] ++
  fieldsOfEstimate 9 b.estimate ++ record 21 b.history.head? ++ record 27 b.history.getLast?

/-- READ_VILLAGE (R132): the routes stand in ascending barrier index, places beyond them 0. -/
def fieldsOfVillage (vl : Village) : List (Nat × List Byte) :=
  let routes := (List.finRange 4).filterMap fun k => (vl.routes.get k).map fun r => (k, r)
  [(0, [yes vl.inUse, vl.addr]), (2, be16 vl.evac), (4, be16 vl.warn), (6, be16 vl.watch),
    (8, [b8 vl.holdTime, b8 vl.ackMode.code, b8 vl.ackTimeout, b8 vl.retryLimit]), (12, be16 vl.reachInterval),
    (14, be16 vl.repeatInterval), (16, [yes vl.permit]),
    (17, [b8 ((if vl.mask.watch = true then 2 else 0) + (if vl.mask.warn = true then 4 else 0) +
      (if vl.mask.evacuate = true then 8 else 0))]),
    (18, [b8 routes.length])] ++
  (List.range 4).map fun i => (19 + 3 * i, match routes[i]? with
    | some (k, r) => BitVec.ofNat 8 k.1 :: be16 r.travel
    | none => [0, 0, 0])

/-- STATUS_VILLAGE (R132, R153). The due reason is 0 unless DUE and the bits the layout leaves unused are 0, the model's choice
(log entries 24 and 25). -/
def fieldsOfVillageStatus (now : Nat) (vl : Village) (d : Dispatch) : List (Nat × List Byte) :=
  let routes := (List.finRange 4).filterMap fun k => (vl.routes.get k).map fun r => (k, r)
  let fill (o : Option Nat) : Nat := min (o.getD 1023) 1023
  let due : Option (DueReason × Nat × Content) := match d.state with
    | .due reason time pending => some (reason, time, pending)
    | .quiet | .await | .unreached => none
  [(0, [b8 ((if vl.latch = true then 128 else 0) + 16 * vl.computed.code + (if vl.exCause = .fill then 8 else 0) +
      vl.announced.code), b8 (16 * vl.exComputed.code + vl.exAnnounced.code)]),
    (2, be16 (vl.holdTimer.getD 0)), (4, [ix vl.decBarrier]),
    (5, be16 (8192 * vl.decCause.code + 1024 * routes.length + fill vl.decFill)), (7, be16 vl.decAvailable),
    (9, be16 vl.exAvailable)] ++
  ((List.range 4).map fun i => (11 + 5 * i, match routes[i]? with
    | some (k, r) => b8 (64 * k.1 + 8 * r.level.code + r.held.code) :: (be16 (8192 * r.cause.code + fill r.fill) ++
        be16 r.available)
    | none => [0, 0, 0, 0, 0])) ++
  [(31, [b8 (64 * d.state.code + 16 * ((due.map fun x => x.1.code).getD 0) + (if d.onLine = true then 8 else 0) +
      (if d.openOffer = true then 4 else 0) + (if d.suppressed = true then 2 else 0))]),
    (32, [contentOf (due.map fun x => x.2.2), contentOf (some d.current), contentOf d.offered, contentOf (some d.delivered)]),
    (36, [b8 d.retry, b8 (d.ackTimer.getD 0), b8 ((due.map fun x => now - x.2.1).getD 0)]),
    (39, be16 (if vl.ackMode = .confirmed then d.reachTimer.getD 0 else d.repeatTimer.getD 0)),
    (41, be16 ((d.unreachedSince.map fun since => now - since).getD 0)), (43, be16 d.stale)]

/-- STATUS_LINES (R13): port U with the UD queue its receiver feeds, then port D with the DU queue. -/
def fieldsOfLines (s : State) : List (Nat × List Byte) :=
  let port (at_ : Nat) (r : PortRec) (queue : List Frame) : List (Nat × List Byte) :=
    [(at_, [b8 r.state.code]),
      (at_ + 1, be16 (match r.state with | .down since => s.plant.now - since | .waiting | .up => 0)), (at_ + 3, be16 r.good),
      (at_ + 5, be16 r.check), (at_ + 7, be16 r.framing), (at_ + 9, be16 r.breaks), (at_ + 11, be16 r.drops),
      (at_ + 13, [b8 queue.length])]
  port 0 s.line.u s.line.ud ++ port 14 s.line.d s.line.du

/-- STATUS_PART (R166, R178). -/
def fieldsOfPart (s : State) : List (Nat × List Byte) :=
  let set := s.mgmt.settings
  let x := s.plant.exercise
  let session := s.plant.session
  let kind (i : Nat) : Nat := ((s.plant.notices.map fun n => n.kind.code)[i]?).getD 0
  let waiting := s.plant.evalQueue.any fun e => e.owner = .exercise
  let flying := s.plant.flight.any fun f => f.owner = .exercise
  [(0, [s.ownAddr, s.straps.addr, b8 (s.straps.rate.toNat + (if set.inspecting = true then 4 else 0) +
      8 * s.mgmt.requests.length + 32 * s.mgmt.replies.length)]),
    (3, be32 s.plant.now), (7, [set.report.getD 0, b8 set.managers.length, (set.managers[0]?).getD 255,
      (set.managers[1]?).getD 255]),
    (11, be16 set.ceiling), (13, [b8 set.duration]),
    (14, (List.range 5).map fun i => BitVec.ofNat 8 (16 * kind (2 * i) + kind (2 * i + 1))),
    (19, be16 s.mgmt.discarded), (21, [b8 ((if session.active = true then 128 else 0) + session.endReason.code), ix session.barrier]),
    (23, be16 (match session.start, session.endTime with
      | none, _ => 0
      | some start, ended => if session.active = true then s.plant.now - start else (ended.map fun e => e - start).getD 0)),
    (25, be16 (session.timer.getD 0)),
    (27, [b8 (16 * x.history.length + 4 * (if flying then 2 else if waiting then 1 else 0) + x.validCount)]),
    (28, orAbsent x.lastStage), (41, be16 x.superseded)] ++
  fieldsOfEstimate 30 x.estimate

/-! ### A village after a recomputation -/

/-- A village record stands at the exercise levels that a plant's session and exercise estimate give it (R128): formed from the
estimate's time-to-full, the village's own travel and thresholds, and the fill floors of the session barrier; CLEAR without a
session, an estimate, a permit, or a route entry for the session barrier. -/
def Village.AtExercise (vl : Village) (p : Plant) : Prop :=
  (∀ k r e, p.session.active = true → p.session.barrier = some k → p.exercise.estimate = some e → vl.permit = true →
    vl.routes.get k = some r →
    let a := if e.ttf = 65535 then 65535 else min (e.ttf + r.travel) 65534
    let floored := fillFloors (p.barrier k).watchFill (p.barrier k).warnFill e.fill (vl.project a, .projection)
    vl.exAvailable = a ∧ vl.exComputed = floored.1 ∧ vl.exAnnounced = floored.1 ∧ vl.exCause = floored.2) ∧
  (p.session.active = false ∨ p.exercise.estimate = none ∨ vl.permit = false ∨
    (∀ k, p.session.barrier = some k → vl.routes.get k = none) →
    vl.exAvailable = 65535 ∧ vl.exComputed = .clear ∧ vl.exAnnounced = .clear ∧ vl.exCause = .projection)

/-- What the forming of village `v` and its hand-on change between two plants, whatever levels are formed, with the latch and
the dispatch record as the request left them before. The latch is kept, or set by a computed level of BREACH; BREACH_RAISED is
posted with village and deciding barrier exactly if a clear latch was set (R123); the dispatcher takes the village's levels,
mask and permit (R127, R136). -/
structure Plant.VillageFormed (p q : Plant) (v : Fin 8) (latch : Bool) (d : Dispatch) : Prop where
  only : p.VillageSideOnly q
  others : ∀ w, w ≠ v → q.village w = p.village w ∧ q.disp w = p.disp w
  latched : (q.village v).latch = true ↔ latch = true ∨ (q.village v).computed = .breach
  raised : latch = false → (q.village v).computed = .breach →
    ∃ k, (q.village v).decBarrier = some k ∧ q.notices = (p.post .breachRaised v.1 k.1).notices
  silent : latch = true ∨ (q.village v).computed ≠ .breach → q.notices = p.notices
  handed : q.disp v = d.handOn p.session.active p.now
    ⟨(q.village v).announced, (q.village v).exAnnounced, (q.village v).mask, (q.village v).permit⟩

/-! ### The line side after a good frame -/

/-- A port's record after a good frame (R9, R11). -/
def PortRec.afterGood (r : PortRec) : PortRec :=
  { r with state := .up, rx := .hunt, brk := .marking, good := min (r.good + 1) 65535 }

/-- The plant after the port state has taken a good frame: a DOWN port posts LINE_UP (R11, R12). -/
def State.plantUp (s : State) (port : Port) : Plant :=
  match (s.line.port port).state with
  | .down since => s.plant.post .lineUp (portSubject port) (min (s.plant.now - since) 65535)
  | .waiting | .up => s.plant

/-- The line side after a good frame on port U: forwarded unless addressed to the part, dropped and counted when the UD
queue holds 16 (R14, R16). -/
def State.forwardedU (s : State) (f : Frame) : Line :=
  let u := s.line.u.afterGood
  if f.dst = s.ownAddr then { s.line with u := u }
  else if s.line.ud.length < 16 then { s.line with u := u, ud := s.line.ud ++ [f] }
  else { s.line with u := { u with drops := min (u.drops + 1) 65535 } }

/-- The line side after a good frame on port D (R15, R16). -/
def State.forwardedD (s : State) (f : Frame) : Line :=
  let d := s.line.d.afterGood
  if f.dst = s.ownAddr then { s.line with d := d }
  else if s.line.du.length < 16 then { s.line with d := d, du := s.line.du ++ [f] }
  else { s.line with d := { d with drops := min (d.drops + 1) 65535 } }

/-- Bytes delivered to a receiver one by one. -/
def feed (port : Port) : List Byte → State → Answer
  | [], s => .next s
  | b :: rest, s =>
    match exec (.receiveByte port (.byte b)) s with
    | .next t => feed port rest t
    | stop => stop

/-- The command that brings a whole frame to a port at once. -/
def goodFrameOn (port : Port) (f : Frame) : Instr :=
  match port with
  | .u => .goodFrameU f
  | .d => .goodFrameD f

/-- A SAMPLE reaches station record `i` and no other: the part is out of reset, port U is not in BREAK, the frame is a good
SAMPLE, and `i` is the one station record in use that holds its source (R14, R31). -/
structure State.SampleFor (s : State) (f : Frame) (i : Fin 24) : Prop where
  running : s.nresetLow = false
  open_ : s.line.u.brk ≠ .broken
  good : f.good = true
  kind : f.kind = 0x10
  held : (s.plant.station i).inUse = true ∧ (s.plant.station i).addr = f.src
  only : ∀ j, (s.plant.station j).inUse = true → (s.plant.station j).addr = f.src → j = i

/-- A SAMPLE payload is well formed: a count n of 1..8 and n readings of 3 bytes (R32). -/
def wellFormedSample (payload : List Byte) : Prop :=
  ∃ n rest, payload = n :: rest ∧ 1 ≤ n.toNat ∧ n.toNat ≤ 8 ∧ payload.length = 1 + 3 * n.toNat

/-! ### Invariants -/

/-- A channel index appears in at most one slot of all station records together (R27); an UNUSED record maps nothing and
is not eligible. -/
structure Plant.SlotsExclusive (p : Plant) : Prop where
  acrossStations : ∀ i j c, (p.station i).maps c = true → (p.station j).maps c = true → i = j
  withinStation : ∀ i, (p.station i).slots.toList.reduceOption.Nodup
  unusedEmpty : ∀ i, (p.station i).inUse = false → ∀ c, (p.station i).maps c = false
  unusedSilent : ∀ i, (p.station i).inUse = false → (p.station i).eligible = false

/-- No barrier has more channels of a kind than its cap (R49). -/
def Plant.CapsKept (p : Plant) : Prop := ∀ k kind, (p.channelsAt k kind).length ≤ channelCap kind

/-- A valid path or channel is one that its kind and its source allow: only an eligible channel in use is VALID (R38, R55,
R59). -/
structure Channel.Sound (ch : Channel) : Prop where
  real : ch.real.valid = true → ch.eligible = true ∧ ch.inUse = true ∧ ch.kind = .stage
  exer : ch.exer.valid = true → ch.eligible = true ∧ ch.inUse = true ∧ ch.kind = .stage
  other : ch.valid = true → ch.eligible = true ∧ ch.inUse = true ∧ ch.kind ≠ .stage

/-- A channel's source is ELIGIBLE exactly when a station record in use maps it and that station is LIVE or LATE (R59), and
no channel is VALID without (R38). -/
structure Plant.SourcesMatch (p : Plant) : Prop where
  slots : p.SlotsExclusive
  source : ∀ c, (p.channel c).eligible = true ↔
    ∃ i, (p.station i).inUse = true ∧ (p.station i).maps c = true ∧ (p.station i).eligible = true
  sound : ∀ c, (p.channel c).Sound

/-- The ladder's standing facts about one village (R112, R123, R125): an UNUSED record is in the cleared state; the latch is
set exactly while the announced level is BREACH, with the hold timer stopped; with the latch clear the hold timer of a
village in use runs. -/
structure Village.Sound (vl : Village) : Prop where
  unused : vl.inUse = false → vl = Village.cleared
  latched : vl.latch = true ↔ vl.announced = .breach
  stopped : vl.latch = true → vl.holdTimer = none
  holding : vl.inUse = true → vl.latch = false → vl.holdTimer.isSome = true

/-- The ladder's standing facts about every village. -/
def Plant.LadderSound (p : Plant) : Prop := ∀ v, (p.village v).Sound

/-- Every queue and set keeps within its capacity (R16, R91, R168, R172, R179). -/
structure State.Bounded (s : State) : Prop where
  ud : s.line.ud.length ≤ 16
  du : s.line.du.length ≤ 16
  requests : s.mgmt.requests.length ≤ 2
  replies : s.mgmt.replies.length ≤ 4
  evaluations : (s.plant.evalQueue.map EvalEntry.owner).Nodup
  notices : (s.plant.notices.map Notice.kind).Nodup
  counts : ∀ n ∈ s.plant.notices, 1 ≤ n.count ∧ n.count ≤ 255

/-- A frame in reception keeps the shape of R7 and R9: fewer than six header bytes, fewer payload bytes than its payload
length of at most 48, and the check register over all bytes received so far. -/
def RxState.Sound : RxState → Prop
  | .hunt => True
  | .header got crc => got.length < 6 ∧ crc = checkOf got
  | .payload h length got crc => got.length < length ∧ length ≤ 48 ∧
      crc = checkOf ([h.dst, h.src, h.kind, h.seq, h.flags, BitVec.ofNat 8 length] ++ got)
  | .check h data crc _ => data.length ≤ 48 ∧
      crc = checkOf ([h.dst, h.src, h.kind, h.seq, h.flags, BitVec.ofNat 8 data.length] ++ data)

/-- Every frame that waits or is being sent is a good frame, a frame in reception keeps its shape, and every reply fits a
frame: the longest reply data are 45 bytes (R187). -/
structure State.FramesGood (s : State) : Prop where
  ud : ∀ f ∈ s.line.ud, f.good = true
  du : ∀ f ∈ s.line.du, f.good = true
  uTx : ∀ f, s.line.uTx = some f → f.good = true
  dTx : ∀ tx, s.line.dTx = some tx → tx.frame.good = true
  rx : ∀ port, (s.line.port port).rx.Sound
  replies : ∀ r ∈ s.mgmt.replies, r.data.length ≤ 45

/-- An evaluation belongs to a barrier that is ACTIVE, or to a session that is active (R91, R102, R163). -/
def Plant.Live (p : Plant) : EvalOwner → Prop
  | .barrier k => (p.barrier k).state = .active
  | .exercise => p.session.active = true

/-- The estimator's standing facts: an ACTIVE barrier has a crest stage and a capacity (R75), waiting and running evaluations
are live (R102), and a session runs on an ACTIVE barrier without surge flag and breach causes (R159, R162). -/
structure Plant.EstimatorSound (p : Plant) : Prop where
  table : ∀ k, (p.barrier k).state = .active → (p.table k).verdict.crest?.isSome = true
  queue : ∀ e ∈ p.evalQueue, p.Live e.owner
  flight : ∀ f, p.flight = some f → p.Live f.owner
  session : p.session.active = true → ∃ k, p.session.barrier = some k ∧ (p.barrier k).state = .active ∧
    (p.barrier k).surgeFlag = false ∧ (p.barrier k).breached = false

end Sys2Proof.Machine
end

