-- ==== Sys2Proof/Certificates/Slice0/Obligations.lean ====
section
/-! DEFINITION. The statements for the provers. Each docstring names the rule it formalises, or says that the statement is
about the model's own choice and names the log entry. -/

open Sys2Proof Sys2Proof.Machine

/-! ### The machine as a whole -/

/-- A step takes the command at the front of the queue and executes it with the queue's rest. -/
def Obligations.StepExecutesFrontCommand : Prop :=
  ∀ (c : Instr) (rest : List Instr) (s : State), step { s with pending := c :: rest } = exec c { s with pending := rest }

/-- Every command of the table completes in every state, and leaves the queue of waiting commands as it is. That a command
completes where its occasion is absent, or while nRESET is held low, is the model's choice (log entries 3 and 4), and the
queue of waiting commands is the model's own (log entry 10). -/
def Obligations.EveryCommandCompletes : Prop :=
  ∀ (c : Instr) (s : State), ∃ t, exec c s = .next t ∧ t.pending = s.pending

/-- Commands whose occasion is absent change nothing: the model's choice (log entries 3 and 4). While nRESET is held low,
every command but power-on and the two edges of the pin; a timer's expiry while it is not due; a request's row while that
request is not at the head of the queue or another one is executing. -/
def Obligations.CommandsWithoutOccasionIdle : Prop :=
  ∀ (s : State),
    (∀ c : Instr, s.nresetLow = true → (∀ pins, c ≠ .powerOn pins) → (∀ pins, c ≠ .nresetRelease pins) →
      c ≠ .nresetAssert → exec c s = .next s) ∧
    (∀ i, (s.plant.station i).timer ≠ some 0 → exec (.silenceTimerExpiry i) s = .next s) ∧
    (∀ k, (s.plant.barrier k).surgeTimer ≠ some 0 → exec (.surgeHoldExpiry k) s = .next s) ∧
    (∀ v, (s.plant.village v).holdTimer ≠ some 0 → exec (.holdTimerExpiry v) s = .next s) ∧
    (∀ v, (s.plant.disp v).ackTimer ≠ some 0 → exec (.ackTimerExpiry v) s = .next s) ∧
    (∀ v, (s.plant.disp v).reachTimer ≠ some 0 → exec (.reachTimerExpiry v) s = .next s) ∧
    (∀ v, (s.plant.disp v).repeatTimer ≠ some 0 → exec (.repeatTimerExpiry v) s = .next s) ∧
    (s.plant.session.timer ≠ some 0 → exec .durationTimerExpiry s = .next s) ∧
    (∀ c : Instr, c.isRequest = true →
      (s.mgmt.executing ≠ none ∨ ∀ r, s.mgmt.requests.head? = some r → c.executes r = false) → exec c s = .next s)

/-! ### Power, reset pin, part time (chapters 0 and 1) -/

/-- Power-on and the release of nRESET bring every block to its full-reset state, whatever the state before: part time 0,
straps sampled, every record in the cleared state and at the defaults of its table of limits, queues empty, and UNCONFIGURED
alone in the notice set with the strap value (R3, R4, R26, R45, R69, R70, R111, R112, R152, R154, R158, R175, R184). The
assertion of nRESET puts both transmit lines in marking. The model's choices: a release is a full reset even with the pin
high, and the assertion ends both transmissions and both receptions and leaves everything else as it was, which the release
then clears (log entry 3); a channel's invert, which no table of limits names, is no after a full reset (log entry 22). -/
def Obligations.PowerAndResetPin : Prop :=
  ∀ (pins : Pins) (s : State),
    let path : StagePath :=
      { valid := false, previous := none, spikeRun := 0, missRun := 0, ring := [], latest := none, clamped := false }
    (∃ t, exec (.powerOn pins) s = .next t ∧ exec (.nresetRelease pins) s = .next t ∧
      t.nresetLow = false ∧ t.straps = pins.straps ∧ t.pending = s.pending ∧
      t.ownAddr = (if pins.straps.addr = 0 ∨ pins.straps.addr = 255 then 254 else pins.straps.addr) ∧
      t.line = { u := { state := .waiting, rx := .hunt, brk := if pins.uSpacing then .spacing else .marking,
                        good := 0, check := 0, framing := 0, breaks := 0, drops := 0 },
                 d := { state := .waiting, rx := .hunt, brk := if pins.dSpacing then .spacing else .marking,
                        good := 0, check := 0, framing := 0, breaks := 0, drops := 0 },
                 ud := [], du := [], uTx := none, dTx := none, originSeq := 0, lastGrant := .none } ∧
      t.plant.now = 0 ∧
      (∀ i, t.plant.station i =
        { inUse := false, addr := 0, slots := Vector.replicate 8 none, timeout := 300, state := .unknown, timer := none,
          lastSeq := none, accepted := 0, duplicate := 0, gap := 0, malformed := 0 }) ∧
      (∀ c, t.plant.channel c =
        { inUse := false, enabled := false, kind := .stage, barrier := none, eligible := false, gain := 4096, offset := 0,
          invert := false, slew := 0, spikeAccept := 3, window := 1, missLimit := 3, surgeWindow := 60, surgeThreshold := 1,
          real := path, exer := path, surgeRing := [], windowSum := 0, surging := false, valid := false, latch := false,
          lastReading := none }) ∧
      (∀ c, t.plant.pattern c =
        { kind := .none, start := 0, step := 0, valueA := 0, valueB := 0, seed := 1, ramp := 0, phaseB := false, gen := 1,
          yields := 0 }) ∧
      (∀ k, t.plant.table k = { count := 0, points := Vector.replicate 16 ⟨0, 0⟩, verdict := .unchecked }) ∧
      (∀ k, t.plant.barrier k =
        { state := .unloaded, rateWindow := 600, watchFill := 1000, warnFill := 1000, surgeHold := 30, overtopBreach := false,
          validCount := 0, voteQuality := none, lastStage := none, estimate := none, history := [], surgeFlag := false,
          surgeTimer := none, wire := false, overtop := false, superseded := 0 }) ∧
      t.plant.evalQueue = [] ∧ t.plant.flight = none ∧
      t.plant.exercise = { estimate := none, history := [], validCount := 0, lastStage := none, superseded := 0 } ∧
      (∀ v, t.plant.village v =
        { inUse := false, addr := 0, evac := 30, warn := 60, watch := 120, holdTime := 20, ackMode := .confirmed,
          ackTimeout := 10, retryLimit := 3, reachInterval := 300, repeatInterval := 120, permit := false,
          mask := ⟨false, false, false⟩, routes := Vector.replicate 4 none, computed := .clear, decBarrier := none,
          decCause := .projection, decAvailable := 65535, decFill := none, announced := .clear, holdTimer := none,
          latch := false, exComputed := .clear, exAnnounced := .clear, exCause := .projection, exAvailable := 65535 }) ∧
      (∀ v, t.plant.disp v =
        { state := .quiet, onLine := false, handed := ⟨.clear, .clear, ⟨false, false, false⟩, false⟩,
          current := ⟨.clear, false⟩, suppressed := false, offered := none, openOffer := false, delivered := ⟨.clear, false⟩,
          retry := 0, ackTimer := none, reachTimer := none, repeatTimer := none, unreachedSince := none, stale := 0 }) ∧
      t.plant.session =
        { active := false, barrier := none, start := none, timer := none, endReason := .none, endTime := none } ∧
      t.plant.notices = [{ kind := .unconfigured, subject := 0, value := pins.straps.addr.toNat, count := 1, firstPost := 0 }] ∧
      t.mgmt = { requests := [], executing := none, replies := [], discarded := 0,
                 settings := { report := none, managers := [], ceiling := 300, duration := 60, inspecting := false } }) ∧
    (∃ t, exec .nresetAssert s = .next t ∧ t.nresetLow = true ∧ t.driving .u = false ∧ t.driving .d = false ∧
      t.line = { s.line with uTx := none, dTx := none, u := { s.line.u with rx := .hunt },
                             d := { s.line.d with rx := .hunt } } ∧
      t.plant = s.plant ∧ t.mgmt = s.mgmt ∧ t.straps = s.straps ∧ t.pending = s.pending)

/-- A whole-second boundary: part time counts and holds at 4,294,967,295, every running timer comes one boundary nearer to
its expiry, and nothing else changes (R3). That timers go on counting while part time holds at its end is the model's
inference (log entry 16), and that a due timer stays due until its expiry row comes is its choice (log entry 4). -/
def Obligations.WholeSecondCountsTimers : Prop :=
  ∀ s : State, s.nresetLow = false → ∃ t, exec .wholeSecondBoundary s = .next t ∧
    t = { s with plant := { s.plant with
      now := t.plant.now, stations := t.plant.stations, barriers := t.plant.barriers, villages := t.plant.villages,
      dispatch := t.plant.dispatch, session := t.plant.session } } ∧
    t.plant.now = min (s.plant.now + 1) 4294967295 ∧
    (∀ i, t.plant.station i = { s.plant.station i with timer := (s.plant.station i).timer.map (· - 1) }) ∧
    (∀ k, t.plant.barrier k = { s.plant.barrier k with surgeTimer := (s.plant.barrier k).surgeTimer.map (· - 1) }) ∧
    (∀ v, t.plant.village v = { s.plant.village v with holdTimer := (s.plant.village v).holdTimer.map (· - 1) }) ∧
    (∀ v, t.plant.disp v = { s.plant.disp v with
      ackTimer := (s.plant.disp v).ackTimer.map (· - 1), reachTimer := (s.plant.disp v).reachTimer.map (· - 1),
      repeatTimer := (s.plant.disp v).repeatTimer.map (· - 1) }) ∧
    t.plant.session = { s.plant.session with timer := s.plant.session.timer.map (· - 1) }

/-! ### Receiving (chapter 1) -/

/-- The receiver between and inside frames. While the break state is BREAK it takes nothing (R5). In HUNT a received 0xA5
starts a frame in reception, and any other byte or byte error is discarded and not counted (R6). Inside a frame a byte error,
a payload length byte above 48, or a gap above the limit abandons it as FRAMING, counted once, and the receiver returns to
HUNT; in HUNT a gap changes nothing (R7, R8). A detected break is counted, abandons a frame in reception as FRAMING, and takes
a port that is not DOWN to DOWN with LINE_DOWN posted; a break that stands is not detected again (R10, R11, R12). The end of a
break takes the receiver on from HUNT (R10). The break state that each stop bit shows is the model's inference (log
entry 6). -/
def Obligations.ReceiverHuntsAndBreaks : Prop :=
  ∀ (s : State) (port : Port) (b : Byte), s.nresetLow = false →
    let r := s.line.port port
    let become (r' : PortRec) : Answer := .next { s with line := s.line.setPort port r' }
    (r.brk = .broken → ∀ x, exec (.receiveByte port x) s = .next s) ∧
    (r.rx = .hunt → r.brk ≠ .broken →
      exec (.receiveByte port (.byte b)) s =
        become { r with brk := .marking, rx := if b = 0xA5 then .header [] 0xFFFF else .hunt } ∧
      exec (.receiveByte port .error) s = become { r with brk := .spacing }) ∧
    (r.rx ≠ .hunt → r.brk ≠ .broken → exec (.receiveByte port .error) s =
      become { r with framing := min (r.framing + 1) 65535, rx := .hunt, brk := .spacing }) ∧
    (∀ dst src kind seq flags crc, r.rx = .header [dst, src, kind, seq, flags] crc → r.brk ≠ .broken → 48 < b.toNat →
      exec (.receiveByte port (.byte b)) s =
        become { r with framing := min (r.framing + 1) 65535, rx := .hunt, brk := .marking }) ∧
    (r.rx ≠ .hunt → exec (.gapTimeout port) s = become { r with framing := min (r.framing + 1) 65535, rx := .hunt }) ∧
    (r.rx = .hunt → exec (.gapTimeout port) s = .next s) ∧
    exec (.breakEnd port) s = become { r with brk := .marking, rx := if r.brk = .broken then .hunt else r.rx } ∧
    (r.brk = .broken → exec (.breakDetected port) s = .next s) ∧
    (r.brk ≠ .broken →
      let breaks := min (r.breaks + 1) 65535
      exec (.breakDetected port) s = .next { s with
        line := s.line.setPort port { r with
          breaks := breaks, brk := .broken, rx := .hunt,
          framing := if r.rx = .hunt then r.framing else min (r.framing + 1) 65535,
          state := if r.isDown then r.state else .down s.plant.now }
        plant := if r.isDown then s.plant
          else s.plant.post .lineDown (match port with | .u => 0 | .d => 1) breaks })

/-- A frame delivered byte by byte, preamble to last check byte, has exactly the effect of the row that brings it whole:
good, or a CHECK error (R6, R7, R9, R185). That the row of a whole frame whose check does not match has the effect its bytes
would have is the model's inference (log entry 5). -/
def Obligations.ByteByByteIsWholeFrame : Prop :=
  ∀ (s : State) (port : Port) (f : Frame),
    s.nresetLow = false → (s.line.port port).rx = .hunt → (s.line.port port).brk ≠ .broken → f.payload.length ≤ 48 →
    feed port f.bytes s = exec (goodFrameOn port f) s

/-! ### Classification, intake and taking in -/

/-- A good frame on port U that is no SAMPLE of a known station takes the port UP, and is forwarded to the UD queue, or
dropped and counted, unless it is addressed to the part; nothing else changes (R11, R14, R16). The same on port D with the DU
queue, for a good frame that is neither a REQUEST nor an ALERT_ACK to the own address or to 255: with the own address it is
discarded, and with any other destination, 255 included, it is forwarded (R11, R15, R16). That the row has this effect while
another frame is in reception on its port is the model's choice (log entry 21). -/
def Obligations.GoodFrameUForwards : Prop :=
  ∀ (s : State) (f : Frame), s.nresetLow = false → f.good = true →
    (s.line.u.brk ≠ .broken →
      (f.kind ≠ 0x10 ∨ ∀ i, (s.plant.station i).inUse = true → (s.plant.station i).addr ≠ f.src) →
      exec (.goodFrameU f) s = .next { s with line := s.forwardedU f, plant := s.plantUp .u }) ∧
    (s.line.d.brk ≠ .broken →
      ¬ ((f.dst = s.ownAddr ∨ f.dst = 255) ∧ (f.kind = 0x30 ∨ f.kind = 0x21)) →
      exec (.goodFrameD f) s = .next { s with line := s.forwardedD f, plant := s.plantUp .d })

/-- A well-formed SAMPLE of a station that is not RETIRED, whose sequence is not the last one: its readings reach, in payload
order and each whole before the next, the channels their slots name, while slots above 7 and slots that name none are passed
over (R35). After them the accepted count rises, the missing sequence numbers are in the gap count, the last sequence, the
silence timer and the state LIVE are set; a station heard again from UNKNOWN or SILENT makes its channels eligible, and from
SILENT posts STATION_BACK with the seconds it was silent (R34, R36, R39). Other stations, the tables, the Request Unit and
channels the station does not map keep what they hold. That the row has this effect while another frame is in reception on
port U is the model's choice (log entry 21). -/
def Obligations.SampleReadUpdatesStation : Prop :=
  ∀ (s : State) (f : Frame) (i : Fin 24),
    s.SampleFor f i → (s.plant.station i).state ≠ .retired → wellFormedSample f.payload →
    (s.plant.station i).lastSeq ≠ some f.seq →
    ∃ t, exec (.goodFrameU f) s = .next t ∧ t = { s with line := s.forwardedU f, plant := t.plant } ∧
      t.plant.station i = { s.plant.station i with
        accepted := min ((s.plant.station i).accepted + 1) 65535,
        gap := min ((s.plant.station i).gap +
          (match (s.plant.station i).lastSeq with
           | none => 0
           | some l => if f.seq = 0 then 0 else (f.seq.toNat + 255 - l.toNat) % 256)) 65535,
        lastSeq := some f.seq, timer := some (s.plant.station i).timeout, state := .live } ∧
      (∀ j, j ≠ i → t.plant.station j = s.plant.station j) ∧
      t.plant.now = s.plant.now ∧ t.plant.tables = s.plant.tables ∧
      (∀ c, (s.plant.station i).maps c = false →
        t.plant.channel c = s.plant.channel c ∧ t.plant.pattern c = s.plant.pattern c) ∧
      (∀ readings : List (Byte × Byte × Byte),
        f.payload = BitVec.ofNat 8 readings.length :: readings.flatMap (fun x => [x.1, x.2.1, x.2.2]) →
        let before := (s.plantUp .u).setStation i { s.plant.station i with gap := (t.plant.station i).gap }
        let after := readings.foldl (init := before) fun p x =>
          match (s.plant.station i).slots.toList[x.1.toNat]? with
          | some (some c) => p.reading c (256 * x.2.1.toNat + x.2.2.toNat)
          | _ => p
        t.plant = { after.setStation i (t.plant.station i) with channels := t.plant.channels, notices := t.plant.notices } ∧
        (∀ c, t.plant.channel c =
          if (s.plant.station i).maps c = true ∧ (s.plant.station i).eligible = false then
            { after.channel c with eligible := true }
          else after.channel c) ∧
        t.plant.notices = (match (s.plant.station i).state with
          | .silent since => (after.post .stationBack i.1 (min (s.plant.now - since) 65535)).notices
          | .unknown | .live | .late | .retired => after.notices))

/-- The record test, length check and sequence check: a RETIRED station's SAMPLE is not read; a malformed one raises the
malformed count alone; a repeat of the last sequence raises the duplicate count alone; any other is accepted (R31, R32,
R33). That the row has this effect while another frame is in reception on port U is the model's choice (log entry 21). -/
def Obligations.SampleTurnedAway : Prop :=
  ∀ (s : State) (f : Frame) (i : Fin 24), s.SampleFor f i →
    ((s.plant.station i).state = .retired →
      exec (.goodFrameU f) s = .next { s with line := s.forwardedU f, plant := s.plantUp .u }) ∧
    ((s.plant.station i).state ≠ .retired → ¬ wellFormedSample f.payload →
      exec (.goodFrameU f) s = .next { s with
      line := s.forwardedU f, plant := (s.plantUp .u).setStation i
        { s.plant.station i with malformed := min ((s.plant.station i).malformed + 1) 65535 } }) ∧
    ((s.plant.station i).state ≠ .retired → wellFormedSample f.payload → (s.plant.station i).lastSeq = some f.seq →
      exec (.goodFrameU f) s = .next { s with
      line := s.forwardedU f, plant := (s.plantUp .u).setStation i
        { s.plant.station i with duplicate := min ((s.plant.station i).duplicate + 1) 65535 } }) ∧
    ((s.plant.station i).state ≠ .retired → wellFormedSample f.payload → (s.plant.station i).lastSeq ≠ some f.seq →
      ∃ t, exec (.goodFrameU f) s = .next t ∧
        (t.plant.station i).accepted = min ((s.plant.station i).accepted + 1) 65535)

/-- A reading reaches a channel: nothing happens at a channel UNUSED or disabled; the STAGE chain from missing readings through
scaling, slew limit and averaging to validity, first on the real path and then, for the session barrier's channel, on the
exercise path with the value its pattern yields; the surge ring with its test; and the wire latch. Values taken and
conditioned stay within 0..4095, and the averaging ring within N (R50 to R56, R60, R61, R63, R156). What the channel then
hands to its barrier: a VALID value, or the fall to INVALID at the miss limit, to the vote, and of the exercise path to the
exercise vote; each surge arrival to the surge assessment; the setting of a clear latch to the breach assessment (R56, R57,
R60, R62). -/
def Obligations.ConditioningFollowsChain : Prop :=
  ∀ (p : Plant) (c : Fin 48) (r : Nat), r ≤ 65535 →
    let ch := p.channel c
    let q := p.pattern c
    let t := p.reading c r
    let chain (s : StagePath) (raw : Nat) : StagePath :=
      if raw = 65535 then
        let m := min (s.missRun + 1) 15
        if m < ch.missLimit then { s with missRun := m }
        else { s with missRun := m, previous := none, ring := [], spikeRun := 0, latest := none, valid := false }
      else
        let amount : Int := (raw * ch.gain / 4096 : Nat)
        let scaled : Int := if ch.invert then ch.offset - amount else ch.offset + amount
        let stage : Nat := (max 0 (min scaled 4095)).toNat
        let held : Option Nat := s.previous.bind fun v =>
          if ch.slew ≠ 0 ∧ ch.slew < max stage v - min stage v ∧ s.spikeRun + 1 < ch.spikeAccept then
            some (if v < stage then v + ch.slew else v - ch.slew)
          else none
        let all := s.ring ++ [held.getD stage]
        let ring := all.drop (all.length - ch.window)
        { valid := ch.eligible, previous := some (held.getD stage), spikeRun := if held.isSome then s.spikeRun + 1 else 0,
          missRun := 0, ring := ring, latest := some (ring.sum / ring.length), clamped := decide (scaled < 0 ∨ 4095 < scaled) }
    let reports (s : StagePath) (raw : Nat) : Bool :=
      if raw = 65535 then s.valid && decide (ch.missLimit ≤ min (s.missRun + 1) 15) else ch.eligible
    let driven : Prop := ch.barrier ≠ none ∧ p.session.active = true ∧ p.session.barrier = ch.barrier
    let lfsr : Half := if q.gen.getLsbD 0 then (q.gen >>> 1) ^^^ 0xB400 else q.gen >>> 1
    let raw : Nat := match q.kind with
      | .none => r
      | .ramp => q.ramp.toNat
      | .alternate => (if q.phaseB then q.valueB else q.valueA).toNat
      | .prbs => lfsr.toNat
    let yielded : Pattern :=
      { q with yields := min (q.yields + 1) 65535, ramp := if q.kind = .ramp then q.ramp + BitVec.ofInt 16 q.step else q.ramp,
               phaseB := if q.kind = .alternate then !q.phaseB else q.phaseB, gen := if q.kind = .prbs then lfsr else q.gen }
    let inRange (s : StagePath) : Prop := s.ring.length ≤ ch.window ∧ (∀ v ∈ s.ring, v ≤ 4095) ∧
      (∀ v, s.previous = some v → v ≤ 4095) ∧ ∀ v, s.latest = some v → v ≤ 4095
    let told (p : Plant) (report : Bool) (assess : Plant → Fin 4 → Plant) : Plant :=
      match ch.barrier with
      | some k => if report = true then assess p k else p
      | none => p
    (ch.inUse = false ∨ ch.enabled = false → t = p) ∧
    (ch.inUse = true → ch.enabled = true →
      (∀ d, d ≠ c → t.channel d = p.channel d ∧ t.pattern d = p.pattern d) ∧
      t.stations = p.stations ∧ t.tables = p.tables ∧ t.now = p.now ∧
      (ch.kind = .stage →
        let real : Channel := { ch with real := chain ch.real r }
        let voted := told (p.setChannel c real) (reports ch.real r) Plant.vote
        (driven → t.channel c = { ch with real := chain ch.real r, exer := chain ch.exer raw } ∧ t.pattern c = yielded ∧
          t = told ((voted.setPattern c yielded).setChannel c { real with exer := chain ch.exer raw })
            (reports ch.exer raw) Plant.exerciseVote) ∧
        (¬ driven → t.channel c = { ch with real := chain ch.real r } ∧ t.pattern c = q ∧ t = voted) ∧
        (inRange ch.real → inRange (t.channel c).real) ∧ (inRange ch.exer → inRange (t.channel c).exer)) ∧
      (ch.kind = .surge →
        let aged := ch.surgeRing.filter fun e => p.now - e.1 < ch.surgeWindow
        let entered := match aged.getLast? with
          | some (time, n) =>
            if time = p.now ∨ aged.length = 16 then aged.dropLast ++ [(time, min (n + r) 65535)] else aged ++ [(p.now, r)]
          | none => [(p.now, r)]
        let kept := entered.filter fun e => p.now - e.1 < ch.surgeWindow
        let sum := min (kept.map Prod.snd).sum 65535
        t.pattern c = q ∧ t.channel c = { ch with
          surgeRing := kept, valid := ch.eligible, windowSum := sum,
          surging := ch.eligible && decide (ch.surgeThreshold ≤ sum) } ∧
        t = told (p.setChannel c (t.channel c)) true Plant.assessSurge) ∧
      (ch.kind = .wire → t.pattern c = q ∧ t.channel c = { ch with
        lastReading := some (if r = 0 then .intact else .broken), latch := ch.latch || decide (r ≠ 0),
        valid := ch.eligible } ∧
        t = told (p.setChannel c (t.channel c)) (decide (r ≠ 0) && !ch.latch) Plant.assessBreach))

/-- The Request Unit takes a REQUEST addressed to the part or broadcast: discarded without a code and a target or from
source 0 or 255, answered NOT_MANAGER, answered LOCKED, or appended; the first that applies (R15, R167). That the row has
this effect while another frame is in reception on port D is the model's choice (log entry 21). -/
def Obligations.RequestTakenIn : Prop :=
  ∀ (s : State) (f : Frame),
    s.nresetLow = false → s.line.d.brk ≠ .broken → f.good = true → f.kind = 0x30 →
    f.dst = s.ownAddr ∨ f.dst = 255 →
    exec (.goodFrameD f) s = .next { s with
      line := s.forwardedD f, plant := s.plantUp .d,
      mgmt :=
        match f.payload with
        | code :: target :: args =>
          if f.src = 0 ∨ f.src = 255 then s.mgmt
          else if s.mgmt.settings.managers ≠ [] ∧ f.src ∉ s.mgmt.settings.managers then
            s.mgmt.withReply { dst := f.src, code := code, target := target, outcome := .notManager, data := [] }
          else if 2 ≤ s.mgmt.requests.length then
            s.mgmt.withReply { dst := f.src, code := code, target := target, outcome := .locked, data := [] }
          else { s.mgmt with requests := s.mgmt.requests ++
            [{ src := f.src, code := code, target := target, quiet := f.flags.getLsbD 1, afterEval := f.flags.getLsbD 2,
               args := args }] }
        | _ => s.mgmt }

/-- An ALERT_ACK addressed to the part or broadcast: from no village in use it changes nothing; accepted in AWAIT, in
UNREACHED or while DUE by RETRY or REACH, with the level and mark of the offered content, it makes the offered content the
delivered content and the record QUIET before a due test, with VILLAGE_REACHED posted if the village was unreached; not
accepted, it raises the stale-ack count alone (R15, R146, R147, R148). That the row has this effect while another frame is in
reception on port D is the model's choice (log entry 21). -/
def Obligations.AlertAckTaken : Prop :=
  ∀ (s : State) (f : Frame),
    s.nresetLow = false → s.line.d.brk ≠ .broken → f.good = true → f.kind = 0x21 →
    f.dst = s.ownAddr ∨ f.dst = 255 →
    ((∀ v, (s.plant.village v).inUse = true → (s.plant.village v).addr ≠ f.src) →
      exec (.goodFrameD f) s = .next { s with line := s.forwardedD f, plant := s.plantUp .d }) ∧
    (∀ v, (s.plant.village v).inUse = true → (s.plant.village v).addr = f.src →
      (∀ w, (s.plant.village w).inUse = true → (s.plant.village w).addr = f.src → w = v) →
      let d := s.plant.disp v
      let pursued : Prop := d.state = .await ∨ d.state = .unreached ∨
        ∃ time c, d.state = .due .retry time c ∨ d.state = .due .reach time c
      let accepted : Prop := pursued ∧ ∃ b l, f.payload = [b] ∧ b.toNat = Level.code l ∧
        d.offered = some ⟨l, f.flags.getLsbD 0⟩
      (∀ c, d.offered = some c → accepted →
        exec (.goodFrameD f) s = .next { s with
          line := s.forwardedD f
          plant := Plant.setDisp
            (match d.unreachedSince with
             | some since => (s.plantUp .d).post .villageReached v.1 (min (s.plant.now - since) 65535)
             | none => s.plantUp .d) v
            (({ d with delivered := c, openOffer := false, retry := 0, ackTimer := none, reachTimer := none,
                       state := .quiet, unreachedSince := none } : Dispatch).dueTest s.plant.session.active s.plant.now) }) ∧
      (¬ accepted → exec (.goodFrameD f) s = .next { s with
        line := s.forwardedD f, plant := (s.plantUp .d).setDisp v { d with stale := min (d.stale + 1) 65535 } }))

/-! ### Transmitters and arbiter (chapter 1) -/

/-- The U transmitter takes the head of the DU queue when it is IDLE and port U is not DOWN; at the end of a transmission the
next head leaves at once if there is one and port U is not DOWN, and otherwise the transmitter is IDLE; the frame is sent as
received, in 9 + payload length byte times (R16, R17, R18). That an idle transmitter begins at its own row is the model's
inference (log entry 12), and that a completion with nothing SENDING changes nothing is its choice (log entry 4). -/
def Obligations.UTransmitterServesQueue : Prop :=
  ∀ s : State, s.nresetLow = false →
    let sending (tx : Option Frame) (queue : List Frame) : Answer := .next { s with line := { s.line with uTx := tx, du := queue } }
    (∀ f rest, s.line.uTx = none → s.line.u.isDown = false → s.line.du = f :: rest →
      exec .uTransmitStart s = sending (some f) rest ∧ f.bytes.length = 9 + f.payload.length) ∧
    ((s.line.uTx ≠ none ∨ s.line.u.isDown = true ∨ s.line.du = []) → exec .uTransmitStart s = .next s) ∧
    (∀ f rest, s.line.uTx ≠ none → s.line.u.isDown = false → s.line.du = f :: rest →
      exec .uTransmitCompletion s = sending (some f) rest) ∧
    (s.line.uTx ≠ none → s.line.u.isDown = true ∨ s.line.du = [] →
      exec .uTransmitCompletion s = sending none s.line.du) ∧
    (s.line.uTx = none → exec .uTransmitCompletion s = .next s)

/-- The order of the arbiter: a candidate at EVACUATE or BREACH; the UD head at 12 or more frames unless the last grant was a
forward; any candidate; the reply head; the first notice; the UD head. Without a source, or with D-tx SENDING or port D DOWN,
no grant is made (R20). -/
def Obligations.ArbiterOrder : Prop :=
  ∀ s : State, s.nresetLow = false →
    ((s.line.dTx ≠ none ∨ s.line.d.isDown = true) → exec .grant s = .next s) ∧
    (s.line.dTx = none → s.line.d.isDown = false →
      (∀ c v, s.plant.candidate = some (c, v) → (c.level = .evacuate ∨ c.level = .breach) →
        exec .grant s = .next (s.give (.candidate v c))) ∧
      ((∀ c v, s.plant.candidate = some (c, v) → c.level ≠ .evacuate ∧ c.level ≠ .breach) →
        (∀ f rest, s.line.ud = f :: rest → 12 ≤ s.line.ud.length → s.line.lastGrant ≠ .forward →
          exec .grant s = .next (s.give (.forward f))) ∧
        (s.line.ud.length < 12 ∨ s.line.lastGrant = .forward →
          (∀ c v, s.plant.candidate = some (c, v) → exec .grant s = .next (s.give (.candidate v c))) ∧
          (s.plant.candidate = none →
            (∀ r rest, s.mgmt.replies = r :: rest → exec .grant s = .next (s.give (.reply r))) ∧
            (s.mgmt.replies = [] →
              (∀ n rest, s.plant.notices = n :: rest → exec .grant s = .next (s.give (.notice n))) ∧
              (s.plant.notices = [] →
                (∀ f rest, s.line.ud = f :: rest → exec .grant s = .next (s.give (.forward f))) ∧
                (s.line.ud = [] → exec .grant s = .next s)))))))

/-- What a grant sends: a forwarded frame as received, without touching the origin sequence counter; a frame of the part from
its own address, with the counter's value as its sequence, a matching check and the payload of its kind (R17, R21, R22, R23,
R139, R180). The source gives up what was granted, and nothing else changes. -/
def Obligations.GrantFixesFrame : Prop :=
  ∀ (s : State) (g : Grant), s.nresetLow = false → s.line.dTx = none → s.line.d.isDown = false → s.nextGrant = some g →
    let own (dst kind flags : Byte) (payload : List Byte) : Frame :=
      let f : Frame := ⟨dst, s.ownAddr, kind, s.line.originSeq, flags, payload, 0⟩
      { f with check := checkOf f.covered }
    let line (f : Frame) (o : DOrigin) : Line :=
      { s.line with dTx := some ⟨f, o⟩, originSeq := s.line.originSeq + 1, lastGrant := .other }
    exec .grant s = .next
      (match g with
       | .forward f => { s with line := { s.line with ud := s.line.ud.tail, dTx := some ⟨f, .forward⟩, lastGrant := .forward } }
       | .reply r => { s with
           line := line (own r.dst 0x31 0
             ([r.code, r.target, BitVec.ofNat 8 r.outcome.code] ++ if r.outcome = .done then r.data else [])) .reply
           mgmt := { s.mgmt with replies := s.mgmt.replies.tail } }
       | .notice n => { s with
           line := line (own (s.mgmt.settings.report.getD 255) 0x32 0
             ([BitVec.ofNat 8 n.kind.code, BitVec.ofNat 8 (min n.subject 255), BitVec.ofNat 8 (min n.count 255)] ++
               field16 n.value)) .notice
           plant := { s.plant with notices := s.plant.notices.tail } }
       | .candidate v c =>
           let vl := s.plant.village v
           let d := s.plant.disp v
           let cause := if c.level = .clear then Cause.allClear else if c.marked then vl.exCause else vl.decCause
           let barrier := if c.marked then s.plant.session.current else vl.decBarrier
           let fill := if c.marked then s.plant.exercise.estimate.map Estimate.fill else vl.decFill
           let available := if c.marked then vl.exAvailable else vl.decAvailable
           { s with
             line := line (own vl.addr 0x20 (if c.marked then 1 else 0)
               (field16 (c.level.code * 8192 + cause.code * 1024 + min (fill.getD 1023) 1023) ++
                 [match barrier with | some k => BitVec.ofNat 8 k.1 | none => 255] ++ field16 available))
               (.alert v d.offered d.openOffer)
             plant := s.plant.setDisp v { d with offered := some c, openOffer := true, onLine := true } })

/-- The end of a transmission on D-tx. A forwarded frame, a reply or a notice is handed to no block. An ALERT on the line of a
CONFIRMED village takes it to AWAIT by CHANGE or RETRY, back to UNREACHED by REACH, and leaves it DUE if its pending content
changed meanwhile; that of an UNCONFIRMED village counts as delivered (R19, R140, R141). What the dispatcher's tests do with
any record: the content and its suppression (R135), a hand-on from the ladder (R136), and the due test by its rows (R137). -/
def Obligations.DTransmitCompletion : Prop :=
  (∀ (s : State) (tx : DTransmission), s.nresetLow = false → s.line.dTx = some tx →
    let idle : State := { s with line := { s.line with dTx := none } }
    ((∀ v o b, tx.origin ≠ .alert v o b) → exec .dTransmitCompletion s = .next idle) ∧
    (∀ v o b, tx.origin = .alert v o b →
      let d := s.plant.disp v
      let vl := s.plant.village v
      (d.onLine = false → exec .dTransmitCompletion s = .next { idle with plant := s.plant.setDisp v d }) ∧
      (d.onLine = true →
        (vl.ackMode = .confirmed →
          (∀ reason time c, d.state = .due reason time c → d.offered = some c → reason = .change ∨ reason = .retry →
            exec .dTransmitCompletion s = .next { idle with
            plant := s.plant.setDisp v
              { d with onLine := false, state := .await, retry := d.retry + 1, ackTimer := some vl.ackTimeout } }) ∧
          (∀ time c, d.state = .due .reach time c → d.offered = some c →
            exec .dTransmitCompletion s = .next { idle with
            plant := s.plant.setDisp v
              { d with onLine := false, state := .unreached, reachTimer := some vl.reachInterval } }) ∧
          (∀ reason time c, d.state = .due reason time c → d.offered ≠ some c →
            exec .dTransmitCompletion s = .next { idle with plant := s.plant.setDisp v { d with onLine := false } }) ∧
          (d.state = .quiet →
            exec .dTransmitCompletion s = .next { idle with plant := s.plant.setDisp v { d with onLine := false } })) ∧
        (vl.ackMode = .unconfirmed → ∀ c, d.offered = some c →
          let e := ({ d with onLine := false, delivered := c, openOffer := false, state := .quiet } : Dispatch).dueTest
            s.plant.session.active s.plant.now
          exec .dTransmitCompletion s = .next { idle with
            plant := s.plant.setDisp v
             (if e.state = .quiet ∧ e.delivered.marked = false ∧ e.delivered.level ≠ .clear then
                { e with repeatTimer := some vl.repeatInterval }
              else e) })))) ∧
  (∀ (d : Dispatch) (active : Bool) (now : Nat),
    let content (d : Dispatch) : Content :=
      if d.handed.announced ≠ .clear then ⟨d.handed.announced, false⟩
      else if d.handed.permit = true ∧ (active = true ∨ d.delivered.marked = true ∨
          (d.openOffer = true ∧ d.offered.map Content.marked = some true)) then ⟨d.handed.exAnnounced, true⟩
      else ⟨.clear, false⟩
    let suppressed (d : Dispatch) (c : Content) : Bool := !c.marked &&
      match c.level with
      | .watch => d.handed.mask.watch
      | .warn => d.handed.mask.warn
      | .evacuate => d.handed.mask.evacuate
      | .clear | .breach => false
    let c := content d
    let e : Dispatch := { d with current := c, suppressed := suppressed d c }
    let wanted : Prop := suppressed d c = false ∧ c ≠ d.delivered ∧ ¬ (c.level = .clear ∧ d.delivered.level = .clear)
    let correction : Prop := d.openOffer = true ∧ d.offered ≠ some c
    let pursuing : Prop := (∃ reason time, d.state = .due reason time c) ∨
      ((d.state = .await ∨ d.state = .unreached) ∧ d.offered = some c)
    (wanted ∨ correction → pursuing → d.dueTest active now = e) ∧
    (wanted ∨ correction → ¬ pursuing →
      ((∀ reason time old, d.state ≠ .due reason time old) → d.dueTest active now =
        { e with state := .due .change now c, retry := 0, ackTimer := none, reachTimer := none, repeatTimer := none }) ∧
      (∀ reason time old, d.state = .due reason time old →
        d.dueTest active now = { e with state := .due .change time c, retry := 0 })) ∧
    (¬ (wanted ∨ correction) →
      ((∀ reason time old, d.state = .due reason time old → reason = .retry ∨ reason = .reach) → d.dueTest active now = e) ∧
      (∀ time, d.state = .due .repeated time c → d.dueTest active now = e) ∧
      (∀ time old, d.state = .due .repeated time old → old ≠ c → d.dueTest active now = { e with state := .quiet }) ∧
      (∀ time old, d.state = .due .change time old → d.openOffer = false →
        d.dueTest active now = { e with state := .quiet }) ∧
      (∀ time old, d.state = .due .change time old → d.openOffer = true →
        d.dueTest active now = { e with state := .due .change time c })) ∧
    (∀ h : HandOn,
      let told : Dispatch := { d with handed := h }
      d.handOn active now h =
        if content told = d.current ∧ suppressed told (content told) = d.suppressed then told else told.dueTest active now))

/-- The dispatcher's candidate heads the due list: no village that is DUE and not on the line stands before it, by higher
pending level, then unmarked before marked, then earlier due time, then lower index; and there is no candidate exactly when
no village is DUE and not on the line (R138). -/
def Obligations.CandidateHeadsDueList : Prop :=
  ∀ p : Plant,
    (p.candidate = none ↔ ∀ w reason time c, (p.disp w).state = .due reason time c → (p.disp w).onLine = true) ∧
    (∀ c v, p.candidate = some (c, v) → ∃ reason time, (p.disp v).state = .due reason time c ∧ (p.disp v).onLine = false ∧
      ∀ w reason' time' c', (p.disp w).state = .due reason' time' c' → (p.disp w).onLine = false →
        c'.level.code < c.level.code ∨ c'.level = c.level ∧
          ((c.marked = false ∧ c'.marked = true) ∨ c.marked = c'.marked ∧
            (time < time' ∨ time = time' ∧ v.1 ≤ w.1)))

/-! ### Timer expiries -/

/-- The silence timer expires: LIVE falls to LATE with the timer restarted; LATE falls to SILENT, its channels are made not
eligible and INVALID, and STATION_SILENT is posted (R37, R38, R39, R58). A lapse clears both paths of a STAGE channel, keeps
the surge ring and the wire latch, and leaves nothing of an UNUSED channel but its source changed (R58); what was VALID is
reported as the channel falls, in ascending channel index: a STAGE channel to the vote and the exercise vote, a SURGE channel
to the surge assessment (R57). That the lapses come before STATION_SILENT is posted, that channels of different barriers too
lapse in ascending index, and that a channel's real report comes before its exercise report at a lapse, is the model's
inference (log entry 7). -/
def Obligations.SilenceTimerExpires : Prop :=
  let path : StagePath :=
    { valid := false, previous := none, spikeRun := 0, missRun := 0, ring := [], latest := none, clamped := false }
  let lapsed (ch : Channel) : Channel :=
    if ch.inUse = true then
      match ch.kind with
      | .stage => { ch with eligible := false, real := path, exer := path }
      | .surge => { ch with eligible := false, valid := false, surging := false }
      | .wire => { ch with eligible := false, valid := false }
    else { ch with eligible := false }
  (∀ ch : Channel, ch.lapsed = lapsed ch) ∧
  (∀ (p : Plant) (c : Fin 48),
    let ch := p.channel c
    let fallen := p.setChannel c (lapsed ch)
    (ch.inUse = false ∨ ch.kind = .wire ∨ ch.barrier = none → p.lapse c = fallen) ∧
    (∀ k, ch.inUse = true → ch.barrier = some k →
      (ch.kind = .stage → p.lapse c =
        let voted := if ch.real.valid = true then fallen.vote k else fallen
        if ch.exer.valid = true then voted.exerciseVote k else voted) ∧
      (ch.kind = .surge → p.lapse c = if ch.valid = true then fallen.assessSurge k else fallen))) ∧
  (∀ (s : State) (i : Fin 24), s.nresetLow = false → (s.plant.station i).timer = some 0 →
    ((s.plant.station i).state = .live →
      exec (.silenceTimerExpiry i) s = .next { s with
      plant := s.plant.setStation i
        { s.plant.station i with state := .late, timer := some (s.plant.station i).timeout } }) ∧
    ((s.plant.station i).state = .late → ∃ t, exec (.silenceTimerExpiry i) s = .next t ∧ t = { s with plant := t.plant } ∧
      t.plant.station i = { s.plant.station i with state := .silent s.plant.now, timer := none } ∧
      (∀ j, j ≠ i → t.plant.station j = s.plant.station j) ∧
      (∀ c, (s.plant.station i).maps c = true → t.plant.channel c = lapsed (s.plant.channel c) ∧
        (t.plant.channel c).eligible = false) ∧
      (∀ c, (s.plant.station i).maps c = false → t.plant.channel c = s.plant.channel c) ∧
      t.plant.now = s.plant.now ∧ t.plant.tables = s.plant.tables ∧ t.plant.patterns = s.plant.patterns ∧
      (let value := match (s.plant.station i).lastSeq with | some l => l.toNat | none => 65535
       (∃ n ∈ t.plant.notices, n.kind = .stationSilent ∧ n.subject = i.1 ∧ n.value = value) ∧
       t.plant = (((List.finRange 48).filter fun c => (s.plant.station i).maps c).foldl (init := s.plant.setStation i
         (t.plant.station i)) fun p c => p.lapse c).post .stationSilent i.1 value)))

/-- The surge hold expires: every SURGE channel of the barrier is tested at that part time. If one is surging the flag is kept
and the hold restarted, and nothing else changes; if none is, the flag is cleared with the timer stopped, and a flag that was
set is a change by which the barrier's villages are recomputed (R61, R105, R127). -/
def Obligations.SurgeHoldExpires : Prop :=
  ∀ (s : State) (k : Fin 4), s.nresetLow = false → (s.plant.barrier k).surgeTimer = some 0 →
    let aged (ch : Channel) : List (Nat × Nat) := ch.surgeRing.filter fun e => s.plant.now - e.1 < ch.surgeWindow
    let sum (ch : Channel) : Nat := min ((aged ch).map Prod.snd).sum 65535
    let surging (ch : Channel) : Bool := ch.valid && decide (ch.surgeThreshold ≤ sum ch)
    ∃ t, exec (.surgeHoldExpiry k) s = .next t ∧ t = { s with plant := t.plant } ∧
      (∀ c, t.plant.channel c =
        if (s.plant.channel c).at k .surge then
          { s.plant.channel c with surgeRing := aged (s.plant.channel c), windowSum := sum (s.plant.channel c),
                                   surging := surging (s.plant.channel c) }
        else s.plant.channel c) ∧
      ((∃ c, (s.plant.channel c).at k .surge = true ∧ surging (s.plant.channel c) = true) →
        t.plant.barrier k = { s.plant.barrier k with surgeTimer := some (60 * (s.plant.barrier k).surgeHold) } ∧
        t.plant = { s.plant with channels := t.plant.channels }.setBarrier k (t.plant.barrier k)) ∧
      ((∀ c, (s.plant.channel c).at k .surge = true → surging (s.plant.channel c) = false) →
        t.plant.barrier k = { s.plant.barrier k with surgeFlag := false, surgeTimer := none } ∧
        let fallen := { s.plant with channels := t.plant.channels }.setBarrier k (t.plant.barrier k)
        t.plant = if (s.plant.barrier k).surgeFlag = true then fallen.recomputeFor k else fallen) ∧
      (∀ j, j ≠ k → t.plant.barrier j = s.plant.barrier j) ∧
      t.plant = { s.plant with channels := t.plant.channels, barriers := t.plant.barriers, villages := t.plant.villages,
                               dispatch := t.plant.dispatch, notices := t.plant.notices }

/-- The hold timer of a village in use expires: the village is recomputed, the announced level falls one step if the computed
level is below it, rises to it if above, and the timer restarts unless the village is latched (R124, R125). If that finds an
entry at BREACH, the clear latch is set, and BREACH_RAISED is posted with the village and the deciding barrier; otherwise
nothing is posted (R123). The village's levels, mask and permit are handed to the dispatcher (R127, R136). A posting folds into
the entry of its kind, which keeps its place and first-post time while its count rises to at most 255, or is placed last with
count 1 (R179). -/
def Obligations.HoldTimerExpires : Prop :=
  (∀ (s : State) (v : Fin 8), s.nresetLow = false → (s.plant.village v).holdTimer = some 0 →
    (s.plant.village v).inUse = true → (s.plant.village v).latch = false →
    ∃ t, exec (.holdTimerExpiry v) s = .next t ∧ t = { s with plant := t.plant } ∧
      s.plant.VillageSideOnly t.plant ∧
      (∀ w, w ≠ v → t.plant.village w = s.plant.village w ∧ t.plant.disp w = s.plant.disp w) ∧
      t.plant.village v = Village.form s.plant.barrier { s.plant.village v with holdTimer := none } ∧
      t.plant.disp v = (s.plant.disp v).handOn s.plant.session.active s.plant.now
        ⟨(t.plant.village v).announced, (t.plant.village v).exAnnounced, (t.plant.village v).mask,
          (t.plant.village v).permit⟩ ∧
      ((t.plant.village v).computed ≠ .breach →
        (t.plant.village v).holdTimer = some (60 * (s.plant.village v).holdTime) ∧
        (t.plant.village v).announced =
          (if (s.plant.village v).announced.code < (t.plant.village v).computed.code then (t.plant.village v).computed
           else if (t.plant.village v).computed = (s.plant.village v).announced then (s.plant.village v).announced
           else (s.plant.village v).announced.down) ∧
        t.plant.notices = s.plant.notices) ∧
      ((t.plant.village v).computed = .breach →
        (t.plant.village v).announced = .breach ∧ (t.plant.village v).latch = true ∧
        (t.plant.village v).holdTimer = none ∧
        ∃ k, (t.plant.village v).decBarrier = some k ∧ t.plant.notices = (s.plant.post .breachRaised v.1 k.1).notices)) ∧
  (∀ (p : Plant) (kind : NoticeKind) (subject value : Nat),
    let q := p.post kind subject value
    q = { p with notices := q.notices } ∧
    ((∀ n ∈ p.notices, n.kind ≠ kind) → q.notices = p.notices ++
      [{ kind := kind, subject := subject, value := value, count := 1, firstPost := p.now }]) ∧
    ((∃ n ∈ p.notices, n.kind = kind) → q.notices = p.notices.map fun n =>
      if n.kind = kind then { n with subject := subject, value := value, count := min (n.count + 1) 255 } else n))

/-- The dispatcher's timers expire. Ack: a retry while the limit is not reached, otherwise UNREACHED with VILLAGE_UNREACHED
posted (R143, R148). Reach: a reach attempt with the offered content (R144). Repeat: a repeat if the content still is the
delivered content, otherwise only the timer is stopped (R145). -/
def Obligations.DispatchTimersExpire : Prop :=
  ∀ (s : State) (v : Fin 8), s.nresetLow = false →
    let d := s.plant.disp v
    let vl := s.plant.village v
    (∀ c, d.offered = some c → d.ackTimer = some 0 →
      (d.retry < vl.retryLimit → exec (.ackTimerExpiry v) s = .next { s with
      plant := s.plant.setDisp v
        { d with ackTimer := none, state := .due .retry s.plant.now c } }) ∧
      (vl.retryLimit ≤ d.retry → exec (.ackTimerExpiry v) s = .next { s with
      plant := (s.plant.setDisp v
        { d with ackTimer := none, state := .unreached, reachTimer := some vl.reachInterval,
                 unreachedSince := some (d.unreachedSince.getD s.plant.now) }).post .villageUnreached v.1 c.level.code })) ∧
    (∀ c, d.offered = some c → d.reachTimer = some 0 →
      exec (.reachTimerExpiry v) s = .next { s with
      plant := s.plant.setDisp v
        { d with reachTimer := none, state := .due .reach s.plant.now c } }) ∧
    (d.repeatTimer = some 0 → exec (.repeatTimerExpiry v) s = .next { s with
     plant := s.plant.setDisp v
      (if d.current = d.delivered then { d with repeatTimer := none, state := .due .repeated s.plant.now d.delivered }
       else { d with repeatTimer := none }) })

/-- The duration timer expires: the session ends with reason EXPIRED (R162). The end of a session for any reason: the session
record takes the reason and end time, its evaluation work is abandoned and the unit takes the next head, the exercise estimate
keeps its values, every exercise level falls to CLEAR while the real levels stay, the villages whose level fell are handed to
the dispatcher and no other village changes, and EXERCISE_ENDED is posted with the reason (R93, R102, R163). -/
def Obligations.DurationTimerEndsSession : Prop :=
  ∀ (s : State) (k : Fin 4), s.nresetLow = false → s.plant.session.active = true → s.plant.session.barrier = some k →
    (s.plant.session.timer = some 0 →
      exec .durationTimerExpiry s = .next { s with plant := s.plant.endSession .expired }) ∧
    (∀ reason : EndReason, ∃ t : Plant, t = s.plant.endSession reason ∧
      t = { s.plant with evalQueue := t.evalQueue, flight := t.flight, session := t.session,
                         villages := t.villages, dispatch := t.dispatch, notices := t.notices } ∧
      t.session = { s.plant.session with active := false, endReason := reason, endTime := some s.plant.now, timer := none } ∧
      (t.evalQueue, t.flight) = s.plant.workWithout .exercise ∧
      (∀ v, (s.plant.village v).inUse = true →
        (t.village v).exComputed = .clear ∧ (t.village v).exAnnounced = .clear ∧
        t.village v = { s.plant.village v with
          exComputed := .clear, exAnnounced := .clear, exCause := (t.village v).exCause,
          exAvailable := (t.village v).exAvailable }) ∧
      (∀ v,
        let vl := s.plant.village v
        t.village v = (if vl.inUse = true ∧ (vl.exComputed ≠ .clear ∨ vl.exAnnounced ≠ .clear) then
            { vl with exComputed := .clear, exAnnounced := .clear, exCause := .projection, exAvailable := 65535 }
          else vl) ∧
        t.disp v = if vl.inUse = true ∧ (vl.exComputed ≠ .clear ∨ vl.exAnnounced ≠ .clear) then
            (s.plant.disp v).handOn false s.plant.now ⟨vl.announced, .clear, vl.mask, vl.permit⟩
          else s.plant.disp v) ∧
      (∃ n ∈ t.notices, n.kind = .exerciseEnded ∧ n.subject = k.1 ∧ n.value =
        match reason with
        | .none => 0 | .ended => 1 | .expired => 2 | .ceiling => 3 | .surge => 4 | .breach => 5 | .barrierLeft => 6
        | .reset => 7))

/-! ### Evaluation (chapters 4 and 5) -/

/-- An offer puts a stage into the evaluation queue: in place of the stage of the owner's entry that waits, counted as
superseded, or as a new entry at the tail, which an idle unit with an empty queue takes at once (R92, R93). The vote of a
barrier runs while it is ACTIVE alone: it counts the VALID channels, sets the quality, and gives the one value, the higher of
two or the median of three; the stage becomes the last stage and is offered; BLIND offers nothing (R88, R89, R91). A change of
the quality, which is NONE without an estimate, posts BARRIER_BLIND if it is now BLIND, and the barrier's villages are
recomputed (R90). The exercise vote runs for the session barrier alone, on the exercise paths, and offers for the exercise
estimate (R160). The surge assessment sets the flag and restarts the hold while a channel surges, and clears the flag only
with the hold stopped (R104). The breach assessment makes WIRE present exactly while a channel holds a set latch (R106). A
change of flag or cause recomputes the barrier's villages, and its appearance ends a session on the barrier with SURGE or
BREACH (R104, R106, R162). No other barrier changes. That BARRIER_BLIND is posted before the villages are recomputed, and that
they are recomputed before the session ends, is the model's inference (log entry 7). -/
def Obligations.VoteAndAssessments : Prop :=
  ∀ (p : Plant) (k : Fin 4),
    let b := p.barrier k
    let assigned := (p.channelsAt k .stage).length
    let votesOf (path : Channel → StagePath) : List Nat := (p.channelsAt k .stage).filterMap fun c =>
      if (path (p.channel c)).valid then (path (p.channel c)).latest else none
    let voted (votes : List Nat) (stage : Nat) : Prop := votes = [stage] ∨ (∃ x y, votes = [x, y] ∧ stage = max x y) ∨
      (∃ x y z, votes = [x, y, z] ∧ stage = max (min x y) (min (max x y) z))
    let votes := votesOf Channel.real
    let quality : VoteQuality := if votes = [] then .blind else if votes.length = assigned then .good else .degraded
    let counted : Barrier := { b with validCount := votes.length, voteQuality := some quality }
    let told : Plant := match b.estimate with
      | none => p.setBarrier k counted
      | some e =>
        if b.voteQuality = some quality then p.setBarrier k counted
        else ((if quality = .blind then (p.setBarrier k counted).post .barrierBlind k.1 e.fill
          else p.setBarrier k counted).recomputeFor k)
    let surging : Prop := ∃ c, (p.channel c).at k .surge = true ∧ (p.channel c).valid = true ∧ (p.channel c).surging = true
    let latched : Prop := ∃ c, (p.channel c).at k .wire = true ∧ (p.channel c).latch = true
    let ended (q : Plant) (reason : EndReason) : Plant :=
      if q.session.active = true ∧ q.session.barrier = some k then q.endSession reason else q
    (∀ t : Plant, t = p.vote k ∨ t = p.assessSurge k ∨ t = p.assessBreach k →
      p.BarrierSideOnly t ∧ ∀ j, j ≠ k → t.barrier j = p.barrier j) ∧
    (∀ (o : EvalOwner) (stage : Nat),
      let q := p.offer o stage
      let appended := { p with evalQueue := p.evalQueue ++ [⟨o, stage⟩] }
      ((∀ e ∈ p.evalQueue, e.owner ≠ o) → q = if p.evalQueue = [] ∧ p.flight = none then appended.beginEvaluation else appended) ∧
      ((∃ e ∈ p.evalQueue, e.owner = o) →
        q = { p with barriers := q.barriers, exercise := q.exercise,
                     evalQueue := p.evalQueue.map fun e => if e.owner = o then { e with stage := stage } else e } ∧
        (∀ j, q.barrier j = if o = .barrier j then { p.barrier j with superseded := min ((p.barrier j).superseded + 1) 65535 }
          else p.barrier j) ∧
        q.exercise = if o = .exercise then { p.exercise with superseded := min (p.exercise.superseded + 1) 65535 }
          else p.exercise)) ∧
    (b.state ≠ .active → p.vote k = p) ∧
    (b.state = .active →
      (votes = [] → p.vote k = told ∧ (p.vote k).barrier k = counted ∧ (p.vote k).evalQueue = p.evalQueue ∧
        (p.vote k).flight = p.flight) ∧
      (∀ stage, voted votes stage →
        p.vote k = (told.setBarrier k { counted with lastStage := some stage }).offer (.barrier k) stage ∧
        (p.vote k).barrier k = { counted with
          lastStage := some stage
          superseded := if ∃ e ∈ p.evalQueue, e.owner = .barrier k then min (b.superseded + 1) 65535 else b.superseded } ∧
        ((p.vote k).evalQueue, (p.vote k).flight) =
          ((p.offer (.barrier k) stage).evalQueue, (p.offer (.barrier k) stage).flight))) ∧
    (¬ (p.session.active = true ∧ p.session.barrier = some k) → p.exerciseVote k = p) ∧
    (p.session.active = true → p.session.barrier = some k →
      let votes := votesOf Channel.exer
      (votes = [] → p.exerciseVote k = { p with exercise := { p.exercise with validCount := 0 } }) ∧
      (∀ stage, voted votes stage → p.exerciseVote k =
        { p with exercise := { p.exercise with validCount := votes.length, lastStage := some stage } }.offer .exercise stage)) ∧
    (surging →
      let set := p.setBarrier k { b with surgeFlag := true, surgeTimer := some (60 * b.surgeHold) }
      (p.assessSurge k).barrier k = { b with surgeFlag := true, surgeTimer := some (60 * b.surgeHold) } ∧
      p.assessSurge k = if b.surgeFlag = true then set else ended (set.recomputeFor k) .surge) ∧
    (¬ surging → b.surgeTimer = none →
      let cleared := p.setBarrier k { b with surgeFlag := false }
      (p.assessSurge k).barrier k = { b with surgeFlag := false } ∧
      p.assessSurge k = if b.surgeFlag = true then cleared.recomputeFor k else cleared) ∧
    (¬ surging → b.surgeTimer ≠ none → p.assessSurge k = p) ∧
    (latched →
      (p.assessBreach k).barrier k = { b with wire := true } ∧
      p.assessBreach k =
        if b.wire = true then p else ended ((p.setBarrier k { b with wire := true }).recomputeFor k) .breach) ∧
    (¬ latched →
      (p.assessBreach k).barrier k = { b with wire := false } ∧
      p.assessBreach k = if b.wire = true then (p.setBarrier k { b with wire := false }).recomputeFor k else p)

/-- The Evaluation Unit, idle with entries waiting, takes the head entry with its snapshot: the stage, the table, the owner's
history ring, the part time, and for barrier k the effective rate of barrier k−1 if that is ACTIVE and full; otherwise
nothing changes (R77, R93). The row EVALUATION_BEGIN is that take; it is made within every offer, completion and abandonment
that leaves an entry to an idle unit, so in a run from reset the row itself finds none (log entry 12). -/
def Obligations.EvaluationTakesHead : Prop :=
  ∀ s : State, s.nresetLow = false →
    exec .evaluationBegin s = .next { s with plant := s.plant.beginEvaluation } ∧
    ((s.plant.flight ≠ none ∨ s.plant.evalQueue = []) → exec .evaluationBegin s = .next s) ∧
    (∀ e rest, s.plant.flight = none → s.plant.evalQueue = e :: rest →
      (∀ k, e.owner = .barrier k → exec .evaluationBegin s = .next { s with plant := { s.plant with
        evalQueue := rest, flight := some
          { owner := e.owner, stage := e.stage, table := s.plant.table k, history := (s.plant.barrier k).history,
            now := s.plant.now,
            carried :=
              match s.plant.barriers.toList[k.1 - 1]?.bind fun above =>
                if above.state = .active then above.estimate else none with
              | some x => if 0 < k.1 ∧ x.fill = 1000 then x.effRate else 0
              | none => 0 } } }) ∧
      (∀ k, e.owner = .exercise → s.plant.session.barrier = some k →
        exec .evaluationBegin s = .next { s with plant := { s.plant with
          evalQueue := rest, flight := some
            { owner := e.owner, stage := e.stage, table := s.plant.table k, history := s.plant.exercise.history,
              carried := 0, now := s.plant.now } } }))

/-- The results of an evaluation from its snapshot. Fill, own rate from the oldest other record within the rate window,
effective rate, and time-to-full rounded up (R81, R96, R97, R98); the history ring by its five tests: appended to an empty
ring or one record, the newest record overwritten within one second and while the second-newest stands within the history
spacing, and otherwise appended with the oldest of 8 leaving; so it keeps at most 8 records, ends with the new one, and rises
in time if it did (R95). -/
def Obligations.EvaluationProjects : Prop :=
  ∀ (f : Flight) (window spacing : Nat),
    let e := (f.evaluate window spacing).1
    let ring := (f.evaluate window spacing).2
    let c := f.table.capacity
    let new : HistoryRec := ⟨f.now, e.volume⟩
    (e.volume, e.above) = f.table.interpolate f.stage ∧
    e.fill = min (e.volume * 1000 / c) 1000 ∧
    (∀ old, ring.dropLast.find? (fun r => decide (f.now - r.time ≤ window)) = some old →
      e.rated = true ∧
      e.ownRate = max (-32768) (min ((((e.volume : Int) - old.volume) * 60).tdiv ((f.now : Int) - old.time)) 32767)) ∧
    ((∀ r ∈ ring.dropLast, window < f.now - r.time) → e.rated = false ∧ e.ownRate = 0) ∧
    (e.effRate : Int) = min (max 0 e.ownRate + f.carried) 32767 ∧
    (e.fill = 1000 → e.ttf = 0) ∧
    (e.fill ≠ 1000 → e.effRate = 0 → e.ttf = 65535) ∧
    (e.fill ≠ 1000 → 0 < e.effRate → e.ttf ≤ 65534 ∧
      (c - e.volume ≤ e.ttf * e.effRate ∨ e.ttf = 65534) ∧
      (∀ n, c - e.volume ≤ n * e.effRate → e.ttf ≤ n)) ∧
    (f.history = [] → ring = [new]) ∧
    (∀ older newest, f.history = older ++ [newest] → newest.time = f.now → ring = older ++ [new]) ∧
    (∀ newest, f.history = [newest] → newest.time ≠ f.now → ring = [newest, new]) ∧
    (∀ older second newest, f.history = older ++ [second, newest] → newest.time ≠ f.now →
      (f.now - second.time < spacing → ring = older ++ [second, new]) ∧
      (spacing ≤ f.now - second.time → f.history.length < 8 → ring = f.history ++ [new]) ∧
      (spacing ≤ f.now - second.time → f.history.length = 8 → ring = f.history.tail ++ [new])) ∧
    ring.getLast? = some new ∧
    (f.history.length ≤ 8 → ring.length ≤ 8) ∧
    (f.history.Pairwise (fun a b => a.time < b.time) → (∀ r ∈ f.history, r.time ≤ f.now) →
      ring.Pairwise (fun a b => a.time < b.time))

/-- The completion of a barrier's evaluation writes its estimate and history ring and sets or removes OVERTOP (R94, R99). It is
handed on: a first estimate with a BLIND vote posts BARRIER_BLIND (R90), and the villages routed to the barrier are recomputed
(R100); a session on the barrier ends with BREACH if OVERTOP appeared, or else with CEILING if the fill is at or above the
exercise ceiling (R162); barrier k+1, if ACTIVE with a last stage and a vote that is not BLIND, is re-offered that stage if
barrier k became full or left full, or is full with another effective rate (R101); a request that waits for the barrier
completes, BARRIER_RUN with the fill (R87, R170); and the unit takes its next head (R93). No other barrier changes but for its
superseded count, and the villages stand at the level formed from the barrier. That villages come before the session, the
session before the re-offer, and the reply before the take is the model's inference (log entry 7). -/
def Obligations.BarrierEvaluationCompletes : Prop :=
  ∀ (s : State) (f : Flight) (k : Fin 4), s.nresetLow = false → s.plant.flight = some f → f.owner = .barrier k →
    let b := s.plant.barrier k
    let result := f.evaluate b.rateWindow (b.rateWindow / 8)
    let e := result.1
    let after : Barrier := { b with
      estimate := some e, history := result.2, overtop := b.overtopBreach && e.fill == 1000 }
    let written := { s.plant with flight := none }.setBarrier k after
    let blind := if b.estimate = none ∧ b.voteQuality = some .blind then written.post .barrierBlind k.1 e.fill else written
    let cascades : Bool :=
      decide (b.estimate.map Estimate.fill = some 1000) != decide (e.fill = 1000) ||
        decide (e.fill = 1000 ∧ b.estimate.map Estimate.effRate ≠ some e.effRate)
    ∃ (t : State) (told tested done : Plant),
      told = blind.recomputeFor k ∧
      tested = (if told.session.active = true ∧ told.session.barrier = some k then
          if after.overtop = true ∧ b.overtop = false then told.endSession .breach
          else if s.mgmt.settings.ceiling ≤ e.fill then told.endSession .ceiling else told
        else told) ∧
      done = (if cascades = true then tested.reofferedBelow k else tested) ∧
      exec .barrierEvaluationCompletion s = .next t ∧
      t = { s with plant := done.beginEvaluation, mgmt := t.mgmt } ∧
      s.plant.BarrierSideOnly t.plant ∧ t.plant.AtWork ∧ t.plant.barrier k = after ∧
      (∀ j, j ≠ k → t.plant.barrier j = { s.plant.barrier j with superseded := (t.plant.barrier j).superseded }) ∧
      (∀ v, (s.plant.village v).inUse = true → ((s.plant.village v).routes.get k).isSome = true →
        (t.plant.village v).computed = ((s.plant.village v).form t.plant.barrier).computed ∧
        (t.plant.village v).announced = ((s.plant.village v).form t.plant.barrier).announced) ∧
      (∀ w r, s.mgmt.executing = some w → s.mgmt.requests.head? = some r → w.barrier = k →
        t.mgmt = s.mgmt.answered r .done (w.data done) ∧
        (w = .run k → w.data done = [BitVec.ofNat 8 (e.fill / 256), BitVec.ofNat 8 (e.fill % 256)])) ∧
      ((∀ w, s.mgmt.executing = some w → w.barrier ≠ k) → t.mgmt = s.mgmt)

/-- The completion of an exercise evaluation writes the exercise estimate and its ring alone, and the unit takes its next head
(R93): no barrier, no notice, no request and no real level of a village changes. A permitted village in use routed to the
session barrier takes its exercise level and is handed to the dispatcher, and every other village and dispatch record stays as
it is (R108, R128, R129, R136). -/
def Obligations.ExerciseEvaluationCompletes : Prop :=
  ∀ (s : State) (f : Flight) (k : Fin 4), s.nresetLow = false → s.plant.flight = some f → f.owner = .exercise →
    s.plant.session.active = true → s.plant.session.barrier = some k →
    let b := s.plant.barrier k
    let result := f.evaluate b.rateWindow (b.rateWindow / 8)
    let written : Plant := { s.plant with
      flight := none, exercise := { s.plant.exercise with estimate := some result.1, history := result.2 } }
    ∃ t, exec .exerciseEvaluationCompletion s = .next t ∧ t = { s with plant := t.plant } ∧
      t.plant = { written.beginEvaluation with villages := t.plant.villages, dispatch := t.plant.dispatch } ∧
      (∀ v, t.plant.village v = { s.plant.village v with
        exComputed := (t.plant.village v).exComputed, exAnnounced := (t.plant.village v).exAnnounced,
        exCause := (t.plant.village v).exCause, exAvailable := (t.plant.village v).exAvailable }) ∧
      (∀ v r, (s.plant.village v).inUse = true → (s.plant.village v).permit = true →
        (s.plant.village v).routes.get k = some r →
        let a := if result.1.ttf = 65535 then 65535 else min (result.1.ttf + r.travel) 65534
        let floored := fillFloors b.watchFill b.warnFill result.1.fill ((s.plant.village v).project a, .projection)
        (t.plant.village v).exAvailable = a ∧ (t.plant.village v).exComputed = floored.1 ∧
        (t.plant.village v).exAnnounced = floored.1 ∧ (t.plant.village v).exCause = floored.2 ∧
        t.plant.disp v = (s.plant.disp v).handOn true s.plant.now
          ⟨(s.plant.village v).announced, floored.1, (s.plant.village v).mask, true⟩) ∧
      (∀ v, ¬ ((s.plant.village v).inUse = true ∧ (s.plant.village v).permit = true ∧
          (s.plant.village v).routes.get k ≠ none) →
        t.plant.village v = s.plant.village v ∧ t.plant.disp v = s.plant.disp v)

/-- Interpolation through a VALID table: the crest and above give the capacity, ABOVE_TABLE only above; a stage in the segment
of points i and i+1 gives the truncated interpolation, so a stage on a point gives that point's volume; no volume exceeds the
capacity, and the volume never falls as the stage rises (R78, R79). -/
def Obligations.InterpolationFollowsTable : Prop :=
  ∀ (t : Table) (crest capacity : Nat), t.count ≤ 16 → t.checked = .valid crest capacity →
    let u : Table := { t with verdict := t.checked }
    let pt (i : Nat) : Point := t.points.toList.getD i ⟨0, 0⟩
    (∀ s, crest ≤ s → u.interpolate s = (capacity, decide (crest < s))) ∧
    (∀ i s, i + 1 < t.count → (pt i).stage ≤ s → s < (pt (i + 1)).stage →
      u.interpolate s = ((pt i).volume +
        ((pt (i + 1)).volume - (pt i).volume) * (s - (pt i).stage) / ((pt (i + 1)).stage - (pt i).stage), false)) ∧
    (∀ i, i < t.count → (u.interpolate (pt i).stage).1 = (pt i).volume) ∧
    (∀ s, (u.interpolate s).1 ≤ capacity) ∧
    (∀ s s', s ≤ s' → (u.interpolate s).1 ≤ (u.interpolate s').1)

/-- The table check: the conditions in order, the first one broken giving reason and reason point, and a table that breaks
none being VALID with the last point as crest and capacity (R74, R75). -/
def Obligations.TableCheckJudges : Prop :=
  ∀ t : Table, t.count ≤ 16 →
    let pt (i : Nat) : Point := t.points.toList.getD i ⟨0, 0⟩
    let stageBreak (i : Nat) : Prop := 1 ≤ i ∧ i < t.count ∧ (pt i).stage ≤ (pt (i - 1)).stage
    let volumeBreak (i : Nat) : Prop := 1 ≤ i ∧ i < t.count ∧ (pt i).volume < (pt (i - 1)).volume
    (t.count < 2 → t.checked = .invalid .count none) ∧
    (2 ≤ t.count →
      (pt 0 ≠ ⟨0, 0⟩ → t.checked = .invalid .origin (some 0)) ∧
      (pt 0 = ⟨0, 0⟩ →
        (∀ i, stageBreak i → (∀ j, j < i → ¬ stageBreak j) → t.checked = .invalid .stageOrder (some i)) ∧
        ((∀ i, ¬ stageBreak i) →
          (∀ i, volumeBreak i → (∀ j, j < i → ¬ volumeBreak j) → t.checked = .invalid .volumeOrder (some i)) ∧
          ((∀ i, ¬ volumeBreak i) →
            ((pt (t.count - 1)).volume = 0 → t.checked = .invalid .capacity (some (t.count - 1))) ∧
            ((pt (t.count - 1)).volume ≠ 0 →
              t.checked = .valid (pt (t.count - 1)).stage (pt (t.count - 1)).volume)))))

/-! ### Levels (chapter 6) -/

/-- The entry of a barrier. ACTIVE with an estimate: available time, fill, the five steps in order (projection, fill floors,
blind floor, surge step, breach step), the cause of the last step that raised the level, and the held level (R118, R119).
UNLOADED, or ACTIVE without an estimate: CLEAR, without available time and fill, the held level CLEAR; LOADING: the held level
with cause HELD, available time, fill and held level kept; in both then the breach step alone (R120). -/
def Obligations.EntryLevelInFiveSteps : Prop :=
  ∀ (b : Barrier) (vl : Village) (r : Route),
    let out := r.form b vl
    let breached : Prop := b.wire = true ∨ b.overtop = true
    let breachCause : Cause := if b.wire = true then .wire else .overtop
    (∀ e : Estimate, b.state = .active → b.estimate = some e →
      let a := if e.ttf = 65535 then 65535 else min (e.ttf + r.travel) 65534
      let projection := if a ≤ vl.evac then 3 else if a ≤ vl.warn then 2 else if a ≤ vl.watch then 1 else 0
      let warned := if b.warnFill ≤ e.fill ∧ b.warnFill ≠ 1000 then max projection 2 else projection
      let filled := if b.watchFill ≤ e.fill ∧ b.watchFill ≠ 1000 then max warned 1 else warned
      let blind := if b.voteQuality = some .blind then max filled 1 else filled
      let surged := if b.surgeFlag = true ∧ blind < 3 then blind + 1 else blind
      out.travel = r.travel ∧ out.available = a ∧ out.fill = some e.fill ∧
      out.level.code = (if b.wire = true ∨ b.overtop = true then 4 else surged) ∧
      out.held.code = (if b.wire = true ∨ b.overtop = true then 3 else surged) ∧
      out.cause = (if b.wire = true then .wire else if b.overtop = true then .overtop
        else if blind < surged then .surge else if filled < blind then .blind
        else if projection < filled then .fill else .projection)) ∧
    (b.state = .unloaded ∨ b.state = .active ∧ b.estimate = none →
      out.travel = r.travel ∧ out.available = 65535 ∧ out.fill = none ∧ out.held = .clear ∧
      (breached → out.level = .breach ∧ out.cause = breachCause) ∧
      (¬ breached → out.level = .clear ∧ out.cause = .projection)) ∧
    (b.state = .loading →
      out.travel = r.travel ∧ out.available = r.available ∧ out.fill = r.fill ∧ out.held = r.held ∧
      (breached → out.level = .breach ∧ out.cause = breachCause) ∧
      (¬ breached → out.level = r.held ∧ out.cause = .held))

/-- A recomputed village: the computed level is the highest entry level, CLEAR without entries; the deciding entry stands at
it, with the smallest available, then the lowest barrier index, and the deciding fields are its own (R122). A recomputation
for a barrier reaches every village in use with a route entry for it, and no other: the village is formed anew and handed to
the dispatcher (R127, R136), and BREACH_RAISED is posted with village and deciding barrier for each latch that this sets, the
last one standing (R123, R179). That the villages are taken in ascending index, so that the highest one's posting stands, is
the model's inference (log entry 7). -/
def Obligations.DecidingEntry : Prop :=
  (∀ (vl : Village) (barrier : Fin 4 → Barrier),
    let out := vl.form barrier
    let entry (k : Fin 4) : Option Route := (vl.routes.get k).map fun r => r.form (barrier k) vl
    (∀ k, out.routes.get k = entry k) ∧
    ((∀ k, vl.routes.get k = none) → out.computed = .clear ∧ out.decBarrier = none ∧ out.decCause = .projection ∧
      out.decAvailable = 65535 ∧ out.decFill = none) ∧
    ((∃ k, vl.routes.get k ≠ none) → ∃ k r, out.decBarrier = some k ∧ entry k = some r ∧ out.computed = r.level ∧
      out.decCause = r.cause ∧ out.decAvailable = r.available ∧ out.decFill = r.fill ∧
      ∀ j q, entry j = some q → q.level.code < r.level.code ∨
        q.level = r.level ∧ (r.available < q.available ∨ r.available = q.available ∧ k.1 ≤ j.1))) ∧
  (∀ (p : Plant) (k : Fin 4),
    let t := p.recomputeFor k
    let reached (v : Fin 8) : Prop := (p.village v).inUse = true ∧ (p.village v).routes.get k ≠ none
    let raised (v : Fin 8) : Prop := reached v ∧ (p.village v).latch = false ∧ (t.village v).latch = true
    p.VillageSideOnly t ∧
    (∀ v, reached v → t.village v = (p.village v).form p.barrier ∧
      t.disp v = (p.disp v).handOn p.session.active p.now
        ⟨(t.village v).announced, (t.village v).exAnnounced, (t.village v).mask, (t.village v).permit⟩) ∧
    (∀ v, ¬ reached v → t.village v = p.village v ∧ t.disp v = p.disp v) ∧
    ((∀ v, ¬ raised v) → t.notices = p.notices) ∧
    (∀ v, raised v → (∀ w, raised w → w.1 ≤ v.1) → ∃ j, (t.village v).decBarrier = some j ∧
      ∃ n ∈ t.notices, n.kind = .breachRaised ∧ n.subject = v.1 ∧ n.value = j.1))

/-! ### Requests to the part (chapter 9) -/

/-- The three checks at the beginning of execution, in order, for every request row: an unknown code is BAD_VALUE, a write
under inspection is INSPECTING, a wrong argument length is BAD_VALUE; nothing but the answer changes (R169). -/
def Obligations.RequestAdmission : Prop :=
  ∀ (c : Instr) (s : State) (r : Request),
    s.nresetLow = false → s.mgmt.executing = none → s.mgmt.requests.head? = some r → c.executes r = true →
    (catalogue r.code = none → ∃ t, exec c s = .next t ∧ s.OnlyAnswers r .badValue t) ∧
    (∀ length, catalogue r.code = some (.write, length) → s.mgmt.settings.inspecting = true →
      ∃ t, exec c s = .next t ∧ s.OnlyAnswers r .inspecting t) ∧
    (∀ cls length, catalogue r.code = some (cls, length) → (cls ≠ .write ∨ s.mgmt.settings.inspecting = false) →
      r.args.length ≠ length → ∃ t, exec c s = .next t ∧ s.OnlyAnswers r .badValue t)

/-- SET_PART: refused with BAD_VALUE for an address, count or ceiling outside what it may be, and otherwise all four settings
written, the duration clamped, the inspection flag kept (R176). -/
def Obligations.SetPartWritesSettings : Prop :=
  ∀ (s : State) (r : Request), s.Begins r 0x01 7 → s.mgmt.settings.inspecting = false →
    let own := s.ownAddr
    let count := (r.byte 1).toNat
    let bad : Prop := r.byte 0 = 255 ∨ r.byte 0 = own ∨ 2 < count ∨
      (1 ≤ count ∧ (r.byte 2 = 0 ∨ r.byte 2 = 255 ∨ r.byte 2 = own)) ∨
      (2 ≤ count ∧ (r.byte 3 = 0 ∨ r.byte 3 = 255 ∨ r.byte 3 = own ∨ r.byte 2 = r.byte 3)) ∨
      r.num16 4 < 1 ∨ 1000 < r.num16 4
    (bad → ∃ t, exec .setPart s = .next t ∧ s.OnlyAnswers r .badValue t) ∧
    (¬ bad → exec .setPart s = .next { s with
    mgmt := Mgmt.answered
      { s.mgmt with settings := { s.mgmt.settings with
          report := if r.byte 0 = 0 then none else some (r.byte 0),
          managers := [r.byte 2, r.byte 3].take count,
          ceiling := r.num16 4, duration := max 5 (min (r.byte 6).toNat 240) } } r .done [] })

/-- Reads and status requests change nothing but the Request Unit: with their target in range they are DONE with the fields of
the reply table at their offsets (a waiting AFTER_EVAL read is held back), above it they are BAD_INDEX (R13, R41, R65, R76,
R109, R132, R153, R157, R166, R171, R178). Where the tables leave a value or bits of the data open, what is sent is the
model's choice or inference (log entries 23 to 26). -/
def Obligations.ReadsOnlyReport : Prop :=
  ∀ (s : State) (r : Request),
    let answersWith (c : Instr) (length : Nat) (fields : List (Nat × List Byte)) : Prop :=
      ∃ t data, exec c s = .next t ∧ t.plant = s.plant ∧ s.Answers r .done data t ∧ data.length = length ∧ FieldsAt data fields
    let refuses (c : Instr) (o : ReqOutcome) : Prop := ∃ t, exec c s = .next t ∧ s.OnlyAnswers r o t
    (s.Begins r 0x02 0 → answersWith .statusPart 43 (fieldsOfPart s)) ∧
    (s.Begins r 0x03 0 → answersWith .statusLines 28 (fieldsOfLines s)) ∧
    (s.Begins r 0x12 0 →
      (∀ i : Fin 24, r.target.toNat = i.1 → answersWith .readStation 25 (fieldsOfStation s.plant.now (s.plant.station i))) ∧
      (24 ≤ r.target.toNat → refuses .readStation .badIndex)) ∧
    (s.Begins r 0x1A 0 → (∀ c : Fin 48, r.target.toNat = c.1 → answersWith .readChannel
        (20 + match (s.plant.channel c).kind with | .stage => 18 | .surge => 5 | .wire => 3) (fieldsOfChannel (s.plant.channel c))) ∧
      (48 ≤ r.target.toNat → refuses .readChannel .badIndex)) ∧
    (s.Begins r 0x1C 0 →
      (∀ c : Fin 48, r.target.toNat = c.1 → answersWith .readPattern 18 (fieldsOfPattern (s.plant.pattern c))) ∧
      (48 ≤ r.target.toNat → refuses .readPattern .badIndex)) ∧
    (s.Begins r 0x21 1 →
      (∀ k : Fin 4, r.target.toNat = k.1 → (r.byte 0).toNat ≤ 1 →
        answersWith .readStagePoints 40 (fieldsOfTable (s.plant.table k) (r.byte 0).toNat)) ∧
      (r.target.toNat < 4 → 1 < (r.byte 0).toNat → refuses .readStagePoints .badValue) ∧
      (4 ≤ r.target.toNat → refuses .readStagePoints .badIndex)) ∧
    (s.Begins r 0x34 0 →
      (∀ v : Fin 8, r.target.toNat = v.1 → answersWith .readVillage 31 (fieldsOfVillage (s.plant.village v))) ∧
      (8 ≤ r.target.toNat → refuses .readVillage .badIndex)) ∧
    (s.Begins r 0x35 0 →
      (∀ v : Fin 8, r.target.toNat = v.1 → answersWith .statusVillage 45
        (fieldsOfVillageStatus s.plant.now (s.plant.village v) (s.plant.disp v))) ∧
      (8 ≤ r.target.toNat → refuses .statusVillage .badIndex)) ∧
    (s.Begins r 0x25 0 → (∀ k : Fin 4, r.target.toNat = k.1 →
        (r.afterEval = false ∨ (s.plant.barrier k).state ≠ .active ∨ s.plant.evalState (.barrier k) = .idle →
          answersWith .readBarrier 10 (fieldsOfBarrier (s.plant.barrier k))) ∧
        (r.afterEval = true → (s.plant.barrier k).state = .active → s.plant.evalState (.barrier k) ≠ .idle →
          exec .readBarrier s = .next { s with mgmt := { s.mgmt with executing := some (.read k) } })) ∧
      (4 ≤ r.target.toNat → refuses .readBarrier .badIndex)) ∧
    (s.Begins r 0x26 0 → (∀ k : Fin 4, r.target.toNat = k.1 →
        (r.afterEval = false ∨ (s.plant.barrier k).state ≠ .active ∨ s.plant.evalState (.barrier k) = .idle →
          answersWith .statusBarrier 39 (fieldsOfBarrierStatus s.plant k)) ∧
        (r.afterEval = true → (s.plant.barrier k).state = .active → s.plant.evalState (.barrier k) ≠ .idle →
          exec .statusBarrier s = .next { s with mgmt := { s.mgmt with executing := some (.status k) } })) ∧
      (4 ≤ r.target.toNat → refuses .statusBarrier .badIndex))

/-- CLEAR_COUNTERS sets the counters of ports, stations, barriers, exercise estimate and dispatch records and the discarded
replies to 0 and changes nothing else; its reply is made after the clearing (R177). INSPECT_ON sets the inspection flag,
INSPECTING if it is on already; INSPECT_OFF clears it whether it was on or off (R174). -/
def Obligations.CountersClearedAndInspection : Prop :=
  ∀ (s : State) (r : Request),
    let zero (p : PortRec) : PortRec := { p with good := 0, check := 0, framing := 0, breaks := 0, drops := 0 }
    let withFlag (on : Bool) : State :=
      { s with mgmt := Mgmt.answered { s.mgmt with settings := { s.mgmt.settings with inspecting := on } } r .done [] }
    (s.Begins r 0x04 0 → s.mgmt.settings.inspecting = false → ∃ t, exec .clearCounters s = .next t ∧
      t = { s with
        line := { s.line with u := zero s.line.u, d := zero s.line.d },
        plant := { s.plant with stations := t.plant.stations, barriers := t.plant.barriers, dispatch := t.plant.dispatch,
                                exercise := { s.plant.exercise with superseded := 0 } },
        mgmt := Mgmt.answered { s.mgmt with discarded := 0 } r .done [] } ∧
      (∀ i, t.plant.station i = { s.plant.station i with accepted := 0, duplicate := 0, gap := 0, malformed := 0 }) ∧
      (∀ k, t.plant.barrier k = { s.plant.barrier k with superseded := 0 }) ∧
      (∀ v, t.plant.disp v = { s.plant.disp v with stale := 0 })) ∧
    (s.Begins r 0x05 0 → s.mgmt.settings.inspecting = false → exec .inspectOn s = .next (withFlag true)) ∧
    (s.Begins r 0x05 0 → s.mgmt.settings.inspecting = true → ∃ t, exec .inspectOn s = .next t ∧ s.OnlyAnswers r .inspecting t) ∧
    (s.Begins r 0x06 0 → exec .inspectOff s = .next (withFlag false))

/-- RESET EVAL: stations in use and not RETIRED become UNKNOWN, conditioning state, evaluation work, estimates, surge flags
and breach causes are cleared, entry, computed and exercise levels are CLEAR with holds restarted, while announced levels and
latches are kept; an active session ends with reason RESET; ports, settings and straps are kept (R44, R68, R110, R133, R163,
R182). A RESET of scope 0 or above 3 is BAD_VALUE (R182). The model's inferences: the exercise estimate record keeps its
superseded count (log entry 18), and the row RESET_EVAL refuses an unknown scope (log entry 14). -/
def Obligations.ResetEvalClearsEvaluation : Prop :=
  ∀ (s : State) (r : Request), s.Begins r 0x07 1 → s.mgmt.settings.inspecting = false →
    (r.byte 0 = 0 ∨ 3 < (r.byte 0).toNat → ∃ t, exec .resetEval s = .next t ∧ s.OnlyAnswers r .badValue t) ∧
    (r.byte 0 = 1 →
    ∃ t, exec .resetEval s = .next t ∧ s.Answers r .done [] t ∧
      t.plant.now = s.plant.now ∧ t.plant.patterns = s.plant.patterns ∧ t.plant.tables = s.plant.tables ∧
      (∀ i, t.plant.station i =
        if (s.plant.station i).inUse = true ∧ (s.plant.station i).state ≠ .retired then
          { s.plant.station i with state := .unknown, timer := none, lastSeq := none }
        else s.plant.station i) ∧
      (∀ c, t.plant.channel c = { s.plant.channel c with
        eligible := false, real := .cleared, exer := .cleared, surgeRing := [], windowSum := 0, surging := false,
        valid := false, latch := false, lastReading := none }) ∧
      (∀ k, t.plant.barrier k = { s.plant.barrier k with
        estimate := none, voteQuality := none, validCount := 0, history := [], lastStage := none, surgeFlag := false,
        surgeTimer := none, wire := false, overtop := false }) ∧
      t.plant.evalQueue = [] ∧ t.plant.flight = none ∧
      t.plant.exercise = { s.plant.exercise with estimate := none, history := [], validCount := 0, lastStage := none } ∧
      (∀ v, (s.plant.village v).inUse = true → t.plant.village v = { s.plant.village v with
        routes := (t.plant.village v).routes, computed := .clear, decBarrier := none, decCause := .projection,
        decAvailable := 65535, decFill := none, exComputed := .clear, exAnnounced := .clear, exCause := .projection,
        exAvailable := 65535,
        holdTimer := if (s.plant.village v).latch then none else some (60 * (s.plant.village v).holdTime) } ∧
        ∀ k, (t.plant.village v).routes.get k = ((s.plant.village v).routes.get k).map fun q =>
          { q with level := .clear, cause := .projection, available := 65535, fill := none, held := .clear }) ∧
      (s.plant.session.active = false →
        t.plant.session = s.plant.session ∧ t.plant.dispatch = s.plant.dispatch ∧ t.plant.notices = s.plant.notices) ∧
      (s.plant.session.active = true →
        t.plant.session = { s.plant.session with active := false, endReason := .reset, endTime := some s.plant.now,
                                                 timer := none } ∧
        (∀ v,
          let vl := s.plant.village v
          t.plant.disp v = if vl.inUse = true ∧ (vl.exComputed ≠ .clear ∨ vl.exAnnounced ≠ .clear) then
              (s.plant.disp v).handOn false s.plant.now ⟨vl.announced, .clear, vl.mask, vl.permit⟩
            else s.plant.disp v) ∧
        ∃ n ∈ t.plant.notices, n.kind = .exerciseEnded ∧ n.value = 7))

/-- RESET LINES: both ports WAITING in HUNT with their counters at 0 and never in BREAK, both forward queues empty, both
transmissions cut, origin sequence 0 and last grant kind NONE; a cut ALERT that its record still has on the line returns the
record, while DUE, to the offer it held before the grant, and is no longer on the line; a cut ALERT that no record has on the
line is taken by none; nothing else changes but the answer (R25, R142, R150, R182). The break state after the reset is taken
from the one before it, the model's inference (log entry 6). -/
def Obligations.ResetLinesClearsPorts : Prop :=
  ∀ (s : State) (r : Request), s.Begins r 0x07 1 → s.mgmt.settings.inspecting = false → r.byte 0 = 2 →
    let port (p : PortRec) : PortRec :=
      { state := .waiting, rx := .hunt, brk := if p.brk = .marking then .marking else .spacing,
        good := 0, check := 0, framing := 0, breaks := 0, drops := 0 }
    let t (p : Plant) : State := { s with
      line := { u := port s.line.u, d := port s.line.d, ud := [], du := [], uTx := none, dTx := none, originSeq := 0,
                lastGrant := .none }
      plant := p, mgmt := s.mgmt.answered r .done [] }
    ((∀ f v o b, s.line.dTx ≠ some ⟨f, .alert v o b⟩) → exec .resetLines s = .next (t s.plant)) ∧
    (∀ f v o b, s.line.dTx = some ⟨f, .alert v o b⟩ →
      (∀ reason time c, (s.plant.disp v).onLine = true → (s.plant.disp v).state = .due reason time c →
        exec .resetLines s = .next (t (s.plant.setDisp v
          { s.plant.disp v with onLine := false, offered := o, openOffer := b }))) ∧
      ((s.plant.disp v).onLine = true → (∀ reason time c, (s.plant.disp v).state ≠ .due reason time c) →
        exec .resetLines s = .next (t (s.plant.setDisp v { s.plant.disp v with onLine := false }))) ∧
      ((s.plant.disp v).onLine = false → exec .resetLines s = .next (t (s.plant.setDisp v (s.plant.disp v)))))

/-- RESET ALL acts as a release of nRESET with the straps sampled again; the waiting request is lost, and the reply is placed
in the emptied reply queue whatever the QUIET flag (R183, R184). The level of each receive line is the one its break state
shows, the model's choice (log entry 6). -/
def Obligations.ResetAllResetsAndReplies : Prop :=
  ∀ (s : State) (r : Request) (straps : Straps),
    s.Begins r 0x07 1 → s.mgmt.settings.inspecting = false → r.byte 0 = 3 →
    ∃ t u, exec (.resetAll straps) s = .next t ∧
      exec (.powerOn ⟨straps, decide (s.line.u.brk ≠ .marking), decide (s.line.d.brk ≠ .marking)⟩) s = .next u ∧
      t = { u with mgmt := { u.mgmt with
        replies := [{ dst := r.src, code := r.code, target := r.target, outcome := .done, data := [] }] } }

/-! ### Loading stations, channels, patterns, tables, barriers -/

/-- LOAD_STATION, every outcome in order: BAD_INDEX above 23; BAD_VALUE for address 255 or the own one, and, with an address, for
one that another record holds, a slot entry that is neither NONE nor a channel index, or a channel named twice or mapped by
another station; WRONG_STATE while the record as it stands or as asked for touches an ACTIVE barrier (R27). Accepted with a line
address it writes the record whole, UNKNOWN with its counts at 0; with line address 0 it clears the record; every channel of
the old or the new map lapses, in ascending index (R28, R29, R57), among channels of different barriers by the model's
inference (log entry 7). Other stations keep what they hold. -/
def Obligations.LoadStationWritesRecord : Prop :=
  ∀ (s : State) (r : Request), s.Begins r 0x10 11 → s.mgmt.settings.inspecting = false →
    let refuses (o : ReqOutcome) : Prop := ∃ t, exec .loadStation s = .next t ∧ s.OnlyAnswers r o t
    (24 ≤ r.target.toNat → refuses .badIndex) ∧
    (∀ i : Fin 24, r.target.toNat = i.1 →
      let addr := r.byte 0
      let slot (j : Fin 8) : Byte := r.byte (1 + j.1)
      let taken : Prop := (∃ j, j ≠ i ∧ (s.plant.station j).inUse = true ∧ (s.plant.station j).addr = addr) ∨
        ∃ v, (s.plant.village v).inUse = true ∧ (s.plant.village v).addr = addr
      let misnamed : Prop := ∃ j, 48 ≤ (slot j).toNat ∧ slot j ≠ 255
      let shared : Prop := (∃ a b : Fin 8, a ≠ b ∧ slot a = slot b ∧ (slot a).toNat < 48) ∨
        ∃ (a : Fin 8) (j : Fin 24) (c : Fin 48), j ≠ i ∧ (s.plant.station j).inUse = true ∧ (slot a).toNat = c.1 ∧
          (s.plant.station j).maps c = true
      let bad : Prop := addr = 255 ∨ addr = s.ownAddr ∨ addr ≠ 0 ∧ (taken ∨ misnamed ∨ shared)
      let busy : Prop := ∃ (c : Fin 48) (k : Fin 4),
        ((s.plant.station i).maps c = true ∨ addr ≠ 0 ∧ ∃ a, (slot a).toNat = c.1) ∧
        (s.plant.channel c).inUse = true ∧ (s.plant.channel c).barrier = some k ∧ (s.plant.barrier k).state = .active
      (bad → refuses .badValue) ∧
      (¬ bad → busy → refuses .wrongState) ∧
      (¬ bad → ¬ busy → ∃ t, exec .loadStation s = .next t ∧ s.Answers r .done [] t ∧
        (addr ≠ 0 →
          (t.plant.station i).inUse = true ∧ (t.plant.station i).addr = addr ∧
          (∀ j : Fin 8, (t.plant.station i).slots.get j =
            if h : (slot j).toNat < 48 then some ⟨(slot j).toNat, h⟩ else none) ∧
          (t.plant.station i).timeout = max 10 (min (r.num16 9) 3600) ∧ (t.plant.station i).state = .unknown ∧
          (t.plant.station i).timer = none ∧ (t.plant.station i).lastSeq = none ∧ (t.plant.station i).accepted = 0 ∧
          (t.plant.station i).duplicate = 0 ∧ (t.plant.station i).gap = 0 ∧ (t.plant.station i).malformed = 0) ∧
        (addr = 0 → t.plant.station i =
          { inUse := false, addr := 0, slots := Vector.replicate 8 none, timeout := 300, state := .unknown, timer := none,
            lastSeq := none, accepted := 0, duplicate := 0, gap := 0, malformed := 0 }) ∧
        (∀ j, j ≠ i → t.plant.station j = s.plant.station j) ∧
        (∀ c, t.plant.channel c =
          if (s.plant.station i).maps c = true ∨ (t.plant.station i).maps c = true then (s.plant.channel c).lapsed
          else s.plant.channel c) ∧
        t.plant = (((List.finRange 48).filter fun c => (s.plant.station i).maps c || (t.plant.station i).maps c).foldl
          (init := s.plant.setStation i (t.plant.station i)) fun p c => p.lapse c) ∧
        t.plant.tables = s.plant.tables ∧ t.plant.patterns = s.plant.patterns ∧ t.plant.now = s.plant.now))

/-- RETIRE_STATION: BAD_INDEX above 23, WRONG_STATE for an UNUSED record, DONE without change for a RETIRED one; otherwise the
record becomes RETIRED with address, map, timeout and counts kept, and its channels lapse, in ascending index (R30, R57), among
channels of different barriers by the model's inference (log entry 7). -/
def Obligations.RetireStation : Prop :=
  ∀ (s : State) (r : Request), s.Begins r 0x11 0 → s.mgmt.settings.inspecting = false →
    (24 ≤ r.target.toNat → ∃ t, exec .retireStation s = .next t ∧ s.OnlyAnswers r .badIndex t) ∧
    (∀ i : Fin 24, r.target.toNat = i.1 →
      ((s.plant.station i).inUse = false → ∃ t, exec .retireStation s = .next t ∧ s.OnlyAnswers r .wrongState t) ∧
      ((s.plant.station i).inUse = true → ∃ t, exec .retireStation s = .next t ∧ s.Answers r .done [] t ∧
        ((s.plant.station i).state = .retired → t.plant = s.plant) ∧
        ((s.plant.station i).state ≠ .retired →
          t.plant.station i = { s.plant.station i with state := .retired, timer := none, lastSeq := none } ∧
          (∀ j, j ≠ i → t.plant.station j = s.plant.station j) ∧
          (∀ c, t.plant.channel c =
            if (s.plant.station i).maps c = true then (s.plant.channel c).lapsed else s.plant.channel c) ∧
          t.plant = (((List.finRange 48).filter fun c => (s.plant.station i).maps c).foldl
            (init := s.plant.setStation i (t.plant.station i)) fun p c => p.lapse c) ∧
          t.plant.tables = s.plant.tables ∧ t.plant.patterns = s.plant.patterns ∧ t.plant.now = s.plant.now)))

/-- LOAD_CHANNEL, every outcome in order: BAD_INDEX above 47; BAD_VALUE for a use, kind, barrier or setting out of its range, or a
barrier at its cap; WRONG_STATE while the record's barrier or the one asked for is ACTIVE (R46, R49). Accepted with use IN_USE it
writes kind, barrier and settings with the surge window clamped, clears all conditioning state, and takes the source from the
mapping station; with use UNUSED it clears the record (R47, R48), where invert, which no table of limits names, becomes no, the
model's choice (log entry 22). What the old record withdraws is reported: VALID paths and channels, and a set latch (R47, R57,
R62), the real path before the exercise path by the model's inference (log entry 7). Other channels, stations, patterns and
tables keep what they hold. -/
def Obligations.LoadChannelWritesRecord : Prop :=
  ∀ (s : State) (r : Request), s.Begins r 0x18 18 → s.mgmt.settings.inspecting = false →
    let refuses (o : ReqOutcome) : Prop := ∃ t, exec .loadChannel s = .next t ∧ s.OnlyAnswers r o t
    (48 ≤ r.target.toNat → refuses .badIndex) ∧
    (∀ c : Fin 48, r.target.toNat = c.1 →
      let frame (t : State) : Prop := (∀ d, d ≠ c → t.plant.channel d = s.plant.channel d) ∧
        t.plant.stations = s.plant.stations ∧ t.plant.patterns = s.plant.patterns ∧ t.plant.tables = s.plant.tables ∧
        t.plant.now = s.plant.now
      let cap (kind : ChannelKind) : Nat := match kind with | .stage => 3 | .surge => 4 | .wire => 2
      let bad : Prop := 1 < (r.byte 0).toNat ∨ r.byte 0 = 1 ∧
        (2 < (r.byte 2).toNat ∨ 3 < (r.byte 3).toNat ∧ r.byte 3 ≠ 255 ∨
          (r.byte 2).toNat = 0 ∧ (4095 < r.num16 9 ∨ (r.byte 11).toNat < 1 ∨ 7 < (r.byte 11).toNat ∨
            (r.byte 12).toNat ∉ [1, 2, 4, 8] ∨ (r.byte 13).toNat < 1 ∨ 15 < (r.byte 13).toNat) ∨
          (r.byte 2).toNat = 1 ∧ r.num16 16 = 0 ∨
          ∃ (kind : ChannelKind) (k : Fin 4), (r.byte 2).toNat = kind.code ∧ (r.byte 3).toNat = k.1 ∧
            cap kind ≤ ((s.plant.channelsAt k kind).filter (· ≠ c)).length)
      let busy : Prop := ∃ k : Fin 4, (s.plant.barrier k).state = .active ∧
        ((s.plant.channel c).inUse = true ∧ (s.plant.channel c).barrier = some k ∨ r.byte 0 = 1 ∧ (r.byte 3).toNat = k.1)
      (bad → refuses .badValue) ∧
      (¬ bad → busy → refuses .wrongState) ∧
      (¬ bad → ¬ busy → ∃ t, exec .loadChannel s = .next t ∧ s.Answers r .done [] t ∧ frame t ∧
        (r.byte 0 = 0 → t.plant.channel c = { Channel.cleared with eligible := s.plant.sourceOf c }) ∧
        (∀ kind (barrier : Option (Fin 4)), r.byte 0 = 1 → (r.byte 2).toNat = kind.code →
          (match barrier with | some k => (r.byte 3).toNat = k.1 | none => r.byte 3 = 255) →
          t.plant.channel c = { Channel.cleared with
            inUse := true, enabled := decide (r.byte 1 ≠ 0), kind := kind, barrier := barrier,
            eligible := s.plant.sourceOf c, gain := r.num16 4, offset := r.int16 6, invert := decide (r.byte 8 ≠ 0),
            slew := r.num16 9, spikeAccept := (r.byte 11).toNat, window := (r.byte 12).toNat,
            missLimit := (r.byte 13).toNat, surgeWindow := max 10 (min (r.num16 14) 600), surgeThreshold := r.num16 16 }) ∧
        (let old := s.plant.channel c
         let written := s.plant.setChannel c (t.plant.channel c)
         (old.inUse = false ∨ old.barrier = none → t.plant = written) ∧
         (∀ k, old.inUse = true → old.barrier = some k →
           (old.kind = .stage → t.plant =
             let voted := if old.real.valid = true then written.vote k else written
             if old.exer.valid = true then voted.exerciseVote k else voted) ∧
           (old.kind = .surge → t.plant = if old.valid = true then written.assessSurge k else written) ∧
           (old.kind = .wire → t.plant = if old.latch = true then written.assessBreach k else written)))))

/-- REARM_WIRE: BAD_INDEX above 47, WRONG_STATE unless the channel is a WIRE channel in use; otherwise DONE, the latch clear
with last reading and validity kept. A latch that was set is a change handed to the breach assessment of the channel's barrier,
and nothing else changes; a barrier whose last set latch this was loses its WIRE cause (R62, R64, R106). -/
def Obligations.RearmWire : Prop :=
  ∀ (s : State) (r : Request), s.Begins r 0x19 0 → s.mgmt.settings.inspecting = false →
    (48 ≤ r.target.toNat → ∃ t, exec .rearmWire s = .next t ∧ s.OnlyAnswers r .badIndex t) ∧
    (∀ c : Fin 48, r.target.toNat = c.1 →
      ((s.plant.channel c).inUse = false ∨ (s.plant.channel c).kind ≠ .wire →
        ∃ t, exec .rearmWire s = .next t ∧ s.OnlyAnswers r .wrongState t) ∧
      ((s.plant.channel c).inUse = true → (s.plant.channel c).kind = .wire →
        ∃ t, exec .rearmWire s = .next t ∧ s.Answers r .done [] t ∧
          t.plant.channel c = { s.plant.channel c with latch := false } ∧
          (∀ d, d ≠ c → t.plant.channel d = s.plant.channel d) ∧
          t.plant.stations = s.plant.stations ∧ t.plant.tables = s.plant.tables ∧ t.plant.patterns = s.plant.patterns ∧
          t.plant.now = s.plant.now ∧
          ((s.plant.channel c).latch = false → t.plant = s.plant) ∧
          ((s.plant.channel c).latch = true → t.plant =
            let cleared := s.plant.setChannel c { s.plant.channel c with latch := false }
            match (s.plant.channel c).barrier with
            | some k => cleared.assessBreach k
            | none => cleared) ∧
          (∀ k, (s.plant.channel c).latch = true → (s.plant.channel c).barrier = some k →
            ((t.plant.barrier k).wire = true ↔ ∃ d, (t.plant.channel d).at k .wire = true ∧ (t.plant.channel d).latch = true) ∧
            ∀ j, j ≠ k → t.plant.barrier j = s.plant.barrier j)))

/-- LOAD_PATTERN: BAD_INDEX above 47, BAD_VALUE for an unknown kind or a RAMP step outside −4096..4095, WRONG_STATE during a
session; otherwise kind and the kind's parameters are written, a seed of 0 as 1, and the pattern restarts (R155). -/
def Obligations.LoadPatternRestarts : Prop :=
  ∀ (s : State) (r : Request), s.Begins r 0x1B 11 → s.mgmt.settings.inspecting = false →
    let bad : Prop := 3 < (r.byte 0).toNat ∨ (r.byte 0).toNat = 1 ∧ (r.int16 3 < -4096 ∨ 4095 < r.int16 3)
    (48 ≤ r.target.toNat → ∃ t, exec .loadPattern s = .next t ∧ s.OnlyAnswers r .badIndex t) ∧
    (r.target.toNat < 48 → bad → ∃ t, exec .loadPattern s = .next t ∧ s.OnlyAnswers r .badValue t) ∧
    (r.target.toNat < 48 → ¬ bad → s.plant.session.active = true →
      ∃ t, exec .loadPattern s = .next t ∧ s.OnlyAnswers r .wrongState t) ∧
    (∀ c : Fin 48, r.target.toNat = c.1 → ¬ bad → s.plant.session.active = false →
      let q := s.plant.pattern c
      ∃ t loaded, exec .loadPattern s = .next t ∧ s.Answers r .done [] t ∧
        t.plant = s.plant.setPattern c { loaded with ramp := loaded.start, phaseB := false, gen := loaded.seed, yields := 0 } ∧
        ((r.byte 0).toNat = 0 → loaded = { q with kind := .none }) ∧
        ((r.byte 0).toNat = 1 → loaded = { q with kind := .ramp, start := r.word 1, step := r.int16 3 }) ∧
        ((r.byte 0).toNat = 2 → loaded = { q with kind := .alternate, valueA := r.word 5, valueB := r.word 7 }) ∧
        ((r.byte 0).toNat = 3 → loaded = { q with kind := .prbs, seed := if r.word 9 = 0 then 1 else r.word 9 }))

/-- LOAD_STAGE_POINTS: BAD_INDEX above 3, BAD_VALUE for a half, count or stage its field may not hold, WRONG_STATE for an
ACTIVE barrier; otherwise the eight points of the half and the count are written, the other half is kept and the verdict is
UNCHECKED; nothing else changes (R71, R72). -/
def Obligations.LoadStagePointsWritesHalf : Prop :=
  ∀ (s : State) (r : Request), s.Begins r 0x20 34 → s.mgmt.settings.inspecting = false →
    let bad : Prop := 1 < (r.byte 0).toNat ∨ 16 < (r.byte 1).toNat ∨ ∃ i, i < 8 ∧ 4095 < r.num16 (2 + 4 * i)
    (4 ≤ r.target.toNat → ∃ t, exec .loadStagePoints s = .next t ∧ s.OnlyAnswers r .badIndex t) ∧
    (∀ k : Fin 4, r.target.toNat = k.1 →
      (bad → ∃ t, exec .loadStagePoints s = .next t ∧ s.OnlyAnswers r .badValue t) ∧
      (¬ bad → (s.plant.barrier k).state = .active →
        ∃ t, exec .loadStagePoints s = .next t ∧ s.OnlyAnswers r .wrongState t) ∧
      (¬ bad → (s.plant.barrier k).state ≠ .active → ∃ t, exec .loadStagePoints s = .next t ∧ s.Answers r .done [] t ∧
        t.plant = s.plant.setTable k (t.plant.table k) ∧
        (t.plant.table k).count = (r.byte 1).toNat ∧ (t.plant.table k).verdict = .unchecked ∧
        (∀ i : Fin 16, (t.plant.table k).points.get i =
          if i.1 / 8 = (r.byte 0).toNat then ⟨r.num16 (2 + 4 * (i.1 % 8)), r.num16 (4 + 4 * (i.1 % 8))⟩
          else (s.plant.table k).points.get i)))

/-- LOAD_BARRIER: BAD_INDEX above 3, BAD_VALUE for fill floors outside 1..1000 or not in order or a wrong yes/no field,
WRONG_STATE for an ACTIVE barrier; otherwise the five settings are written, W and the surge hold clamped, the history spacing
following W; nothing else changes (R84). -/
def Obligations.LoadBarrierWritesSettings : Prop :=
  ∀ (s : State) (r : Request), s.Begins r 0x22 8 → s.mgmt.settings.inspecting = false →
    let bad : Prop := r.num16 2 < 1 ∨ 1000 < r.num16 2 ∨ r.num16 4 < 1 ∨ 1000 < r.num16 4 ∨ r.num16 4 < r.num16 2 ∨
      1 < (r.byte 7).toNat
    (4 ≤ r.target.toNat → ∃ t, exec .loadBarrier s = .next t ∧ s.OnlyAnswers r .badIndex t) ∧
    (∀ k : Fin 4, r.target.toNat = k.1 →
      (bad → ∃ t, exec .loadBarrier s = .next t ∧ s.OnlyAnswers r .badValue t) ∧
      (¬ bad → (s.plant.barrier k).state = .active → ∃ t, exec .loadBarrier s = .next t ∧ s.OnlyAnswers r .wrongState t) ∧
      (¬ bad → (s.plant.barrier k).state ≠ .active → ∃ t, exec .loadBarrier s = .next t ∧ s.Answers r .done [] t ∧
        t.plant = s.plant.setBarrier k { s.plant.barrier k with
          rateWindow := max 60 (min (r.num16 0) 3600), watchFill := r.num16 2, warnFill := r.num16 4,
          surgeHold := max 1 (min (r.byte 6).toNat 240), overtopBreach := decide ((r.byte 7).toNat = 1) } ∧
        (t.plant.barrier k).spacing = max 60 (min (r.num16 0) 3600) / 8))

/-- BARRIER_HOLD: BAD_INDEX above 3; LOADING is left as it is; UNLOADED becomes LOADING; an ACTIVE barrier becomes LOADING with
its estimate, history and flags kept, its evaluation work abandoned while the unit takes the next head, barrier k+1 re-offered
its last stage if barrier k was full, and a session on it ended with BARRIER_LEFT (R85, R93, R101, R102, R162). That the
villages come first and the session last is the model's inference (log entry 7). -/
def Obligations.BarrierHoldStopsBarrier : Prop :=
  ∀ (s : State) (r : Request), s.Begins r 0x23 0 → s.mgmt.settings.inspecting = false →
    (4 ≤ r.target.toNat → ∃ t, exec .barrierHold s = .next t ∧ s.OnlyAnswers r .badIndex t) ∧
    (∀ k : Fin 4, r.target.toNat = k.1 →
      let b := s.plant.barrier k
      ∃ (t : State) (told left offered : Plant),
      told = (s.plant.setBarrier k { b with state := .loading }).recomputeFor k ∧
      left = { told with
        evalQueue := (told.workWithout (.barrier k)).1, flight := (told.workWithout (.barrier k)).2 } ∧
      offered = (if b.estimate.map Estimate.fill = some 1000 then left.reofferedBelow k else left) ∧
      exec .barrierHold s = .next t ∧ s.Answers r .done [] t ∧
      s.plant.BarrierSideOnly t.plant ∧
      t.plant.barrier k = { b with state := .loading } ∧
      (∀ j, j ≠ k → t.plant.barrier j = { s.plant.barrier j with superseded := (t.plant.barrier j).superseded }) ∧
      (b.state = .loading → t.plant = s.plant) ∧
      (b.state = .unloaded → t.plant = told) ∧
      (b.state = .active →
        t.plant.evalState (.barrier k) = .idle ∧
        (s.plant.session.active = true → s.plant.session.barrier = some k →
          t.plant = offered.endSession .barrierLeft ∧
          t.plant.session = { s.plant.session with active := false, endReason := .barrierLeft,
                                                   endTime := some s.plant.now, timer := none }) ∧
        (s.plant.session.active = false ∨ s.plant.session.barrier ≠ some k →
          t.plant = offered ∧ t.plant.session = s.plant.session)))

/-- BARRIER_RUN: BAD_INDEX above 3; WRONG_STATE unless LOADING; in LOADING the table is checked and the verdict kept;
TABLE_INVALID without a VALID table or a LEVEL channel; otherwise the barrier is ACTIVE with its estimate, history and
OVERTOP cleared, its villages recomputed and its first vote run: with a stage, which is offered, the request waits for the
first completion, with none it is DONE (R74, R86, R87, R88, R92). -/
def Obligations.BarrierRunStartsBarrier : Prop :=
  ∀ (s : State) (r : Request), s.Begins r 0x24 0 → s.mgmt.settings.inspecting = false →
    (4 ≤ r.target.toNat → ∃ t, exec .barrierRun s = .next t ∧ s.OnlyAnswers r .badIndex t) ∧
    (∀ k : Fin 4, r.target.toNat = k.1 →
      let verdict := (s.plant.table k).checked
      let votes := (s.plant.channelsAt k .stage).filterMap fun c =>
        if (s.plant.channel c).real.valid then (s.plant.channel c).real.latest else none
      let checked := s.plant.setTable k { s.plant.table k with verdict := verdict }
      let started := checked.setBarrier k { s.plant.barrier k with
        state := .active, estimate := none, voteQuality := none, history := [], lastStage := none, overtop := false }
      ((s.plant.barrier k).state ≠ .loading → ∃ t, exec .barrierRun s = .next t ∧ s.OnlyAnswers r .wrongState t) ∧
      ((s.plant.barrier k).state = .loading →
        (verdict.crest?.isNone ∨ (s.plant.channelsAt k .stage).length = 0 →
          ∃ t, exec .barrierRun s = .next t ∧ s.Answers r .tableInvalid [] t ∧
            t.plant = s.plant.setTable k { s.plant.table k with verdict := verdict }) ∧
        (verdict.crest?.isSome → 1 ≤ (s.plant.channelsAt k .stage).length →
          ∃ t, exec .barrierRun s = .next t ∧ t.plant = (started.recomputeFor k).vote k ∧
            (t.plant.barrier k).state = .active ∧
            (t.plant.barrier k).estimate = none ∧ (t.plant.barrier k).history = [] ∧
            (t.plant.barrier k).overtop = false ∧ (t.plant.barrier k).wire = (s.plant.barrier k).wire ∧
            (t.plant.barrier k).surgeFlag = (s.plant.barrier k).surgeFlag ∧
            (t.plant.barrier k).surgeTimer = (s.plant.barrier k).surgeTimer ∧
            (t.plant.barrier k).validCount = votes.length ∧
            t.plant.table k = { s.plant.table k with verdict := verdict } ∧
            t.plant.stations = s.plant.stations ∧ t.plant.channels = s.plant.channels ∧
            (∀ j, j ≠ k → t.plant.barrier j = s.plant.barrier j ∧ t.plant.table j = s.plant.table j) ∧
            (votes = [] → s.Answers r .done [] t ∧ (t.plant.barrier k).lastStage = none) ∧
            (∀ stage, votes = [stage] ∨ (∃ a b, votes = [a, b] ∧ stage = max a b) ∨
                (∃ a b c, votes = [a, b, c] ∧ stage = max (min a b) (min (max a b) c)) →
              t = { s with plant := t.plant, mgmt := { s.mgmt with executing := some (.run k) } } ∧
              (t.plant.barrier k).lastStage = some stage ∧
              (t.plant.evalQueue, t.plant.flight) =
                ((started.offer (.barrier k) stage).evalQueue, (started.offer (.barrier k) stage).flight) ∧
              ((∃ e ∈ t.plant.evalQueue, e.owner = .barrier k ∧ e.stage = stage) ∨
                ∃ f, t.plant.flight = some f ∧ f.owner = .barrier k ∧ f.stage = stage)))))

/-! ### Villages (chapter 6) -/

/-- LOAD_VILLAGE, every outcome in order: BAD_INDEX above 7; BAD_VALUE for address 255 or the own one, and, with an address, for
one that another record holds, thresholds out of range or not rising, or a wrong ack mode or permit (R113). With line address 0
it is WRONG_STATE for a village in use announced above CLEAR, and otherwise clears a village in use with its dispatch record,
while an UNUSED one is left as it is (R115, R150). Accepted with an address it writes the settings with the clamped ones at the
nearer end of their range; a record in use keeps mask, route travels and latch, an UNUSED one starts with none of them and no
latch (R114); a change of line address or ack mode restarts the dispatch record before the one hand-on of the village, whose
real and exercise levels are both formed anew (R114, R128, R129, R150). Other villages and everything outside the village side
keep what they hold. The model's inferences: one hand-on after both recomputations (log entry 8), and no change at all for an
UNUSED record (log entry 19). -/
def Obligations.LoadVillageWritesSettings : Prop :=
  ∀ (s : State) (r : Request), s.Begins r 0x30 16 → s.mgmt.settings.inspecting = false →
    let refuses (o : ReqOutcome) : Prop := ∃ t, exec .loadVillage s = .next t ∧ s.OnlyAnswers r o t
    (8 ≤ r.target.toNat → refuses .badIndex) ∧
    (∀ v : Fin 8, r.target.toNat = v.1 →
      let addr := r.byte 0
      let old := s.plant.village v
      let foreign : Prop := addr = 255 ∨ addr = s.ownAddr
      let taken : Prop := (∃ w, w ≠ v ∧ (s.plant.village w).inUse = true ∧ (s.plant.village w).addr = addr) ∨
        ∃ i, (s.plant.station i).inUse = true ∧ (s.plant.station i).addr = addr
      let bad : Prop := taken ∨ ¬ (1 ≤ r.num16 1 ∧ r.num16 1 < r.num16 3 ∧ r.num16 3 < r.num16 5 ∧ r.num16 5 ≤ 1440) ∨
        1 < (r.byte 8).toNat ∨ 1 < (r.byte 15).toNat
      let warned : Prop := old.inUse = true ∧ (old.announced ≠ .clear ∨ old.exAnnounced ≠ .clear)
      (foreign → refuses .badValue) ∧
      (¬ foreign → addr = 0 → warned → refuses .wrongState) ∧
      (¬ foreign → addr = 0 → ¬ warned → ∃ t, exec .loadVillage s = .next t ∧ s.Answers r .done [] t ∧
        t.plant = if old.inUse = true then (s.plant.setVillage v Village.cleared).setDisp v Dispatch.cleared else s.plant) ∧
      (¬ foreign → addr ≠ 0 → bad → refuses .badValue) ∧
      (¬ foreign → addr ≠ 0 → ¬ bad →
        let mode : AckMode := if (r.byte 8).toNat = 0 then .confirmed else .unconfirmed
        let repeating := max 30 (min (r.num16 13) 900)
        let written : Village := { (if old.inUse = true then old else Village.cleared) with
          inUse := true, addr := addr, evac := r.num16 1, warn := r.num16 3, watch := r.num16 5,
          holdTime := max 1 (min (r.byte 7).toNat 240), ackMode := mode, ackTimeout := max 2 (min (r.byte 9).toNat 60),
          retryLimit := max 1 (min (r.byte 10).toNat 8), reachInterval := max 60 (min (r.num16 11) 1800),
          repeatInterval := repeating, permit := decide ((r.byte 15).toNat = 1) }
        let d := s.plant.disp v
        let emptied : Dispatch := { d with
          state := .quiet, openOffer := false, retry := 0, ackTimer := none, reachTimer := none, repeatTimer := none,
          unreachedSince := none, onLine := false, delivered := if old.addr = addr then d.delivered else ⟨.clear, false⟩,
          offered := if old.addr = addr then d.offered else none }
        let tested := emptied.dueTest s.plant.session.active s.plant.now
        let restarted : Dispatch :=
          if old.addr = addr ∧ old.ackMode = mode then d
          else if mode = .unconfirmed ∧ tested.state = .quiet ∧ tested.delivered.marked = false ∧ tested.delivered.level ≠ .clear
          then { tested with repeatTimer := some repeating }
          else tested
        ∃ t, exec .loadVillage s = .next t ∧ s.Answers r .done [] t ∧
          s.plant.VillageFormed t.plant v (old.inUse && old.latch) restarted ∧
          t.plant.village v = { Village.form s.plant.barrier written with
            exComputed := (t.plant.village v).exComputed, exAnnounced := (t.plant.village v).exAnnounced,
            exCause := (t.plant.village v).exCause, exAvailable := (t.plant.village v).exAvailable } ∧
          (t.plant.village v).AtExercise s.plant ∧
          (t.plant.village v).inUse = true ∧ (t.plant.village v).addr = addr ∧ (t.plant.village v).evac = r.num16 1 ∧
          (t.plant.village v).warn = r.num16 3 ∧ (t.plant.village v).watch = r.num16 5 ∧
          (t.plant.village v).holdTime = max 1 (min (r.byte 7).toNat 240) ∧
          ((t.plant.village v).ackMode = .confirmed ↔ (r.byte 8).toNat = 0) ∧
          (t.plant.village v).ackTimeout = max 2 (min (r.byte 9).toNat 60) ∧
          (t.plant.village v).retryLimit = max 1 (min (r.byte 10).toNat 8) ∧
          (t.plant.village v).reachInterval = max 60 (min (r.num16 11) 1800) ∧
          (t.plant.village v).repeatInterval = max 30 (min (r.num16 13) 900) ∧
          ((t.plant.village v).permit = true ↔ (r.byte 15).toNat = 1) ∧
          (t.plant.village v).mask = (if old.inUse then old.mask else ⟨false, false, false⟩) ∧
          (∀ k, ((t.plant.village v).routes.get k).map Route.travel =
            if old.inUse then (old.routes.get k).map Route.travel else none) ∧
          (old.inUse = true → old.latch = true → (t.plant.village v).latch = true) ∧
          (old.inUse = false → (t.plant.village v).latch = false ∧ (t.plant.village v).announced = .clear)))

/-- LOAD_ROUTE: BAD_INDEX for a village above 7 or a barrier above 3, WRONG_STATE for an UNUSED village, BAD_VALUE for a travel
above 1440 that is not "none"; otherwise the entry for the barrier is created, given its travel, or removed; other entries
keep their travels, and other villages what they hold (R116). "None" for an absent entry changes nothing. After any change the
village's real and exercise levels are formed anew, with its settings and mask kept and its latch kept or set by BREACH alone
(R116, R123, R127, R128, R129), and it is handed to the dispatcher (R136), once for both by the model's inference (log
entry 8). -/
def Obligations.LoadRouteWritesEntry : Prop :=
  ∀ (s : State) (r : Request), s.Begins r 0x31 3 → s.mgmt.settings.inspecting = false →
    (8 ≤ r.target.toNat ∨ 4 ≤ (r.byte 0).toNat → ∃ t, exec .loadRoute s = .next t ∧ s.OnlyAnswers r .badIndex t) ∧
    (∀ (v : Fin 8) (k : Fin 4), r.target.toNat = v.1 → (r.byte 0).toNat = k.1 →
      ((s.plant.village v).inUse = false → ∃ t, exec .loadRoute s = .next t ∧ s.OnlyAnswers r .wrongState t) ∧
      ((s.plant.village v).inUse = true →
        (1440 < r.num16 1 → r.num16 1 ≠ 65535 → ∃ t, exec .loadRoute s = .next t ∧ s.OnlyAnswers r .badValue t) ∧
        (r.num16 1 ≤ 1440 ∨ r.num16 1 = 65535 →
          ∃ t, exec .loadRoute s = .next t ∧ s.Answers r .done [] t ∧ s.plant.VillageSideOnly t.plant ∧
            ((t.plant.village v).routes.get k).map Route.travel = (if r.num16 1 = 65535 then none else some (r.num16 1)) ∧
            (∀ j, j ≠ k → ((t.plant.village v).routes.get j).map Route.travel =
              ((s.plant.village v).routes.get j).map Route.travel) ∧
            (∀ w, w ≠ v → t.plant.village w = s.plant.village w ∧ t.plant.disp w = s.plant.disp w) ∧
            (r.num16 1 = 65535 → (s.plant.village v).routes.get k = none → t.plant = s.plant) ∧
            (¬ (r.num16 1 = 65535 ∧ (s.plant.village v).routes.get k = none) →
              let vl := s.plant.village v
              let out := t.plant.village v
              let entry : Option Route := if r.num16 1 = 65535 then none else some
                (match vl.routes.get k with
                 | some q => { q with travel := r.num16 1 }
                 | none => { travel := r.num16 1, level := .clear, cause := .projection, available := 65535, fill := none,
                             held := .clear })
              s.plant.VillageFormed t.plant v vl.latch (s.plant.disp v) ∧
              out = { Village.form s.plant.barrier { vl with routes := vl.routes.set k.1 entry k.2 } with
                exComputed := out.exComputed, exAnnounced := out.exAnnounced, exCause := out.exCause,
                exAvailable := out.exAvailable } ∧
              out = { vl with
                routes := out.routes, computed := out.computed, decBarrier := out.decBarrier, decCause := out.decCause,
                decAvailable := out.decAvailable, decFill := out.decFill, announced := out.announced,
                holdTimer := out.holdTimer, latch := out.latch, exComputed := out.exComputed,
                exAnnounced := out.exAnnounced, exCause := out.exCause, exAvailable := out.exAvailable } ∧
              out.AtExercise s.plant))))

/-- MASK_VILLAGE: BAD_INDEX above 7, WRONG_STATE for an UNUSED village, BAD_VALUE for a mask that names CLEAR or BREACH;
otherwise the mask is written, the village recomputed and its levels and new mask handed to the dispatcher (R117, R127, R136).
RELEASE_BREACH: BAD_INDEX above 7, WRONG_STATE for an
UNUSED village, DONE without change while the latch is clear, WRONG_STATE while a barrier of its routes has a breach cause;
otherwise the latch is cleared, the announced level set to EVACUATE, the hold timer started, and the levels handed to the
dispatcher (R126). -/
def Obligations.MaskAndRelease : Prop :=
  ∀ (s : State) (r : Request), s.mgmt.settings.inspecting = false →
    let refuses (c : Instr) (o : ReqOutcome) : Prop := ∃ t, exec c s = .next t ∧ s.OnlyAnswers r o t
    (s.Begins r 0x32 1 →
      (8 ≤ r.target.toNat → refuses .maskVillage .badIndex) ∧
      (∀ v : Fin 8, r.target.toNat = v.1 →
        let vl := s.plant.village v
        let mask : Mask := ⟨(r.byte 0).getLsbD 1, (r.byte 0).getLsbD 2, (r.byte 0).getLsbD 3⟩
        (vl.inUse = false → refuses .maskVillage .wrongState) ∧
        (vl.inUse = true →
          ((r.byte 0).getLsbD 0 = true ∨ (r.byte 0).getLsbD 4 = true → refuses .maskVillage .badValue) ∧
          ((r.byte 0).getLsbD 0 = false → (r.byte 0).getLsbD 4 = false →
            ∃ t, exec .maskVillage s = .next t ∧ s.Answers r .done [] t ∧
              s.plant.VillageFormed t.plant v vl.latch (s.plant.disp v) ∧
              (t.plant.village v).mask = mask ∧
              t.plant.village v = Village.form s.plant.barrier { vl with mask := mask })))) ∧
    (s.Begins r 0x33 0 →
      (8 ≤ r.target.toNat → refuses .releaseBreach .badIndex) ∧
      (∀ v : Fin 8, r.target.toNat = v.1 →
        let vl := s.plant.village v
        let breached : Prop :=
          ∃ k, vl.routes.get k ≠ none ∧ ((s.plant.barrier k).wire = true ∨ (s.plant.barrier k).overtop = true)
        (vl.inUse = false → refuses .releaseBreach .wrongState) ∧
        (vl.inUse = true → vl.latch = false → refuses .releaseBreach .done) ∧
        (vl.inUse = true → vl.latch = true → breached → refuses .releaseBreach .wrongState) ∧
        (vl.inUse = true → vl.latch = true → ¬ breached →
          let released : Village := { vl with latch := false, announced := .evacuate, holdTimer := some (60 * vl.holdTime) }
          ∃ t, exec .releaseBreach s = .next t ∧ s.Answers r .done [] t ∧
            t.plant = (s.plant.setVillage v released).setDisp v
              ((s.plant.disp v).handOn s.plant.session.active s.plant.now
                ⟨.evacuate, vl.exAnnounced, vl.mask, vl.permit⟩))))

/-! ### Exercise sessions (chapter 8) -/

/-- EXERCISE_BEGIN: BAD_INDEX above 3; WRONG_STATE during a session or unless the barrier is ACTIVE, below the ceiling, with no
surge flag and no breach cause; otherwise the session record is written, the 48 patterns restarted, the exercise paths of
the barrier's LEVEL channels and the exercise estimate record cleared, and every real record kept; the permitted villages
routed to the barrier have their exercise levels formed, all CLEAR, and are handed to the dispatcher (R129, R159). The model's
inferences: the paths are cleared together and nothing is offered (log entry 9), and the exercise estimate record keeps its
superseded count (log entry 18). -/
def Obligations.ExerciseBegins : Prop :=
  ∀ (s : State) (r : Request), s.Begins r 0x40 0 → s.mgmt.settings.inspecting = false →
    (4 ≤ r.target.toNat → ∃ t, exec .exerciseBegin s = .next t ∧ s.OnlyAnswers r .badIndex t) ∧
    (∀ k : Fin 4, r.target.toNat = k.1 →
      let b := s.plant.barrier k
      let barred : Prop := s.plant.session.active = true ∨ b.state ≠ .active ∨
        (∃ e, b.estimate = some e ∧ s.mgmt.settings.ceiling ≤ e.fill) ∨ b.surgeFlag = true ∨ b.wire = true ∨ b.overtop = true
      (barred → ∃ t, exec .exerciseBegin s = .next t ∧ s.OnlyAnswers r .wrongState t) ∧
      (¬ barred → ∃ t, exec .exerciseBegin s = .next t ∧ s.Answers r .done [] t ∧
        t.plant = { s.plant with
          session := { s.plant.session with active := true, barrier := some k, start := some s.plant.now, endTime := none,
                                            timer := some (60 * s.mgmt.settings.duration) }
          patterns := t.plant.patterns, channels := t.plant.channels,
          exercise := { s.plant.exercise with estimate := none, history := [], validCount := 0, lastStage := none }
          villages := t.plant.villages, dispatch := t.plant.dispatch } ∧
        (∀ c, t.plant.pattern c = { s.plant.pattern c with
          ramp := (s.plant.pattern c).start, phaseB := false, gen := (s.plant.pattern c).seed, yields := 0 }) ∧
        (∀ c, t.plant.channel c = if (s.plant.channel c).at k .stage then { s.plant.channel c with exer := .cleared }
          else s.plant.channel c) ∧
        (∀ v,
          let vl := s.plant.village v
          let reached : Prop := vl.inUse = true ∧ vl.permit = true ∧ vl.routes.get k ≠ none
          (reached →
            t.plant.village v =
              { vl with exComputed := .clear, exAnnounced := .clear, exCause := .projection, exAvailable := 65535 } ∧
            t.plant.disp v = (s.plant.disp v).handOn true s.plant.now ⟨vl.announced, .clear, vl.mask, true⟩) ∧
          (¬ reached → t.plant.village v = vl ∧ t.plant.disp v = s.plant.disp v))))

/-- EXERCISE_SYNC: WRONG_STATE without a session; otherwise patterns, exercise paths and exercise estimate record start anew,
exercise evaluation work is abandoned while barrier entries stay and the unit takes the next head, the session record is
kept, and the permitted villages routed to the barrier fall to CLEAR exercise levels and are handed to the dispatcher (R93,
R102, R129, R161). EXERCISE_END ends a session with reason ENDED, and is DONE without change when there is none (R163,
R164). The model's inferences: the paths are cleared together, so no exercise entry waits after EXERCISE_SYNC (log entry 9),
and the exercise estimate record keeps its superseded count (log entry 18). -/
def Obligations.ExerciseSyncAndEnd : Prop :=
  ∀ (s : State) (r : Request), s.mgmt.settings.inspecting = false →
    (s.Begins r 0x41 0 →
      (s.plant.session.active = false → ∃ t, exec .exerciseSync s = .next t ∧ s.OnlyAnswers r .wrongState t) ∧
      (∀ k, s.plant.session.active = true → s.plant.session.barrier = some k →
        ∃ t, exec .exerciseSync s = .next t ∧ s.Answers r .done [] t ∧
          t.plant = { s.plant with
            patterns := t.plant.patterns, channels := t.plant.channels, evalQueue := t.plant.evalQueue,
            flight := t.plant.flight, villages := t.plant.villages, dispatch := t.plant.dispatch,
            exercise := { s.plant.exercise with estimate := none, history := [], validCount := 0, lastStage := none } } ∧
          (t.plant.evalQueue, t.plant.flight) = s.plant.workWithout .exercise ∧
          t.plant.evalState .exercise = .idle ∧
          (∀ c, t.plant.pattern c = { s.plant.pattern c with
            ramp := (s.plant.pattern c).start, phaseB := false, gen := (s.plant.pattern c).seed, yields := 0 }) ∧
          (∀ c, t.plant.channel c = if (s.plant.channel c).at k .stage then { s.plant.channel c with exer := .cleared }
            else s.plant.channel c) ∧
          (∀ v,
            let vl := s.plant.village v
            let reached : Prop := vl.inUse = true ∧ vl.permit = true ∧ vl.routes.get k ≠ none
            (reached →
              t.plant.village v =
                { vl with exComputed := .clear, exAnnounced := .clear, exCause := .projection, exAvailable := 65535 } ∧
              t.plant.disp v = (s.plant.disp v).handOn true s.plant.now ⟨vl.announced, .clear, vl.mask, true⟩) ∧
            (¬ reached → t.plant.village v = vl ∧ t.plant.disp v = s.plant.disp v)))) ∧
    (s.Begins r 0x42 0 →
      (s.plant.session.active = false → ∃ t, exec .exerciseEnd s = .next t ∧ s.OnlyAnswers r .done t) ∧
      (s.plant.session.active = true → ∃ t, exec .exerciseEnd s = .next t ∧ s.Answers r .done [] t ∧
        t.plant = s.plant.endSession .ended ∧
        t.plant.session = { s.plant.session with active := false, endReason := .ended, endTime := some s.plant.now,
                                                 timer := none } ∧
        (t.plant.evalQueue, t.plant.flight) = s.plant.workWithout .exercise ∧
        t.plant.evalState .exercise = .idle ∧ t.plant.exercise = s.plant.exercise ∧
        t.plant.channels = s.plant.channels ∧ t.plant.barriers = s.plant.barriers ∧
        (∀ v, (s.plant.village v).inUse = true →
          (t.plant.village v).exComputed = .clear ∧ (t.plant.village v).exAnnounced = .clear)))

/-! ### Invariants that every step keeps -/

/-- The part right after reset meets every invariant. The reset pins are the model's choice (log entry 1). -/
def Obligations.InvariantsHoldAtReset : Prop :=
  State.reset.plant.SlotsExclusive ∧ State.reset.plant.CapsKept ∧ State.reset.plant.SourcesMatch ∧
  State.reset.plant.LadderSound ∧ State.reset.Bounded ∧ State.reset.FramesGood ∧ State.reset.plant.EstimatorSound ∧
  State.reset.plant.AtWork

/-- At every moment a channel index appears in at most one slot of all station records together (R27), and no step gives a
barrier more channels of a kind than its cap (R46, R49). -/
def Obligations.SlotsAndCapsStayKept : Prop :=
  ∀ s t : State, step s = .next t →
    (s.plant.SlotsExclusive → t.plant.SlotsExclusive) ∧ (s.plant.CapsKept → t.plant.CapsKept)

/-- At every moment a channel's source is ELIGIBLE exactly when a station record in use maps it and is LIVE or LATE, and every
channel whose source is not is INVALID (R38, R59). -/
def Obligations.SourcesStayMatched : Prop :=
  ∀ s t : State, s.plant.SourcesMatch → step s = .next t → t.plant.SourcesMatch

/-- Every step keeps the ladder's facts: a latched village stands at BREACH with its hold timer stopped, BREACH is announced
under the latch alone, an unlatched village in use has its hold running, and an UNUSED record is cleared (R112, R123,
R124). -/
def Obligations.LadderStaysSound : Prop :=
  ∀ s t : State, s.plant.LadderSound → step s = .next t → t.plant.LadderSound

/-- Every queue and set stays within its capacity, with one evaluation entry per owner and one notice per kind (R16, R91, R168,
R172, R179). Every frame that waits or is being sent stays a good frame, and a frame in reception keeps its shape: what is
received is forwarded only with a matching check, and the part's own frames never exceed 48 payload bytes and carry a matching
check (R7, R9, R17, R22, R187). -/
def Obligations.QueuesStayBoundedAndFramesGood : Prop :=
  ∀ s t : State, step s = .next t → (s.Bounded → t.Bounded) ∧ (s.FramesGood → t.FramesGood)

/-- Every step keeps the estimator's facts: an ACTIVE barrier has a crest stage and a capacity, evaluation work is live, and a
session runs only on an ACTIVE barrier without surge flag and breach causes (R75, R102, R162); and the Evaluation Unit is
never idle while an entry waits (R93). -/
def Obligations.EstimatorStaysSound : Prop :=
  ∀ s t : State, step s = .next t →
    (s.plant.EstimatorSound → t.plant.EstimatorSound) ∧ (s.plant.AtWork → t.plant.AtWork)

/-- But for a full reset, a village's announced level falls only at the expiry of its own hold timer, by one step, and at a
RELEASE_BREACH from BREACH to EVACUATE; so no other command clears a breach latch (R123, R124, R125, R126). -/
def Obligations.AnnouncedFallsOneStepAtHoldExpiry : Prop :=
  ∀ (c : Instr) (s t : State) (v : Fin 8), s.plant.LadderSound → c.isFullReset = false → exec c s = .next t →
    (s.plant.village v).announced.code ≤ (t.plant.village v).announced.code ∨
    (c = .holdTimerExpiry v ∧ (s.plant.village v).holdTimer = some 0 ∧
      (t.plant.village v).announced = (s.plant.village v).announced.down) ∨
    (c = .releaseBreach ∧ (s.plant.village v).announced = .breach ∧ (t.plant.village v).announced = .evacuate)
end

