-- ==== Sys2Proof/Laws/State.lean ====
section
/-! SUPPORT. The small lemmas of the state's records: reading a record after a write, the fields a write leaves, timers, and
posting. -/

namespace Sys2Proof.Machine

/-! ### One lemma per field per write, and reading back -/

theorem get_set_self {α : Type} {n : Nat} (v : Vector α n) (i : Fin n) (r : α) : (v.set i.1 r i.2).get i = r :=
  Vector.getElem_set_self i.2

theorem get_set_of_ne {α : Type} {n : Nat} (v : Vector α n) {i j : Fin n} (h : j ≠ i) (r : α) :
    (v.set i.1 r i.2).get j = v.get j :=
  Vector.getElem_set_ne i.2 j.2 fun e => h (Fin.ext e.symm)

section writes

variable (p : Plant)

@[simp] theorem Plant.station_setStation (i : Fin 24) (r : Station) : (p.setStation i r).station i = r := get_set_self ..
theorem Plant.station_setStation_of_ne {i j : Fin 24} (h : j ≠ i) (r : Station) : (p.setStation i r).station j = p.station j :=
  get_set_of_ne _ h _
@[simp] theorem Plant.setStation_now (i r) : (p.setStation i r).now = p.now := rfl
@[simp] theorem Plant.setStation_channels (i r) : (p.setStation i r).channels = p.channels := rfl
@[simp] theorem Plant.setStation_channel (i r j) : (p.setStation i r).channel j = p.channel j := rfl
@[simp] theorem Plant.setStation_patterns (i r) : (p.setStation i r).patterns = p.patterns := rfl
@[simp] theorem Plant.setStation_pattern (i r j) : (p.setStation i r).pattern j = p.pattern j := rfl
@[simp] theorem Plant.setStation_tables (i r) : (p.setStation i r).tables = p.tables := rfl
@[simp] theorem Plant.setStation_table (i r j) : (p.setStation i r).table j = p.table j := rfl
@[simp] theorem Plant.setStation_barriers (i r) : (p.setStation i r).barriers = p.barriers := rfl
@[simp] theorem Plant.setStation_barrier (i r j) : (p.setStation i r).barrier j = p.barrier j := rfl
@[simp] theorem Plant.setStation_evalQueue (i r) : (p.setStation i r).evalQueue = p.evalQueue := rfl
@[simp] theorem Plant.setStation_flight (i r) : (p.setStation i r).flight = p.flight := rfl
@[simp] theorem Plant.setStation_exercise (i r) : (p.setStation i r).exercise = p.exercise := rfl
@[simp] theorem Plant.setStation_villages (i r) : (p.setStation i r).villages = p.villages := rfl
@[simp] theorem Plant.setStation_village (i r j) : (p.setStation i r).village j = p.village j := rfl
@[simp] theorem Plant.setStation_dispatch (i r) : (p.setStation i r).dispatch = p.dispatch := rfl
@[simp] theorem Plant.setStation_disp (i r j) : (p.setStation i r).disp j = p.disp j := rfl
@[simp] theorem Plant.setStation_session (i r) : (p.setStation i r).session = p.session := rfl
@[simp] theorem Plant.setStation_notices (i r) : (p.setStation i r).notices = p.notices := rfl

@[simp] theorem Plant.channel_setChannel (i : Fin 48) (r : Channel) : (p.setChannel i r).channel i = r := get_set_self ..
theorem Plant.channel_setChannel_of_ne {i j : Fin 48} (h : j ≠ i) (r : Channel) : (p.setChannel i r).channel j = p.channel j :=
  get_set_of_ne _ h _
@[simp] theorem Plant.setChannel_now (i r) : (p.setChannel i r).now = p.now := rfl
@[simp] theorem Plant.setChannel_stations (i r) : (p.setChannel i r).stations = p.stations := rfl
@[simp] theorem Plant.setChannel_station (i r j) : (p.setChannel i r).station j = p.station j := rfl
@[simp] theorem Plant.setChannel_patterns (i r) : (p.setChannel i r).patterns = p.patterns := rfl
@[simp] theorem Plant.setChannel_pattern (i r j) : (p.setChannel i r).pattern j = p.pattern j := rfl
@[simp] theorem Plant.setChannel_tables (i r) : (p.setChannel i r).tables = p.tables := rfl
@[simp] theorem Plant.setChannel_table (i r j) : (p.setChannel i r).table j = p.table j := rfl
@[simp] theorem Plant.setChannel_barriers (i r) : (p.setChannel i r).barriers = p.barriers := rfl
@[simp] theorem Plant.setChannel_barrier (i r j) : (p.setChannel i r).barrier j = p.barrier j := rfl
@[simp] theorem Plant.setChannel_evalQueue (i r) : (p.setChannel i r).evalQueue = p.evalQueue := rfl
@[simp] theorem Plant.setChannel_flight (i r) : (p.setChannel i r).flight = p.flight := rfl
@[simp] theorem Plant.setChannel_exercise (i r) : (p.setChannel i r).exercise = p.exercise := rfl
@[simp] theorem Plant.setChannel_villages (i r) : (p.setChannel i r).villages = p.villages := rfl
@[simp] theorem Plant.setChannel_village (i r j) : (p.setChannel i r).village j = p.village j := rfl
@[simp] theorem Plant.setChannel_dispatch (i r) : (p.setChannel i r).dispatch = p.dispatch := rfl
@[simp] theorem Plant.setChannel_disp (i r j) : (p.setChannel i r).disp j = p.disp j := rfl
@[simp] theorem Plant.setChannel_session (i r) : (p.setChannel i r).session = p.session := rfl
@[simp] theorem Plant.setChannel_notices (i r) : (p.setChannel i r).notices = p.notices := rfl

@[simp] theorem Plant.pattern_setPattern (i : Fin 48) (r : Pattern) : (p.setPattern i r).pattern i = r := get_set_self ..
theorem Plant.pattern_setPattern_of_ne {i j : Fin 48} (h : j ≠ i) (r : Pattern) : (p.setPattern i r).pattern j = p.pattern j :=
  get_set_of_ne _ h _
@[simp] theorem Plant.setPattern_now (i r) : (p.setPattern i r).now = p.now := rfl
@[simp] theorem Plant.setPattern_stations (i r) : (p.setPattern i r).stations = p.stations := rfl
@[simp] theorem Plant.setPattern_station (i r j) : (p.setPattern i r).station j = p.station j := rfl
@[simp] theorem Plant.setPattern_channels (i r) : (p.setPattern i r).channels = p.channels := rfl
@[simp] theorem Plant.setPattern_channel (i r j) : (p.setPattern i r).channel j = p.channel j := rfl
@[simp] theorem Plant.setPattern_tables (i r) : (p.setPattern i r).tables = p.tables := rfl
@[simp] theorem Plant.setPattern_table (i r j) : (p.setPattern i r).table j = p.table j := rfl
@[simp] theorem Plant.setPattern_barriers (i r) : (p.setPattern i r).barriers = p.barriers := rfl
@[simp] theorem Plant.setPattern_barrier (i r j) : (p.setPattern i r).barrier j = p.barrier j := rfl
@[simp] theorem Plant.setPattern_evalQueue (i r) : (p.setPattern i r).evalQueue = p.evalQueue := rfl
@[simp] theorem Plant.setPattern_flight (i r) : (p.setPattern i r).flight = p.flight := rfl
@[simp] theorem Plant.setPattern_exercise (i r) : (p.setPattern i r).exercise = p.exercise := rfl
@[simp] theorem Plant.setPattern_villages (i r) : (p.setPattern i r).villages = p.villages := rfl
@[simp] theorem Plant.setPattern_village (i r j) : (p.setPattern i r).village j = p.village j := rfl
@[simp] theorem Plant.setPattern_dispatch (i r) : (p.setPattern i r).dispatch = p.dispatch := rfl
@[simp] theorem Plant.setPattern_disp (i r j) : (p.setPattern i r).disp j = p.disp j := rfl
@[simp] theorem Plant.setPattern_session (i r) : (p.setPattern i r).session = p.session := rfl
@[simp] theorem Plant.setPattern_notices (i r) : (p.setPattern i r).notices = p.notices := rfl

@[simp] theorem Plant.table_setTable (i : Fin 4) (r : Table) : (p.setTable i r).table i = r := get_set_self ..
theorem Plant.table_setTable_of_ne {i j : Fin 4} (h : j ≠ i) (r : Table) : (p.setTable i r).table j = p.table j :=
  get_set_of_ne _ h _
@[simp] theorem Plant.setTable_now (i r) : (p.setTable i r).now = p.now := rfl
@[simp] theorem Plant.setTable_stations (i r) : (p.setTable i r).stations = p.stations := rfl
@[simp] theorem Plant.setTable_station (i r j) : (p.setTable i r).station j = p.station j := rfl
@[simp] theorem Plant.setTable_channels (i r) : (p.setTable i r).channels = p.channels := rfl
@[simp] theorem Plant.setTable_channel (i r j) : (p.setTable i r).channel j = p.channel j := rfl
@[simp] theorem Plant.setTable_patterns (i r) : (p.setTable i r).patterns = p.patterns := rfl
@[simp] theorem Plant.setTable_pattern (i r j) : (p.setTable i r).pattern j = p.pattern j := rfl
@[simp] theorem Plant.setTable_barriers (i r) : (p.setTable i r).barriers = p.barriers := rfl
@[simp] theorem Plant.setTable_barrier (i r j) : (p.setTable i r).barrier j = p.barrier j := rfl
@[simp] theorem Plant.setTable_evalQueue (i r) : (p.setTable i r).evalQueue = p.evalQueue := rfl
@[simp] theorem Plant.setTable_flight (i r) : (p.setTable i r).flight = p.flight := rfl
@[simp] theorem Plant.setTable_exercise (i r) : (p.setTable i r).exercise = p.exercise := rfl
@[simp] theorem Plant.setTable_villages (i r) : (p.setTable i r).villages = p.villages := rfl
@[simp] theorem Plant.setTable_village (i r j) : (p.setTable i r).village j = p.village j := rfl
@[simp] theorem Plant.setTable_dispatch (i r) : (p.setTable i r).dispatch = p.dispatch := rfl
@[simp] theorem Plant.setTable_disp (i r j) : (p.setTable i r).disp j = p.disp j := rfl
@[simp] theorem Plant.setTable_session (i r) : (p.setTable i r).session = p.session := rfl
@[simp] theorem Plant.setTable_notices (i r) : (p.setTable i r).notices = p.notices := rfl

@[simp] theorem Plant.barrier_setBarrier (i : Fin 4) (r : Barrier) : (p.setBarrier i r).barrier i = r := get_set_self ..
theorem Plant.barrier_setBarrier_of_ne {i j : Fin 4} (h : j ≠ i) (r : Barrier) : (p.setBarrier i r).barrier j = p.barrier j :=
  get_set_of_ne _ h _
@[simp] theorem Plant.setBarrier_now (i r) : (p.setBarrier i r).now = p.now := rfl
@[simp] theorem Plant.setBarrier_stations (i r) : (p.setBarrier i r).stations = p.stations := rfl
@[simp] theorem Plant.setBarrier_station (i r j) : (p.setBarrier i r).station j = p.station j := rfl
@[simp] theorem Plant.setBarrier_channels (i r) : (p.setBarrier i r).channels = p.channels := rfl
@[simp] theorem Plant.setBarrier_channel (i r j) : (p.setBarrier i r).channel j = p.channel j := rfl
@[simp] theorem Plant.setBarrier_patterns (i r) : (p.setBarrier i r).patterns = p.patterns := rfl
@[simp] theorem Plant.setBarrier_pattern (i r j) : (p.setBarrier i r).pattern j = p.pattern j := rfl
@[simp] theorem Plant.setBarrier_tables (i r) : (p.setBarrier i r).tables = p.tables := rfl
@[simp] theorem Plant.setBarrier_table (i r j) : (p.setBarrier i r).table j = p.table j := rfl
@[simp] theorem Plant.setBarrier_evalQueue (i r) : (p.setBarrier i r).evalQueue = p.evalQueue := rfl
@[simp] theorem Plant.setBarrier_flight (i r) : (p.setBarrier i r).flight = p.flight := rfl
@[simp] theorem Plant.setBarrier_exercise (i r) : (p.setBarrier i r).exercise = p.exercise := rfl
@[simp] theorem Plant.setBarrier_villages (i r) : (p.setBarrier i r).villages = p.villages := rfl
@[simp] theorem Plant.setBarrier_village (i r j) : (p.setBarrier i r).village j = p.village j := rfl
@[simp] theorem Plant.setBarrier_dispatch (i r) : (p.setBarrier i r).dispatch = p.dispatch := rfl
@[simp] theorem Plant.setBarrier_disp (i r j) : (p.setBarrier i r).disp j = p.disp j := rfl
@[simp] theorem Plant.setBarrier_session (i r) : (p.setBarrier i r).session = p.session := rfl
@[simp] theorem Plant.setBarrier_notices (i r) : (p.setBarrier i r).notices = p.notices := rfl

@[simp] theorem Plant.village_setVillage (i : Fin 8) (r : Village) : (p.setVillage i r).village i = r := get_set_self ..
theorem Plant.village_setVillage_of_ne {i j : Fin 8} (h : j ≠ i) (r : Village) : (p.setVillage i r).village j = p.village j :=
  get_set_of_ne _ h _
@[simp] theorem Plant.setVillage_now (i r) : (p.setVillage i r).now = p.now := rfl
@[simp] theorem Plant.setVillage_stations (i r) : (p.setVillage i r).stations = p.stations := rfl
@[simp] theorem Plant.setVillage_station (i r j) : (p.setVillage i r).station j = p.station j := rfl
@[simp] theorem Plant.setVillage_channels (i r) : (p.setVillage i r).channels = p.channels := rfl
@[simp] theorem Plant.setVillage_channel (i r j) : (p.setVillage i r).channel j = p.channel j := rfl
@[simp] theorem Plant.setVillage_patterns (i r) : (p.setVillage i r).patterns = p.patterns := rfl
@[simp] theorem Plant.setVillage_pattern (i r j) : (p.setVillage i r).pattern j = p.pattern j := rfl
@[simp] theorem Plant.setVillage_tables (i r) : (p.setVillage i r).tables = p.tables := rfl
@[simp] theorem Plant.setVillage_table (i r j) : (p.setVillage i r).table j = p.table j := rfl
@[simp] theorem Plant.setVillage_barriers (i r) : (p.setVillage i r).barriers = p.barriers := rfl
@[simp] theorem Plant.setVillage_barrier (i r j) : (p.setVillage i r).barrier j = p.barrier j := rfl
@[simp] theorem Plant.setVillage_evalQueue (i r) : (p.setVillage i r).evalQueue = p.evalQueue := rfl
@[simp] theorem Plant.setVillage_flight (i r) : (p.setVillage i r).flight = p.flight := rfl
@[simp] theorem Plant.setVillage_exercise (i r) : (p.setVillage i r).exercise = p.exercise := rfl
@[simp] theorem Plant.setVillage_dispatch (i r) : (p.setVillage i r).dispatch = p.dispatch := rfl
@[simp] theorem Plant.setVillage_disp (i r j) : (p.setVillage i r).disp j = p.disp j := rfl
@[simp] theorem Plant.setVillage_session (i r) : (p.setVillage i r).session = p.session := rfl
@[simp] theorem Plant.setVillage_notices (i r) : (p.setVillage i r).notices = p.notices := rfl

@[simp] theorem Plant.disp_setDisp (i : Fin 8) (r : Dispatch) : (p.setDisp i r).disp i = r := get_set_self ..
theorem Plant.disp_setDisp_of_ne {i j : Fin 8} (h : j ≠ i) (r : Dispatch) : (p.setDisp i r).disp j = p.disp j :=
  get_set_of_ne _ h _
@[simp] theorem Plant.setDisp_now (i r) : (p.setDisp i r).now = p.now := rfl
@[simp] theorem Plant.setDisp_stations (i r) : (p.setDisp i r).stations = p.stations := rfl
@[simp] theorem Plant.setDisp_station (i r j) : (p.setDisp i r).station j = p.station j := rfl
@[simp] theorem Plant.setDisp_channels (i r) : (p.setDisp i r).channels = p.channels := rfl
@[simp] theorem Plant.setDisp_channel (i r j) : (p.setDisp i r).channel j = p.channel j := rfl
@[simp] theorem Plant.setDisp_patterns (i r) : (p.setDisp i r).patterns = p.patterns := rfl
@[simp] theorem Plant.setDisp_pattern (i r j) : (p.setDisp i r).pattern j = p.pattern j := rfl
@[simp] theorem Plant.setDisp_tables (i r) : (p.setDisp i r).tables = p.tables := rfl
@[simp] theorem Plant.setDisp_table (i r j) : (p.setDisp i r).table j = p.table j := rfl
@[simp] theorem Plant.setDisp_barriers (i r) : (p.setDisp i r).barriers = p.barriers := rfl
@[simp] theorem Plant.setDisp_barrier (i r j) : (p.setDisp i r).barrier j = p.barrier j := rfl
@[simp] theorem Plant.setDisp_evalQueue (i r) : (p.setDisp i r).evalQueue = p.evalQueue := rfl
@[simp] theorem Plant.setDisp_flight (i r) : (p.setDisp i r).flight = p.flight := rfl
@[simp] theorem Plant.setDisp_exercise (i r) : (p.setDisp i r).exercise = p.exercise := rfl
@[simp] theorem Plant.setDisp_villages (i r) : (p.setDisp i r).villages = p.villages := rfl
@[simp] theorem Plant.setDisp_village (i r j) : (p.setDisp i r).village j = p.village j := rfl
@[simp] theorem Plant.setDisp_session (i r) : (p.setDisp i r).session = p.session := rfl
@[simp] theorem Plant.setDisp_notices (i r) : (p.setDisp i r).notices = p.notices := rfl

@[simp] theorem Plant.post_now (k a b) : (p.post k a b).now = p.now := rfl
@[simp] theorem Plant.post_stations (k a b) : (p.post k a b).stations = p.stations := rfl
@[simp] theorem Plant.post_station (k a b i) : (p.post k a b).station i = p.station i := rfl
@[simp] theorem Plant.post_channels (k a b) : (p.post k a b).channels = p.channels := rfl
@[simp] theorem Plant.post_channel (k a b i) : (p.post k a b).channel i = p.channel i := rfl
@[simp] theorem Plant.post_patterns (k a b) : (p.post k a b).patterns = p.patterns := rfl
@[simp] theorem Plant.post_pattern (k a b i) : (p.post k a b).pattern i = p.pattern i := rfl
@[simp] theorem Plant.post_tables (k a b) : (p.post k a b).tables = p.tables := rfl
@[simp] theorem Plant.post_table (k a b i) : (p.post k a b).table i = p.table i := rfl
@[simp] theorem Plant.post_barriers (k a b) : (p.post k a b).barriers = p.barriers := rfl
@[simp] theorem Plant.post_barrier (k a b i) : (p.post k a b).barrier i = p.barrier i := rfl
@[simp] theorem Plant.post_evalQueue (k a b) : (p.post k a b).evalQueue = p.evalQueue := rfl
@[simp] theorem Plant.post_flight (k a b) : (p.post k a b).flight = p.flight := rfl
@[simp] theorem Plant.post_exercise (k a b) : (p.post k a b).exercise = p.exercise := rfl
@[simp] theorem Plant.post_villages (k a b) : (p.post k a b).villages = p.villages := rfl
@[simp] theorem Plant.post_village (k a b i) : (p.post k a b).village i = p.village i := rfl
@[simp] theorem Plant.post_dispatch (k a b) : (p.post k a b).dispatch = p.dispatch := rfl
@[simp] theorem Plant.post_disp (k a b i) : (p.post k a b).disp i = p.disp i := rfl
@[simp] theorem Plant.post_session (k a b) : (p.post k a b).session = p.session := rfl

end writes

/-- A table of records is known by its records. -/
theorem Vector.ext_get {α : Type} {n : Nat} {u w : Vector α n} (h : ∀ i : Fin n, u.get i = w.get i) : u = w :=
  Vector.ext fun i hi => h ⟨i, hi⟩

@[simp] theorem mapAll_get {α β : Type} {n : Nat} (v : Vector α n) (f : α → β) (i : Fin n) :
    (mapAll v f).get i = f (v.get i) :=
  Vector.getElem_ofFn i.2

/-! ### Timers -/

@[simp] theorem Timer.due_iff (t : Timer) : Timer.due t = true ↔ t = some 0 := by simp [Timer.due]

theorem Timer.tick_none_iff (t : Timer) : Timer.tick t = none ↔ t = none := by simp [Timer.tick]

/-! ### The state -/

section state

variable (s : State)

@[simp] theorem State.onPlant_nresetLow (f) : (s.onPlant f).nresetLow = s.nresetLow := rfl
@[simp] theorem State.onPlant_straps (f) : (s.onPlant f).straps = s.straps := rfl
@[simp] theorem State.onPlant_line (f) : (s.onPlant f).line = s.line := rfl
@[simp] theorem State.onPlant_plant (f) : (s.onPlant f).plant = f s.plant := rfl
@[simp] theorem State.onPlant_mgmt (f) : (s.onPlant f).mgmt = s.mgmt := rfl
@[simp] theorem State.onPlant_pending (f) : (s.onPlant f).pending = s.pending := rfl
@[simp] theorem State.setPort_nresetLow (q r) : (s.setPort q r).nresetLow = s.nresetLow := rfl
@[simp] theorem State.setPort_straps (q r) : (s.setPort q r).straps = s.straps := rfl
@[simp] theorem State.setPort_line (q r) : (s.setPort q r).line = s.line.setPort q r := rfl
@[simp] theorem State.setPort_plant (q r) : (s.setPort q r).plant = s.plant := rfl
@[simp] theorem State.setPort_mgmt (q r) : (s.setPort q r).mgmt = s.mgmt := rfl
@[simp] theorem State.setPort_pending (q r) : (s.setPort q r).pending = s.pending := rfl

@[simp] theorem Line.port_setPort (l : Line) (q : Port) (r : PortRec) : (l.setPort q r).port q = r := by cases q <;> rfl
@[simp] theorem Line.setPort_ud (l : Line) (q : Port) (r : PortRec) : (l.setPort q r).ud = l.ud := by cases q <;> rfl
@[simp] theorem Line.setPort_du (l : Line) (q : Port) (r : PortRec) : (l.setPort q r).du = l.du := by cases q <;> rfl
@[simp] theorem Line.setPort_uTx (l : Line) (q : Port) (r : PortRec) : (l.setPort q r).uTx = l.uTx := by cases q <;> rfl
@[simp] theorem Line.setPort_dTx (l : Line) (q : Port) (r : PortRec) : (l.setPort q r).dTx = l.dTx := by cases q <;> rfl
@[simp] theorem Line.setPort_originSeq (l : Line) (q : Port) (r : PortRec) :
    (l.setPort q r).originSeq = l.originSeq := by cases q <;> rfl
@[simp] theorem Line.setPort_lastGrant (l : Line) (q : Port) (r : PortRec) :
    (l.setPort q r).lastGrant = l.lastGrant := by cases q <;> rfl
@[simp] theorem Line.setPort_self (l : Line) (q : Port) : l.setPort q (l.port q) = l := by cases q <;> rfl
@[simp] theorem Line.setPort_setPort (l : Line) (q : Port) (r r' : PortRec) :
    (l.setPort q r).setPort q r' = l.setPort q r' := by cases q <;> rfl

/-- Out of reset a command has its effect. -/
theorem State.running_of_out {s : State} (h : s.nresetLow = false) (effect : State → State) :
    s.running effect = effect s := by simp [State.running, h]

/-- Held in reset a command has no effect. -/
theorem State.running_of_held {s : State} (h : s.nresetLow = true) (effect : State → State) :
    s.running effect = s := by simp [State.running, h]

end state

end Sys2Proof.Machine
end

