-- ==== Sys2Proof/Laws/Frames.lean ====
section
/-! SUPPORT. What the operations of the plant leave unchanged: the three "only" relations of Safety.lean are preorders, and a
fold over records that touches one record at a time acts on each record once. -/

namespace Sys2Proof.Machine

/-! ### The relations as preorders, and what they keep -/

section relations

variable {p q r : Plant}

theorem Plant.VillageSideOnly.refl (p : Plant) : p.VillageSideOnly p := rfl

theorem Plant.VillageSideOnly.trans (h : p.VillageSideOnly q) (h' : q.VillageSideOnly r) : p.VillageSideOnly r := by
  rw [Plant.VillageSideOnly] at *; rw [h', h]

theorem Plant.BarrierSideOnly.refl (p : Plant) : p.BarrierSideOnly p := rfl

theorem Plant.BarrierSideOnly.trans (h : p.BarrierSideOnly q) (h' : q.BarrierSideOnly r) : p.BarrierSideOnly r := by
  rw [Plant.BarrierSideOnly] at *; rw [h', h]

theorem Plant.ChannelSideOnly.refl (p : Plant) : p.ChannelSideOnly p := rfl

theorem Plant.ChannelSideOnly.trans (h : p.ChannelSideOnly q) (h' : q.ChannelSideOnly r) : p.ChannelSideOnly r := by
  rw [Plant.ChannelSideOnly] at *; rw [h', h]

theorem Plant.VillageSideOnly.toBarrierSideOnly (h : p.VillageSideOnly q) : p.BarrierSideOnly q := by
  rw [Plant.VillageSideOnly] at h; rw [Plant.BarrierSideOnly, h]

theorem Plant.BarrierSideOnly.toChannelSideOnly (h : p.BarrierSideOnly q) : p.ChannelSideOnly q := by
  rw [Plant.BarrierSideOnly] at h; rw [Plant.ChannelSideOnly, h]

theorem Plant.VillageSideOnly.eq (h : p.VillageSideOnly q) :
    q = { p with villages := q.villages, dispatch := q.dispatch, notices := q.notices } := h

theorem Plant.BarrierSideOnly.eq (h : p.BarrierSideOnly q) :
    q = { p with barriers := q.barriers, evalQueue := q.evalQueue, flight := q.flight, exercise := q.exercise,
                 session := q.session, villages := q.villages, dispatch := q.dispatch, notices := q.notices } := h

theorem Plant.ChannelSideOnly.eq (h : p.ChannelSideOnly q) :
    q = { p with channels := q.channels, patterns := q.patterns, barriers := q.barriers, evalQueue := q.evalQueue,
                 flight := q.flight, exercise := q.exercise, session := q.session, villages := q.villages,
                 dispatch := q.dispatch, notices := q.notices } := h

theorem Plant.ChannelSideOnly.now (h : p.ChannelSideOnly q) : q.now = p.now := (congrArg Plant.now h.eq).trans rfl
theorem Plant.ChannelSideOnly.stations (h : p.ChannelSideOnly q) : q.stations = p.stations := (congrArg Plant.stations h.eq).trans rfl
theorem Plant.ChannelSideOnly.tables (h : p.ChannelSideOnly q) : q.tables = p.tables := (congrArg Plant.tables h.eq).trans rfl
theorem Plant.BarrierSideOnly.now (h : p.BarrierSideOnly q) : q.now = p.now := (congrArg Plant.now h.eq).trans rfl
theorem Plant.BarrierSideOnly.stations (h : p.BarrierSideOnly q) : q.stations = p.stations := (congrArg Plant.stations h.eq).trans rfl
theorem Plant.BarrierSideOnly.channels (h : p.BarrierSideOnly q) : q.channels = p.channels := (congrArg Plant.channels h.eq).trans rfl
theorem Plant.BarrierSideOnly.patterns (h : p.BarrierSideOnly q) : q.patterns = p.patterns := (congrArg Plant.patterns h.eq).trans rfl
theorem Plant.BarrierSideOnly.tables (h : p.BarrierSideOnly q) : q.tables = p.tables := (congrArg Plant.tables h.eq).trans rfl
theorem Plant.VillageSideOnly.now (h : p.VillageSideOnly q) : q.now = p.now := (congrArg Plant.now h.eq).trans rfl
theorem Plant.VillageSideOnly.stations (h : p.VillageSideOnly q) : q.stations = p.stations := (congrArg Plant.stations h.eq).trans rfl
theorem Plant.VillageSideOnly.channels (h : p.VillageSideOnly q) : q.channels = p.channels := (congrArg Plant.channels h.eq).trans rfl
theorem Plant.VillageSideOnly.patterns (h : p.VillageSideOnly q) : q.patterns = p.patterns := (congrArg Plant.patterns h.eq).trans rfl
theorem Plant.VillageSideOnly.tables (h : p.VillageSideOnly q) : q.tables = p.tables := (congrArg Plant.tables h.eq).trans rfl
theorem Plant.VillageSideOnly.barriers (h : p.VillageSideOnly q) : q.barriers = p.barriers := (congrArg Plant.barriers h.eq).trans rfl
theorem Plant.VillageSideOnly.evalQueue (h : p.VillageSideOnly q) : q.evalQueue = p.evalQueue :=
  (congrArg Plant.evalQueue h.eq).trans rfl
theorem Plant.VillageSideOnly.flight (h : p.VillageSideOnly q) : q.flight = p.flight := (congrArg Plant.flight h.eq).trans rfl
theorem Plant.VillageSideOnly.exercise (h : p.VillageSideOnly q) : q.exercise = p.exercise := (congrArg Plant.exercise h.eq).trans rfl
theorem Plant.VillageSideOnly.session (h : p.VillageSideOnly q) : q.session = p.session := (congrArg Plant.session h.eq).trans rfl

theorem Plant.VillageSideOnly.barrier (h : p.VillageSideOnly q) : q.barrier = p.barrier := by
  funext k; simp [Plant.barrier, h.barriers]
theorem Plant.VillageSideOnly.exerciseBasis (h : p.VillageSideOnly q) : q.exerciseBasis = p.exerciseBasis := by
  simp [Plant.exerciseBasis, h.session, h.exercise, h.barrier]
theorem Plant.BarrierSideOnly.channel (h : p.BarrierSideOnly q) : q.channel = p.channel := by
  funext k; simp [Plant.channel, h.channels]
theorem Plant.BarrierSideOnly.table (h : p.BarrierSideOnly q) : q.table = p.table := by
  funext k; simp [Plant.table, h.tables]
theorem Plant.ChannelSideOnly.station (h : p.ChannelSideOnly q) : q.station = p.station := by
  funext k; simp [Plant.station, h.stations]
theorem Plant.ChannelSideOnly.table (h : p.ChannelSideOnly q) : q.table = p.table := by
  funext k; simp [Plant.table, h.tables]

end relations

/-! ### Folds -/

/-- A fold whose step keeps a relation to the start keeps it. -/
theorem foldl_keeps {α : Type} {f : Plant → α → Plant} {R : Plant → Prop} (h : ∀ q a, R q → R (f q a)) (l : List α) :
    ∀ p, R p → R (l.foldl f p) := by
  induction l with
  | nil => exact fun _ hp => hp
  | cons a l ih => exact fun p hp => ih _ (h p a hp)

/-- A fold whose step at `v` acts on record `v` alone acts once on each record the list names, and on no other. -/
theorem foldl_each {α : Type} {n : Nat} {f : Plant → Fin n → Plant} {get : Plant → Fin n → α} {g : Fin n → α → α}
    {R : Plant → Prop} (keep : ∀ q v, R q → R (f q v)) (own : ∀ q v, R q → get (f q v) v = g v (get q v))
    (other : ∀ q v w, R q → w ≠ v → get (f q v) w = get q w) (l : List (Fin n)) :
    l.Nodup → ∀ p, R p → ∀ w, get (l.foldl f p) w = if w ∈ l then g w (get p w) else get p w := by
  induction l with
  | nil => simp
  | cons v l ih =>
    intro hl p hp w
    obtain ⟨hv, hl⟩ := List.nodup_cons.1 hl
    rw [List.foldl_cons, ih hl _ (keep p v hp)]
    by_cases hwv : w = v
    · subst hwv; simp [hv, own p w hp]
    · simp [hwv, other p v w hp hwv]

/-! ### Posting -/

theorem postInto_cases (now : Nat) (kind : NoticeKind) (subject value : Nat) (set : List Notice) :
    ((set.map Notice.kind).Nodup → ((postInto now kind subject value set).map Notice.kind).Nodup) ∧
    ((∀ n ∈ set, 1 ≤ n.count ∧ n.count ≤ 255) → ∀ n ∈ postInto now kind subject value set, 1 ≤ n.count ∧ n.count ≤ 255) ∧
    ∃ n ∈ postInto now kind subject value set, n.kind = kind ∧ n.subject = subject ∧ n.value = value := by
  unfold postInto
  split
  case isTrue h =>
    refine ⟨fun hs => ?_, fun hs n hn => ?_, ?_⟩
    · have : (set.map fun n => if n.kind == kind then
          { n with subject := subject, value := value, count := min (n.count + 1) Config.noticeCountMax } else n).map
            Notice.kind = set.map Notice.kind := by
        rw [List.map_map]; apply List.map_congr_left; intro n _; by_cases hk : n.kind = kind <;> simp [hk]
      rw [this]; exact hs
    · obtain ⟨m, hm, rfl⟩ := List.mem_map.1 hn
      have := hs m hm
      by_cases hk : m.kind = kind
      · simp [hk, Config.noticeCountMax]
      · simpa [hk] using this
    · obtain ⟨m, hm, hk⟩ := List.any_eq_true.1 h
      refine ⟨_, List.mem_map.2 ⟨m, hm, rfl⟩, ?_⟩
      have hk : m.kind = kind := by simpa using hk
      simp [hk]
  case isFalse h =>
    refine ⟨fun hs => ?_, fun hs n hn => ?_, ?_⟩
    · simp only [List.map_append, List.map_cons, List.map_nil]
      refine List.nodup_append.2 ⟨hs, by simp, ?_⟩
      intro a ha b hb hab
      obtain ⟨m, hm, rfl⟩ := List.mem_map.1 ha
      exact h (List.any_eq_true.2 ⟨m, hm, by simp_all⟩)
    · rcases List.mem_append.1 hn with hn | hn
      · exact hs n hn
      · obtain rfl := List.mem_singleton.1 hn; simp
    · exact ⟨_, List.mem_append_right _ (List.mem_singleton.2 rfl), rfl, rfl, rfl⟩

/-- The notice set holds at most one entry per kind, with counts 1..255 (R179). -/
def Plant.NoticesGood (p : Plant) : Prop :=
  (p.notices.map Notice.kind).Nodup ∧ ∀ n ∈ p.notices, 1 ≤ n.count ∧ n.count ≤ 255

theorem Plant.NoticesGood.post {p : Plant} (h : p.NoticesGood) (kind : NoticeKind) (subject value : Nat) :
    (p.post kind subject value).NoticesGood :=
  have c := postInto_cases p.now kind subject value p.notices
  ⟨c.1 h.1, c.2.1 h.2⟩

theorem Plant.post_mem (p : Plant) (kind : NoticeKind) (subject value : Nat) :
    ∃ n ∈ (p.post kind subject value).notices, n.kind = kind ∧ n.subject = subject ∧ n.value = value :=
  (postInto_cases p.now kind subject value p.notices).2.2

theorem Plant.post_only (p : Plant) (kind : NoticeKind) (subject value : Nat) :
    p.VillageSideOnly (p.post kind subject value) := rfl

end Sys2Proof.Machine
end

