-- ==== Sys2Proof/Laws/Ladder.lean ====
section
/-! SUPPORT. What the Village Alert Ladder's operations do: forming a village, recomputing one village or all villages of a
barrier, and the standing facts of the ladder. -/

namespace Sys2Proof.Machine

/-! ### One village -/

/-- Two village records differ at most in what a real recomputation writes. -/
def Village.RealOnly (a b : Village) : Prop :=
  b = { a with routes := b.routes, computed := b.computed, decBarrier := b.decBarrier, decCause := b.decCause,
               decAvailable := b.decAvailable, decFill := b.decFill, announced := b.announced, holdTimer := b.holdTimer,
               latch := b.latch }

/-- Two village records differ at most in the exercise levels. -/
def Village.ExerciseOnly (a b : Village) : Prop :=
  b = { a with exComputed := b.exComputed, exAnnounced := b.exAnnounced, exCause := b.exCause,
               exAvailable := b.exAvailable }

theorem Village.announce_eq (vl : Village) :
    vl.announce = { vl with announced := vl.announce.announced, holdTimer := vl.announce.holdTimer } := by
  unfold Village.announce; split_ifs <;> rfl

theorem Village.latchBreach_eq (vl : Village) :
    vl.latchBreach = { vl with latch := vl.latchBreach.latch, holdTimer := vl.latchBreach.holdTimer } := by
  unfold Village.latchBreach; split_ifs <;> rfl

theorem Village.judge_eq (vl : Village) :
    vl.judge = { vl with computed := vl.judge.computed, decBarrier := vl.judge.decBarrier, decCause := vl.judge.decCause,
                         decAvailable := vl.judge.decAvailable, decFill := vl.judge.decFill } := by
  unfold Village.judge; split <;> rfl

/-- The entries of a village formed from the barriers. -/
def Village.withEntries (vl : Village) (barrier : Fin 4 → Barrier) : Village :=
  { vl with routes := Vector.ofFn fun k => (vl.routes.get k).map fun r => r.form (barrier k) vl }

theorem Village.form_def (vl : Village) (barrier : Fin 4 → Barrier) :
    vl.form barrier = (vl.withEntries barrier).judge.latchBreach.announce := rfl

theorem Village.form_realOnly (vl : Village) (barrier : Fin 4 → Barrier) : vl.RealOnly (vl.form barrier) := by
  rw [Village.RealOnly, Village.form_def, Village.announce_eq, Village.latchBreach_eq, Village.judge_eq]
  rfl

theorem Village.RealOnly.eq {a b : Village} (h : a.RealOnly b) :
    b = { a with routes := b.routes, computed := b.computed, decBarrier := b.decBarrier, decCause := b.decCause,
                 decAvailable := b.decAvailable, decFill := b.decFill, announced := b.announced, holdTimer := b.holdTimer,
                 latch := b.latch } := h

theorem Village.form_routes (vl : Village) (barrier : Fin 4 → Barrier) (k : Fin 4) :
    (vl.form barrier).routes.get k = (vl.routes.get k).map fun r => r.form (barrier k) vl := by
  have : (vl.form barrier).routes = (vl.withEntries barrier).routes := by
    rw [Village.form_def, Village.announce_eq, Village.latchBreach_eq, Village.judge_eq]
  rw [this]; exact Vector.getElem_ofFn k.2

theorem Route.form_travel (b : Barrier) (vl : Village) (r : Route) : (r.form b vl).travel = r.travel := by
  unfold Route.form; split <;> rfl

theorem Village.formExercise_exerciseOnly (vl : Village) (basis) : vl.ExerciseOnly (vl.formExercise basis) := rfl

/-- The announced level after a recomputation (R124): it does not fall while the hold timer runs, and falls by one step. -/
theorem Village.announce_cases (vl : Village) :
    (vl.latch = true ∧ vl.announce.announced = .breach ∧ vl.announce.holdTimer = none) ∨
    (vl.latch = false ∧ vl.announce.holdTimer.isSome = true ∧
      ((vl.announce.announced = vl.computed ∧ vl.announced.code ≤ vl.computed.code) ∨
       (vl.announce.announced = vl.announced ∧ vl.holdTimer.isSome = true) ∨
       (vl.announce.announced = vl.announced.down ∧ vl.holdTimer = none))) := by
  unfold Village.announce
  split_ifs with h1 h2 h3 h4
  · exact .inl ⟨h1, rfl, rfl⟩
  · exact .inr ⟨by simpa using h1, rfl, .inl ⟨rfl, h2.le⟩⟩
  · exact .inr ⟨by simpa using h1, rfl, .inl ⟨h3.symm, by rw [h3]⟩⟩
  · exact .inr ⟨by simpa using h1, h4, .inr (.inl ⟨rfl, h4⟩)⟩
  · exact .inr ⟨by simpa using h1, rfl, .inr (.inr ⟨rfl, by simpa [Timer.running] using h4⟩)⟩

theorem Level.code_le_breach (l : Level) : l.code ≤ Level.breach.code := by cases l <;> decide
theorem Level.down_ne_breach (l : Level) : l.down ≠ .breach := by cases l <;> decide
theorem Level.code_injective {a b : Level} (h : a.code = b.code) : a = b := by
  cases a <;> cases b <;> first | rfl | (exact absurd h (by decide))

/-- Forming a village in use gives a sound record, if BREACH was announced exactly under the latch. -/
theorem Village.form_sound (vl : Village) (barrier : Fin 4 → Barrier) (use : vl.inUse = true)
    (latched : vl.latch = true ↔ vl.announced = .breach) : (vl.form barrier).Sound := by
  have hj := (vl.withEntries barrier).judge_eq
  generalize hw : (vl.withEntries barrier).judge = w at hj
  have wl : w.latch = vl.latch := by rw [hj]; rfl
  have wa : w.announced = vl.announced := by rw [hj]; rfl
  have wu : w.inUse = true := by rw [hj]; exact use
  have hx : (w.latchBreach.latch = false → w.latch = false ∧ w.computed ≠ .breach) ∧
      w.latchBreach.announced = w.announced ∧ w.latchBreach.computed = w.computed := by
    unfold Village.latchBreach; split_ifs with h
    · exact ⟨fun hf => absurd hf (by simp), rfl, rfl⟩
    · refine ⟨fun hf => ⟨hf, fun hc => h ⟨hc, hf⟩⟩, rfl, rfl⟩
  have hf : vl.form barrier = w.latchBreach.announce := by rw [Village.form_def, hw]
  have hu : (vl.form barrier).inUse = true := by
    rw [hf, Village.announce_eq, Village.latchBreach_eq]; exact wu
  have hl : (vl.form barrier).latch = w.latchBreach.latch := by rw [hf, Village.announce_eq]
  rcases w.latchBreach.announce_cases with ⟨h, ha, ht⟩ | ⟨h, ht, hc⟩
  · rw [← hf] at ha ht
    exact ⟨fun n => by simp [hu] at n, by simp [hl, h, ha], fun _ => ht, fun _ hn => by simp [hl, h] at hn⟩
  · rw [← hf] at ht hc
    obtain ⟨h1, h2⟩ := hx.1 h
    refine ⟨fun n => by simp [hu] at n, ?_, fun hn => by simp [hl, h] at hn, fun _ _ => ht⟩
    have nb : vl.announced ≠ .breach := fun e => by simp [← latched, ← wl, h1] at e
    rw [hl, h]
    simp only [Bool.false_eq_true, false_iff]
    rcases hc with ⟨e, _⟩ | ⟨e, _⟩ | ⟨e, _⟩
    · rw [e, hx.2.2]; exact h2
    · rw [e, hx.2.1, wa]; exact nb
    · rw [e]; exact Level.down_ne_breach _

/-- Forming a village lowers its announced level only from a stopped hold timer, and then by one step. -/
theorem Village.form_announced (vl : Village) (barrier : Fin 4 → Barrier) :
    vl.announced.code ≤ (vl.form barrier).announced.code ∨
      (vl.holdTimer = none ∧ (vl.form barrier).announced = vl.announced.down) ∨
      (vl.latch = false ∧ (vl.form barrier).latch = true) := by
  have hj := (vl.withEntries barrier).judge_eq
  generalize hw : (vl.withEntries barrier).judge = w at hj
  have wa : w.announced = vl.announced := by rw [hj]; rfl
  have wt : w.holdTimer = vl.holdTimer := by rw [hj]; rfl
  have hf : vl.form barrier = w.latchBreach.announce := by rw [Village.form_def, hw]
  have la : w.latchBreach.announced = w.announced := by unfold Village.latchBreach; split_ifs <;> rfl
  rcases w.latchBreach.announce_cases with ⟨_, ha, _⟩ | ⟨h, _, hc⟩
  · left; rw [hf, ha]; exact Level.code_le_breach _
  · rcases hc with ⟨e, hle⟩ | ⟨e, _⟩ | ⟨e, ht⟩
    · left; rw [hf, e]; rw [la, wa] at hle; exact hle
    · left; rw [hf, e, la, wa]
    · right; left
      have : w.latchBreach.holdTimer = w.holdTimer := by
        unfold Village.latchBreach at h ⊢; split_ifs with hi
        · rw [if_pos hi] at h; simp at h
        · rfl
      rw [hf, e, la, wa]; exact ⟨by rw [← wt, ← this, ht], rfl⟩

/-- A sound village in use stays sound when it is formed, and its announced level does not fall. -/
theorem Village.form_up (vl : Village) (barrier : Fin 4 → Barrier) (use : vl.inUse = true) (h : vl.Sound) :
    (vl.form barrier).Sound ∧ vl.announced.code ≤ (vl.form barrier).announced.code := by
  have hs := vl.form_sound barrier use h.latched
  refine ⟨hs, ?_⟩
  rcases vl.form_announced barrier with e | ⟨ht, e⟩ | ⟨_, e⟩
  · exact e
  · cases hl : vl.latch
    · have := h.holding use hl; simp [ht] at this
    · rw [h.latched.1 hl] at e ⊢
      have : vl.announced = .breach := h.latched.1 hl
      have := vl.form_realOnly barrier
      exfalso
      have hk : (vl.form barrier).latch = true := by
        rw [Village.form_def, Village.announce_eq]
        unfold Village.latchBreach
        split_ifs
        · rfl
        · rw [Village.judge_eq]; exact hl
      have := hs.latched.1 hk
      rw [this] at e; exact absurd e (by decide)
  · rw [hs.latched.1 e]; exact Level.code_le_breach _

/-- Forming the exercise levels of a village in use keeps it sound and its announced level. -/
theorem Village.formExercise_sound (vl : Village) (basis) (use : vl.inUse = true) (h : vl.Sound) :
    (vl.formExercise basis).Sound ∧ (vl.formExercise basis).announced = vl.announced :=
  ⟨⟨fun n => by simp [Village.formExercise, use] at n, h.latched, h.stopped, h.holding⟩, rfl⟩

/-! ### The plant -/

/-- The ladder's facts stay, and no announced level falls. -/
def Plant.LadderUp (p q : Plant) : Prop :=
  p.LadderSound → q.LadderSound ∧ ∀ v, (p.village v).announced.code ≤ (q.village v).announced.code

theorem Plant.LadderUp.refl (p : Plant) : p.LadderUp p := fun h => ⟨h, fun _ => le_rfl⟩

theorem Plant.LadderUp.trans {p q r : Plant} (h : p.LadderUp q) (h' : q.LadderUp r) : p.LadderUp r := fun hp =>
  have hq := h hp
  have hr := h' hq.1
  ⟨hr.1, fun v => (hq.2 v).trans (hr.2 v)⟩

theorem Plant.LadderUp.of_villages {p q : Plant} (h : q.villages = p.villages) : p.LadderUp q := fun hp => by
  have e : q.village = p.village := by funext v; simp [Plant.village, h]
  exact ⟨fun v => by rw [e]; exact hp v, fun v => by rw [e]⟩

/-- One village rewritten by a record that is sound and does not stand lower. -/
theorem Plant.LadderUp.setVillage {p : Plant} {v : Fin 8} {r : Village}
    (h : (p.village v).Sound → r.Sound ∧ (p.village v).announced.code ≤ r.announced.code) : p.LadderUp (p.setVillage v r) :=
  fun hp => by
    refine ⟨fun w => ?_, fun w => ?_⟩ <;> by_cases hw : w = v
    · subst hw; simpa using (h (hp w)).1
    · rw [Plant.village_setVillage_of_ne _ hw]; exact hp w
    · subst hw; simpa using (h (hp w)).2
    · rw [Plant.village_setVillage_of_ne _ hw]

/-- What a step on the village side does: the frame, the ladder's facts, and the notice set's. -/
structure Plant.VillageStep (p q : Plant) : Prop where
  only : p.VillageSideOnly q
  ladder : p.LadderUp q
  notices : p.NoticesGood → q.NoticesGood

theorem Plant.VillageStep.refl (p : Plant) : p.VillageStep p := ⟨.refl p, .refl p, id⟩

theorem Plant.VillageStep.trans {p q r : Plant} (h : p.VillageStep q) (h' : q.VillageStep r) : p.VillageStep r :=
  ⟨h.only.trans h'.only, h.ladder.trans h'.ladder, fun n => h'.notices (h.notices n)⟩

theorem Plant.VillageStep.foldl {α : Type} {f : Plant → α → Plant} (h : ∀ (q : Plant) (a : α), q.VillageStep (f q a)) (l : List α)
    (p : Plant) : p.VillageStep (l.foldl f p) :=
  foldl_keeps (R := p.VillageStep) (fun q a hq => hq.trans (h q a)) l p (.refl p)

theorem Plant.post_step (p : Plant) (kind : NoticeKind) (subject value : Nat) :
    p.VillageStep (p.post kind subject value) :=
  ⟨rfl, .of_villages rfl, fun h => h.post kind subject value⟩

theorem Plant.setDisp_step (p : Plant) (v : Fin 8) (d : Dispatch) : p.VillageStep (p.setDisp v d) :=
  ⟨rfl, .of_villages rfl, id⟩

theorem Plant.updateDisp_step (p : Plant) (v : Fin 8) (f) : p.VillageStep (p.updateDisp v f) := p.setDisp_step v _

theorem Plant.handOn_step (p : Plant) (v : Fin 8) : p.VillageStep (p.handOn v) := p.setDisp_step v _

@[simp] theorem Plant.handOn_village (p : Plant) (v w : Fin 8) : (p.handOn v).village w = p.village w := rfl
@[simp] theorem Plant.handOn_notices (p : Plant) (v : Fin 8) : (p.handOn v).notices = p.notices := rfl

theorem Plant.handOn_disp_of_ne (p : Plant) {v w : Fin 8} (h : w ≠ v) : (p.handOn v).disp w = p.disp w :=
  Plant.disp_setDisp_of_ne p h _

/-- Forming one village: the village's record, and BREACH_RAISED if its latch was set by it. -/
theorem Plant.formVillage_spec (p : Plant) (v : Fin 8) :
    p.VillageSideOnly (p.formVillage v) ∧ (p.formVillage v).dispatch = p.dispatch ∧
    (p.formVillage v).village v = (p.village v).form p.barrier ∧
    (∀ w, w ≠ v → (p.formVillage v).village w = p.village w) ∧ (p.NoticesGood → (p.formVillage v).NoticesGood) := by
  simp only [Plant.formVillage]
  split_ifs
  · exact ⟨rfl, rfl, p.village_setVillage v _, fun w hw => p.village_setVillage_of_ne hw _,
      fun h => Plant.NoticesGood.post (p := p.setVillage v _) h _ _ _⟩
  · exact ⟨rfl, rfl, p.village_setVillage v _, fun w hw => p.village_setVillage_of_ne hw _, id⟩

/-- A computed level above CLEAR has a deciding barrier (R122). -/
theorem Village.form_decBarrier (vl : Village) (barrier : Fin 4 → Barrier) (h : (vl.form barrier).computed ≠ .clear) :
    ∃ k, (vl.form barrier).decBarrier = some k := by
  rw [Village.form_def, Village.announce_eq, Village.latchBreach_eq] at h ⊢
  unfold Village.judge at h ⊢
  cases hd : decidingEntry (vl.withEntries barrier).entries with
  | none => rw [hd] at h; exact absurd rfl h
  | some e => exact ⟨e.1, rfl⟩

/-- The latch after forming a village: set as it was, or by a computed level of BREACH (R123). -/
theorem Village.form_latch (vl : Village) (barrier : Fin 4 → Barrier) :
    (vl.form barrier).latch = (vl.latch || (vl.form barrier).computed == .breach) := by
  have hj := (vl.withEntries barrier).judge_eq
  rw [Village.form_def, Village.announce_eq, Village.latchBreach_eq]
  generalize (vl.withEntries barrier).judge = w at hj
  have wl : w.latch = vl.latch := by rw [hj]; rfl
  show w.latchBreach.latch = (vl.latch || w.computed == .breach)
  rw [← wl]
  unfold Village.latchBreach
  split_ifs with h
  · simp [h.1]
  · cases hl : w.latch
    · simp only [hl, and_true] at h; simp [h]
    · rfl

/-- What forming one village posts (R123). -/
theorem Plant.formVillage_notices (p : Plant) (v : Fin 8) :
    (p.formVillage v).notices =
      if (p.village v).latch = false ∧ ((p.village v).form p.barrier).latch = true then
        postInto p.now .breachRaised v.1 ((((p.village v).form p.barrier).decBarrier.map Fin.val).getD 255) p.notices
      else p.notices := by
  simp only [Plant.formVillage]
  by_cases h : (p.village v).latch = false ∧ ((p.village v).form p.barrier).latch = true
  · rw [if_pos h, if_pos (by simp [h.1, h.2])]; rfl
  · rw [if_neg h, if_neg]
    · rfl
    · simpa [and_comm] using h

theorem Plant.formVillage_step (p : Plant) (v : Fin 8) (use : (p.village v).inUse = true) :
    p.VillageStep (p.formVillage v) := by
  obtain ⟨h1, _, h3, h4, h5⟩ := p.formVillage_spec v
  refine ⟨h1, fun hp => ⟨fun w => ?_, fun w => ?_⟩, h5⟩ <;> by_cases hw : w = v
  · subst hw; rw [h3]; exact ((p.village w).form_up p.barrier use (hp w)).1
  · rw [h4 w hw]; exact hp w
  · subst hw; rw [h3]; exact ((p.village w).form_up p.barrier use (hp w)).2
  · rw [h4 w hw]

/-- A recomputation of one village (R127). -/
theorem Plant.recompute_spec (p : Plant) (v : Fin 8) :
    p.VillageStep (p.recompute v) ∧
    (p.recompute v).village v = (if (p.village v).inUse then (p.village v).form p.barrier else p.village v) ∧
    (∀ w, w ≠ v → (p.recompute v).village w = p.village w ∧ (p.recompute v).disp w = p.disp w) := by
  unfold Plant.recompute
  obtain ⟨_, h2, h3, h4, _⟩ := p.formVillage_spec v
  split_ifs with use
  · refine ⟨(p.formVillage_step v use).trans (Plant.handOn_step _ v), by simpa using h3, fun w hw => ⟨by simpa using h4 w hw, ?_⟩⟩
    rw [Plant.handOn_disp_of_ne _ hw]; simp [Plant.disp, h2]
  · exact ⟨.refl p, rfl, fun _ _ => ⟨rfl, rfl⟩⟩

theorem Plant.recompute_step (p : Plant) (v : Fin 8) : p.VillageStep (p.recompute v) := (p.recompute_spec v).1

theorem Plant.recomputeFor_step (p : Plant) (k : Fin 4) : p.VillageStep (p.recomputeFor k) :=
  .foldl (fun q v => by split_ifs; exacts [q.recompute_step v, .refl q]) _ p

/-- The villages routed to a barrier are recomputed, and no other village changes (R127). -/
theorem Plant.recomputeFor_village (p : Plant) (k : Fin 4) (v : Fin 8) :
    (p.recomputeFor k).village v =
      if (p.village v).inUse && (p.village v).routed k then (p.village v).form p.barrier else p.village v := by
  have h := foldl_each (get := Plant.village) (R := p.VillageSideOnly)
    (f := fun q v => if (q.village v).routed k then q.recompute v else q)
    (g := fun _ vl => if vl.inUse && vl.routed k then vl.form p.barrier else vl)
    (fun q v hq => by split_ifs; exacts [hq.trans (q.recompute_step v).only, hq])
    (fun q v hq => by
      by_cases hr : (q.village v).routed k
      · rw [if_pos hr, (q.recompute_spec v).2.1, hq.barrier]; simp [hr]
      · simp [hr])
    (fun q v w hq hw => by
      split_ifs
      · exact ((q.recompute_spec v).2.2 w hw).1
      · rfl)
    (List.finRange 8) (List.nodup_finRange 8) p (.refl p) v
  simpa [Plant.recomputeFor] using h

/-- The recomputed villages are handed to the dispatcher, and no other dispatch record changes (R127, R136). -/
theorem Plant.recomputeFor_disp (p : Plant) (k : Fin 4) (v : Fin 8) :
    (p.recomputeFor k).disp v = if (p.village v).inUse && (p.village v).routed k then
        let vl := (p.village v).form p.barrier
        (p.disp v).handOn p.session.active p.now ⟨vl.announced, vl.exAnnounced, vl.mask, vl.permit⟩
      else p.disp v := by
  have h := foldl_each (get := fun q v => (q.village v, q.disp v)) (R := p.VillageSideOnly)
    (f := fun q v => if (q.village v).routed k then q.recompute v else q)
    (g := fun _ x => if x.1.inUse && x.1.routed k then
        (x.1.form p.barrier, x.2.handOn p.session.active p.now ⟨(x.1.form p.barrier).announced,
          (x.1.form p.barrier).exAnnounced, (x.1.form p.barrier).mask, (x.1.form p.barrier).permit⟩)
      else x)
    (fun q v hq => by split_ifs; exacts [hq.trans (q.recompute_step v).only, hq])
    (fun q v hq => by
      by_cases hr : (q.village v).routed k
      · rw [if_pos hr]
        obtain ⟨h1, h2, h3, _, _⟩ := q.formVillage_spec v
        unfold Plant.recompute
        by_cases hu : (q.village v).inUse = true
        · simp only [hu, hr, if_true, Bool.and_self]
          refine Prod.ext ?_ ?_
          · rw [← hq.barrier]; simpa using h3
          · show ((q.formVillage v).handOn v).disp v = _
            unfold Plant.handOn Plant.updateDisp
            rw [Plant.disp_setDisp, h3, h1.session, h1.now, hq.session, hq.now, ← hq.barrier]
            simp only [Plant.disp, h2]
        · simp [hu]
      · simp [hr])
    (fun q v w hq hw => by
      split_ifs
      · exact Prod.ext ((q.recompute_spec v).2.2 w hw).1 ((q.recompute_spec v).2.2 w hw).2
      · rfl)
    (List.finRange 8) (List.nodup_finRange 8) p (.refl p) v
  have h' := congrArg Prod.snd h
  simp only [List.mem_finRange, if_true] at h'
  rw [show (p.recomputeFor k).disp v = _ from h']
  split_ifs <;> rfl

/-- A recomputation for a barrier sets the latch of a village. -/
def Plant.raisedBy (p : Plant) (k : Fin 4) (v : Fin 8) : Prop :=
  ((p.village v).inUse = true ∧ (p.village v).routed k = true) ∧
    (p.village v).latch = false ∧ ((p.village v).form p.barrier).latch = true

/-- What the recomputations for a barrier post: BREACH_RAISED for each latch they set, in ascending village index (R123,
R127). -/
theorem Plant.recomputeFor_notices (p : Plant) (k : Fin 4) :
    ((∀ v, ¬ p.raisedBy k v) → (p.recomputeFor k).notices = p.notices) ∧
    (∀ v, p.raisedBy k v → (∀ w, p.raisedBy k w → w.1 ≤ v.1) → ∃ before, (p.recomputeFor k).notices =
      postInto p.now .breachRaised v.1 ((((p.village v).form p.barrier).decBarrier.map Fin.val).getD 255) before) := by
  have one : ∀ q : Plant, p.VillageSideOnly q → ∀ v, q.village v = p.village v →
      (¬ p.raisedBy k v → (if (q.village v).routed k then q.recompute v else q).notices = q.notices) ∧
      (p.raisedBy k v → (if (q.village v).routed k then q.recompute v else q).notices =
        postInto p.now .breachRaised v.1 ((((p.village v).form p.barrier).decBarrier.map Fin.val).getD 255) q.notices) := by
    intro q hq v hv
    by_cases hr : (q.village v).routed k = true
    · rw [if_pos hr]
      unfold Plant.recompute
      by_cases hu : (q.village v).inUse = true
      · rw [if_pos hu, Plant.handOn_notices, Plant.formVillage_notices, hq.barrier, hv, hq.now]
        rw [hv] at hr hu
        refine ⟨fun h => if_neg fun x => h ⟨⟨hu, hr⟩, x⟩, fun h => if_pos h.2⟩
      · rw [if_neg hu]; exact ⟨fun _ => rfl, fun h => absurd (hv ▸ h.1.1) hu⟩
    · rw [if_neg hr]; exact ⟨fun _ => rfl, fun h => absurd (hv ▸ h.1.2) hr⟩
  have step : ∀ q : Plant, p.VillageSideOnly q → ∀ v,
      p.VillageSideOnly (if (q.village v).routed k then q.recompute v else q) ∧
      ∀ w, w ≠ v → (if (q.village v).routed k then q.recompute v else q).village w = q.village w := by
    intro q hq v
    split_ifs
    · exact ⟨hq.trans (q.recompute_step v).only, fun w hw => ((q.recompute_spec v).2.2 w hw).1⟩
    · exact ⟨hq, fun _ _ => rfl⟩
  have quiet : ∀ l : List (Fin 8), l.Nodup → (∀ v ∈ l, ¬ p.raisedBy k v) → ∀ q : Plant, p.VillageSideOnly q →
      (∀ v ∈ l, q.village v = p.village v) →
      (l.foldl (init := q) fun q v => if (q.village v).routed k then q.recompute v else q).notices = q.notices := by
    intro l
    induction l with
    | nil => intros; rfl
    | cons v l ih =>
      intro hn hr q hq hv
      obtain ⟨hvl, hn⟩ := List.nodup_cons.1 hn
      obtain ⟨s1, s2⟩ := step q hq v
      rw [List.foldl_cons, ih hn (fun w hw => hr w (List.mem_cons_of_mem _ hw)) _ s1 fun w hw => by
        rw [s2 w fun e => hvl (e ▸ hw), hv w (List.mem_cons_of_mem _ hw)]]
      exact (one q hq v (hv v List.mem_cons_self)).1 (hr v List.mem_cons_self)
  refine ⟨fun h => quiet _ (List.nodup_finRange 8) (fun v _ => h v) p (.refl p) fun _ _ => rfl, fun v hv hlast => ?_⟩
  have reach : ∀ l : List (Fin 8), l.Pairwise (· < ·) → v ∈ l → ∀ q : Plant, p.VillageSideOnly q →
      (∀ w ∈ l, q.village w = p.village w) → ∃ before,
      (l.foldl (init := q) fun q v => if (q.village v).routed k then q.recompute v else q).notices =
        postInto p.now .breachRaised v.1 ((((p.village v).form p.barrier).decBarrier.map Fin.val).getD 255) before := by
    intro l
    induction l with
    | nil => intro _ h; exact absurd h List.not_mem_nil
    | cons x l ih =>
      intro hs hm q hq hqv
      obtain ⟨hx, tail⟩ := List.pairwise_cons.1 hs
      obtain ⟨s1, s2⟩ := step q hq x
      have rest : ∀ w ∈ l, (if (q.village x).routed k then q.recompute x else q).village w = p.village w := fun w hw => by
        rw [s2 w (ne_of_gt (hx w hw)), hqv w (List.mem_cons_of_mem _ hw)]
      rw [List.foldl_cons]
      by_cases e : v = x
      · subst e
        refine ⟨q.notices, ?_⟩
        rw [quiet l (tail.imp fun h => ne_of_lt h) (fun w hw hr => absurd (hlast w hr) (Nat.not_le.2 (hx w hw))) _ s1 rest]
        exact (one q hq v (hqv v List.mem_cons_self)).2 hv
      · exact ih tail ((List.mem_cons.1 hm).resolve_left e) _ s1 rest
  exact reach _ (List.pairwise_lt_finRange 8) (List.mem_finRange v) p (.refl p) fun _ _ => rfl

/-! ### Exercise levels -/

theorem Plant.formVillageExercise_spec (p : Plant) (v : Fin 8) :
    (p.formVillageExercise v).village v = (p.village v).formExercise p.exerciseBasis ∧
    (∀ w, w ≠ v → (p.formVillageExercise v).village w = p.village w) :=
  ⟨p.village_setVillage v _, fun _ hw => p.village_setVillage_of_ne hw _⟩

theorem Plant.formVillageExercise_only (p : Plant) (v : Fin 8) :
    p.VillageSideOnly (p.formVillageExercise v) ∧ (p.formVillageExercise v).notices = p.notices ∧
    (p.formVillageExercise v).dispatch = p.dispatch := ⟨rfl, rfl, rfl⟩

theorem Plant.formVillageExercise_step (p : Plant) (v : Fin 8) (use : (p.village v).inUse = true) :
    p.VillageStep (p.formVillageExercise v) :=
  ⟨rfl, .setVillage fun h => (Village.formExercise_sound _ _ use h).imp id fun e => by rw [e], id⟩

/-- An exercise recomputation of one village (R129). -/
theorem Plant.recomputeExercise_spec (p : Plant) (v : Fin 8) :
    p.VillageStep (p.recomputeExercise v) ∧ (p.recomputeExercise v).notices = p.notices ∧
    (p.recomputeExercise v).village v =
      (if (p.village v).inUse then (p.village v).formExercise p.exerciseBasis else p.village v) ∧
    (∀ w, w ≠ v → (p.recomputeExercise v).village w = p.village w ∧ (p.recomputeExercise v).disp w = p.disp w) := by
  unfold Plant.recomputeExercise
  split_ifs with use
  · obtain ⟨h1, h2⟩ := p.formVillageExercise_spec v
    exact ⟨(p.formVillageExercise_step v use).trans (Plant.handOn_step _ v), rfl, h1,
      fun w hw => ⟨h2 w hw, Plant.handOn_disp_of_ne _ hw⟩⟩
  · exact ⟨.refl p, rfl, rfl, fun _ _ => ⟨rfl, rfl⟩⟩

theorem Plant.recomputeExercise_step (p : Plant) (v : Fin 8) : p.VillageStep (p.recomputeExercise v) :=
  (p.recomputeExercise_spec v).1

/-- Exercise recomputations of a list of villages, each once. -/
theorem Plant.recomputeExerciseAll_spec (p : Plant) (l : List (Fin 8)) (hl : l.Nodup) :
    let q := l.foldl (fun q v => q.recomputeExercise v) p
    p.VillageStep q ∧ q.notices = p.notices ∧
    ∀ v, q.village v = if v ∈ l ∧ (p.village v).inUse then (p.village v).formExercise p.exerciseBasis else p.village v := by
  refine ⟨.foldl (fun q v => q.recomputeExercise_step v) l p, ?_, fun v => ?_⟩
  · exact foldl_keeps (R := fun q => q.notices = p.notices)
      (fun q v hq => by rw [(q.recomputeExercise_spec v).2.1, hq]) l p rfl
  · have h := foldl_each (get := Plant.village) (R := p.VillageSideOnly) (f := fun q v => q.recomputeExercise v)
      (g := fun _ vl => if vl.inUse then vl.formExercise p.exerciseBasis else vl)
      (fun q v hq => hq.trans (q.recomputeExercise_step v).only)
      (fun q v hq => by rw [(q.recomputeExercise_spec v).2.2.1, hq.exerciseBasis])
      (fun q v w _ hw => ((q.recomputeExercise_spec v).2.2.2 w hw).1) l hl p (.refl p) v
    rw [h]; by_cases hv : v ∈ l <;> simp [hv]

/-- The villages of an exercise recomputation are handed to the dispatcher, and no other dispatch record changes (R129,
R136). -/
theorem Plant.recomputeExerciseAll_disp (p : Plant) (l : List (Fin 8)) (hl : l.Nodup) (v : Fin 8) :
    (l.foldl (fun q v => q.recomputeExercise v) p).disp v = if v ∈ l ∧ (p.village v).inUse then
        let vl := (p.village v).formExercise p.exerciseBasis
        (p.disp v).handOn p.session.active p.now ⟨vl.announced, vl.exAnnounced, vl.mask, vl.permit⟩
      else p.disp v := by
  have h := foldl_each (get := fun q v => (q.village v, q.disp v)) (R := p.VillageSideOnly)
    (f := fun q v => q.recomputeExercise v)
    (g := fun _ x => if x.1.inUse then
        (x.1.formExercise p.exerciseBasis, x.2.handOn p.session.active p.now ⟨(x.1.formExercise p.exerciseBasis).announced,
          (x.1.formExercise p.exerciseBasis).exAnnounced, (x.1.formExercise p.exerciseBasis).mask,
          (x.1.formExercise p.exerciseBasis).permit⟩)
      else x)
    (fun q v hq => hq.trans (q.recomputeExercise_step v).only)
    (fun q v hq => by
      unfold Plant.recomputeExercise
      split_ifs
      · refine Prod.ext ?_ ?_
        · rw [← hq.exerciseBasis]; exact (q.formVillageExercise_spec v).1
        · show ((q.formVillageExercise v).handOn v).disp v = _
          unfold Plant.handOn Plant.updateDisp
          rw [Plant.disp_setDisp, (q.formVillageExercise_spec v).1, ← hq.session, ← hq.now, ← hq.exerciseBasis]; rfl
      · rfl)
    (fun q v w _ hw => Prod.ext ((q.recomputeExercise_spec v).2.2.2 w hw).1 ((q.recomputeExercise_spec v).2.2.2 w hw).2)
    l hl p (.refl p) v
  rw [show (l.foldl (fun q v => q.recomputeExercise v) p).disp v = _ from congrArg Prod.snd h]
  by_cases hv : v ∈ l
  · by_cases hu : (p.village v).inUse = true <;> simp [hv, hu]
  · simp [hv]

/-- The permitted villages routed to a barrier take their exercise levels, and no other village changes (R129). -/
theorem Plant.recomputeExerciseFor_spec (p : Plant) (k : Fin 4) :
    p.VillageStep (p.recomputeExerciseFor k) ∧ (p.recomputeExerciseFor k).notices = p.notices ∧
    ∀ v, (p.recomputeExerciseFor k).village v =
      if (p.village v).inUse && (p.village v).permit && (p.village v).routed k then
        (p.village v).formExercise p.exerciseBasis
      else p.village v := by
  refine ⟨.foldl (fun q v => by split_ifs; exacts [q.recomputeExercise_step v, .refl q]) _ p, ?_, fun v => ?_⟩
  · exact foldl_keeps (R := fun q => q.notices = p.notices)
      (fun q v hq => by
        split_ifs
        · rw [(q.recomputeExercise_spec v).2.1, hq]
        · exact hq) _ p rfl
  · have h := foldl_each (get := Plant.village) (R := p.VillageSideOnly)
      (f := fun q v => if (q.village v).permit && (q.village v).routed k then q.recomputeExercise v else q)
      (g := fun _ vl => if vl.inUse && vl.permit && vl.routed k then vl.formExercise p.exerciseBasis else vl)
      (fun q v hq => by split_ifs; exacts [hq.trans (q.recomputeExercise_step v).only, hq])
      (fun q v hq => by
        by_cases hr : ((q.village v).permit && (q.village v).routed k) = true
        · rw [if_pos hr, (q.recomputeExercise_spec v).2.2.1, hq.exerciseBasis]
          rw [Bool.and_eq_true] at hr; simp [hr.1, hr.2]
        · rw [if_neg hr, Bool.and_assoc]; simp [hr])
      (fun q v w _ hw => by
        split_ifs
        · exact ((q.recomputeExercise_spec v).2.2.2 w hw).1
        · rfl)
      (List.finRange 8) (List.nodup_finRange 8) p (.refl p) v
    simpa [Plant.recomputeExerciseFor] using h

/-- Both recomputations of a village and one hand-on (R127, R129). -/
theorem Plant.recomputeBoth_spec (p : Plant) (v : Fin 8) :
    p.VillageStep (p.recomputeBoth v) ∧
    (p.recomputeBoth v).village v =
      (if (p.village v).inUse then ((p.village v).form p.barrier).formExercise p.exerciseBasis else p.village v) ∧
    (∀ w, w ≠ v → (p.recomputeBoth v).village w = p.village w ∧ (p.recomputeBoth v).disp w = p.disp w) := by
  unfold Plant.recomputeBoth
  split_ifs with use
  · obtain ⟨h1, h2, h3, h4, _⟩ := p.formVillage_spec v
    have use' : ((p.formVillage v).village v).inUse = true := by
      rw [h3, ((p.village v).form_realOnly p.barrier).eq]; exact use
    obtain ⟨e1, e2⟩ := (p.formVillage v).formVillageExercise_spec v
    refine ⟨((p.formVillage_step v use).trans (Plant.formVillageExercise_step _ v use')).trans (Plant.handOn_step _ v), ?_,
      fun w hw => ⟨?_, ?_⟩⟩
    · rw [Plant.handOn_village, e1, h3, h1.exerciseBasis]
    · rw [Plant.handOn_village, e2 w hw, h4 w hw]
    · rw [Plant.handOn_disp_of_ne _ hw]; show (p.formVillage v).disp w = _; simp [Plant.disp, h2]
  · exact ⟨.refl p, rfl, fun _ _ => ⟨rfl, rfl⟩⟩

/-- The dispatch records after the exercise recomputations for a barrier: the villages it reaches are handed on, and no other
record changes (R129, R136). -/
theorem Plant.recomputeExerciseFor_disp (p : Plant) (k : Fin 4) (v : Fin 8) :
    (p.recomputeExerciseFor k).disp v =
      if ((p.village v).inUse && (p.village v).permit && (p.village v).routed k) = true then
        let vl := (p.village v).formExercise p.exerciseBasis
        (p.disp v).handOn p.session.active p.now ⟨vl.announced, vl.exAnnounced, vl.mask, vl.permit⟩
      else p.disp v := by
  have h := foldl_each (get := fun q v => (q.village v, q.disp v)) (R := p.VillageSideOnly)
    (f := fun q v => if (q.village v).permit && (q.village v).routed k then q.recomputeExercise v else q)
    (g := fun _ x => if (x.1.inUse && x.1.permit && x.1.routed k) = true then
        (x.1.formExercise p.exerciseBasis, x.2.handOn p.session.active p.now ⟨(x.1.formExercise p.exerciseBasis).announced,
          (x.1.formExercise p.exerciseBasis).exAnnounced, (x.1.formExercise p.exerciseBasis).mask,
          (x.1.formExercise p.exerciseBasis).permit⟩)
      else x)
    (fun q v hq => by split_ifs; exacts [hq.trans (q.recomputeExercise_step v).only, hq])
    (fun q v hq => by
      have one := q.recomputeExerciseAll_disp [v] (List.nodup_singleton v) v
      have vone := (q.recomputeExercise_spec v).2.2.1
      simp only [List.foldl_cons, List.foldl_nil, List.mem_singleton, true_and] at one
      rw [Bool.and_assoc]
      by_cases hr : ((q.village v).permit && (q.village v).routed k) = true
      · by_cases hu : (q.village v).inUse = true
        · simp only [hr, hu, if_true, Bool.and_self] at one vone ⊢
          rw [one, vone, hq.exerciseBasis, hq.session, hq.now]
        · simp only [hr, hu, if_true, Bool.false_and, Bool.false_eq_true, if_false] at one vone ⊢
          rw [one, vone]
      · simp only [hr, Bool.and_false, Bool.false_eq_true, if_false])
    (fun q v w _ hw => by
      split_ifs
      · exact Prod.ext ((q.recomputeExercise_spec v).2.2.2 w hw).1 ((q.recomputeExercise_spec v).2.2.2 w hw).2
      · rfl)
    (List.finRange 8) (List.nodup_finRange 8) p (.refl p) v
  have h := congrArg Prod.snd h
  rw [if_pos (List.mem_finRange v)] at h
  dsimp only at h
  unfold Plant.recomputeExerciseFor
  rw [h]
  by_cases hc : ((p.village v).inUse && (p.village v).permit && (p.village v).routed k) = true
  · rw [if_pos hc, if_pos hc]
  · rw [if_neg hc, if_neg hc]

/-- The exercise levels formed are those of R128. -/
theorem Village.formExercise_atExercise (vl : Village) (p : Plant) : (vl.formExercise p.exerciseBasis).AtExercise p := by
  refine ⟨fun k r e ha hb he hp hr => ?_, fun h => ?_⟩
  · have hx : vl.exerciseLevel p.exerciseBasis =
        (let a := availableTime e.ttf r.travel
         let lc := fillFloors (p.barrier k).watchFill (p.barrier k).warnFill e.fill (vl.project a, .projection)
         (lc.1, lc.2, a)) := by
      have hp : vl.permit = true := hp
      have hr : vl.routes.get k = some r := hr
      simp only [Plant.exerciseBasis, Session.current, ha, hb, he, if_true, Village.exerciseLevel, hp, hr]
    unfold Village.formExercise; rw [hx]
    exact ⟨rfl, rfl, rfl, rfl⟩
  · have hx : vl.exerciseLevel p.exerciseBasis = (.clear, .projection, Config.noMinutes) := by
      unfold Village.exerciseLevel Plant.exerciseBasis Session.current
      rcases h with h | h | h | h
      · simp only [h, Bool.false_eq_true, if_false]
      · simp only [h]; cases (if p.session.active = true then p.session.barrier else none) <;> rfl
      · have h : vl.permit = false := h
        split
        · rfl
        · simp only [h]
      · have h : ∀ k, p.session.barrier = some k → vl.routes.get k = none := h
        by_cases ha : p.session.active = true
        · cases hb : p.session.barrier with
          | none => simp only [ha, if_true]
          | some k =>
            simp only [ha, if_true]
            cases p.exercise.estimate with
            | none => rfl
            | some e => simp only [h k hb]; cases vl.permit <;> rfl
        · rw [if_neg ha]
    unfold Village.formExercise; rw [hx]
    exact ⟨rfl, rfl, rfl, rfl⟩

/-! ### Forming and hand-on of one village, whatever levels are formed -/

/-- Forming a village's real levels and any further change of its record that keeps latch, computed level and deciding
barrier, then the hand-on. -/
theorem Plant.VillageFormed.of_form {p q : Plant} {v : Fin 8} (o : (p.formVillage v).VillageSideOnly q)
    (n : q.notices = (p.formVillage v).notices) (dp : q.dispatch = (p.formVillage v).dispatch)
    (others : ∀ w, w ≠ v → q.village w = (p.formVillage v).village w)
    (keep : (q.village v).latch = ((p.village v).form p.barrier).latch ∧
      (q.village v).computed = ((p.village v).form p.barrier).computed ∧
      (q.village v).decBarrier = ((p.village v).form p.barrier).decBarrier) :
    p.VillageFormed (q.handOn v) v (p.village v).latch (p.disp v) := by
  obtain ⟨s1, s2, _, s4, _⟩ := p.formVillage_spec v
  have oq := s1.trans o
  have latch := (p.village v).form_latch p.barrier
  have dq : q.disp = p.disp := by funext w; simp [Plant.disp, dp, s2]
  refine ⟨oq.trans (Plant.handOn_step q v).only, fun w hw => ⟨?_, ?_⟩, ?_, fun hl hc => ?_, fun h => ?_, ?_⟩
  · rw [Plant.handOn_village, others w hw, s4 w hw]
  · rw [Plant.handOn_disp_of_ne _ hw, dq]
  · rw [Plant.handOn_village, keep.1, keep.2.1, latch]; simp
  · rw [Plant.handOn_village, keep.2.1] at hc
    obtain ⟨k, hk⟩ := (p.village v).form_decBarrier p.barrier (by rw [hc]; simp)
    refine ⟨k, by rw [Plant.handOn_village, keep.2.2, hk], ?_⟩
    rw [Plant.handOn_notices, n, p.formVillage_notices, if_pos ⟨hl, by rw [latch, hc]; simp⟩, hk]; rfl
  · rw [Plant.handOn_village, keep.2.1] at h
    rw [Plant.handOn_notices, n, p.formVillage_notices, if_neg]
    rintro ⟨h1, h2⟩
    rw [latch, h1] at h2
    rcases h with h | h
    · rw [h1] at h; cases h
    · exact h (by simpa using h2)
  · show (q.handOn v).disp v = _
    rw [Plant.handOn_village]
    unfold Plant.handOn Plant.updateDisp
    rw [Plant.disp_setDisp, oq.session, oq.now, dq]

theorem Plant.recompute_formed (p : Plant) (v : Fin 8) (use : (p.village v).inUse = true) :
    p.VillageFormed (p.recompute v) v (p.village v).latch (p.disp v) := by
  rw [Plant.recompute, if_pos use]
  have h := (p.formVillage_spec v).2.2.1
  exact .of_form (.refl _) rfl rfl (fun _ _ => rfl) (by rw [h]; exact ⟨rfl, rfl, rfl⟩)

theorem Plant.recomputeBoth_formed (p : Plant) (v : Fin 8) (use : (p.village v).inUse = true) :
    p.VillageFormed (p.recomputeBoth v) v (p.village v).latch (p.disp v) := by
  rw [Plant.recomputeBoth, if_pos use]
  obtain ⟨e1, e2⟩ := (p.formVillage v).formVillageExercise_spec v
  obtain ⟨o, n, d⟩ := (p.formVillage v).formVillageExercise_only v
  refine .of_form o n d e2 ?_
  rw [e1, (p.formVillage_spec v).2.2.1]
  generalize (p.village v).form p.barrier = formed
  exact ⟨rfl, rfl, rfl⟩

/-- A change of the village's own record and dispatch record before the forming is part of the same operation. -/
theorem Plant.VillageFormed.after {p p' q : Plant} {v : Fin 8} {latch : Bool} {d : Dispatch}
    (h : p'.VillageFormed q v latch d) (o : p.VillageSideOnly p') (n : p'.notices = p.notices)
    (others : ∀ w, w ≠ v → p'.village w = p.village w ∧ p'.disp w = p.disp w) : p.VillageFormed q v latch d where
  only := o.trans h.only
  others w hw := ⟨(h.others w hw).1.trans (others w hw).1, (h.others w hw).2.trans (others w hw).2⟩
  latched := h.latched
  raised hl hc := by
    obtain ⟨k, hk, e⟩ := h.raised hl hc
    refine ⟨k, hk, e.trans ?_⟩
    show postInto p'.now _ _ _ p'.notices = postInto p.now _ _ _ p.notices
    rw [o.now, n]
  silent hs := (h.silent hs).trans n
  handed := by rw [h.handed, o.session, o.now]

end Sys2Proof.Machine
end

