-- ==== Sys2Proof/Laws/Estimator.lean ====
section
/-! SUPPORT. What the Barrier Estimator's operations do: offers, abandonment, the end of a session, the vote, completion,
surge and breach assessment; and the standing facts of the estimator. -/

namespace Sys2Proof.Machine

/-- What a step from the barriers downward does: the frame, the ladder's facts, the notice set's, one queue entry per owner,
and every barrier's state kept. -/
structure Plant.BarrierStep (p q : Plant) : Prop where
  only : p.BarrierSideOnly q
  ladder : p.LadderUp q
  notices : p.NoticesGood → q.NoticesGood
  owners : (p.evalQueue.map EvalEntry.owner).Nodup → (q.evalQueue.map EvalEntry.owner).Nodup
  states : ∀ k, (q.barrier k).state = (p.barrier k).state

theorem Plant.BarrierStep.refl (p : Plant) : p.BarrierStep p := ⟨.refl p, .refl p, id, id, fun _ => rfl⟩

theorem Plant.BarrierStep.trans {p q r : Plant} (h : p.BarrierStep q) (h' : q.BarrierStep r) : p.BarrierStep r :=
  ⟨h.only.trans h'.only, h.ladder.trans h'.ladder, fun n => h'.notices (h.notices n), fun n => h'.owners (h.owners n),
    fun k => (h'.states k).trans (h.states k)⟩

theorem Plant.VillageStep.toBarrierStep {p q : Plant} (h : p.VillageStep q) : p.BarrierStep q :=
  ⟨h.only.toBarrierSideOnly, h.ladder, h.notices, by rw [h.only.evalQueue]; exact id, fun k => by rw [h.only.barrier]⟩

/-- A barrier record rewritten with its state kept. -/
theorem Plant.setBarrier_step (p : Plant) (k : Fin 4) (b : Barrier) (h : b.state = (p.barrier k).state) :
    p.BarrierStep (p.setBarrier k b) :=
  ⟨rfl, .of_villages rfl, id, id, fun j => by
    by_cases hj : j = k
    · subst hj; simpa using h
    · rw [Plant.barrier_setBarrier_of_ne _ hj]⟩

/-! ### The take of the head, offers and abandonment -/

/-- The take of the head entry (R93): nothing where the unit is at work or the queue empty, and otherwise the head leaves
with its owner and stage in flight. -/
theorem Plant.beginEvaluation_cases (p : Plant) :
    ((p.flight ≠ none ∨ p.evalQueue = []) ∧ p.beginEvaluation = p) ∨
    ∃ e rest f, p.flight = none ∧ p.evalQueue = e :: rest ∧ f.owner = e.owner ∧ f.stage = e.stage ∧
      p.beginEvaluation = { p with evalQueue := rest, flight := some f } := by
  cases hf : p.flight with
  | some f => left; exact ⟨.inl (by simp), by unfold Plant.beginEvaluation; rw [hf]⟩
  | none =>
    cases hq : p.evalQueue with
    | nil => left; exact ⟨.inr rfl, by unfold Plant.beginEvaluation; rw [hf, hq]⟩
    | cons e rest =>
      right
      refine ⟨e, rest, _, rfl, rfl, ?_, ?_, by unfold Plant.beginEvaluation; rw [hf, hq]⟩ <;> cases e.owner <;> rfl

theorem Plant.beginEvaluation_only (p : Plant) :
    p.beginEvaluation = { p with evalQueue := p.beginEvaluation.evalQueue, flight := p.beginEvaluation.flight } := by
  rcases p.beginEvaluation_cases with ⟨_, h⟩ | ⟨e, rest, f, _, _, _, _, h⟩ <;> rw [h]

@[simp] theorem Plant.beginEvaluation_barrier (p : Plant) (k : Fin 4) : p.beginEvaluation.barrier k = p.barrier k := by
  rw [p.beginEvaluation_only]; rfl

@[simp] theorem Plant.beginEvaluation_exercise (p : Plant) : p.beginEvaluation.exercise = p.exercise := by
  rw [p.beginEvaluation_only]

@[simp] theorem Plant.beginEvaluation_session (p : Plant) : p.beginEvaluation.session = p.session := by
  rw [p.beginEvaluation_only]

@[simp] theorem Plant.beginEvaluation_villages (p : Plant) : p.beginEvaluation.villages = p.villages := by
  rw [p.beginEvaluation_only]

@[simp] theorem Plant.beginEvaluation_notices (p : Plant) : p.beginEvaluation.notices = p.notices := by
  rw [p.beginEvaluation_only]

/-- An owner that waits, or whose evaluation is in flight, did so before the take. -/
theorem Plant.beginEvaluation_work (p : Plant) (o : EvalOwner) :
    (p.beginEvaluation.queued o = true ∨ p.beginEvaluation.inFlight o = true) ↔ (p.queued o = true ∨ p.inFlight o = true) := by
  rcases p.beginEvaluation_cases with ⟨_, h⟩ | ⟨e, rest, f, hf, hq, ho, _, h⟩
  · rw [h]
  · rw [h]; simp [Plant.queued, Plant.inFlight, hf, hq, ho, or_comm]

/-- After the take the unit is at work or the queue is empty (R93). -/
theorem Plant.beginEvaluation_atWork (p : Plant) : p.beginEvaluation.flight = none → p.beginEvaluation.evalQueue = [] := by
  rcases p.beginEvaluation_cases with ⟨hw, h⟩ | ⟨e, rest, f, _, _, _, _, h⟩
  · rw [h]; intro hf; exact hw.resolve_left (not_not.2 hf)
  · rw [h]; intro hf; simp at hf

theorem Plant.beginEvaluation_owners (p : Plant) :
    (p.beginEvaluation.evalQueue.map EvalEntry.owner).Sublist (p.evalQueue.map EvalEntry.owner) := by
  rcases p.beginEvaluation_cases with ⟨_, h⟩ | ⟨e, rest, f, _, hq, _, _, h⟩
  · rw [h]
  · rw [h, hq]; simp

theorem Plant.beginEvaluation_step (p : Plant) : p.BarrierStep p.beginEvaluation :=
  ⟨by rw [Plant.BarrierSideOnly, p.beginEvaluation_only], .of_villages (by simp),
    fun h => by unfold Plant.NoticesGood at *; simpa using h, fun h => h.sublist p.beginEvaluation_owners, by simp⟩

theorem Plant.countSuperseded_barrier (p : Plant) (o : EvalOwner) (j : Fin 4) :
    (p.countSuperseded o).barrier j = { p.barrier j with superseded := ((p.countSuperseded o).barrier j).superseded } := by
  cases o with
  | exercise => rfl
  | barrier k =>
    by_cases hj : j = k
    · subst hj; simp [Plant.countSuperseded]
    · simp [Plant.countSuperseded, Plant.barrier_setBarrier_of_ne _ hj]

theorem Plant.enqueue_only (p : Plant) (o : EvalOwner) (stage : Nat) :
    p.enqueue o stage = { p with barriers := (p.enqueue o stage).barriers, evalQueue := (p.enqueue o stage).evalQueue,
                                 exercise := (p.enqueue o stage).exercise } := by
  unfold Plant.enqueue; split_ifs
  · cases o <;> rfl
  · rfl

/-- An offer of an owner joins the queue, and is taken at once where it finds the queue empty (R92, R93). -/
theorem Plant.offer_eq (p : Plant) (o : EvalOwner) (stage : Nat) :
    p.offer o stage = if p.evalQueue = [] then (p.enqueue o stage).beginEvaluation else p.enqueue o stage := rfl

theorem Plant.offer_only (p : Plant) (o : EvalOwner) (stage : Nat) :
    p.offer o stage = { p with barriers := (p.offer o stage).barriers, evalQueue := (p.offer o stage).evalQueue,
                               flight := (p.offer o stage).flight, exercise := (p.offer o stage).exercise } := by
  rw [Plant.offer_eq]; split_ifs
  · rw [Plant.beginEvaluation_only, p.enqueue_only o stage]
  · rw [p.enqueue_only o stage]

theorem Plant.enqueue_barrier (p : Plant) (o : EvalOwner) (stage : Nat) (j : Fin 4) :
    (p.enqueue o stage).barrier j = { p.barrier j with superseded := ((p.enqueue o stage).barrier j).superseded } := by
  unfold Plant.enqueue; split_ifs
  · exact p.countSuperseded_barrier o j
  · rfl

theorem Plant.offer_barrier_eq (p : Plant) (o : EvalOwner) (stage : Nat) :
    (p.offer o stage).barrier = (p.enqueue o stage).barrier := by
  funext j; rw [Plant.offer_eq]; split_ifs <;> simp

theorem Plant.offer_barrier (p : Plant) (o : EvalOwner) (stage : Nat) (j : Fin 4) :
    (p.offer o stage).barrier j = { p.barrier j with superseded := ((p.offer o stage).barrier j).superseded } := by
  rw [p.offer_barrier_eq]; exact p.enqueue_barrier o stage j

theorem Plant.offer_exercise_eq (p : Plant) (o : EvalOwner) (stage : Nat) :
    (p.offer o stage).exercise = (p.enqueue o stage).exercise := by
  rw [Plant.offer_eq]; split_ifs <;> simp

theorem Plant.offer_exercise (p : Plant) (o : EvalOwner) (stage : Nat) :
    (p.offer o stage).exercise = { p.exercise with superseded := (p.offer o stage).exercise.superseded } := by
  rw [p.offer_exercise_eq]; unfold Plant.enqueue; split_ifs
  · cases o <;> rfl
  · rfl

/-- An offer leaves exactly one more owner in the queue, or none, and the owner's entry holds the offered stage (R92). -/
theorem Plant.enqueue_queue (p : Plant) (o : EvalOwner) (stage : Nat) :
    ((p.enqueue o stage).evalQueue.map EvalEntry.owner =
      p.evalQueue.map EvalEntry.owner ++ if p.queued o then [] else [o]) ∧
    ∃ e ∈ (p.enqueue o stage).evalQueue, e.owner = o ∧ e.stage = stage := by
  unfold Plant.enqueue
  by_cases hq : p.queued o = true
  · rw [if_pos hq]
    refine ⟨?_, ?_⟩
    · simp only [hq, if_true, List.append_nil, List.map_map]
      apply List.map_congr_left; intro e _
      by_cases he : e.owner = o <;> simp [he]
    · obtain ⟨e, he, ho⟩ := List.any_eq_true.1 hq
      have ho : e.owner = o := by simpa using ho
      exact ⟨{ e with stage := stage }, List.mem_map.2 ⟨e, he, by simp [ho]⟩, ho, rfl⟩
  · rw [if_neg hq]
    exact ⟨by simp [hq], ⟨o, stage⟩, by simp, rfl, rfl⟩

/-- The offered stage waits in the owner's entry, or has been taken at once (R92, R93). -/
theorem Plant.offer_holds (p : Plant) (o : EvalOwner) (stage : Nat) :
    (∃ e ∈ (p.offer o stage).evalQueue, e.owner = o ∧ e.stage = stage) ∨
    ∃ f, (p.offer o stage).flight = some f ∧ f.owner = o ∧ f.stage = stage := by
  obtain ⟨_, e, he, ho, hs⟩ := p.enqueue_queue o stage
  rw [Plant.offer_eq]; split_ifs
  · rcases (p.enqueue o stage).beginEvaluation_cases with ⟨_, h⟩ | ⟨e', rest, f, _, hq, hfo, hfs, h⟩
    · rw [h]; exact .inl ⟨e, he, ho, hs⟩
    · rw [h]; rw [hq, List.mem_cons] at he
      rcases he with rfl | he
      · exact .inr ⟨f, rfl, hfo.trans ho, hfs.trans hs⟩
      · exact .inl ⟨e, he, ho, hs⟩
  · exact .inl ⟨e, he, ho, hs⟩

theorem Plant.not_queued {p : Plant} {o : EvalOwner} (h : ¬ p.queued o = true) : o ∉ p.evalQueue.map EvalEntry.owner := by
  intro hm
  obtain ⟨e, he, rfl⟩ := List.mem_map.1 hm
  exact h (List.any_eq_true.2 ⟨e, he, by simp⟩)

theorem Plant.enqueue_step (p : Plant) (o : EvalOwner) (stage : Nat) : p.BarrierStep (p.enqueue o stage) := by
  have hv : (p.enqueue o stage).villages = p.villages := by rw [p.enqueue_only o stage]
  have hn : (p.enqueue o stage).notices = p.notices := by rw [p.enqueue_only o stage]
  refine ⟨?_, .of_villages hv, fun h => by unfold Plant.NoticesGood at *; rw [hn]; exact h, fun h => ?_,
    fun j => by rw [p.enqueue_barrier o stage j]⟩
  · rw [Plant.BarrierSideOnly, p.enqueue_only o stage]
  · rw [(p.enqueue_queue o stage).1]
    by_cases hq : p.queued o = true
    · simpa [hq] using h
    · simp only [hq, Bool.false_eq_true, if_false]
      exact List.nodup_append.2 ⟨h, by simp, fun a ha b hb e => by simp at hb; subst hb; subst e; exact Plant.not_queued hq ha⟩

theorem Plant.offer_step (p : Plant) (o : EvalOwner) (stage : Nat) : p.BarrierStep (p.offer o stage) := by
  rw [Plant.offer_eq]; split_ifs
  · exact (p.enqueue_step o stage).trans (Plant.beginEvaluation_step _)
  · exact p.enqueue_step o stage

theorem Plant.offer_session (p : Plant) (o : EvalOwner) (stage : Nat) : (p.offer o stage).session = p.session := by
  rw [p.offer_only o stage]

/-- An owner's entry leaves the queue. -/
def Plant.dropEntry (p : Plant) (o : EvalOwner) : Plant := { p with evalQueue := p.evalQueue.filter fun e => e.owner != o }

/-- Abandonment (R102): the entry leaves; an evaluation in flight is dropped, and the unit takes the next head (R93). -/
theorem Plant.abandon_eq (p : Plant) (o : EvalOwner) :
    p.abandon o = if p.inFlight o then { p.dropEntry o with flight := none }.beginEvaluation else p.dropEntry o := rfl

theorem Plant.dropEntry_step (p : Plant) (o : EvalOwner) : p.BarrierStep (p.dropEntry o) :=
  ⟨rfl, .of_villages rfl, id, fun h => by
    have : ((p.dropEntry o).evalQueue.map EvalEntry.owner).Sublist (p.evalQueue.map EvalEntry.owner) :=
      List.Sublist.map _ List.filter_sublist
    exact h.sublist this, fun _ => rfl⟩

theorem Plant.clearFlight_step (p : Plant) : p.BarrierStep { p with flight := none } :=
  ⟨rfl, .of_villages rfl, id, id, fun _ => rfl⟩

theorem Plant.abandon_step (p : Plant) (o : EvalOwner) : p.BarrierStep (p.abandon o) := by
  rw [Plant.abandon_eq]; split_ifs
  · exact ((p.dropEntry_step o).trans (Plant.clearFlight_step _)).trans (Plant.beginEvaluation_step _)
  · exact p.dropEntry_step o

theorem Plant.abandon_only (p : Plant) (o : EvalOwner) :
    p.abandon o = { p with evalQueue := (p.abandon o).evalQueue, flight := (p.abandon o).flight } := by
  rw [Plant.abandon_eq]; split_ifs
  · rw [Plant.beginEvaluation_only]; rfl
  · rfl

/-- After its work is abandoned an owner is IDLE (R93, R102). -/
theorem Plant.abandon_evalState (p : Plant) (o : EvalOwner) : (p.abandon o).evalState o = .idle := by
  have hd : (p.dropEntry o).queued o = false := by
    simp only [Plant.dropEntry, Plant.queued, List.any_filter]
    rw [List.any_eq_false]; intro e _; simp
  have key : ¬ ((p.abandon o).queued o = true ∨ (p.abandon o).inFlight o = true) := by
    rw [Plant.abandon_eq]; split_ifs with h
    · rw [Plant.beginEvaluation_work]
      rintro (h1 | h1)
      · rw [show ({ p.dropEntry o with flight := none } : Plant).queued o = (p.dropEntry o).queued o from rfl, hd] at h1
        exact absurd h1 (by simp)
      · simp [Plant.inFlight] at h1
    · rintro (h1 | h1)
      · rw [hd] at h1; exact absurd h1 (by simp)
      · exact h h1
  rw [not_or] at key
  simp [Plant.evalState, key.1, key.2]

/-- What is left without an owner's work is what its abandonment leaves (R93, R102). -/
theorem Plant.abandon_workWithout (p : Plant) (o : EvalOwner) :
    p.abandon o = { p with evalQueue := (p.workWithout o).1, flight := (p.workWithout o).2 } := by
  have hf : (p.evalQueue.filter fun e => e.owner != o) = p.evalQueue.filter fun e => decide (e.owner ≠ o) :=
    List.filter_congr fun e _ => by by_cases h : e.owner = o <;> simp [h]
  have hi : p.inFlight o = true ↔ p.flight.map Flight.owner = some o := by
    cases h : p.flight <;> simp [Plant.inFlight, h]
  unfold Plant.abandon Plant.workWithout
  dsimp only
  rw [hf]
  by_cases h : p.flight.map Flight.owner = some o
  · rw [if_pos (hi.2 h), if_pos h, Plant.beginEvaluation_only]
  · rw [if_neg (fun x => h (hi.1 x)), if_neg h]

/-- Who is at work after an abandonment: those who were, but for the owner itself (R102). -/
theorem Plant.abandon_work (p : Plant) (o o' : EvalOwner) :
    ((p.abandon o).queued o' = true ∨ (p.abandon o).inFlight o' = true) ↔
      (p.queued o' = true ∨ p.inFlight o' = true) ∧ o' ≠ o := by
  by_cases ho : o' = o
  · subst ho
    have h := p.abandon_evalState o'
    unfold Plant.evalState at h
    split_ifs at h with h1 h2
    simp [h1, h2]
  · have hq : (p.dropEntry o).queued o' = p.queued o' := by
      simp only [Plant.dropEntry, Plant.queued, List.any_filter]
      congr 1; funext e
      by_cases he : e.owner = o'
      · simp [he, ho]
      · simp [he]
    rw [Plant.abandon_eq]; split_ifs with hi
    · rw [Plant.beginEvaluation_work]
      have : p.inFlight o' = false := by
        cases hf : p.flight with
        | none => simp [Plant.inFlight, hf]
        | some f =>
          have : f.owner = o := by simpa [Plant.inFlight, hf] using hi
          simp [Plant.inFlight, hf, this, Ne.symm ho]
      have e : ({ p.dropEntry o with flight := none } : Plant).queued o' = p.queued o' := hq
      have e' : ({ p.dropEntry o with flight := none } : Plant).inFlight o' = false := rfl
      rw [e, e', this]; simp [ho]
    · have e' : (p.dropEntry o).inFlight o' = p.inFlight o' := rfl
      rw [hq, e']; simp [ho]

/-- Who is at work after an offer: those who were, and the owner offered for (R92). -/
theorem Plant.offer_work (p : Plant) (o o' : EvalOwner) (stage : Nat) :
    ((p.offer o stage).queued o' = true ∨ (p.offer o stage).inFlight o' = true) ↔
      (p.queued o' = true ∨ p.inFlight o' = true) ∨ o' = o := by
  have key : ∀ q : Plant, q.queued o' = true ↔ o' ∈ q.evalQueue.map EvalEntry.owner := by
    intro q; simp [Plant.queued]
  have hq : (p.enqueue o stage).queued o' = true ↔ p.queued o' = true ∨ o' = o := by
    rw [key, key, (p.enqueue_queue o stage).1, List.mem_append]
    split_ifs with h
    · have hm : o ∈ p.evalQueue.map EvalEntry.owner := by
        obtain ⟨e, he, heo⟩ := List.any_eq_true.1 h
        exact List.mem_map.2 ⟨e, he, by simpa using heo⟩
      exact ⟨fun x => .inl (x.resolve_right (by simp)), fun x => .inl (x.elim id fun y => y ▸ hm)⟩
    · simp
  have hf : (p.enqueue o stage).inFlight o' = p.inFlight o' := by
    unfold Plant.inFlight; rw [p.enqueue_only o stage]
  have he : ((p.enqueue o stage).queued o' = true ∨ (p.enqueue o stage).inFlight o' = true) ↔
      (p.queued o' = true ∨ p.inFlight o' = true) ∨ o' = o := by rw [hq, hf]; tauto
  rw [Plant.offer_eq]; split_ifs
  · rw [Plant.beginEvaluation_work, he]
  · exact he

/-- What an offer leaves of the evaluation work depends on the work itself and on what a snapshot holds: tables, part time,
the session barrier, history rings, and the barriers' states and estimates (R92, R93). -/
theorem Plant.offer_congr {p q : Plant} (hq : q.evalQueue = p.evalQueue) (hf : q.flight = p.flight)
    (ht : q.tables = p.tables) (hn : q.now = p.now) (hs : q.session.barrier = p.session.barrier)
    (hx : q.exercise.history = p.exercise.history)
    (hb : ∀ j, (q.barrier j).state = (p.barrier j).state ∧ (q.barrier j).estimate = (p.barrier j).estimate ∧
      (q.barrier j).history = (p.barrier j).history) (o : EvalOwner) (stage : Nat) :
    (q.offer o stage).evalQueue = (p.offer o stage).evalQueue ∧ (q.offer o stage).flight = (p.offer o stage).flight := by
  have hqd : ∀ o, q.queued o = p.queued o := fun o => by unfold Plant.queued; rw [hq]
  have he : ∀ r : Plant, (r.enqueue o stage).evalQueue = if r.queued o then
      r.evalQueue.map (fun e => if e.owner == o then { e with stage := stage } else e) else r.evalQueue ++ [⟨o, stage⟩] := by
    intro r; unfold Plant.enqueue; split_ifs <;> rfl
  have hfe : ∀ r : Plant, (r.enqueue o stage).flight = r.flight := fun r => by rw [r.enqueue_only o stage]
  have same : (q.enqueue o stage).evalQueue = (p.enqueue o stage).evalQueue := by rw [he, he, hqd, hq]
  by_cases h0 : p.evalQueue = []
  · have hnq : ∀ r : Plant, r.evalQueue = [] → r.enqueue o stage = { r with evalQueue := [⟨o, stage⟩] } := by
      intro r hr; unfold Plant.enqueue Plant.queued; rw [hr]; rfl
    have h0' : q.evalQueue = [] := hq.trans h0
    rw [Plant.offer_eq, Plant.offer_eq, if_pos h0, if_pos h0', hnq p h0, hnq q h0']
    unfold Plant.beginEvaluation
    dsimp only
    rw [hf]
    cases p.flight with
    | some f => exact ⟨rfl, rfl⟩
    | none =>
      refine ⟨rfl, ?_⟩
      have htb : q.table = p.table := by funext k; simp only [Plant.table, ht]
      have hc : ∀ k, q.carriedRate k = p.carriedRate k := by
        intro k; unfold Plant.carriedRate; split
        · dsimp only; rw [(hb _).1]; unfold Barrier.full; rw [(hb _).2.1]
        · rfl
      cases o with
      | barrier k =>
        show some _ = some _
        congr 1
        exact Flight.mk.injEq .. |>.mpr ⟨rfl, rfl, congrFun htb k, (hb k).2.2, hc k, hn⟩
      | exercise =>
        show some _ = some _
        congr 1
        exact Flight.mk.injEq .. |>.mpr ⟨rfl, rfl, by rw [hs]; exact congrArg (fun g => (p.session.barrier.map g).getD .cleared) htb, hx, rfl, hn⟩
  · rw [Plant.offer_eq, Plant.offer_eq, if_neg h0, if_neg (by rw [hq]; exact h0)]
    exact ⟨same, by rw [hfe, hfe, hf]⟩

/-! ### End of a session -/

theorem Plant.current_some_iff (x : Session) (k : Fin 4) : x.current = some k ↔ x.active = true ∧ x.barrier = some k := by
  unfold Session.current; split_ifs with h <;> simp [h]

theorem Plant.recomputeExercise_barrierStep (l : List (Fin 8)) (p : Plant) :
    p.VillageStep (l.foldl (fun q v => q.recomputeExercise v) p) :=
  .foldl (fun q v => q.recomputeExercise_step v) l p

theorem Plant.stopSession_only (p : Plant) (reason : EndReason) :
    p.stopSession reason = { p with session := p.session.ended reason p.now, evalQueue := (p.stopSession reason).evalQueue,
                                    flight := (p.stopSession reason).flight } := by
  conv_lhs => unfold Plant.stopSession; rw [Plant.abandon_only]
  rfl

theorem Plant.stopSession_session (p : Plant) (reason : EndReason) :
    (p.stopSession reason).session = p.session.ended reason p.now := by rw [p.stopSession_only]

theorem Plant.stopSession_step (p : Plant) (reason : EndReason) : p.BarrierStep (p.stopSession reason) :=
  (⟨rfl, .of_villages rfl, id, id, fun _ => rfl⟩ : p.BarrierStep { p with session := p.session.ended reason p.now }).trans
    (Plant.abandon_step _ .exercise)

/-- The end of a session stops it, and tells the village side (R163). -/
theorem Plant.endSessionOf_spec (p : Plant) (reason : EndReason) (noted : List (Fin 8)) (active : p.session.active = true) :
    (p.stopSession reason).VillageStep (p.endSessionOf reason noted) := by
  unfold Plant.endSessionOf
  rw [if_pos active]
  exact (Plant.recomputeExercise_barrierStep noted _).trans (Plant.post_step _ _ _ _)

/-- What is left of the evaluation work when a session stops (R93, R163). -/
theorem Plant.stopSession_work (p : Plant) (reason : EndReason) :
    ((p.stopSession reason).evalQueue, (p.stopSession reason).flight) = p.workWithout .exercise := by
  unfold Plant.stopSession
  rw [Plant.abandon_workWithout]
  unfold Plant.workWithout
  dsimp only
  split_ifs
  · unfold Plant.beginEvaluation
    dsimp only
    cases p.evalQueue.filter fun e => decide (e.owner ≠ .exercise) <;> rfl
  · rfl

/-- The end of an active session (R129, R163): the record takes reason and end time, the exercise work goes, the noted
villages in use fall to CLEAR on their exercise levels and are handed on, and nothing else changes but for the notices. -/
theorem Plant.endSessionOf_result (p : Plant) (reason : EndReason) (noted : List (Fin 8)) (hn : noted.Nodup)
    (active : p.session.active = true) :
    let t := p.endSessionOf reason noted
    t = { p with evalQueue := t.evalQueue, flight := t.flight, session := t.session, villages := t.villages,
                 dispatch := t.dispatch, notices := t.notices } ∧
    t.session = p.session.ended reason p.now ∧ (t.evalQueue, t.flight) = p.workWithout .exercise ∧
    (∀ v, t.village v = if v ∈ noted ∧ (p.village v).inUse then (p.village v).formExercise none else p.village v) ∧
    (∀ v, t.disp v = if v ∈ noted ∧ (p.village v).inUse then
        (p.disp v).handOn false p.now ⟨(p.village v).announced, .clear, (p.village v).mask, (p.village v).permit⟩
      else p.disp v) ∧
    t.notices = (p.post .exerciseEnded ((p.session.barrier.map Fin.val).getD 255) reason.code).notices := by
  intro t
  have ht : t = (noted.foldl (init := p.stopSession reason) fun q v => q.recomputeExercise v).post .exerciseEnded
      ((p.session.barrier.map Fin.val).getD 255) reason.code := by
    simp only [t, Plant.endSessionOf]; rw [if_pos active]
  have hv := p.endSessionOf_spec reason noted active
  have hs := p.stopSession_only reason
  obtain ⟨_, e2, e3⟩ := (p.stopSession reason).recomputeExerciseAll_spec noted hn
  have e4 := (p.stopSession reason).recomputeExerciseAll_disp noted hn
  have hb : (p.stopSession reason).exerciseBasis = none := by
    simp [Plant.exerciseBasis, Session.current, p.stopSession_session reason, Session.ended]
  have hvi : ∀ v, (p.stopSession reason).village v = p.village v := fun v => by rw [hs]; rfl
  have hdi : ∀ v, (p.stopSession reason).disp v = p.disp v := fun v => by rw [hs]; rfl
  refine ⟨?_, ?_, ?_, fun v => ?_, fun v => ?_, ?_⟩
  · have h := hv.only.eq
    rw [hs] at h
    conv_lhs => rw [show t = p.endSessionOf reason noted from rfl, h]
    rw [show t.evalQueue = _ from hv.only.evalQueue, show t.flight = _ from hv.only.flight,
      show t.session = _ from hv.only.session, p.stopSession_session]
  · rw [show t.session = _ from hv.only.session, p.stopSession_session]
  · rw [show t.evalQueue = _ from hv.only.evalQueue, show t.flight = _ from hv.only.flight, p.stopSession_work]
  · rw [ht, Plant.post_village, e3, hvi, hb]
  · rw [ht]; show (noted.foldl (init := p.stopSession reason) fun q v => q.recomputeExercise v).disp v = _
    rw [e4, hvi, hdi, hb, p.stopSession_session, hs]
    split_ifs <;> rfl
  · rw [ht]; unfold Plant.post; rw [e2]
    have : (noted.foldl (init := p.stopSession reason) fun q v => q.recomputeExercise v).now = p.now := by
      rw [(Plant.recomputeExercise_barrierStep noted _).only.now, hs]
    rw [this, show (p.stopSession reason).notices = p.notices by rw [hs]]

theorem Plant.endSessionOf_step (p : Plant) (reason : EndReason) (noted : List (Fin 8)) :
    p.BarrierStep (p.endSessionOf reason noted) := by
  by_cases active : p.session.active = true
  · exact (p.stopSession_step reason).trans (p.endSessionOf_spec reason noted active).toBarrierStep
  · unfold Plant.endSessionOf; rw [if_neg active]; exact .refl p

theorem Plant.endSessionOn_step (p : Plant) (k : Fin 4) (reason : EndReason) : p.BarrierStep (p.endSessionOn k reason) := by
  unfold Plant.endSessionOn
  split_ifs
  · exact p.endSessionOf_step _ _
  · exact .refl p

/-- The end of a session changes no barrier record. -/
theorem Plant.endSessionOn_barrier (p : Plant) (k : Fin 4) (reason : EndReason) :
    (p.endSessionOn k reason).barrier = p.barrier := by
  unfold Plant.endSessionOn Plant.endSession
  split_ifs with h
  · rw [(p.endSessionOf_spec reason p.exercising ((Plant.current_some_iff _ _).1 h).1).only.barrier, p.stopSession_only]; rfl
  · rfl

/-- The session after an event that ends a session on barrier `k`. -/
theorem Plant.endSessionOn_session (p : Plant) (k : Fin 4) (reason : EndReason) :
    (p.endSessionOn k reason).session = if p.session.current = some k then
      p.session.ended reason p.now else p.session := by
  unfold Plant.endSessionOn Plant.endSession
  split_ifs with h
  · rw [(p.endSessionOf_spec reason p.exercising ((Plant.current_some_iff _ _).1 h).1).only.session, p.stopSession_session]
  · rfl

/-! ### Standing facts -/

/-- The estimator's facts without the session's. -/
structure Plant.EstimatorCore (p : Plant) : Prop where
  table : ∀ k, (p.barrier k).state = .active → (p.table k).verdict.crest?.isSome = true
  queue : ∀ e ∈ p.evalQueue, p.Live e.owner
  flight : ∀ f, p.flight = some f → p.Live f.owner

theorem Plant.EstimatorSound.core {p : Plant} (h : p.EstimatorSound) : p.EstimatorCore := ⟨h.table, h.queue, h.flight⟩

/-- The facts carry over to a plant with the same tables, work and session and barrier records that agree in what they rest
on. -/
theorem Plant.EstimatorSound.congr {p q : Plant} (h : p.EstimatorSound) (ht : q.table = p.table)
    (hb : ∀ k, (q.barrier k).state = (p.barrier k).state ∧ (q.barrier k).surgeFlag = (p.barrier k).surgeFlag ∧
      (q.barrier k).breached = (p.barrier k).breached)
    (hq : q.evalQueue.map EvalEntry.owner = p.evalQueue.map EvalEntry.owner) (hf : q.flight = p.flight)
    (hs : q.session = p.session) : q.EstimatorSound := by
  have live : ∀ o, q.Live o ↔ p.Live o := by
    intro o; cases o with
    | barrier k => simp [Plant.Live, (hb k).1]
    | exercise => simp [Plant.Live, hs]
  refine ⟨fun k hk => by rw [ht]; exact h.table k (by rw [← (hb k).1]; exact hk), fun e he => ?_, fun f hf' => ?_, fun ha => ?_⟩
  · have : e.owner ∈ p.evalQueue.map EvalEntry.owner := by rw [← hq]; exact List.mem_map_of_mem he
    obtain ⟨e', he', ho⟩ := List.mem_map.1 this
    rw [live, ← ho]; exact h.queue e' he'
  · rw [live]; exact h.flight f (by rw [← hf]; exact hf')
  · rw [hs] at ha ⊢
    obtain ⟨k, h1, h2, h3, h4⟩ := h.session ha
    exact ⟨k, h1, by rw [(hb k).1, h2], by rw [(hb k).2.1, h3], by rw [(hb k).2.2, h4]⟩

theorem Plant.VillageStep.estimator {p q : Plant} (s : p.VillageStep q) (h : p.EstimatorSound) : q.EstimatorSound :=
  h.congr (by funext k; simp [Plant.table, s.only.tables]) (fun k => by rw [s.only.barrier]; exact ⟨rfl, rfl, rfl⟩)
    (by rw [s.only.evalQueue]) s.only.flight s.only.session

theorem Plant.VillageStep.estimatorCore {p q : Plant} (s : p.VillageStep q) (h : p.EstimatorCore) : q.EstimatorCore := by
  have hb := s.only.barrier
  have live : q.Live = p.Live := by
    funext o; cases o <;> simp [Plant.Live, hb, s.only.session]
  have ht : q.table = p.table := by funext k; simp [Plant.table, s.only.tables]
  exact ⟨by rw [hb, ht]; exact h.table, by rw [live, s.only.evalQueue]; exact h.queue,
    by rw [live, s.only.flight]; exact h.flight⟩

/-- The take of the head keeps the facts: the evaluation in flight is the entry that waited. -/
theorem Plant.EstimatorCore.beginEvaluation {p : Plant} (h : p.EstimatorCore) : p.beginEvaluation.EstimatorCore := by
  rcases p.beginEvaluation_cases with ⟨_, e⟩ | ⟨e, rest, f, _, hq, ho, _, he⟩
  · rw [e]; exact h
  · rw [he]
    refine ⟨h.table, fun x hx => h.queue x (by rw [hq]; exact List.mem_cons_of_mem _ hx), fun g hg => ?_⟩
    cases hg
    have := h.queue e (by rw [hq]; exact List.mem_cons_self ..)
    rw [← ho] at this; exact this

theorem Plant.EstimatorSound.beginEvaluation {p : Plant} (h : p.EstimatorSound) : p.beginEvaluation.EstimatorSound := by
  have hc := h.core.beginEvaluation
  exact ⟨hc.table, hc.queue, hc.flight, by simpa using h.session⟩

/-- With an owner's work abandoned, the facts hold if they did for all other owners. -/
theorem Plant.EstimatorCore.abandon {p : Plant} (o : EvalOwner)
    (table : ∀ k, (p.barrier k).state = .active → (p.table k).verdict.crest?.isSome = true)
    (queue : ∀ e ∈ p.evalQueue, e.owner ≠ o → p.Live e.owner)
    (flight : ∀ f, p.flight = some f → f.owner ≠ o → p.Live f.owner) : (p.abandon o).EstimatorCore := by
  have hq : ∀ e ∈ (p.dropEntry o).evalQueue, p.Live e.owner := fun e he => by
    obtain ⟨h1, h2⟩ := List.mem_filter.1 he
    exact queue e h1 (by simpa using h2)
  rw [Plant.abandon_eq]; split_ifs with hi
  · exact Plant.EstimatorCore.beginEvaluation ⟨table, hq, fun f hf => by simp at hf⟩
  · exact ⟨table, hq, fun f hf => flight f hf fun ho => hi (by simp [Plant.inFlight, show p.flight = some f from hf, ho])⟩

/-- The end of a session restores the whole of the facts. -/
theorem Plant.EstimatorCore.endSession {p : Plant} (h : p.EstimatorCore) (active : p.session.active = true)
    (reason : EndReason) (noted : List (Fin 8)) : (p.endSessionOf reason noted).EstimatorSound := by
  have stopped : (p.stopSession reason).EstimatorCore := by
    have live : ∀ o, o ≠ .exercise → p.Live o → ({ p with session := p.session.ended reason p.now } : Plant).Live o := by
      intro o ho; cases o with
      | barrier k => exact id
      | exercise => exact absurd rfl ho
    exact Plant.EstimatorCore.abandon .exercise h.table (fun e he ho => live _ ho (h.queue e he))
      (fun f hf ho => live _ ho (h.flight f hf))
  have hv := p.endSessionOf_spec reason noted active
  have hc := hv.estimatorCore stopped
  refine ⟨hc.table, hc.queue, hc.flight, fun ha => ?_⟩
  rw [hv.only.session, p.stopSession_session] at ha
  simp [Session.ended] at ha

theorem Plant.EstimatorSound.endSessionOf {p : Plant} (h : p.EstimatorSound) (reason : EndReason) (noted : List (Fin 8)) :
    (p.endSessionOf reason noted).EstimatorSound := by
  by_cases ha : p.session.active = true
  · exact h.core.endSession ha reason noted
  · unfold Plant.endSessionOf; rw [if_neg ha]; exact h

/-- An event of barrier `k` that ends a session on it restores the facts, if they hold but for barrier `k`. -/
theorem Plant.EstimatorCore.endSessionOn {p : Plant} (h : p.EstimatorCore) (k : Fin 4) (reason : EndReason)
    (hs : p.session.active = true → ∃ j, p.session.barrier = some j ∧ (j ≠ k → (p.barrier j).state = .active ∧
      (p.barrier j).surgeFlag = false ∧ (p.barrier j).breached = false)) : (p.endSessionOn k reason).EstimatorSound := by
  unfold Plant.endSessionOn
  split_ifs with hc
  · exact h.endSession ((Plant.current_some_iff _ _).1 hc).1 _ _
  · refine ⟨h.table, h.queue, h.flight, fun ha => ?_⟩
    obtain ⟨j, hj, hb⟩ := hs ha
    exact ⟨j, hj, hb fun e => hc ((Plant.current_some_iff _ _).2 ⟨ha, by rw [hj, e]⟩)⟩

theorem Plant.EstimatorSound.enqueue {p : Plant} (h : p.EstimatorSound) (o : EvalOwner) (stage : Nat) (live : p.Live o) :
    (p.enqueue o stage).EstimatorSound := by
  have hb : ∀ k, ((p.enqueue o stage).barrier k).state = (p.barrier k).state ∧
      ((p.enqueue o stage).barrier k).surgeFlag = (p.barrier k).surgeFlag ∧
      ((p.enqueue o stage).barrier k).breached = (p.barrier k).breached := fun k => by
    rw [p.enqueue_barrier o stage k]; exact ⟨rfl, rfl, rfl⟩
  have hs : (p.enqueue o stage).session = p.session := by rw [p.enqueue_only o stage]
  have live' : ∀ x, (p.enqueue o stage).Live x ↔ p.Live x := by
    intro x; cases x with
    | barrier k => simp [Plant.Live, (hb k).1]
    | exercise => simp [Plant.Live, hs]
  have ht : (p.enqueue o stage).table = p.table := by rw [p.enqueue_only o stage]; rfl
  refine ⟨fun k hk => by rw [ht]; exact h.table k (by rw [← (hb k).1]; exact hk), fun e he => ?_, fun f hf => ?_, fun ha => ?_⟩
  · rw [live']
    have : e.owner ∈ (p.enqueue o stage).evalQueue.map EvalEntry.owner := List.mem_map_of_mem he
    rw [(p.enqueue_queue o stage).1, List.mem_append] at this
    rcases this with hm | hm
    · obtain ⟨e', he', ho⟩ := List.mem_map.1 hm; rw [← ho]; exact h.queue e' he'
    · split_ifs at hm with hq
      · simp at hm
      · simp at hm; rw [hm]; exact live
  · rw [live']; exact h.flight f (by rw [p.enqueue_only o stage] at hf; exact hf)
  · rw [hs] at ha ⊢
    obtain ⟨k, h1, h2, h3, h4⟩ := h.session ha
    exact ⟨k, h1, by rw [(hb k).1, h2], by rw [(hb k).2.1, h3], by rw [(hb k).2.2, h4]⟩

theorem Plant.EstimatorSound.offer {p : Plant} (h : p.EstimatorSound) (o : EvalOwner) (stage : Nat) (live : p.Live o) :
    (p.offer o stage).EstimatorSound := by
  rw [Plant.offer_eq]; split_ifs
  · exact (h.enqueue o stage live).beginEvaluation
  · exact h.enqueue o stage live

/-! ### Vote -/

theorem Plant.postBlind_step (p : Plant) (k : Fin 4) : p.VillageStep (p.postBlind k) := by
  unfold Plant.postBlind; split_ifs
  · exact p.post_step _ _ _
  · exact .refl p

/-- The counts of a vote change one barrier's counts and quality, and the village side (R88, R90). -/
theorem Plant.countVotes_spec (p : Plant) (k : Fin 4) :
    (p.setBarrier k ((p.barrier k).counted (p.realVotes k).length (p.assigned k))).VillageStep (p.countVotes k) := by
  unfold Plant.countVotes
  dsimp only
  split_ifs
  · exact .refl _
  · exact (Plant.postBlind_step _ k).trans (Plant.recomputeFor_step _ k)

theorem Plant.countVotes_step (p : Plant) (k : Fin 4) : p.BarrierStep (p.countVotes k) :=
  (p.setBarrier_step k ((p.barrier k).counted (p.realVotes k).length (p.assigned k)) rfl).trans
    (p.countVotes_spec k).toBarrierStep

theorem Plant.countVotes_barrier (p : Plant) (k j : Fin 4) : (p.countVotes k).barrier j =
    if j = k then (p.barrier k).counted (p.realVotes k).length (p.assigned k) else p.barrier j := by
  rw [(p.countVotes_spec k).only.barrier]
  split_ifs with hj
  · subst hj; simp
  · exact Plant.barrier_setBarrier_of_ne _ hj _

theorem Plant.takeStage_step (p : Plant) (k : Fin 4) (stage : Nat) : p.BarrierStep (p.takeStage k stage) :=
  (p.setBarrier_step k { p.barrier k with lastStage := some stage } rfl).trans (Plant.offer_step _ _ _)

/-- The vote of a barrier that is not ACTIVE does nothing (R88). -/
theorem Plant.vote_of_not_active {p : Plant} {k : Fin 4} (h : (p.barrier k).state ≠ .active) : p.vote k = p := by
  unfold Plant.vote; cases hs : (p.barrier k).state <;> first | rfl | exact absurd hs h

/-- The vote of an ACTIVE barrier (R88 to R90). -/
theorem Plant.vote_of_active {p : Plant} {k : Fin 4} (h : (p.barrier k).state = .active) : p.vote k =
    match voteStage (p.realVotes k) with
    | some stage => (p.countVotes k).takeStage k stage
    | none => p.countVotes k := by
  cases hv : voteStage (p.realVotes k) <;> simp [Plant.vote, h, hv]

theorem Plant.vote_step (p : Plant) (k : Fin 4) : p.BarrierStep (p.vote k) := by
  unfold Plant.vote
  split
  · split
    · exact (p.countVotes_step k).trans (Plant.takeStage_step _ k _)
    · exact p.countVotes_step k
  · exact .refl p
  · exact .refl p

/-- A barrier's record rewritten with its state, surge flag and breach causes kept. -/
theorem Plant.EstimatorSound.setBarrier {p : Plant} (h : p.EstimatorSound) (k : Fin 4) (b : Barrier)
    (hs : b.state = (p.barrier k).state) (hf : b.surgeFlag = (p.barrier k).surgeFlag)
    (hb : b.breached = (p.barrier k).breached) : (p.setBarrier k b).EstimatorSound :=
  h.congr rfl (fun j => by
    by_cases hj : j = k
    · subst hj; rw [Plant.barrier_setBarrier]; exact ⟨hs, hf, hb⟩
    · rw [Plant.barrier_setBarrier_of_ne _ hj]; exact ⟨rfl, rfl, rfl⟩) rfl rfl rfl

theorem Plant.EstimatorSound.countVotes {p : Plant} (h : p.EstimatorSound) (k : Fin 4) : (p.countVotes k).EstimatorSound :=
  (p.countVotes_spec k).estimator (h.setBarrier k _ rfl rfl rfl)

theorem Plant.EstimatorSound.vote {p : Plant} (h : p.EstimatorSound) (k : Fin 4) : (p.vote k).EstimatorSound := by
  unfold Plant.vote
  split
  · rename_i ha
    split
    · rename_i stage _
      refine ((h.countVotes k).setBarrier k { (p.countVotes k).barrier k with lastStage := some stage } rfl rfl rfl).offer
        _ _ ?_
      simp [Plant.Live, Plant.countVotes_barrier, Barrier.counted, ha]
    · exact h.countVotes k
  · exact h
  · exact h

theorem Plant.setExercise_step (p : Plant) (x : ExerciseRec) : p.BarrierStep { p with exercise := x } :=
  ⟨rfl, .of_villages rfl, id, id, fun _ => rfl⟩

/-- The exercise vote (R160) changes the exercise record's vote and offers, and nothing else. -/
theorem Plant.exerciseVote_step (p : Plant) (k : Fin 4) : p.BarrierStep (p.exerciseVote k) := by
  unfold Plant.exerciseVote
  dsimp only
  split_ifs
  · split
    · exact (p.setExercise_step _).trans (Plant.offer_step _ _ _)
    · exact p.setExercise_step _
  · exact .refl p

theorem Plant.EstimatorSound.exerciseVote {p : Plant} (h : p.EstimatorSound) (k : Fin 4) :
    (p.exerciseVote k).EstimatorSound := by
  unfold Plant.exerciseVote
  dsimp only
  split_ifs with hc
  · have h1 : ∀ x, ({ p with exercise := x } : Plant).EstimatorSound := fun x =>
      h.congr rfl (fun _ => ⟨rfl, rfl, rfl⟩) rfl rfl rfl
    split
    · exact (h1 _).offer _ _ ((Plant.current_some_iff _ _).1 hc).1
    · exact h1 _
  · exact h

/-! ### Surge and breach assessment -/

/-- A surge flag and timer are written, and the ladder told of a change (R104, R105). -/
theorem Plant.setSurgeFlag_spec (p : Plant) (k : Fin 4) (flag : Bool) (timer : Timer) :
    (p.setBarrier k { p.barrier k with surgeFlag := flag, surgeTimer := timer }).VillageStep (p.setSurgeFlag k flag timer) := by
  unfold Plant.setSurgeFlag
  dsimp only
  split_ifs
  · exact .refl _
  · exact Plant.recomputeFor_step _ k

theorem Plant.setSurgeFlag_step (p : Plant) (k : Fin 4) (flag : Bool) (timer : Timer) :
    p.BarrierStep (p.setSurgeFlag k flag timer) :=
  (p.setBarrier_step k { p.barrier k with surgeFlag := flag, surgeTimer := timer } rfl).trans
    (p.setSurgeFlag_spec k flag timer).toBarrierStep

theorem Plant.setSurgeFlag_barrier (p : Plant) (k : Fin 4) (flag : Bool) (timer : Timer) (j : Fin 4) :
    (p.setSurgeFlag k flag timer).barrier j =
      if j = k then { p.barrier k with surgeFlag := flag, surgeTimer := timer } else p.barrier j := by
  rw [(p.setSurgeFlag_spec k flag timer).only.barrier]
  split_ifs with hj
  · subst hj; simp
  · exact Plant.barrier_setBarrier_of_ne _ hj _

/-- A barrier's record rewritten with state and breach causes kept leaves the facts but for the session's. -/
theorem Plant.EstimatorCore.setBarrier {p : Plant} (h : p.EstimatorCore) (k : Fin 4) (b : Barrier)
    (hb : b.state = (p.barrier k).state) : (p.setBarrier k b).EstimatorCore := by
  have hs : ∀ j, ((p.setBarrier k b).barrier j).state = (p.barrier j).state := (p.setBarrier_step k b hb).states
  have live : ∀ o, (p.setBarrier k b).Live o ↔ p.Live o := by
    intro o; cases o with
    | barrier j => simp [Plant.Live, hs]
    | exercise => rfl
  exact ⟨fun j hj => h.table j (by rw [← hs]; exact hj), fun e he => (live _).2 (h.queue e he),
    fun f hf => (live _).2 (h.flight f hf)⟩

theorem Plant.assessSurge_step (p : Plant) (k : Fin 4) : p.BarrierStep (p.assessSurge k) := by
  unfold Plant.assessSurge
  dsimp only
  split_ifs
  · exact p.setSurgeFlag_step k _ _
  · exact (p.setSurgeFlag_step k _ _).trans (Plant.endSessionOn_step _ _ _)
  · exact .refl p
  · exact p.setSurgeFlag_step k _ _

theorem Plant.EstimatorSound.setSurgeFlag {p : Plant} (h : p.EstimatorSound) (k : Fin 4) (flag : Bool) (timer : Timer)
    (hf : flag = true → (p.barrier k).surgeFlag = true) : (p.setSurgeFlag k flag timer).EstimatorSound := by
  refine (p.setSurgeFlag_spec k flag timer).estimator ?_
  have hc := h.core.setBarrier k { p.barrier k with surgeFlag := flag, surgeTimer := timer } rfl
  refine ⟨hc.table, hc.queue, hc.flight, fun ha => ?_⟩
  obtain ⟨j, h1, h2, h3, h4⟩ := h.session ha
  refine ⟨j, h1, ?_⟩
  by_cases hj : j = k
  · subst hj
    rw [Plant.barrier_setBarrier]
    refine ⟨h2, ?_, h4⟩
    cases flag
    · rfl
    · exact absurd (hf rfl) (by simp [h3])
  · rw [Plant.barrier_setBarrier_of_ne _ hj]; exact ⟨h2, h3, h4⟩

theorem Plant.EstimatorSound.assessSurge {p : Plant} (h : p.EstimatorSound) (k : Fin 4) : (p.assessSurge k).EstimatorSound := by
  unfold Plant.assessSurge
  dsimp only
  split_ifs with h1 h2
  · exact h.setSurgeFlag k _ _ fun _ => h2
  · have hc := (p.setSurgeFlag_spec k true (.startMin (p.barrier k).surgeHold)).estimatorCore
      (h.core.setBarrier k { p.barrier k with surgeFlag := true, surgeTimer := .startMin (p.barrier k).surgeHold } rfl)
    refine hc.endSessionOn k .surge fun ha => ?_
    have hs := (p.setSurgeFlag_spec k true (.startMin (p.barrier k).surgeHold)).only.session
    rw [hs] at ha ⊢
    obtain ⟨j, h1, h2, h3, h4⟩ := h.session ha
    exact ⟨j, h1, fun hj => by rw [Plant.setSurgeFlag_barrier, if_neg hj]; exact ⟨h2, h3, h4⟩⟩
  · exact h
  · exact h.setSurgeFlag k _ _ fun hf => by simp at hf

theorem Plant.assessBreach_step (p : Plant) (k : Fin 4) : p.BarrierStep (p.assessBreach k) := by
  unfold Plant.assessBreach
  dsimp only
  have h := fun w => (p.setBarrier_step k { p.barrier k with wire := w } rfl).trans
    (Plant.recomputeFor_step _ k).toBarrierStep
  split_ifs
  · exact .refl p
  · exact (h _).trans (Plant.endSessionOn_step _ _ _)
  · exact h _

/-- The WIRE cause of a barrier after its breach assessment stands exactly while a latch is set (R106). -/
theorem Plant.assessBreach_barrier (p : Plant) (k j : Fin 4) :
    (p.assessBreach k).barrier j = if j = k then { p.barrier k with wire := p.anyLatched k } else p.barrier j := by
  have hr : ∀ w, ((p.setBarrier k { p.barrier k with wire := w }).recomputeFor k).barrier j =
      if j = k then { p.barrier k with wire := w } else p.barrier j := fun w => by
    rw [(Plant.recomputeFor_step _ k).only.barrier]
    split_ifs with hj
    · subst hj; simp
    · exact Plant.barrier_setBarrier_of_ne _ hj _
  by_cases hw : p.anyLatched k = (p.barrier k).wire
  · have : p.assessBreach k = p := by simp [Plant.assessBreach, hw]
    rw [this]; split_ifs with hj
    · subst hj; rw [hw]
    · rfl
  · by_cases hl : p.anyLatched k = true
    · have : p.assessBreach k =
          ((p.setBarrier k { p.barrier k with wire := p.anyLatched k }).recomputeFor k).endSessionOn k .breach := by
        simp only [Plant.assessBreach]; rw [if_neg hw, if_pos hl]
      rw [this, Plant.endSessionOn_barrier]; exact hr _
    · have : p.assessBreach k = (p.setBarrier k { p.barrier k with wire := p.anyLatched k }).recomputeFor k := by
        simp only [Plant.assessBreach]; rw [if_neg hw, if_neg hl]
      rw [this]; exact hr _

theorem Plant.EstimatorSound.assessBreach {p : Plant} (h : p.EstimatorSound) (k : Fin 4) :
    (p.assessBreach k).EstimatorSound := by
  unfold Plant.assessBreach
  dsimp only
  have hv := fun w => Plant.recomputeFor_step (p.setBarrier k { p.barrier k with wire := w }) k
  have hc := fun w => (hv w).estimatorCore (h.core.setBarrier k { p.barrier k with wire := w } rfl)
  split_ifs with h1 h2
  · exact h
  · refine (hc _).endSessionOn k .breach fun ha => ?_
    rw [(hv _).only.session] at ha ⊢
    obtain ⟨j, h3, h4, h5, h6⟩ := h.session ha
    exact ⟨j, h3, fun hj => by rw [(hv _).only.barrier, Plant.barrier_setBarrier_of_ne _ hj]; exact ⟨h4, h5, h6⟩⟩
  · refine (hv _).estimator ?_
    have hc := h.core.setBarrier k { p.barrier k with wire := p.anyLatched k } rfl
    refine ⟨hc.table, hc.queue, hc.flight, fun ha => ?_⟩
    obtain ⟨j, h3, h4, h5, h6⟩ := h.session ha
    refine ⟨j, h3, ?_⟩
    by_cases hj : j = k
    · subst hj; rw [Plant.barrier_setBarrier]
      refine ⟨h4, h5, ?_⟩
      simp only [Barrier.breached, Bool.or_eq_false_iff] at h6 ⊢
      exact ⟨by simpa using h2, h6.2⟩
    · rw [Plant.barrier_setBarrier_of_ne _ hj]; exact ⟨h4, h5, h6⟩

/-! ### Completion -/

theorem Plant.reofferBelow_step (p : Plant) (k : Fin 4) : p.BarrierStep (p.reofferBelow k) := by
  unfold Plant.reofferBelow
  split
  · dsimp only
    split
    · split_ifs
      · exact .refl p
      · exact p.offer_step _ _
    · exact .refl p
  · exact .refl p

theorem Plant.reofferBelow_only (p : Plant) (k : Fin 4) :
    p.reofferBelow k = { p with barriers := (p.reofferBelow k).barriers, evalQueue := (p.reofferBelow k).evalQueue,
                                flight := (p.reofferBelow k).flight, exercise := (p.reofferBelow k).exercise } ∧
    ∀ j, (p.reofferBelow k).barrier j = { p.barrier j with superseded := ((p.reofferBelow k).barrier j).superseded } := by
  unfold Plant.reofferBelow
  split
  · dsimp only
    split
    · split_ifs
      · exact ⟨rfl, fun _ => rfl⟩
      · exact ⟨p.offer_only _ _, p.offer_barrier _ _⟩
    · exact ⟨rfl, fun _ => rfl⟩
  · exact ⟨rfl, fun _ => rfl⟩

/-- Barrier `k` itself is not what a re-offer below it counts. -/
theorem Plant.reofferBelow_barrier_self (p : Plant) (k : Fin 4) : (p.reofferBelow k).barrier k = p.barrier k := by
  unfold Plant.reofferBelow
  split
  · dsimp only
    split
    · split_ifs
      · rfl
      · rw [Plant.offer_barrier_eq]; unfold Plant.enqueue
        split_ifs
        · exact Plant.barrier_setBarrier_of_ne _ (fun e => by have := congrArg Fin.val e; simp at this) _
        · rfl
    · rfl
  · rfl

/-- The re-offer below a barrier, in the words of R101. -/
theorem Plant.reofferBelow_eq (p : Plant) (k : Fin 4) : p.reofferBelow k = p.reofferedBelow k := by
  unfold Plant.reofferBelow Plant.reofferedBelow
  split
  · rename_i h
    dsimp only
    generalize hb : p.barrier ⟨k.1 + 1, h⟩ = b
    cases hs : b.state <;> cases hl : b.lastStage <;> simp
  · rfl

theorem Plant.EstimatorSound.reofferBelow {p : Plant} (h : p.EstimatorSound) (k : Fin 4) : (p.reofferBelow k).EstimatorSound := by
  unfold Plant.reofferBelow
  split
  · dsimp only
    split
    · rename_i hs _
      split_ifs
      · exact h
      · exact h.offer _ _ hs
    · exact h
  · exact h

theorem Plant.testSession_step (p : Plant) (k : Fin 4) (ceiling fill : Nat) (appeared : Bool) :
    p.BarrierStep (p.testSession k ceiling fill appeared) := by
  unfold Plant.testSession
  split_ifs
  · exact p.endSessionOn_step _ _
  · exact p.endSessionOn_step _ _
  · exact .refl p

theorem Plant.testSession_barrier (p : Plant) (k : Fin 4) (ceiling fill : Nat) (appeared : Bool) :
    (p.testSession k ceiling fill appeared).barrier = p.barrier := by
  unfold Plant.testSession
  split_ifs
  · exact p.endSessionOn_barrier _ _
  · exact p.endSessionOn_barrier _ _
  · rfl

/-- A completion writes its barrier and tells the ladder, tests the session, and may re-offer below (R94 to R101). -/
theorem Plant.takeResult_spec (p : Plant) (ceiling : Nat) (k : Fin 4) (e : Estimate) (ring : List HistoryRec) :
    ∃ q, ({ p with flight := none }.setBarrier k ((p.barrier k).completed e ring)).VillageStep q ∧
      p.takeResult ceiling k e ring = (q.recomputeFor k).testSession k ceiling e.fill
        (((p.barrier k).completed e ring).overtop && !(p.barrier k).overtop) ∧ q.villages = p.villages := by
  refine ⟨if ((p.barrier k).completed e ring).quality = (p.barrier k).quality then
      { p with flight := none }.setBarrier k ((p.barrier k).completed e ring)
    else ({ p with flight := none }.setBarrier k ((p.barrier k).completed e ring)).postBlind k, ?_, by
      simp only [Plant.takeResult], ?_⟩
  · split_ifs
    · exact .refl _
    · exact Plant.postBlind_step _ k
  · split_ifs
    · rfl
    · unfold Plant.postBlind; split_ifs <;> rfl

theorem Plant.takeResult_step (p : Plant) (ceiling : Nat) (k : Fin 4) (e : Estimate) (ring : List HistoryRec) :
    p.BarrierStep (p.takeResult ceiling k e ring) := by
  obtain ⟨q, hq, h, _⟩ := p.takeResult_spec ceiling k e ring
  rw [h]
  exact (((p.clearFlight_step.trans (Plant.setBarrier_step _ k ((p.barrier k).completed e ring) rfl)).trans
    hq.toBarrierStep).trans (q.recomputeFor_step k).toBarrierStep).trans (Plant.testSession_step _ k ceiling _ _)

theorem Plant.completeWith_step (p : Plant) (ceiling : Nat) (k : Fin 4) (e : Estimate) (ring : List HistoryRec) :
    p.BarrierStep (p.completeWith ceiling k e ring) := by
  unfold Plant.completeWith
  split_ifs
  · exact (p.takeResult_step ceiling k e ring).trans (Plant.reofferBelow_step _ k)
  · exact p.takeResult_step ceiling k e ring

theorem Plant.takeResult_barrier (p : Plant) (ceiling : Nat) (k : Fin 4) (e : Estimate) (ring : List HistoryRec) (j : Fin 4) :
    (p.takeResult ceiling k e ring).barrier j = if j = k then (p.barrier k).completed e ring else p.barrier j := by
  obtain ⟨q, hq, h, _⟩ := p.takeResult_spec ceiling k e ring
  rw [h, Plant.testSession_barrier, (q.recomputeFor_step k).only.barrier, hq.only.barrier]
  split_ifs with hj
  · subst hj; simp
  · exact Plant.barrier_setBarrier_of_ne _ hj _

/-- Every barrier's record after a completion: barrier `k` as completed, any other but for its superseded count. -/
theorem Plant.completeWith_barrier (p : Plant) (ceiling : Nat) (k : Fin 4) (e : Estimate) (ring : List HistoryRec) :
    (p.completeWith ceiling k e ring).barrier k = (p.barrier k).completed e ring ∧
    ∀ j, j ≠ k → (p.completeWith ceiling k e ring).barrier j =
      { p.barrier j with superseded := ((p.completeWith ceiling k e ring).barrier j).superseded } := by
  have h := p.takeResult_barrier ceiling k e ring
  unfold Plant.completeWith
  split_ifs
  · refine ⟨by rw [Plant.reofferBelow_barrier_self, h, if_pos rfl], fun j hj => ?_⟩
    rw [(Plant.reofferBelow_only _ k).2 j, h, if_neg hj]
  · exact ⟨by rw [h, if_pos rfl], fun j hj => by rw [h, if_neg hj]⟩

theorem Plant.EstimatorSound.clearFlight {p : Plant} (h : p.EstimatorSound) : ({ p with flight := none } : Plant).EstimatorSound :=
  ⟨h.table, h.queue, fun _ hf => by simp at hf, h.session⟩

theorem Plant.EstimatorSound.takeResult {p : Plant} (h : p.EstimatorSound) (ceiling : Nat) (k : Fin 4) (e : Estimate)
    (ring : List HistoryRec) : (p.takeResult ceiling k e ring).EstimatorSound := by
  obtain ⟨q, hq, h', _⟩ := p.takeResult_spec ceiling k e ring
  have hv := hq.trans (q.recomputeFor_step k)
  have hc := hv.estimatorCore (h.clearFlight.core.setBarrier k ((p.barrier k).completed e ring) rfl)
  have hs : (q.recomputeFor k).session = p.session := hv.only.session
  have hj : ∀ j, j ≠ k → (q.recomputeFor k).barrier j = p.barrier j := fun j hj => by
    rw [hv.only.barrier, Plant.barrier_setBarrier_of_ne _ hj]; rfl
  have hk : (q.recomputeFor k).barrier k = (p.barrier k).completed e ring := by rw [hv.only.barrier]; simp
  rw [h']
  have others : (q.recomputeFor k).session.active = true → ∃ j, (q.recomputeFor k).session.barrier = some j ∧
      (j ≠ k → ((q.recomputeFor k).barrier j).state = .active ∧ ((q.recomputeFor k).barrier j).surgeFlag = false ∧
        ((q.recomputeFor k).barrier j).breached = false) := fun ha => by
    rw [hs] at ha ⊢
    obtain ⟨j, h1, h2, h3, h4⟩ := h.session ha
    exact ⟨j, h1, fun hne => by rw [hj j hne]; exact ⟨h2, h3, h4⟩⟩
  unfold Plant.testSession
  split_ifs with ho hcl
  · exact hc.endSessionOn k .breach others
  · exact hc.endSessionOn k .ceiling others
  · refine ⟨hc.table, hc.queue, hc.flight, fun ha => ?_⟩
    rw [hs] at ha ⊢
    obtain ⟨j, h1, h2, h3, h4⟩ := h.session ha
    refine ⟨j, h1, ?_⟩
    by_cases hne : j = k
    · subst hne
      rw [hk]
      refine ⟨h2, h3, ?_⟩
      simp only [Barrier.breached, Bool.or_eq_false_iff, Barrier.completed] at h4 ⊢
      simp only [Barrier.completed, h4.2, Bool.not_false, Bool.and_true] at ho
      exact ⟨h4.1, by simpa using ho⟩
    · rw [hj j hne]; exact ⟨h2, h3, h4⟩

theorem Plant.EstimatorSound.completeWith {p : Plant} (h : p.EstimatorSound) (ceiling : Nat) (k : Fin 4) (e : Estimate)
    (ring : List HistoryRec) : (p.completeWith ceiling k e ring).EstimatorSound := by
  unfold Plant.completeWith
  split_ifs
  · exact (h.takeResult ceiling k e ring).reofferBelow k
  · exact h.takeResult ceiling k e ring

theorem Plant.completeExercise_step (p : Plant) (f : Flight) : p.BarrierStep (p.completeExercise f) := by
  unfold Plant.completeExercise
  split
  · exact (p.clearFlight_step.trans (Plant.setExercise_step _ _)).trans (Plant.recomputeExerciseFor_spec _ _).1.toBarrierStep
  · exact p.clearFlight_step

theorem Plant.EstimatorSound.completeExercise {p : Plant} (h : p.EstimatorSound) (f : Flight) :
    (p.completeExercise f).EstimatorSound := by
  unfold Plant.completeExercise
  split
  · exact (Plant.recomputeExerciseFor_spec _ _).1.estimator
      (h.clearFlight.congr rfl (fun _ => ⟨rfl, rfl, rfl⟩) rfl rfl rfl)
  · exact h.clearFlight

/-! ### The unit stays at work while the queue holds an entry (R93) -/

theorem Plant.AtWork.of_beginEvaluation (p : Plant) : p.beginEvaluation.AtWork := p.beginEvaluation_atWork

theorem Plant.AtWork.congr {p q : Plant} (h : p.AtWork) (hq : q.evalQueue = p.evalQueue) (hf : q.flight = p.flight) :
    q.AtWork := by
  unfold Plant.AtWork; rw [hq, hf]; exact h

theorem Plant.VillageStep.atWork {p q : Plant} (s : p.VillageStep q) (h : p.AtWork) : q.AtWork :=
  h.congr s.only.evalQueue s.only.flight

theorem Plant.AtWork.offer {p : Plant} (h : p.AtWork) (o : EvalOwner) (stage : Nat) : (p.offer o stage).AtWork := by
  rw [Plant.offer_eq]; split_ifs with hq
  · exact .of_beginEvaluation _
  · intro hf
    rw [p.enqueue_only o stage] at hf
    exact absurd (h hf) hq

theorem Plant.AtWork.abandon {p : Plant} (h : p.AtWork) (o : EvalOwner) : (p.abandon o).AtWork := by
  rw [Plant.abandon_eq]; split_ifs
  · exact .of_beginEvaluation _
  · intro hf
    show p.evalQueue.filter _ = []
    rw [h hf]; rfl

theorem Plant.AtWork.endSessionOf {p : Plant} (h : p.AtWork) (reason : EndReason) (noted : List (Fin 8)) :
    (p.endSessionOf reason noted).AtWork := by
  by_cases active : p.session.active = true
  · have stopped : (p.stopSession reason).AtWork :=
      Plant.AtWork.abandon (p := { p with session := p.session.ended reason p.now }) h .exercise
    exact (p.endSessionOf_spec reason noted active).atWork stopped
  · rw [Plant.endSessionOf, if_neg active]; exact h

theorem Plant.AtWork.endSessionOn {p : Plant} (h : p.AtWork) (k : Fin 4) (reason : EndReason) :
    (p.endSessionOn k reason).AtWork := by
  unfold Plant.endSessionOn; split_ifs
  · exact h.endSessionOf reason _
  · exact h

theorem Plant.AtWork.vote {p : Plant} (h : p.AtWork) (k : Fin 4) : (p.vote k).AtWork := by
  have hc : (p.countVotes k).AtWork := (p.countVotes_spec k).atWork h
  unfold Plant.vote; split
  · split
    · exact Plant.AtWork.offer (p := (p.countVotes k).setBarrier k _) hc _ _
    · exact hc
  all_goals exact h

theorem Plant.AtWork.exerciseVote {p : Plant} (h : p.AtWork) (k : Fin 4) : (p.exerciseVote k).AtWork := by
  unfold Plant.exerciseVote; split_ifs
  · dsimp only; split
    · refine Plant.AtWork.offer ?_ _ _
      exact h
    · exact h
  · exact h

theorem Plant.AtWork.assessSurge {p : Plant} (h : p.AtWork) (k : Fin 4) : (p.assessSurge k).AtWork := by
  have hs : ∀ flag timer, (p.setSurgeFlag k flag timer).AtWork := fun flag timer => (p.setSurgeFlag_spec k flag timer).atWork h
  unfold Plant.assessSurge; dsimp only; split_ifs
  · exact hs _ _
  · exact (hs _ _).endSessionOn k _
  · exact h
  · exact hs _ _

theorem Plant.AtWork.assessBreach {p : Plant} (h : p.AtWork) (k : Fin 4) : (p.assessBreach k).AtWork := by
  have hr : ∀ b, ((p.setBarrier k b).recomputeFor k).AtWork := fun b => (Plant.recomputeFor_step _ k).atWork h
  unfold Plant.assessBreach; dsimp only; split_ifs
  · exact h
  · exact (hr _).endSessionOn k _
  · exact hr _

theorem Plant.AtWork.reofferBelow {p : Plant} (h : p.AtWork) (k : Fin 4) : (p.reofferBelow k).AtWork := by
  unfold Plant.reofferBelow; split
  · dsimp only; split
    · split_ifs
      · exact h
      · exact h.offer _ _
    · exact h
  · exact h

end Sys2Proof.Machine
end

