-- ==== Sys2Proof/Laws/Conditioning.lean ====
section
/-! SUPPORT. What the Channel Conditioner's operations do: readings, lapses, returns and clearing, each channel's record and
what the reports reach downward. -/

namespace Sys2Proof.Machine

/-- What a step from the channels downward does: the frame, the ladder's and estimator's facts, the notice set's, one queue
entry per owner, and every barrier's state kept. -/
structure Plant.ChannelStep (p q : Plant) : Prop where
  only : p.ChannelSideOnly q
  ladder : p.LadderUp q
  notices : p.NoticesGood → q.NoticesGood
  owners : (p.evalQueue.map EvalEntry.owner).Nodup → (q.evalQueue.map EvalEntry.owner).Nodup
  states : ∀ k, (q.barrier k).state = (p.barrier k).state
  estimator : p.EstimatorSound → q.EstimatorSound

theorem Plant.ChannelStep.refl (p : Plant) : p.ChannelStep p := ⟨.refl p, .refl p, id, id, fun _ => rfl, id⟩

theorem Plant.ChannelStep.trans {p q r : Plant} (h : p.ChannelStep q) (h' : q.ChannelStep r) : p.ChannelStep r :=
  ⟨h.only.trans h'.only, h.ladder.trans h'.ladder, fun n => h'.notices (h.notices n), fun n => h'.owners (h.owners n),
    fun k => (h'.states k).trans (h.states k), fun e => h'.estimator (h.estimator e)⟩

theorem Plant.BarrierStep.toChannelStep {p q : Plant} (h : p.BarrierStep q) (e : p.EstimatorSound → q.EstimatorSound) :
    p.ChannelStep q :=
  ⟨h.only.toChannelSideOnly, h.ladder, h.notices, h.owners, h.states, e⟩

theorem Plant.EstimatorSound.setChannel {p : Plant} (h : p.EstimatorSound) (c : Fin 48) (ch : Channel) :
    (p.setChannel c ch).EstimatorSound := h.congr rfl (fun _ => ⟨rfl, rfl, rfl⟩) rfl rfl rfl

theorem Plant.EstimatorSound.setPattern {p : Plant} (h : p.EstimatorSound) (c : Fin 48) (r : Pattern) :
    (p.setPattern c r).EstimatorSound := h.congr rfl (fun _ => ⟨rfl, rfl, rfl⟩) rfl rfl rfl

theorem Plant.setChannel_step (p : Plant) (c : Fin 48) (ch : Channel) : p.ChannelStep (p.setChannel c ch) :=
  ⟨rfl, .of_villages rfl, id, id, fun _ => rfl, fun h => h.setChannel c ch⟩

theorem Plant.setPattern_step (p : Plant) (c : Fin 48) (r : Pattern) : p.ChannelStep (p.setPattern c r) :=
  ⟨rfl, .of_villages rfl, id, id, fun _ => rfl, fun h => h.setPattern c r⟩

theorem Plant.ChannelStep.foldl {α : Type} {f : Plant → α → Plant} (h : ∀ (q : Plant) (a : α), q.ChannelStep (f q a))
    (l : List α) (p : Plant) : p.ChannelStep (l.foldl f p) :=
  foldl_keeps (R := p.ChannelStep) (fun q a hq => hq.trans (h q a)) l p (.refl p)

/-! ### Reports reach no channel and no pattern -/

theorem Plant.reportReal_step (p : Plant) (ch : Channel) (report : Bool) :
    p.BarrierStep (p.reportReal ch report) ∧ (p.EstimatorSound → (p.reportReal ch report).EstimatorSound) := by
  unfold Plant.reportReal
  split
  · exact ⟨p.vote_step _, fun h => h.vote _⟩
  · exact ⟨.refl p, id⟩

theorem Plant.reportExercise_step (p : Plant) (ch : Channel) (report : Bool) :
    p.BarrierStep (p.reportExercise ch report) ∧ (p.EstimatorSound → (p.reportExercise ch report).EstimatorSound) := by
  unfold Plant.reportExercise
  split
  · exact ⟨p.exerciseVote_step _, fun h => h.exerciseVote _⟩
  · exact ⟨.refl p, id⟩

theorem Plant.reportSurge_step (p : Plant) (ch : Channel) :
    p.BarrierStep (p.reportSurge ch) ∧ (p.EstimatorSound → (p.reportSurge ch).EstimatorSound) := by
  unfold Plant.reportSurge
  split
  · exact ⟨p.assessSurge_step _, fun h => h.assessSurge _⟩
  · exact ⟨.refl p, id⟩

theorem Plant.reportLatch_step (p : Plant) (ch : Channel) (changed : Bool) :
    p.BarrierStep (p.reportLatch ch changed) ∧ (p.EstimatorSound → (p.reportLatch ch changed).EstimatorSound) := by
  unfold Plant.reportLatch
  split
  · exact ⟨p.assessBreach_step _, fun h => h.assessBreach _⟩
  · exact ⟨.refl p, id⟩

theorem Plant.reportLost_step (p : Plant) (old : Channel) :
    p.BarrierStep (p.reportLost old) ∧ (p.EstimatorSound → (p.reportLost old).EstimatorSound) := by
  unfold Plant.reportLost
  by_cases hu : old.inUse = true
  · rw [if_pos hu]
    split
    · exact ⟨(p.reportReal_step _ _).1.trans (Plant.reportExercise_step _ _ _).1,
        fun h => (Plant.reportExercise_step _ _ _).2 ((p.reportReal_step _ _).2 h)⟩
    · split_ifs
      · exact p.reportSurge_step _
      · exact ⟨.refl p, id⟩
    · exact ⟨.refl p, id⟩
  · rw [if_neg hu]; exact ⟨.refl p, id⟩

/-! ### What a reading may do to channel records -/

/-- A channel record after a step that keeps its settings and source, and its soundness. -/
structure Channel.Conditioned (a b : Channel) : Prop where
  inUse : b.inUse = a.inUse
  kind : b.kind = a.kind
  barrier : b.barrier = a.barrier
  eligible : b.eligible = a.eligible
  sound : a.Sound → b.Sound

theorem Channel.Conditioned.refl (a : Channel) : a.Conditioned a := ⟨rfl, rfl, rfl, rfl, id⟩

theorem Channel.Conditioned.trans {a b c : Channel} (h : a.Conditioned b) (h' : b.Conditioned c) : a.Conditioned c :=
  ⟨h'.inUse.trans h.inUse, h'.kind.trans h.kind, h'.barrier.trans h.barrier, h'.eligible.trans h.eligible,
    fun s => h'.sound (h.sound s)⟩

theorem Plant.ChannelSideOnly.setChannel_barrierSide {p q : Plant} {c : Fin 48} {ch : Channel}
    (h : (p.setChannel c ch).BarrierSideOnly q) (d : Fin 48) :
    q.channel d = (if d = c then ch else p.channel d) ∧ q.pattern d = p.pattern d := by
  constructor
  · rw [h.channel]
    split_ifs with hd
    · subst hd; simp
    · exact Plant.channel_setChannel_of_ne _ hd _
  · unfold Plant.pattern; rw [h.patterns]; rfl

/-- A path becomes VALID only at a value of an eligible channel, and a missing reading makes none VALID (R51, R55). -/
theorem StagePath.condition_valid (ch : Channel) (r : Nat) (s : StagePath) :
    (s.condition ch r).1.valid = true → s.valid = true ∨ ch.eligible = true := by
  unfold StagePath.condition
  split_ifs
  · unfold StagePath.miss
    dsimp only
    split_ifs
    · exact .inl
    · simp [StagePath.clearMissed]
  · intro h
    right
    simpa [StagePath.value] using h

theorem Plant.driveExercise_spec (p : Plant) (c : Fin 48) (r : Nat) (use : (p.channel c).inUse = true)
    (kind : (p.channel c).kind = .stage) :
    p.ChannelStep (p.driveExercise c r) ∧ (p.channel c).Conditioned ((p.driveExercise c r).channel c) ∧
    ∀ d, d ≠ c → (p.driveExercise c r).channel d = p.channel d ∧ (p.driveExercise c r).pattern d = p.pattern d := by
  unfold Plant.driveExercise
  dsimp only
  split_ifs with hc
  · have hr := Plant.reportExercise_step ((p.setPattern c ((p.pattern c).yield r).2).setChannel c
      { p.channel c with exer := ((p.channel c).exer.condition (p.channel c) ((p.pattern c).yield r).1).1 }) (p.channel c)
      ((p.channel c).exer.condition (p.channel c) ((p.pattern c).yield r).1).2
    have hd := Plant.ChannelSideOnly.setChannel_barrierSide hr.1.only
    refine ⟨((p.setPattern_step c _).trans (Plant.setChannel_step _ c _)).trans (hr.1.toChannelStep hr.2), ?_, fun d hne => ?_⟩
    · rw [(hd c).1, if_pos rfl]
      refine ⟨rfl, rfl, rfl, rfl, fun s => ⟨s.real, fun h => ?_, s.other⟩⟩
      rcases StagePath.condition_valid _ _ _ h with h | h
      · exact s.exer h
      · exact ⟨h, use, kind⟩
    · rw [(hd d).1, (hd d).2, if_neg hne]
      exact ⟨rfl, Plant.pattern_setPattern_of_ne _ hne _⟩
  · exact ⟨.refl p, .refl _, fun _ _ => ⟨rfl, rfl⟩⟩

/-- What a reading does to the channels: its own channel keeps settings and source, every other channel and pattern keeps all
it holds (R50). -/
theorem Plant.reading_spec (p : Plant) (c : Fin 48) (r : Nat) :
    p.ChannelStep (p.reading c r) ∧ (p.channel c).Conditioned ((p.reading c r).channel c) ∧
    ∀ d, d ≠ c → (p.reading c r).channel d = p.channel d ∧ (p.reading c r).pattern d = p.pattern d := by
  unfold Plant.reading
  dsimp only
  split_ifs with hu
  swap
  · exact ⟨.refl p, .refl _, fun _ _ => ⟨rfl, rfl⟩⟩
  rw [Bool.and_eq_true] at hu
  split
  · rename_i kind
    unfold Plant.stageArrival
    dsimp only
    have hr := Plant.reportReal_step (p.setChannel c { p.channel c with
      real := ((p.channel c).real.condition (p.channel c) r).1 }) (p.channel c)
      ((p.channel c).real.condition (p.channel c) r).2
    have hd := Plant.ChannelSideOnly.setChannel_barrierSide hr.1.only
    have hc := (hd c).1
    rw [if_pos rfl] at hc
    have h2 := Plant.driveExercise_spec _ c r (by rw [hc]; exact hu.1) (by rw [hc]; exact kind)
    refine ⟨((p.setChannel_step c _).trans (hr.1.toChannelStep hr.2)).trans h2.1, ?_, fun d hne => ?_⟩
    · refine Channel.Conditioned.trans ?_ h2.2.1
      rw [hc]
      refine ⟨rfl, rfl, rfl, rfl, fun s => ⟨fun h => ?_, s.exer, s.other⟩⟩
      rcases StagePath.condition_valid _ _ _ h with h | h
      · exact s.real h
      · exact ⟨h, hu.1, kind⟩
    · rw [(h2.2.2 d hne).1, (h2.2.2 d hne).2, (hd d).1, (hd d).2, if_neg hne]; exact ⟨rfl, rfl⟩
  · rename_i kind
    unfold Plant.surgeArrival
    dsimp only
    have hr := Plant.reportSurge_step (p.setChannel c (Channel.testSurge
      { p.channel c with
        surgeRing := enterRing p.now r (ageRing (p.channel c).surgeWindow p.now (p.channel c).surgeRing),
        valid := (p.channel c).eligible } p.now)) (p.channel c)
    have hd := Plant.ChannelSideOnly.setChannel_barrierSide hr.1.only
    refine ⟨(p.setChannel_step c _).trans (hr.1.toChannelStep hr.2), ?_, fun d hne => ?_⟩
    · rw [(hd c).1, if_pos rfl]
      exact ⟨rfl, rfl, rfl, rfl, fun s => ⟨s.real, s.exer, fun h => ⟨h, hu.1, by simp [Channel.testSurge, kind]⟩⟩⟩
    · rw [(hd d).1, (hd d).2, if_neg hne]; exact ⟨rfl, rfl⟩
  · rename_i kind
    unfold Plant.wireArrival
    dsimp only
    have hr := Plant.reportLatch_step (p.setChannel c { p.channel c with
      lastReading := some (if (r != 0) = true then .broken else .intact), latch := (p.channel c).latch || (r != 0),
      valid := (p.channel c).eligible }) (p.channel c) ((r != 0) && !(p.channel c).latch)
    have hd := Plant.ChannelSideOnly.setChannel_barrierSide hr.1.only
    refine ⟨(p.setChannel_step c _).trans (hr.1.toChannelStep hr.2), ?_, fun d hne => ?_⟩
    · rw [(hd c).1, if_pos rfl]
      exact ⟨rfl, rfl, rfl, rfl, fun s => ⟨s.real, s.exer, fun h => ⟨h, hu.1, by simp [kind]⟩⟩⟩
    · rw [(hd d).1, (hd d).2, if_neg hne]; exact ⟨rfl, rfl⟩

/-! ### Lapse and return -/

/-- What a lapse does: its channel has lapsed, and no other channel and no pattern changes (R58). -/
theorem Plant.lapse_spec (p : Plant) (c : Fin 48) :
    p.ChannelStep (p.lapse c) ∧ (p.lapse c).patterns = p.patterns ∧
    ∀ d, (p.lapse c).channel d = if d = c then (p.channel c).lapsed else p.channel d := by
  unfold Plant.lapse
  have hr := Plant.reportLost_step (p.setChannel c (p.channel c).lapsed) (p.channel c)
  have hd := Plant.ChannelSideOnly.setChannel_barrierSide hr.1.only
  exact ⟨(p.setChannel_step c _).trans (hr.1.toChannelStep hr.2), by rw [hr.1.only.patterns]; rfl, fun d => (hd d).1⟩

theorem Plant.lapseAll_step (p : Plant) (cs : List (Fin 48)) : p.ChannelStep (p.lapseAll cs) :=
  .foldl (fun q c => (q.lapse_spec c).1) cs p

/-- A lapse sent to channels reaches each of them once, and no other (R38, R58). -/
theorem Plant.lapseAll_spec (p : Plant) (cs : List (Fin 48)) (hn : cs.Nodup) :
    (p.lapseAll cs).patterns = p.patterns ∧
    ∀ d, (p.lapseAll cs).channel d = if d ∈ cs then (p.channel d).lapsed else p.channel d := by
  refine ⟨foldl_keeps (R := fun q => q.patterns = p.patterns)
    (fun q c hq => by rw [(q.lapse_spec c).2.1, hq]) cs p rfl, ?_⟩
  exact foldl_each (get := Plant.channel) (R := fun _ => True) (f := fun q c => q.lapse c) (g := fun _ ch => ch.lapsed)
    (fun _ _ _ => trivial) (fun q c _ => by rw [(q.lapse_spec c).2.2, if_pos rfl])
    (fun q c d _ hd => by rw [(q.lapse_spec c).2.2, if_neg hd]) cs hn p trivial

theorem Plant.returnAll_step (p : Plant) (cs : List (Fin 48)) : p.ChannelStep (p.returnAll cs) :=
  .foldl (fun q c => q.setChannel_step c _) cs p

/-- A return sent to channels makes each of them eligible, and changes nothing else (R59). -/
theorem Plant.returnAll_spec (p : Plant) (cs : List (Fin 48)) (hn : cs.Nodup) :
    p.returnAll cs = { p with channels := (p.returnAll cs).channels } ∧
    ∀ d, (p.returnAll cs).channel d = if d ∈ cs then { p.channel d with eligible := true } else p.channel d := by
  refine ⟨foldl_keeps (R := fun q => q = { p with channels := q.channels })
    (fun q c hq => by rw [Plant.setChannel, hq]) cs p rfl, ?_⟩
  exact foldl_each (get := Plant.channel) (R := fun _ => True)
    (f := fun q c => q.setChannel c { q.channel c with eligible := true }) (g := fun _ ch => { ch with eligible := true })
    (fun _ _ _ => trivial) (fun q c _ => q.channel_setChannel c _)
    (fun q c d _ hd => q.channel_setChannel_of_ne hd _) cs hn p trivial

theorem Station.channels_nodup (st : Station) : st.channels.Nodup := (List.nodup_finRange 48).filter _

theorem Station.mem_channels (st : Station) (c : Fin 48) : c ∈ st.channels ↔ st.maps c = true := by
  simp [Station.channels, List.mem_finRange]

/-- A lapsed channel is not eligible and not VALID (R58). -/
theorem Channel.lapsed_spec (ch : Channel) : ch.lapsed.eligible = false ∧ ch.lapsed.inUse = ch.inUse ∧
    ch.lapsed.kind = ch.kind ∧ ch.lapsed.barrier = ch.barrier ∧ (ch.Sound → ch.lapsed.Sound) := by
  unfold Channel.lapsed
  split_ifs with hu
  · split
    · rename_i hk
      exact ⟨rfl, rfl, rfl, rfl, fun s => ⟨fun h => by simp [StagePath.cleared] at h,
        fun h => by simp [StagePath.cleared] at h, fun h => absurd hk (s.other h).2.2⟩⟩
    · rename_i hk
      exact ⟨rfl, rfl, rfl, rfl, fun s => ⟨fun h => absurd (s.real h).2.2 (by simp [hk]),
        fun h => absurd (s.exer h).2.2 (by simp [hk]), fun h => by simp at h⟩⟩
    · rename_i hk
      exact ⟨rfl, rfl, rfl, rfl, fun s => ⟨fun h => absurd (s.real h).2.2 (by simp [hk]),
        fun h => absurd (s.exer h).2.2 (by simp [hk]), fun h => by simp at h⟩⟩
  · exact ⟨rfl, rfl, rfl, rfl, fun s => ⟨fun h => absurd (s.real h).2.1 hu, fun h => absurd (s.exer h).2.1 hu,
      fun h => absurd (s.other h).2.1 hu⟩⟩

/-- A cleared channel is sound whatever its source. -/
theorem Channel.clearState_sound (ch : Channel) (eligible : Bool) : ({ ch.clearState with eligible := eligible } : Channel).Sound :=
  ⟨fun h => by simp [Channel.clearState, StagePath.cleared] at h, fun h => by simp [Channel.clearState, StagePath.cleared] at h,
    fun h => by simp [Channel.clearState] at h⟩

/-! ### Writing a channel -/

/-- An accepted LOAD_CHANNEL writes one channel, and reports downward (R47, R48). -/
theorem Plant.writeChannel_spec (p : Plant) (c : Fin 48) (new : Channel) :
    p.ChannelStep (p.writeChannel c new) ∧ (p.writeChannel c new).patterns = p.patterns ∧
    ∀ d, (p.writeChannel c new).channel d =
      if d = c then { new.clearState with eligible := p.sourceOf c } else p.channel d := by
  unfold Plant.writeChannel
  have h1 := Plant.reportLost_step (p.setChannel c { new.clearState with eligible := p.sourceOf c }) (p.channel c)
  have h2 := Plant.reportLatch_step ((p.setChannel c { new.clearState with eligible := p.sourceOf c }).reportLost (p.channel c))
    (p.channel c) ((p.channel c).inUse && (p.channel c).kind == .wire && (p.channel c).latch)
  have hd := Plant.ChannelSideOnly.setChannel_barrierSide (h1.1.trans h2.1).only
  exact ⟨(p.setChannel_step c _).trans ((h1.1.toChannelStep h1.2).trans (h2.1.toChannelStep h2.2)),
    by rw [(h1.1.trans h2.1).only.patterns]; rfl, fun d => (hd d).1⟩

/-- REARM_WIRE clears one latch, and reports downward (R64). -/
theorem Plant.rearm_spec (p : Plant) (c : Fin 48) :
    p.ChannelStep (p.rearm c) ∧ (p.rearm c).patterns = p.patterns ∧
    ∀ d, (p.rearm c).channel d = if d = c then { p.channel c with latch := false } else p.channel d := by
  unfold Plant.rearm
  have h2 := Plant.reportLatch_step (p.setChannel c { p.channel c with latch := false }) (p.channel c) (p.channel c).latch
  have hd := Plant.ChannelSideOnly.setChannel_barrierSide h2.1.only
  exact ⟨(p.setChannel_step c _).trans (h2.1.toChannelStep h2.2), by rw [h2.1.only.patterns]; rfl, fun d => (hd d).1⟩

/-! ### Exercise paths -/

theorem Plant.channelsAt_nodup (p : Plant) (k : Fin 4) (kind : ChannelKind) : (p.channelsAt k kind).Nodup :=
  (List.nodup_finRange 48).filter _

theorem Plant.mem_channelsAt (p : Plant) (k : Fin 4) (kind : ChannelKind) (c : Fin 48) :
    c ∈ p.channelsAt k kind ↔ (p.channel c).at k kind = true := by
  simp [Plant.channelsAt, List.mem_finRange]

/-- Clearing the exercise paths of a barrier's LEVEL channels changes nothing else (R159, R161). -/
theorem Plant.clearExercisePaths_spec (p : Plant) (k : Fin 4) :
    p.clearExercisePaths k = { p with channels := (p.clearExercisePaths k).channels } ∧
    ∀ c, (p.clearExercisePaths k).channel c =
      if (p.channel c).at k .stage then { p.channel c with exer := .cleared } else p.channel c := by
  refine ⟨foldl_keeps (R := fun q => q = { p with channels := q.channels })
    (fun q c hq => by rw [Plant.setChannel, hq]) _ p rfl, fun c => ?_⟩
  have h := foldl_each (get := Plant.channel) (R := fun _ => True)
    (f := fun q c => q.setChannel c { q.channel c with exer := .cleared }) (g := fun _ ch => { ch with exer := .cleared })
    (fun _ _ _ => trivial) (fun q c _ => q.channel_setChannel c _)
    (fun q c d _ hd => q.channel_setChannel_of_ne hd _) _ (p.channelsAt_nodup k .stage) p trivial c
  simp only [Plant.mem_channelsAt] at h
  exact h

/-- The front end of a session starts anew: patterns restarted, the exercise paths of the barrier's LEVEL channels and the
exercise estimate record cleared, and nothing else changed (R159, R161). -/
theorem Plant.restartExercise_spec (p : Plant) (k : Fin 4) :
    p.restartExercise k = { p with patterns := (p.restartExercise k).patterns, channels := (p.restartExercise k).channels,
                                   exercise := p.exercise.clear } ∧
    (∀ c, (p.restartExercise k).pattern c = (p.pattern c).restart) ∧
    (∀ c, (p.restartExercise k).channel c =
      if (p.channel c).at k .stage then { p.channel c with exer := .cleared } else p.channel c) := by
  obtain ⟨h1, h2⟩ := p.restartPatterns.clearExercisePaths_spec k
  have e0 : p.restartExercise k = { p.restartPatterns.clearExercisePaths k with
      exercise := (p.restartPatterns.clearExercisePaths k).exercise.clear } := by unfold Plant.restartExercise; rfl
  generalize p.restartPatterns.clearExercisePaths k = q at *
  have e1 : ∀ c, p.restartPatterns.channel c = p.channel c := fun _ => by simp only [Plant.restartPatterns, Plant.channel]
  have e2 : ∀ c, p.restartPatterns.pattern c = (p.pattern c).restart := fun _ => by
    simp only [Plant.restartPatterns, Plant.pattern, mapAll_get]
  have e3 : p.restartPatterns = { p with patterns := p.restartPatterns.patterns } := by simp only [Plant.restartPatterns]
  generalize p.restartPatterns = w at *
  generalize p.restartExercise k = z at *
  subst e0
  refine ⟨?_, fun c => ?_, fun c => ?_⟩
  · rw [h1, e3]
  · rw [← e2]; show q.pattern c = _; rw [h1]; rfl
  · show q.channel c = _; rw [h2, e1]

end Sys2Proof.Machine
end

