-- ==== Sys2Proof/Laws/Intake.lean ====
section
/-! SUPPORT. What the Station Table's operations do: SAMPLE intake, silence, loading and retiring; and the standing facts of
slots, sources and channels. -/

namespace Sys2Proof.Machine

/-- What a step from the stations downward does: part time and tables kept, and the standing facts of what lies below. -/
structure Plant.IntakeStep (p q : Plant) : Prop where
  now : q.now = p.now
  tables : q.tables = p.tables
  ladder : p.LadderUp q
  notices : p.NoticesGood → q.NoticesGood
  owners : (p.evalQueue.map EvalEntry.owner).Nodup → (q.evalQueue.map EvalEntry.owner).Nodup
  states : ∀ k, (q.barrier k).state = (p.barrier k).state
  estimator : p.EstimatorSound → q.EstimatorSound

theorem Plant.IntakeStep.refl (p : Plant) : p.IntakeStep p := ⟨rfl, rfl, .refl p, id, id, fun _ => rfl, id⟩

theorem Plant.IntakeStep.trans {p q r : Plant} (h : p.IntakeStep q) (h' : q.IntakeStep r) : p.IntakeStep r :=
  ⟨h'.now.trans h.now, h'.tables.trans h.tables, h.ladder.trans h'.ladder, fun n => h'.notices (h.notices n),
    fun n => h'.owners (h.owners n), fun k => (h'.states k).trans (h.states k), fun e => h'.estimator (h.estimator e)⟩

theorem Plant.ChannelStep.toIntakeStep {p q : Plant} (h : p.ChannelStep q) : p.IntakeStep q :=
  ⟨h.only.now, h.only.tables, h.ladder, h.notices, h.owners, h.states, h.estimator⟩

theorem Plant.setStation_intake (p : Plant) (i : Fin 24) (st : Station) : p.IntakeStep (p.setStation i st) :=
  ⟨rfl, rfl, .of_villages rfl, id, id, fun _ => rfl, fun h => h.congr rfl (fun _ => ⟨rfl, rfl, rfl⟩) rfl rfl rfl⟩

theorem Plant.post_intake (p : Plant) (kind : NoticeKind) (subject value : Nat) : p.IntakeStep (p.post kind subject value) :=
  ((p.post_step kind subject value).toBarrierStep.toChannelStep fun h => (p.post_step kind subject value).estimator h).toIntakeStep

/-! ### Readings -/

theorem Station.slotChannel_maps {st : Station} {slot : Nat} {c : Fin 48} (h : st.slotChannel slot = some c) : st.maps c = true := by
  unfold Station.slotChannel at h
  split_ifs at h with hs
  rw [Station.maps, List.contains_iff_mem, Vector.mem_toList_iff]
  rw [← h]
  exact Vector.getElem_mem hs

/-- Readings condition the channels the station maps, and change no other channel or pattern (R35). -/
theorem Plant.handReadings_spec (p : Plant) (st : Station) (rs : List (Nat × Nat)) :
    p.ChannelStep (p.handReadings st rs) ∧ (∀ c, (p.channel c).Conditioned ((p.handReadings st rs).channel c)) ∧
    ∀ c, st.maps c = false → (p.handReadings st rs).channel c = p.channel c ∧ (p.handReadings st rs).pattern c = p.pattern c :=
  foldl_keeps (R := fun q => p.ChannelStep q ∧ (∀ c, (p.channel c).Conditioned (q.channel c)) ∧
      ∀ c, st.maps c = false → q.channel c = p.channel c ∧ q.pattern c = p.pattern c)
    (fun q r hq => by
      cases hs : st.slotChannel r.1 with
      | none => simpa only [hs] using hq
      | some c =>
        obtain ⟨h1, h2, h3⟩ := q.reading_spec c r.2
        simp only
        refine ⟨hq.1.trans h1, fun d => ?_, fun d hd => ?_⟩
        · by_cases hdc : d = c
          · subst hdc; exact (hq.2.1 d).trans h2
          · rw [(h3 d hdc).1]; exact hq.2.1 d
        · have hdc : d ≠ c := fun e => by rw [e, Station.slotChannel_maps hs] at hd; simp at hd
          rw [(h3 d hdc).1, (h3 d hdc).2]; exact hq.2.2 d hd)
    rs p ⟨.refl p, fun _ => .refl _, fun _ _ => ⟨rfl, rfl⟩⟩

/-! ### The station after its readings -/

/-- A station record after an accepted frame's readings (R36). -/
def Station.heard (st : Station) (seq : Byte) : Station :=
  { st with accepted := raise st.accepted 1, lastSeq := some seq, timer := .start st.timeout, state := .live }

/-- The station's record is updated, and a first or returning station's channels become eligible again (R36, R39). -/
theorem Plant.stationHeard_spec (p : Plant) (i : Fin 24) (seq : Byte) (h : (p.station i).state ≠ .retired) :
    p.IntakeStep (p.stationHeard i seq) ∧ (p.stationHeard i seq).station i = (p.station i).heard seq ∧
    (∀ j, j ≠ i → (p.stationHeard i seq).station j = p.station j) ∧ (p.stationHeard i seq).patterns = p.patterns ∧
    ∀ c, (p.stationHeard i seq).channel c =
      if (p.station i).maps c = true ∧ (p.station i).eligible = false then { p.channel c with eligible := true }
      else p.channel c := by
  have hn := (p.station i).channels_nodup
  obtain ⟨e, hc⟩ := (p.setStation i ((p.station i).heard seq)).returnAll_spec _ hn
  have hs : ((p.setStation i ((p.station i).heard seq)).returnAll (p.station i).channels).station =
      (p.setStation i ((p.station i).heard seq)).station := by rw [e]; rfl
  have hp : ((p.setStation i ((p.station i).heard seq)).returnAll (p.station i).channels).patterns = p.patterns := by rw [e]; rfl
  have h1 := (p.setStation_intake i ((p.station i).heard seq)).trans
    (Plant.returnAll_step _ (p.station i).channels).toIntakeStep
  have hother : ∀ j, j ≠ i → (p.setStation i ((p.station i).heard seq)).station j = p.station j :=
    fun j hj => p.station_setStation_of_ne hj _
  have key : p.stationHeard i seq = match (p.station i).state with
      | .unknown => (p.setStation i ((p.station i).heard seq)).returnAll (p.station i).channels
      | .silent since => ((p.setStation i ((p.station i).heard seq)).returnAll (p.station i).channels).post .stationBack i.1
          (secondsSince p.now since)
      | .live | .late => p.setStation i ((p.station i).heard seq)
      | .retired => p := rfl
  simp only [Station.mem_channels] at hc
  cases hst : (p.station i).state with
  | retired => exact absurd hst h
  | unknown =>
    simp only [hst] at key
    rw [key]
    refine ⟨h1, by rw [hs]; simp, fun j hj => by rw [hs]; exact hother j hj, hp, fun c => ?_⟩
    rw [hc]; simp [Station.eligible, hst]
  | silent since =>
    simp only [hst] at key
    rw [key]
    refine ⟨h1.trans (Plant.post_intake _ _ _ _), ?_, fun j hj => ?_, hp, fun c => ?_⟩
    · rw [Plant.post_station, hs]; simp
    · rw [Plant.post_station, hs]; exact hother j hj
    · rw [Plant.post_channel, hc]; simp [Station.eligible, hst]
  | live =>
    simp only [hst] at key
    rw [key]
    exact ⟨p.setStation_intake i _, by simp, hother, rfl, fun c => by simp [Station.eligible, hst]⟩
  | late =>
    simp only [hst] at key
    rw [key]
    exact ⟨p.setStation_intake i _, by simp, hother, rfl, fun c => by simp [Station.eligible, hst]⟩

/-- Beside the station, only channels and notices change, and the notices by STATION_BACK alone (R36, R39). -/
theorem Plant.stationHeard_eq (p : Plant) (i : Fin 24) (seq : Byte) (h : (p.station i).state ≠ .retired) :
    p.stationHeard i seq = { p.setStation i ((p.station i).heard seq) with
      channels := (p.stationHeard i seq).channels, notices := (p.stationHeard i seq).notices } ∧
    (p.stationHeard i seq).notices = match (p.station i).state with
      | .silent since => (p.post .stationBack i.1 (secondsSince p.now since)).notices
      | .unknown | .live | .late | .retired => p.notices := by
  obtain ⟨e, -⟩ := (p.setStation i ((p.station i).heard seq)).returnAll_spec _ (p.station i).channels_nodup
  have key : p.stationHeard i seq = match (p.station i).state with
      | .unknown => (p.setStation i ((p.station i).heard seq)).returnAll (p.station i).channels
      | .silent since => ((p.setStation i ((p.station i).heard seq)).returnAll (p.station i).channels).post .stationBack i.1
          (secondsSince p.now since)
      | .live | .late => p.setStation i ((p.station i).heard seq)
      | .retired => p := rfl
  cases hst : (p.station i).state with
  | retired => exact absurd hst h
  | unknown => simp only [hst] at key; rw [key, e]; exact ⟨rfl, rfl⟩
  | silent since => simp only [hst] at key; rw [key, e]; exact ⟨rfl, rfl⟩
  | live => simp only [hst] at key; rw [key]; exact ⟨rfl, rfl⟩
  | late => simp only [hst] at key; rw [key]; exact ⟨rfl, rfl⟩

/-- The readings of a payload written out reading by reading (Payloads, SAMPLE). -/
theorem readingsOf_flatMap (readings : List (Byte × Byte × Byte)) :
    readingsOf (readings.flatMap fun x => [x.1, x.2.1, x.2.2]) =
      readings.map fun x => (x.1.toNat, (wordOf x.2.1 x.2.2).toNat) := by
  induction readings with
  | nil => rfl
  | cons x l ih =>
    rw [List.map_cons, ← ih]; rfl

/-- A word's value from its two bytes (R186). -/
theorem wordOf_toNat (hi lo : Byte) : (wordOf hi lo).toNat = 256 * hi.toNat + lo.toNat := by
  unfold wordOf
  have := hi.isLt
  have := lo.isLt
  simp only [BitVec.toNat_append]
  rw [Nat.shiftLeft_eq, Nat.mul_comm, ← Nat.two_pow_add_eq_or_of_lt (by omega)]

/-- An accepted SAMPLE, read (R34 to R36). -/
theorem Plant.readSample_accepted {p : Plant} {i : Fin 24} {f : Frame} (h1 : (p.station i).state ≠ .retired)
    (h2 : malformedSample f.payload = false) (h3 : (p.station i).lastSeq ≠ some f.seq) :
    p.readSample i f = ((p.setStation i { p.station i with
      gap := raise (p.station i).gap (gapAdded (p.station i).lastSeq f.seq) }).handReadings (p.station i)
        (readingsOf f.payload.tail)).stationHeard i f.seq := by
  unfold Plant.readSample
  simp [h1, h2, h3]

/-! ### Silence, loading, retiring -/

/-- Lapses after a station record was rewritten (R28, R30, R37). -/
theorem Plant.setStation_lapseAll_spec (p : Plant) (i : Fin 24) (st : Station) (cs : List (Fin 48)) (hn : cs.Nodup) :
    p.IntakeStep ((p.setStation i st).lapseAll cs) ∧ ((p.setStation i st).lapseAll cs).station i = st ∧
    (∀ j, j ≠ i → ((p.setStation i st).lapseAll cs).station j = p.station j) ∧
    ((p.setStation i st).lapseAll cs).patterns = p.patterns ∧
    ∀ c, ((p.setStation i st).lapseAll cs).channel c = if c ∈ cs then (p.channel c).lapsed else p.channel c := by
  have hl := (p.setStation i st).lapseAll_step cs
  obtain ⟨h1, h2⟩ := (p.setStation i st).lapseAll_spec cs hn
  exact ⟨(p.setStation_intake i st).trans hl.toIntakeStep, by rw [hl.only.station]; simp,
    fun j hj => by rw [hl.only.station, Plant.station_setStation_of_ne _ hj], h1, h2⟩

theorem mappedByEither_nodup (old new : Station) : (mappedByEither old new).Nodup := (List.nodup_finRange 48).filter _

theorem mem_mappedByEither (old new : Station) (c : Fin 48) :
    c ∈ mappedByEither old new ↔ old.maps c = true ∨ new.maps c = true := by
  simp [mappedByEither, List.mem_finRange]

end Sys2Proof.Machine
end

