-- ==== Sys2Proof/Laws/Requests.lean ====
section
/-! SUPPORT. The request layer: what executing the request at the head of the queue does, from its rule's answer. -/

namespace Sys2Proof.Machine

theorem Mgmt.pushReply_eq (m : Mgmt) (r : Reply) : m.pushReply r = m.withReply r := rfl

/-- A completed request is answered (R168, R172). -/
theorem Mgmt.complete_eq (m : Mgmt) (r : Request) (o : ReqOutcome) (data : List Byte) : m.complete r o data = m.answered r o data := by
  unfold Mgmt.complete Mgmt.answered
  by_cases h : r.quiet = true ∧ o = .done
  · rw [if_pos h, if_pos (by simpa using h)]
  · rw [if_neg h, if_neg (by simpa using h)]; rfl

/-- Making a reply touches the reply queue and the discarded count alone. -/
theorem Mgmt.withReply_spec (m : Mgmt) (r : Reply) :
    (m.withReply r).requests = m.requests ∧ (m.withReply r).executing = m.executing ∧ (m.withReply r).settings = m.settings ∧
    (m.replies.length ≤ 4 → (m.withReply r).replies.length ≤ 4) ∧
    ∀ x ∈ (m.withReply r).replies, x ∈ m.replies ∨ x = r := by
  unfold Mgmt.withReply
  split_ifs with h
  · exact ⟨rfl, rfl, rfl, fun _ => by simp; omega, fun x hx => by simpa using hx⟩
  · exact ⟨rfl, rfl, rfl, id, fun x hx => .inl hx⟩

theorem Mgmt.answered_spec (m : Mgmt) (r : Request) (o : ReqOutcome) (data : List Byte) :
    (m.answered r o data).requests = m.requests.tail ∧ (m.answered r o data).executing = none ∧
    (m.answered r o data).settings = m.settings ∧
    (m.replies.length ≤ 4 → (m.answered r o data).replies.length ≤ 4) ∧
    ∀ x ∈ (m.answered r o data).replies, x ∈ m.replies ∨ x.data = data := by
  unfold Mgmt.answered
  dsimp only
  split_ifs
  · exact ⟨rfl, rfl, rfl, id, fun x hx => .inl hx⟩
  · have h := Mgmt.withReply_spec { m with requests := m.requests.tail, executing := none }
      { dst := r.src, code := r.code, target := r.target, outcome := o, data := data }
    exact ⟨h.1, h.2.1, h.2.2.1, h.2.2.2.1, fun x hx => (h.2.2.2.2 x hx).imp id fun e => by rw [e]⟩

theorem State.Begins.isCode {s : State} {r : Request} {code length : Nat} (h : s.Begins r code length) : isCode code r = true := by
  simp [Machine.isCode, h.code]

theorem State.Begins.head_eq {s : State} {r : Request} {code length : Nat} (h : s.Begins r code length) : s.head = some r := by
  simp [State.head, h.free, h.head]

/-- A request that passes the three checks of R169 is admitted. -/
theorem State.Begins.precheck {s : State} {r : Request} {code length : Nat} (h : s.Begins r code length) {cls : ReqClass}
    (hc : catalogue (BitVec.ofNat 8 code) = some (cls, length)) (hi : cls = .write → s.mgmt.settings.inspecting = false) :
    s.precheck r = none := by
  unfold State.precheck
  rw [h.code, hc]
  dsimp only
  rw [if_neg (fun e => by rw [hi e.2] at e; simp at e), if_neg (by simp [h.length])]

/-- An admitted request does what its rule says. -/
theorem State.Begins.execute {s : State} {r : Request} {code length : Nat} (h : s.Begins r code length) {cls : ReqClass}
    (hc : catalogue (BitVec.ofNat 8 code) = some (cls, length)) (hi : cls = .write → s.mgmt.settings.inspecting = false)
    (mine : Request → Bool) (hm : mine r = true) (rule : Request → State → State × ReqResult) :
    s.request mine rule = (rule r s).1.settle r (rule r s).2 := by
  unfold State.request
  rw [State.running_of_out h.running, h.head_eq]
  dsimp only
  rw [if_pos hm, State.execute, h.precheck hc hi]

/-- A rule on the plant that is done changes the plant and answers. -/
theorem State.Begins.onPlant_done {s : State} {r : Request} {code length : Nat} (h : s.Begins r code length) {cls : ReqClass}
    (hc : catalogue (BitVec.ofNat 8 code) = some (cls, length)) (hi : cls = .write → s.mgmt.settings.inspecting = false)
    {mine : Request → Bool} (hm : mine r = true) {rule : Request → State → Plant × ReqResult} {p : Plant}
    (hr : rule r s = finished p) :
    s.request mine (Machine.onPlant rule) = { s with plant := p, mgmt := s.mgmt.answered r .done [] } := by
  rw [h.execute hc hi mine hm]
  simp only [Machine.onPlant, hr, finished, State.settle, Mgmt.complete_eq]

/-- A rule on the plant that refuses answers and changes nothing else, or keeps what it wrote. -/
theorem State.Begins.onPlant_refused {s : State} {r : Request} {code length : Nat} (h : s.Begins r code length) {cls : ReqClass}
    (hc : catalogue (BitVec.ofNat 8 code) = some (cls, length)) (hi : cls = .write → s.mgmt.settings.inspecting = false)
    {mine : Request → Bool} (hm : mine r = true) {rule : Request → State → Plant × ReqResult} {p : Plant} {o : ReqOutcome}
    (hr : rule r s = (p, .refused o)) :
    s.request mine (Machine.onPlant rule) = { s with plant := p, mgmt := s.mgmt.answered r o [] } := by
  rw [h.execute hc hi mine hm]
  simp only [Machine.onPlant, hr, State.settle, Mgmt.complete_eq]

/-- A rule on the plant that waits leaves the request executing (R170). -/
theorem State.Begins.onPlant_wait {s : State} {r : Request} {code length : Nat} (h : s.Begins r code length) {cls : ReqClass}
    (hc : catalogue (BitVec.ofNat 8 code) = some (cls, length)) (hi : cls = .write → s.mgmt.settings.inspecting = false)
    {mine : Request → Bool} (hm : mine r = true) {rule : Request → State → Plant × ReqResult} {p : Plant} {w : Wait}
    (hr : rule r s = (p, .wait w)) :
    s.request mine (Machine.onPlant rule) = { s with plant := p, mgmt := { s.mgmt with executing := some w } } := by
  rw [h.execute hc hi mine hm]
  simp only [Machine.onPlant, hr, State.settle]

theorem State.Begins.reading_done {s : State} {r : Request} {code length : Nat} (h : s.Begins r code length) {cls : ReqClass}
    (hc : catalogue (BitVec.ofNat 8 code) = some (cls, length)) (hi : cls = .write → s.mgmt.settings.inspecting = false)
    {mine : Request → Bool} (hm : mine r = true) {rule : Request → State → ReqResult} {data : List Byte}
    (hr : rule r s = .done data) :
    s.request mine (Machine.reading rule) = { s with mgmt := s.mgmt.answered r .done data } := by
  rw [h.execute hc hi mine hm]
  simp only [Machine.reading, hr, State.settle, Mgmt.complete_eq]

theorem State.Begins.reading_refused {s : State} {r : Request} {code length : Nat} (h : s.Begins r code length) {cls : ReqClass}
    (hc : catalogue (BitVec.ofNat 8 code) = some (cls, length)) (hi : cls = .write → s.mgmt.settings.inspecting = false)
    {mine : Request → Bool} (hm : mine r = true) {rule : Request → State → ReqResult} {o : ReqOutcome}
    (hr : rule r s = .refused o) :
    s.request mine (Machine.reading rule) = { s with mgmt := s.mgmt.answered r o [] } := by
  rw [h.execute hc hi mine hm]
  simp only [Machine.reading, hr, State.settle, Mgmt.complete_eq]

theorem State.Begins.reading_wait {s : State} {r : Request} {code length : Nat} (h : s.Begins r code length) {cls : ReqClass}
    (hc : catalogue (BitVec.ofNat 8 code) = some (cls, length)) (hi : cls = .write → s.mgmt.settings.inspecting = false)
    {mine : Request → Bool} (hm : mine r = true) {rule : Request → State → ReqResult} {w : Wait}
    (hr : rule r s = .wait w) :
    s.request mine (Machine.reading rule) = { s with mgmt := { s.mgmt with executing := some w } } := by
  rw [h.execute hc hi mine hm]
  simp only [Machine.reading, hr, State.settle]

/-- The state a finished rule on the plant leaves is the answer it says. -/
theorem State.answers_intro (s : State) (r : Request) (o : ReqOutcome) (data : List Byte) (p : Plant) :
    s.Answers r o data { s with plant := p, mgmt := s.mgmt.answered r o data } := rfl

/-- A target index in range. -/
theorem Request.index_of_lt {r : Request} {n : Nat} (i : Fin n) (h : r.target.toNat = i.1) : r.index n = some i := by
  unfold Request.index
  have : r.target.toNat < n := by rw [h]; exact i.2
  rw [dif_pos this]
  exact congrArg some (Fin.ext h)

/-- A target index out of range. -/
theorem Request.index_of_le {r : Request} {n : Nat} (h : n ≤ r.target.toNat) : r.index n = none := by
  unfold Request.index; rw [dif_neg (by omega)]

end Sys2Proof.Machine
end

