-- ==== Sys2Proof/Laws/Dispatcher.lean ====
section
/-! SUPPORT. The due list and its head, the arbiter's candidate (R138). -/

namespace Sys2Proof.Machine

/-- The place in the due list as one key, compared lexicographically: higher level, unmarked, earlier, lower index. -/
def dueKey (a : Content × Nat × Fin 8) : ℕ ×ₗ ℕ ×ₗ ℕ ×ₗ ℕ :=
  toLex (4 - a.1.level.code, toLex (boolCode a.1.marked, toLex (a.2.1, a.2.2.1)))

theorem Level.code_le_four (l : Level) : l.code ≤ 4 := by cases l <;> decide

theorem dueBefore_iff (a b : Content × Nat × Fin 8) : dueBefore a b = true ↔ dueKey a ≤ dueKey b := by
  obtain ⟨⟨al, am⟩, at', av⟩ := a
  obtain ⟨⟨bl, bm⟩, bt, bv⟩ := b
  have ha := al.code_le_four
  have hb := bl.code_le_four
  simp only [dueBefore, dueKey, Prod.Lex.toLex_le_toLex, boolCode]
  by_cases hl : al = bl
  · subst hl
    by_cases hm : am = bm
    · subst hm
      by_cases ht : at' = bt
      · subst ht; simp
      · simp [ht]
    · cases am <;> cases bm <;> simp_all
  · have hc : al.code ≠ bl.code := fun e => hl (by cases al <;> cases bl <;> first | rfl | exact absurd e (by decide))
    rw [if_pos (by simpa using hl)]
    simp; omega

theorem Dispatch.listed_iff (d : Dispatch) (c : Content) (t : Nat) :
    d.listed = some (c, t) ↔ (∃ reason, d.state = .due reason t c) ∧ d.onLine = false := by
  unfold Dispatch.listed
  cases hs : d.state with
  | due r t' c' =>
    cases ho : d.onLine <;> simp
    exact and_comm
  | quiet => simp
  | await => simp
  | unreached => simp

theorem Plant.mem_dueEntries (p : Plant) (e : Content × Nat × Fin 8) :
    e ∈ p.dueEntries ↔ (p.disp e.2.2).listed = some (e.1, e.2.1) := by
  obtain ⟨c, t, v⟩ := e
  simp only [Plant.dueEntries, List.mem_filterMap, List.mem_finRange, true_and, Option.map_eq_some_iff]
  constructor
  · rintro ⟨w, ⟨x, y⟩, h, e⟩
    simp only [Prod.mk.injEq] at e
    obtain ⟨rfl, rfl, rfl⟩ := e
    exact h
  · exact fun h => ⟨v, (c, t), h, rfl⟩

theorem Plant.dueList_perm (p : Plant) : p.dueList.Perm p.dueEntries := List.perm_insertionSort _ _

theorem Plant.dueList_sorted (p : Plant) : p.dueList.Pairwise fun a b => dueBefore a b = true := by
  have : IsTrans (Content × Nat × Fin 8) fun a b => dueBefore a b = true :=
    ⟨fun a b c hab hbc => by rw [dueBefore_iff] at *; exact hab.trans hbc⟩
  have : Std.Total fun a b : Content × Nat × Fin 8 => dueBefore a b = true :=
    ⟨fun a b => by rw [dueBefore_iff, dueBefore_iff]; exact le_total _ _⟩
  exact List.pairwise_insertionSort _ _

/-- The candidate is listed, and stands before every listed village (R138). -/
theorem Plant.candidate_spec (p : Plant) (c : Content) (v : Fin 8) (h : p.candidate = some (c, v)) :
    ∃ t, (p.disp v).listed = some (c, t) ∧
      ∀ w c' t', (p.disp w).listed = some (c', t') → dueBefore (c, t, v) (c', t', w) = true := by
  unfold Plant.candidate at h
  have hs := p.dueList_sorted
  have hp := p.dueList_perm
  cases hl : p.dueList with
  | nil => rw [hl] at h; simp at h
  | cons e rest =>
    rw [hl] at h hs hp
    obtain ⟨c₀, t, v₀⟩ := e
    simp only [List.head?_cons, Option.map_some, Option.some.injEq, Prod.mk.injEq] at h
    obtain ⟨rfl, rfl⟩ := h
    refine ⟨t, (p.mem_dueEntries (c₀, t, v₀)).1 (hp.mem_iff.1 (by simp)), fun w c' t' hw => ?_⟩
    have := hp.mem_iff.2 ((p.mem_dueEntries (c', t', w)).2 hw)
    rcases List.mem_cons.1 this with e | hm
    · rw [e, dueBefore_iff]
    · exact (List.pairwise_cons.1 hs).1 _ hm

/-- There is no candidate exactly when no village is listed. -/
theorem Plant.candidate_none_iff (p : Plant) : p.candidate = none ↔ ∀ w, (p.disp w).listed = none := by
  unfold Plant.candidate
  rw [Option.map_eq_none_iff, List.head?_eq_none_iff]
  constructor
  · intro h w
    cases hw : (p.disp w).listed with
    | none => rfl
    | some x =>
      have := p.dueList_perm.mem_iff.2 ((p.mem_dueEntries (x.1, x.2, w)).2 hw)
      rw [h] at this; simp at this
  · intro h
    rw [List.eq_nil_iff_forall_not_mem]
    intro e he
    have := (p.mem_dueEntries e).1 (p.dueList_perm.mem_iff.1 he)
    rw [h] at this; simp at this

end Sys2Proof.Machine
end

