-- ==== Sys2Proof/Laws/PerInstr.lean ====
section
/-! SUPPORT. The family `Unspelled`: no row of spec/opcode_table.json gives bits, so no word of table bits spells any command.
One lemma per constructor of `Instr`. -/

namespace Sys2Proof.Laws

/-- No word of opcode-table bits spells the command. -/
def Unspelled.Statement (i : Instr) : Prop := ∀ nbits w : Nat, decodeTableWord nbits w ≠ some i

/-- No word spells any command. -/
theorem unspelled (i : Instr) : Unspelled.Statement i := fun _ _ => by simp [decodeTableWord]

theorem Unspelled.powerOn (pins : Pins) : Unspelled.Statement (.powerOn pins) := unspelled _
theorem Unspelled.nresetAssert : Unspelled.Statement .nresetAssert := unspelled _
theorem Unspelled.nresetRelease (pins : Pins) : Unspelled.Statement (.nresetRelease pins) := unspelled _
theorem Unspelled.receiveByte (port : Port) (item : RxItem) : Unspelled.Statement (.receiveByte port item) := unspelled _
theorem Unspelled.gapTimeout (port : Port) : Unspelled.Statement (.gapTimeout port) := unspelled _
theorem Unspelled.breakDetected (port : Port) : Unspelled.Statement (.breakDetected port) := unspelled _
theorem Unspelled.breakEnd (port : Port) : Unspelled.Statement (.breakEnd port) := unspelled _
theorem Unspelled.goodFrameU (frame : Frame) : Unspelled.Statement (.goodFrameU frame) := unspelled _
theorem Unspelled.goodFrameD (frame : Frame) : Unspelled.Statement (.goodFrameD frame) := unspelled _
theorem Unspelled.uTransmitStart : Unspelled.Statement .uTransmitStart := unspelled _
theorem Unspelled.uTransmitCompletion : Unspelled.Statement .uTransmitCompletion := unspelled _
theorem Unspelled.grant : Unspelled.Statement .grant := unspelled _
theorem Unspelled.dTransmitCompletion : Unspelled.Statement .dTransmitCompletion := unspelled _
theorem Unspelled.silenceTimerExpiry (station : Fin 24) : Unspelled.Statement (.silenceTimerExpiry station) := unspelled _
theorem Unspelled.surgeHoldExpiry (barrier : Fin 4) : Unspelled.Statement (.surgeHoldExpiry barrier) := unspelled _
theorem Unspelled.evaluationBegin : Unspelled.Statement .evaluationBegin := unspelled _
theorem Unspelled.barrierEvaluationCompletion : Unspelled.Statement .barrierEvaluationCompletion := unspelled _
theorem Unspelled.exerciseEvaluationCompletion : Unspelled.Statement .exerciseEvaluationCompletion := unspelled _
theorem Unspelled.holdTimerExpiry (village : Fin 8) : Unspelled.Statement (.holdTimerExpiry village) := unspelled _
theorem Unspelled.ackTimerExpiry (village : Fin 8) : Unspelled.Statement (.ackTimerExpiry village) := unspelled _
theorem Unspelled.reachTimerExpiry (village : Fin 8) : Unspelled.Statement (.reachTimerExpiry village) := unspelled _
theorem Unspelled.repeatTimerExpiry (village : Fin 8) : Unspelled.Statement (.repeatTimerExpiry village) := unspelled _
theorem Unspelled.durationTimerExpiry : Unspelled.Statement .durationTimerExpiry := unspelled _
theorem Unspelled.unknownRequest : Unspelled.Statement .unknownRequest := unspelled _
theorem Unspelled.setPart : Unspelled.Statement .setPart := unspelled _
theorem Unspelled.statusPart : Unspelled.Statement .statusPart := unspelled _
theorem Unspelled.statusLines : Unspelled.Statement .statusLines := unspelled _
theorem Unspelled.clearCounters : Unspelled.Statement .clearCounters := unspelled _
theorem Unspelled.inspectOn : Unspelled.Statement .inspectOn := unspelled _
theorem Unspelled.inspectOff : Unspelled.Statement .inspectOff := unspelled _
theorem Unspelled.resetEval : Unspelled.Statement .resetEval := unspelled _
theorem Unspelled.resetLines : Unspelled.Statement .resetLines := unspelled _
theorem Unspelled.resetAll (straps : Straps) : Unspelled.Statement (.resetAll straps) := unspelled _
theorem Unspelled.loadStation : Unspelled.Statement .loadStation := unspelled _
theorem Unspelled.retireStation : Unspelled.Statement .retireStation := unspelled _
theorem Unspelled.readStation : Unspelled.Statement .readStation := unspelled _
theorem Unspelled.loadChannel : Unspelled.Statement .loadChannel := unspelled _
theorem Unspelled.rearmWire : Unspelled.Statement .rearmWire := unspelled _
theorem Unspelled.readChannel : Unspelled.Statement .readChannel := unspelled _
theorem Unspelled.loadPattern : Unspelled.Statement .loadPattern := unspelled _
theorem Unspelled.readPattern : Unspelled.Statement .readPattern := unspelled _
theorem Unspelled.loadStagePoints : Unspelled.Statement .loadStagePoints := unspelled _
theorem Unspelled.readStagePoints : Unspelled.Statement .readStagePoints := unspelled _
theorem Unspelled.loadBarrier : Unspelled.Statement .loadBarrier := unspelled _
theorem Unspelled.barrierHold : Unspelled.Statement .barrierHold := unspelled _
theorem Unspelled.barrierRun : Unspelled.Statement .barrierRun := unspelled _
theorem Unspelled.readBarrier : Unspelled.Statement .readBarrier := unspelled _
theorem Unspelled.statusBarrier : Unspelled.Statement .statusBarrier := unspelled _
theorem Unspelled.loadVillage : Unspelled.Statement .loadVillage := unspelled _
theorem Unspelled.loadRoute : Unspelled.Statement .loadRoute := unspelled _
theorem Unspelled.maskVillage : Unspelled.Statement .maskVillage := unspelled _
theorem Unspelled.releaseBreach : Unspelled.Statement .releaseBreach := unspelled _
theorem Unspelled.readVillage : Unspelled.Statement .readVillage := unspelled _
theorem Unspelled.statusVillage : Unspelled.Statement .statusVillage := unspelled _
theorem Unspelled.exerciseBegin : Unspelled.Statement .exerciseBegin := unspelled _
theorem Unspelled.exerciseSync : Unspelled.Statement .exerciseSync := unspelled _
theorem Unspelled.exerciseEnd : Unspelled.Statement .exerciseEnd := unspelled _
theorem Unspelled.wholeSecondBoundary : Unspelled.Statement .wholeSecondBoundary := unspelled _

end Sys2Proof.Laws
end

