-- ==== Sys2Proof/Laws/Reports.lean ====
section
/-! SUPPORT. How long the reports are: the data lengths of the reply table (R187, Reply data), so that no reply exceeds a
frame. -/

namespace Sys2Proof.Machine

@[simp] theorem field16_length (n : Nat) : (field16 n).length = 2 := rfl
@[simp] theorem field16?_length (o : Option Nat) : (field16? o).length = 2 := rfl
@[simp] theorem field32_length (n : Nat) : (field32 n).length = 4 := rfl
@[simp] theorem fieldWord_length (w : Half) : (fieldWord w).length = 2 := rfl
@[simp] theorem fieldInt_length (i : Int) : (fieldInt i).length = 2 := rfl

@[simp] theorem stationData_length (now : Nat) (st : Station) : (stationData now st).length = 25 := by
  simp [stationData]

@[simp] theorem channelData_length (ch : Channel) : (channelData ch).length =
    20 + match ch.kind with | .stage => 18 | .surge => 5 | .wire => 3 := by
  simp only [channelData, channelBlock]
  cases ch.kind <;> simp [pathData]

@[simp] theorem patternData_length (q : Pattern) : (patternData q).length = 18 := by simp [patternData]

theorem pointData_flatten_length (l : List Point) : ((l.map pointData).flatten).length = 4 * l.length := by
  induction l with
  | nil => rfl
  | cons a l ih => simp [ih, pointData]; omega

theorem tableData_length (t : Table) {half : Nat} (h : half ≤ 1) : (tableData t half).length = 40 := by
  have : half = 0 ∨ half = 1 := by omega
  simp only [tableData, List.length_append, pointData_flatten_length]
  rcases this with rfl | rfl <;> simp

@[simp] theorem barrierData_length (b : Barrier) : (barrierData b).length = 10 := by simp [barrierData]

@[simp] theorem estimateBlock_length (o : Option Estimate) : (estimateBlock o).length = 11 := by
  cases o <;> simp [estimateBlock]

@[simp] theorem historyData_length (o : Option HistoryRec) : (historyData o).length = 6 := by simp [historyData]

@[simp] theorem barrierStatus_length (p : Plant) (k : Fin 4) : (barrierStatus p k).length = 39 := by simp [barrierStatus]

theorem padTo_length {n : Nat} {l : List Byte} (h : l.length ≤ n) : (padTo n l).length = n := by simp [padTo]; omega

/-- One block of `m` bytes for each of at most four route entries. -/
theorem routeBlocks_length (m : Nat) (g : Fin 4 → Option (List Byte)) (hg : ∀ k l, g k = some l → l.length = m) :
    (((List.finRange 4).filterMap g).flatten).length ≤ 4 * m := by
  rw [List.length_flatten]
  have : ∀ L : List (Fin 4), (((L.filterMap g).map List.length).sum) ≤ L.length * m := by
    intro L; induction L with
    | nil => simp
    | cons k L ih =>
      cases hk : g k with
      | none => simp [hk, Nat.add_mul]; omega
      | some l => simp [hk, hg k l hk, Nat.add_mul]; omega
  simpa using this (List.finRange 4)

@[simp] theorem villageData_length (vl : Village) : (villageData vl).length = 31 := by
  have := routeBlocks_length 3 (fun k => (vl.routes.get k).map fun r => [BitVec.ofNat 8 k.1] ++ field16 r.travel)
    (by intro k l hl; rw [Option.map_eq_some_iff] at hl; obtain ⟨q, _, rfl⟩ := hl; simp)
  simp only [villageData, List.length_append, padTo_length this, field16_length, List.length_cons, List.length_nil]

@[simp] theorem dispatchStatus_length (now : Nat) (ackMode : AckMode) (d : Dispatch) :
    (dispatchStatus now ackMode d).length = 14 := by
  unfold dispatchStatus; cases d.state <;> simp

@[simp] theorem villageStatus_length (now : Nat) (vl : Village) (d : Dispatch) : (villageStatus now vl d).length = 45 := by
  have := routeBlocks_length 5 (fun k => (vl.routes.get k).map (routeStatus k))
    (by intro k l hl; rw [Option.map_eq_some_iff] at hl; obtain ⟨q, _, rfl⟩ := hl; simp [routeStatus])
  simp only [villageStatus, List.length_append, padTo_length this, field16_length, List.length_cons, List.length_nil,
    dispatchStatus_length]

@[simp] theorem portStatus_length (now : Nat) (r : PortRec) (queue : List Frame) : (portStatus now r queue).length = 14 := by
  simp [portStatus]

@[simp] theorem linesStatus_length (s : State) : (linesStatus s).length = 28 := by simp [linesStatus]

@[simp] theorem noticeNibbles_length (n : Nat) : ∀ l, (noticeNibbles n l).length = n := by
  induction n with
  | zero => intro l; rfl
  | succ n ih => intro l; rcases l with _ | ⟨a, _ | ⟨b, l⟩⟩ <;> simp [noticeNibbles, ih]

@[simp] theorem partStatus_length (s : State) : (partStatus s).length = 43 := by simp [partStatus, sessionStatus]

/-- What a request that waited for a completion answers fits its place in the reply table. -/
theorem Wait.data_length (p : Plant) (w : Wait) : (w.data p).length ≤ 45 := by cases w <;> simp [Wait.data]

end Sys2Proof.Machine
end

