-- ==== Sys2Proof/WellFormed.lean ====
section
/-! DEFINITION. Well-formed commands. Indices of timers are of bounded types, so the one thing to check is that the frame of
a GOOD_FRAME row is a good frame. (An ill-formed one still has a meaning: it is what the receiver makes of those bytes, an
error it counts, R7 and R9.) -/

namespace Sys2Proof

/-- A command whose operands the row admits: the frame of GOOD_FRAME_U and GOOD_FRAME_D is within length and has a matching
check (Overview, Frames). -/
def Instr.wellFormed : Instr → Bool
  | .goodFrameU f => f.good
  | .goodFrameD f => f.good
  | .powerOn _ | .nresetAssert | .nresetRelease _ | .receiveByte _ _ | .gapTimeout _ | .breakDetected _ | .breakEnd _
  | .uTransmitStart | .uTransmitCompletion | .grant | .dTransmitCompletion | .silenceTimerExpiry _ | .surgeHoldExpiry _
  | .evaluationBegin | .barrierEvaluationCompletion | .exerciseEvaluationCompletion | .holdTimerExpiry _
  | .ackTimerExpiry _ | .reachTimerExpiry _ | .repeatTimerExpiry _ | .durationTimerExpiry | .unknownRequest | .setPart
  | .statusPart | .statusLines | .clearCounters | .inspectOn | .inspectOff | .resetEval | .resetLines | .resetAll _
  | .loadStation | .retireStation | .readStation | .loadChannel | .rearmWire | .readChannel | .loadPattern | .readPattern
  | .loadStagePoints | .readStagePoints | .loadBarrier | .barrierHold | .barrierRun | .readBarrier | .statusBarrier
  | .loadVillage | .loadRoute | .maskVillage | .releaseBreach | .readVillage | .statusVillage | .exerciseBegin
  | .exerciseSync | .exerciseEnd | .wholeSecondBoundary => true

end Sys2Proof
end

