-- ==== Sys2Proof/Tests/Slice0.lean ====
section
/-! SUPPORT. Tests. `test_…`: the spec's own worked figures, each with its place in the spec. `witness_…`: a concrete state and
operands that meet the hypotheses of the obligation of that name, clause by clause. -/

namespace Sys2Proof.Tests

-- The tests are checked one after another: many checks by the kernel at once would ask for more threads than the build gives.
set_option Elab.async false

open Sys2Proof.Machine

/-! ### A part at work -/

/-- Station 0: LIVE, slot 0 names channel 0 and slot 7 channel 47. -/
def station : Station :=
  { Station.cleared with
    inUse := true, addr := 0x20, timeout := 60, state := .live, timer := some 60, lastSeq := some 40,
    slots := ((Vector.replicate 8 none).set 0 (some 0)).set 7 (some 47) }

/-- A LEVEL channel of barrier 0 that is VALID at a stage, with the settings of channel 2 of the worked storm. -/
def level (stage : Nat) : Channel :=
  { Channel.cleared with
    inUse := true, enabled := true, barrier := some 0, eligible := true, gain := 410, offset := 700, invert := true,
    real := { StagePath.cleared with valid := true, previous := some stage, ring := [stage], latest := some stage } }

/-- A SURGE channel of barrier 0 that is surging. -/
def geophone : Channel :=
  { Channel.cleared with
    inUse := true, enabled := true, kind := .surge, barrier := some 0, eligible := true, valid := true,
    surgeThreshold := 40, surgeRing := [(0, 40)], windowSum := 40, surging := true }

/-- A BREACH_WIRE channel of barrier 0 with its latch set. -/
def wire : Channel :=
  { Channel.cleared with
    inUse := true, enabled := true, kind := .wire, barrier := some 0, eligible := true, valid := true, latch := true }

/-- The table of barrier 0 of the worked storm, checked. -/
def table : Table :=
  { count := 3, verdict := .valid 600 1800,
    points := ((Vector.replicate 16 ⟨0, 0⟩).set 1 ⟨300, 400⟩).set 2 ⟨600, 1800⟩ }

/-- An estimate. -/
def estimate : Estimate := { volume := 866, fill := 481, ownRate := 0, effRate := 0, ttf := 65535, above := false, rated := false }

/-- An ACTIVE barrier. -/
def active : Barrier :=
  { Barrier.cleared with
    state := .active, voteQuality := some .good, validCount := 1, lastStage := some 400, estimate := some estimate,
    history := [⟨900, 866⟩] }

/-- A CONFIRMED village routed to barrier 0, announcing WARN. -/
def village : Village :=
  { Village.cleared with
    inUse := true, addr := 21, evac := 45, warn := 90, watch := 180, holdTimer := some 60, announced := .warn, permit := true,
    routes := (Vector.replicate 4 none).set 0 (some (Route.fresh 31)) }

/-- The content (WARN, unmarked). -/
def warning : Content := ⟨.warn, false⟩

/-- A plant with station 0, channels 0, 1 and 47, table 0, barrier 0 and village 0 loaded. -/
def plant : Plant :=
  ((((((State.reset.plant.setStation 0 station).setChannel 0 (level 400)).setChannel 1 geophone).setChannel 47 wire).setTable 0
    table).setBarrier 0 active).setVillage 0 village

/-- The part with that plant. -/
def part : State := { State.reset with plant := plant }

/-- The part with a plant changed. -/
def partWith (f : Plant → Plant) : State := { part with plant := f plant }

/-- A session running on barrier 0. -/
def session : Session := { Session.cleared with active := true, barrier := some 0, start := some 0, timer := some 3600 }

/-- A request. -/
def request (code target : Nat) (args : List Byte) : Request :=
  { src := 3, code := BitVec.ofNat 8 code, target := BitVec.ofNat 8 target, quiet := false, afterEval := false, args := args }

/-- A state with one request waiting. -/
def asking (s : State) (r : Request) : State := { s with mgmt := { s.mgmt with requests := [r] } }

theorem begins (s : State) (r : Request) (code length : Nat) (h : s.nresetLow = false) (free : s.mgmt.executing = none)
    (hc : r.code = BitVec.ofNat 8 code) (hl : r.args.length = length) : (asking s r).Begins r code length :=
  ⟨h, free, rfl, hc, hl⟩

/-- A frame with its check. -/
def frame (dst src kind seq flags : Byte) (payload : List Byte) : Frame := buildFrame dst src kind seq flags payload

/-! ### Well-formedness, decoding, codes -/

theorem test_wrong_check_is_ill_formed : (Instr.goodFrameU ⟨1, 2, 0x10, 0, 0, [], 0⟩).wellFormed = false := by decide +kernel
theorem test_long_payload_is_ill_formed :
    (Instr.goodFrameD (frame 1 2 0x30 0 0 (List.replicate 49 0))).wellFormed = false := by
  simp [Instr.wellFormed, Frame.good, Frame.withinLength, frame, buildFrame, Config.maxPayload]
theorem test_good_frame_is_well_formed : (Instr.goodFrameU (frame 1 2 0x10 0 0 [])).wellFormed = true := by decide +kernel
theorem test_no_word_spells_a_command : decodeTableWord 16 0x1234 = none := rfl

/-- R185: the nine ASCII digits give 0x29B1. -/
theorem test_check_of_digits : checkOf [0x31, 0x32, 0x33, 0x34, 0x35, 0x36, 0x37, 0x38, 0x39] = 0x29B1 := by decide +kernel

/-- R156: the first yields from seed 1. -/
theorem test_prbs_from_one :
    (prbsStep 1, prbsStep 0xB400, prbsStep 0x5A00, prbsStep 0x2D00, prbsStep 0x1680) =
      (0xB400, 0x5A00, 0x2D00, 0x1680, 0x0B40) := by decide

/-- R34: sequence 39 after 40 adds 254, sequence 1 after 254 adds 2, sequence 0 adds nothing. -/
theorem test_gap_counts : (gapAdded (some 40) 39, gapAdded (some 254) 1, gapAdded (some 7) 0) = (254, 2, 0) := by decide

/-- R52: 14,500 mm with gain 410, offset 1400 and invert is clamped to 0. -/
theorem test_scaled_below_zero :
    clampStage ({ Channel.cleared with gain := 410, offset := 1400, invert := true }.scaled 14500) = (0, true) := by decide

/-- Worked storm, barrier 0: the volumes of stages 400, 414, 540, 585 and 602. -/
theorem test_storm_volumes :
    [400, 414, 540, 585, 602].map table.interpolate =
      [(866, false), (932, false), (1520, false), (1730, false), (1800, true)] := by decide

/-- Worked storm, barrier 0 at 1200 s: V 932, F 517, own rate 13, TTF 67. -/
theorem test_storm_second_estimate :
    (Flight.evaluate { owner := .barrier 0, stage := 414, table := table, history := [⟨900, 866⟩], carried := 0, now := 1200 }
      600 75).1 = { volume := 932, fill := 517, ownRate := 13, effRate := 13, ttf := 67, above := false, rated := true } := by
  decide +kernel

/-- Worked storm, barrier 0 at 3300 s: the record of 900 leaves, the own rate is −7, the time-to-full 65535. -/
theorem test_storm_last_estimate :
    let f : Flight :=
      { owner := .barrier 0, stage := 585, table := table, carried := 0, now := 3300,
        history := [⟨900, 866⟩, ⟨1200, 932⟩, ⟨1500, 1100⟩, ⟨1800, 1520⟩, ⟨2100, 1734⟩, ⟨2400, 1776⟩, ⟨2700, 1800⟩, ⟨3000, 1800⟩] }
    ((f.evaluate 600 75).1.ownRate, (f.evaluate 600 75).1.ttf, (f.evaluate 600 75).2.head?) = (-7, 65535, some ⟨1200, 932⟩) := by
  decide

/-- Worked storm, barrier 1 at 2700 s: 1206 units left at 24 per minute are full within 51 minutes. -/
theorem test_storm_carried_time_to_full : timeToFull 610 3100 1894 24 = 51 := by decide

/-- Worked storm, village 0 at 1500 s: TTF 31 and travel 31 give 62 minutes, WARN. -/
theorem test_storm_entry :
    let r := (Route.fresh 31).form { active with estimate := some { estimate with fill := 611, ttf := 31 } } village
    (r.available, r.level, r.cause) = (62, .warn, .projection) := by decide

/-- Frame and Record Layouts, the worked ALERT: payload 42 00 01 00 5A. -/
theorem test_alert_payload :
    alertPayload (plant.setVillage 0 { village with decBarrier := some 1, decCause := .projection, decFill := some 512,
                                                    decAvailable := 90 }) 0 warning = [0x42, 0x00, 0x01, 0x00, 0x5A] := by
  decide

/-- R4: a strap value of 0 or 255 gives the own address 254. -/
theorem test_own_address :
    State.reset.ownAddr = 254 ∧ { State.reset with straps := ⟨255, 0⟩ }.ownAddr = 254 ∧
      { State.reset with straps := ⟨3, 0⟩ }.ownAddr = 3 := by decide

/-- R125: at the expiry of its hold a village announcing WARN with computed level CLEAR falls to WATCH. -/
theorem test_hold_expiry_falls_one_step :
    ((plant.setVillage 0 { village with holdTimer := some 0 }).holdExpired 0 |>.village 0).announced = .watch := by decide

/-- An empty queue idles (the model's choice, log entry 10). -/
theorem test_empty_queue_idles : step State.reset = .next State.reset := rfl

/-- The word given spells no command, so nothing is put at the front of the queue. -/
theorem test_fetch_word : State.reset.withFetchWord 8 0 = State.reset := rfl

/-! ### Witnesses: power, lines, intake -/

/-- A plant in which nothing waits and no session runs, out of reset. -/
theorem witness_CommandsWithoutOccasionIdle :
    { part with nresetLow := true }.nresetLow = true ∧ (Instr.grant ≠ .nresetAssert) ∧
    (part.plant.station 0).timer ≠ some 0 ∧ (part.plant.barrier 0).surgeTimer ≠ some 0 ∧
    (part.plant.village 0).holdTimer ≠ some 0 ∧ (part.plant.disp 0).ackTimer ≠ some 0 ∧
    (part.plant.disp 0).reachTimer ≠ some 0 ∧ (part.plant.disp 0).repeatTimer ≠ some 0 ∧
    part.plant.session.timer ≠ some 0 ∧ Instr.setPart.isRequest = true ∧
    ∀ r, (asking part (request 0x02 0 [])).mgmt.requests.head? = some r → Instr.setPart.executes r = false := by
  refine ⟨rfl, by decide, by decide, by decide, by decide, by decide, by decide, by decide, by decide, rfl, ?_⟩
  rintro r h; cases h; decide

theorem witness_WholeSecondCountsTimers :
    (partWith fun p => { p with now := 4294967295 }).nresetLow = false ∧ part.nresetLow = false := ⟨rfl, rfl⟩

theorem witness_ReceiverHuntsAndBreaks :
    let inFrame : State := part.setPort .u { part.line.u with rx := .header [] 0xFFFF }
    let broken : State := part.setPort .d { part.line.d with brk := .broken }
    part.nresetLow = false ∧ (part.line.port .u).rx = .hunt ∧ (part.line.port .u).brk ≠ .broken ∧
    inFrame.nresetLow = false ∧ (inFrame.line.port .u).rx ≠ .hunt ∧ (inFrame.line.port .u).brk ≠ .broken ∧
    broken.nresetLow = false ∧ (broken.line.port .d).brk = .broken := by decide

theorem witness_ByteByByteIsWholeFrame :
    part.nresetLow = false ∧ (part.line.port .d).rx = .hunt ∧ (part.line.port .d).brk ≠ .broken ∧
    (frame 1 2 3 4 5 (List.replicate 48 6)).payload.length ≤ 48 ∧ (frame 1 2 3 4 5 []).payload.length ≤ 48 ∧
    (⟨1, 2, 3, 4, 5, [], 0⟩ : Frame).good = false := by
  refine ⟨rfl, rfl, by decide, ?_, by decide, by decide +kernel⟩
  simp [frame, buildFrame]

theorem witness_GoodFrameUForwards :
    part.nresetLow = false ∧ part.line.u.brk ≠ .broken ∧ (frame 9 9 0x10 0 0 []).good = true ∧
    (frame 9 0x20 0x31 0 0 []).good = true ∧ (frame 9 0x20 0x31 0 0 []).kind ≠ 0x10 ∧
    ∀ i, (part.plant.station i).inUse = true → (part.plant.station i).addr ≠ (frame 9 9 0x10 0 0 []).src := by
  decide +kernel

/-- A SAMPLE from station 0 with one reading for a slot. -/
def sample (seq slot : Byte) : Frame := frame 3 0x20 0x10 seq 0 [1, slot, 0x01, 0x02]

theorem sample_for (s : State) (f : Frame) (h : s.nresetLow = false) (hb : s.line.u.brk ≠ .broken) (good : f.good = true)
    (kind : f.kind = 0x10) (src : f.src = 0x20) (held : (s.plant.station 0).inUse = true ∧ (s.plant.station 0).addr = 0x20)
    (only : ∀ j, (s.plant.station j).inUse = true → (s.plant.station j).addr = 0x20 → j = 0) : s.SampleFor f 0 :=
  ⟨h, hb, good, kind, by rw [src]; exact held, by rw [src]; exact only⟩

theorem station_only (s : Station) (p : Plant) (hp : p = State.reset.plant.setStation 0 s) :
    ∀ j, (p.station j).inUse = true → (p.station j).addr = 0x20 → j = 0 := by
  subst hp
  intro j h _
  by_contra hj
  rw [Plant.station_setStation_of_ne _ hj] at h
  have e : State.reset.plant.station j = Station.cleared := Vector.getElem_replicate j.2
  rw [e] at h; exact absurd h (by decide)

/-- The part with station 0 alone. -/
def heard (s : Station) : State := { State.reset with plant := State.reset.plant.setStation 0 s }

theorem heard_sample (s : Station) (f : Frame) (use : s.inUse = true) (addr : s.addr = 0x20) (good : f.good = true)
    (kind : f.kind = 0x10) (src : f.src = 0x20) : (heard s).SampleFor f 0 :=
  sample_for _ f rfl (fun h => by cases h) good kind src
    (by show ((State.reset.plant.setStation 0 s).station 0).inUse = true ∧ _
        rw [show (heard s).plant = State.reset.plant.setStation 0 s from rfl, Plant.station_setStation]; exact ⟨use, addr⟩)
    (station_only s _ rfl)

theorem witness_SampleReadUpdatesStation :
    (heard station).SampleFor (sample 39 7) 0 ∧ ((heard station).plant.station 0).state ≠ .retired ∧
    wellFormedSample (sample 39 7).payload ∧ ((heard station).plant.station 0).lastSeq ≠ some (sample 39 7).seq ∧
    (sample 39 7).payload = [1, 7, 0x01, 0x02] ∧ ((heard station).plant.station 0).slots.get 7 = some 47 ∧
    ((heard station).plant.station 0).slots.get 0 = some 0 ∧ ((heard station).plant.station 0).maps 5 = false :=
  ⟨heard_sample _ _ rfl rfl (by decide +kernel) rfl rfl, by decide, ⟨1, [7, 1, 2], rfl, by decide, by decide, rfl⟩,
    by decide, rfl, by decide, by decide, by decide⟩

theorem witness_SampleTurnedAway :
    let retired : State := heard { station with state := .retired }
    (retired.SampleFor (sample 39 0) 0 ∧ (retired.plant.station 0).state = .retired) ∧
    ((heard station).SampleFor (frame 3 0x20 0x10 39 0 []) 0 ∧ ¬ wellFormedSample (frame 3 0x20 0x10 39 0 []).payload) ∧
    ((heard station).SampleFor (sample 40 0) 0 ∧ ((heard station).plant.station 0).lastSeq = some (sample 40 0).seq) ∧
    ((heard station).SampleFor (sample 41 0) 0 ∧ ((heard station).plant.station 0).lastSeq ≠ some (sample 41 0).seq) :=
  ⟨⟨heard_sample _ _ rfl rfl (by decide +kernel) rfl rfl, by decide⟩,
    ⟨heard_sample _ _ rfl rfl (by decide +kernel) rfl rfl, fun ⟨_, _, h, _⟩ => by simp [frame, buildFrame] at h⟩,
    ⟨heard_sample _ _ rfl rfl (by decide +kernel) rfl rfl, by decide⟩,
    ⟨heard_sample _ _ rfl rfl (by decide +kernel) rfl rfl, by decide⟩⟩

theorem witness_ConditioningFollowsChain :
    (plant.channel 5).inUse = false ∧ 65535 ≤ 65535 ∧
    ((plant.channel 0).inUse = true ∧ (plant.channel 0).enabled = true ∧ (plant.channel 0).kind = .stage ∧
      plant.session.active = false ∧ (plant.channel 0).real.ring.length ≤ (plant.channel 0).window ∧
      (plant.channel 0).real.previous = some 400) ∧
    ((plant.channel 1).enabled = true ∧ (plant.channel 1).kind = .surge) ∧
    ((plant.channel 47).enabled = true ∧ (plant.channel 47).kind = .wire) ∧
    ({ plant with session := session }.session.active = true ∧
      { plant with session := session }.session.barrier = (plant.channel 0).barrier) := by decide

theorem witness_RequestTakenIn :
    part.nresetLow = false ∧ part.line.d.brk ≠ .broken ∧ (frame 254 3 0x30 0 0 [0x02, 0]).good = true ∧
    (frame 254 3 0x30 0 0 [0x02, 0]).dst = part.ownAddr ∧ (frame 255 3 0x30 0 0 []).good = true := by decide +kernel

theorem witness_AlertAckTaken :
    let waiting : Dispatch := { Dispatch.cleared with state := .await, offered := some warning, openOffer := true }
    let ack : Frame := frame 254 21 0x21 0 0 [2]
    let s : State := partWith fun p => p.setDisp 0 waiting
    s.nresetLow = false ∧ s.line.d.brk ≠ .broken ∧ ack.good = true ∧ ack.kind = 0x21 ∧ ack.dst = s.ownAddr ∧
    (s.plant.village 0).inUse = true ∧ (s.plant.village 0).addr = ack.src ∧
    (∀ w, (s.plant.village w).inUse = true → (s.plant.village w).addr = ack.src → w = 0) ∧
    (s.plant.disp 0).state = .await ∧ ack.payload = [2] ∧ (2 : Byte).toNat = Level.code .warn ∧
    (s.plant.disp 0).offered = some ⟨.warn, ack.flags.getLsbD 0⟩ ∧ (part.plant.disp 0).state = .quiet ∧
    (∀ v, (s.plant.village v).inUse = true → (s.plant.village v).addr ≠ (frame 254 22 0x21 0 0 [2]).src) := by
  decide +kernel

/-! ### Witnesses: transmitters, arbiter, dispatcher -/

theorem witness_UTransmitterServesQueue :
    let f := frame 1 2 3 4 5 []
    let s : State := { part with line := { part.line with du := [f] } }
    s.nresetLow = false ∧ s.line.uTx = none ∧ s.line.u.isDown = false ∧ s.line.du = [f] ∧ part.line.du = [] := by decide +kernel

theorem witness_ArbiterOrder :
    let f := frame 1 2 3 4 5 []
    let due (c : Content) : State := partWith fun p => p.setDisp 0 { Dispatch.cleared with state := .due .change 0 c }
    let held (n : Nat) (s : State) : State := { s with line := { s.line with ud := List.replicate n f } }
    let quiet : State := partWith fun p => { p with notices := [] }
    (due ⟨.evacuate, false⟩).plant.candidate = some (⟨.evacuate, false⟩, 0) ∧
    ((held 12 (due warning)).plant.candidate = some (warning, 0) ∧ (held 12 (due warning)).line.ud = f :: List.replicate 11 f ∧
      12 ≤ (held 12 (due warning)).line.ud.length ∧ (held 12 (due warning)).line.lastGrant ≠ .forward) ∧
    ((held 11 (due warning)).line.ud.length < 12 ∧ (held 11 (due warning)).plant.candidate = some (warning, 0)) ∧
    (part.plant.candidate = none ∧ part.mgmt.replies = [] ∧
      part.plant.notices = [{ kind := .unconfigured, subject := 0, value := 0, count := 1, firstPost := 0 }]) ∧
    ((held 1 quiet).plant.candidate = none ∧ (held 1 quiet).plant.notices = [] ∧ (held 1 quiet).line.ud = [f]) ∧
    quiet.line.ud = [] ∧ part.line.dTx = none ∧ part.line.d.isDown = false := by decide +kernel

theorem witness_GrantFixesFrame :
    let due : State := partWith fun p => p.setDisp 0 { Dispatch.cleared with state := .due .change 0 warning }
    let replying : State :=
      { part with mgmt := { part.mgmt with replies := [{ dst := 3, code := 2, target := 0, outcome := .done, data := [] }] } }
    let f := frame 1 2 3 4 5 []
    let forwarding : State := { (partWith fun p => { p with notices := [] }) with line := { part.line with ud := [f] } }
    part.nresetLow = false ∧ part.line.dTx = none ∧ part.line.d.isDown = false ∧
    due.nextGrant = some (.candidate 0 warning) ∧
    replying.nextGrant = some (.reply { dst := 3, code := 2, target := 0, outcome := .done, data := [] }) ∧
    part.nextGrant = some (.notice { kind := .unconfigured, subject := 0, value := 0, count := 1, firstPost := 0 }) ∧
    forwarding.nextGrant = some (.forward f) := by decide +kernel

theorem witness_DTransmitCompletion :
    let sent (d : Dispatch) (o : DOrigin) : State :=
      { (partWith fun p => p.setDisp 0 d) with line := { part.line with dTx := some ⟨frame 1 2 3 4 5 [], o⟩ } }
    let alert : DOrigin := .alert 0 none false
    let due (reason : DueReason) (offered : Content) : Dispatch :=
      { Dispatch.cleared with state := .due reason 0 warning, onLine := true, openOffer := true, offered := some offered }
    part.nresetLow = false ∧ (sent Dispatch.cleared .forward).line.dTx = some ⟨frame 1 2 3 4 5 [], .forward⟩ ∧
    ((sent Dispatch.cleared alert).plant.disp 0).onLine = false ∧
    (((sent (due .change warning) alert).plant.disp 0).onLine = true ∧
      ((sent (due .change warning) alert).plant.village 0).ackMode = .confirmed ∧
      ((sent (due .change warning) alert).plant.disp 0).state = .due .change 0 warning ∧
      ((sent (due .change warning) alert).plant.disp 0).offered = some warning) ∧
    ((sent (due .reach warning) alert).plant.disp 0).state = .due .reach 0 warning ∧
    ((sent (due .change .clear) alert).plant.disp 0).offered ≠ some warning ∧
    ((sent { due .change warning with state := .quiet } alert).plant.disp 0).state = .quiet ∧
    (let s := sent (due .change warning) alert
     ({ s with plant := s.plant.setVillage 0 { village with ackMode := .unconfirmed } }.plant.village 0).ackMode =
       .unconfirmed) := by decide +kernel

theorem witness_CandidateHeadsDueList :
    (plant.setDisp 0 { Dispatch.cleared with state := .due .change 0 warning }).candidate = some (warning, 0) ∧
    ((plant.setDisp 0 { Dispatch.cleared with state := .due .change 5 warning }).setDisp 7
      { Dispatch.cleared with state := .due .change 4 warning }).candidate = some (warning, 7) := by decide +kernel

/-! ### Witnesses: timers -/

theorem witness_SilenceTimerExpires :
    let live : State := heard { station with timer := some 0 }
    let late : State := heard { station with timer := some 0, state := .late }
    live.nresetLow = false ∧ (live.plant.station 0).timer = some 0 ∧ (live.plant.station 0).state = .live ∧
    late.nresetLow = false ∧ (late.plant.station 0).timer = some 0 ∧ (late.plant.station 0).state = .late ∧
    (late.plant.station 0).maps 47 = true ∧ (late.plant.station 0).maps 1 = false := by decide

theorem witness_SurgeHoldExpires :
    let s : State := partWith fun p => p.setBarrier 0 { active with surgeFlag := true, surgeTimer := some 0 }
    let late : State := { s with plant := { s.plant with now := 60 } }
    s.nresetLow = false ∧ (s.plant.barrier 0).surgeTimer = some 0 ∧
    ((s.plant.channel 1).at 0 .surge = true ∧ (s.plant.channel 1).valid = true ∧ (s.plant.channel 1).surgeThreshold = 40 ∧
      (s.plant.channel 1).surgeRing = [(0, 40)] ∧ s.plant.now = 0) ∧
    (late.plant.barrier 0).surgeTimer = some 0 ∧ (∀ c, (late.plant.channel c).at 0 .surge = true → c = 1) := by
  decide +kernel

theorem witness_HoldTimerExpires :
    let s : State := partWith fun p => p.setVillage 0 { village with holdTimer := some 0 }
    let breached : State := { s with plant := s.plant.setBarrier 0 { active with wire := true } }
    s.nresetLow = false ∧ (s.plant.village 0).holdTimer = some 0 ∧ (s.plant.village 0).inUse = true ∧
    (s.plant.village 0).latch = false ∧
    ((s.plant.holdExpired 0).village 0).computed ≠ .breach ∧
    (breached.plant.village 0).holdTimer = some 0 ∧ ((breached.plant.holdExpired 0).village 0).computed = .breach := by
  decide +kernel

theorem witness_DispatchTimersExpire :
    let d : Dispatch := { Dispatch.cleared with state := .await, offered := some warning, openOffer := true, ackTimer := some 0 }
    let s (d : Dispatch) : State := partWith fun p => p.setDisp 0 d
    (s d).nresetLow = false ∧ ((s d).plant.disp 0).offered = some warning ∧ ((s d).plant.disp 0).ackTimer = some 0 ∧
    ((s { d with retry := 2 }).plant.disp 0).retry < ((s d).plant.village 0).retryLimit ∧
    ((s d).plant.village 0).retryLimit ≤ ((s { d with retry := 3 }).plant.disp 0).retry ∧
    ((s { d with ackTimer := none, reachTimer := some 0, state := .unreached }).plant.disp 0).reachTimer = some 0 ∧
    ((s { Dispatch.cleared with repeatTimer := some 0 }).plant.disp 0).repeatTimer = some 0 := by decide

theorem witness_DurationTimerEndsSession :
    let s : State := partWith fun p => { p with session := { session with timer := some 0 } }
    s.nresetLow = false ∧ s.plant.session.timer = some 0 ∧ s.plant.session.active = true ∧ s.plant.session.barrier = some 0 ∧
    (s.plant.village 0).inUse = true := by decide

/-! ### Witnesses: estimator -/

theorem witness_VoteAndAssessments :
    (plant.barrier 0).state = .active ∧ (plant.barrier 1).state ≠ .active ∧
    (plant.realVotes 0 = [400] ∧ plant.evalQueue = []) ∧
    ((plant.setChannel 2 (level 500)).realVotes 0 = [400, 500]) ∧
    (((plant.setChannel 2 (level 500)).setChannel 3 (level 450)).realVotes 0 = [400, 500, 450]) ∧
    ((plant.setChannel 0 { level 400 with real := .cleared }).realVotes 0 = []) ∧
    (∃ e ∈ { plant with evalQueue := [⟨.barrier 0, 390⟩] }.evalQueue, e.owner = .barrier 0) ∧
    ((plant.channel 1).at 0 .surge = true ∧ (plant.channel 1).valid = true ∧ (plant.channel 1).surging = true) ∧
    ((plant.channel 47).at 0 .wire = true ∧ (plant.channel 47).latch = true) ∧
    ((plant.barrier 1).surgeTimer = none ∧ ∀ c, (plant.channel c).at 1 .surge = false ∧ (plant.channel c).at 1 .wire = false) ∧
    ((plant.setBarrier 1 { active with surgeTimer := some 5 }).barrier 1).surgeTimer ≠ none := by decide +kernel

theorem witness_EvaluationTakesHead :
    let s (o : EvalOwner) : State := partWith fun p => { p with evalQueue := [⟨o, 400⟩], session := session }
    part.plant.evalQueue = [] ∧ (s (.barrier 0)).nresetLow = false ∧ (s (.barrier 0)).plant.flight = none ∧
    (s (.barrier 0)).plant.evalQueue = [⟨.barrier 0, 400⟩] ∧ (s (.barrier 3)).plant.evalQueue = [⟨.barrier 3, 400⟩] ∧
    (s .exercise).plant.evalQueue = [⟨.exercise, 400⟩] ∧ (s .exercise).plant.session.barrier = some 0 := by decide

theorem witness_EvaluationProjects :
    let f (stage now carried : Nat) (history : List HistoryRec) : Flight :=
      { owner := .barrier 0, stage := stage, table := table, history := history, carried := carried, now := now }
    (((f 414 1200 0 [⟨900, 866⟩]).evaluate 600 75).2.dropLast.find? fun r => decide (1200 - r.time ≤ 600)) = some ⟨900, 866⟩ ∧
    ((f 414 1200 0 []).evaluate 600 75).2.dropLast = [] ∧
    ((f 600 1200 0 []).evaluate 600 75).1.fill = 1000 ∧
    (((f 414 1200 0 []).evaluate 600 75).1.fill ≠ 1000 ∧ ((f 414 1200 0 []).evaluate 600 75).1.effRate = 0) ∧
    0 < ((f 414 1200 6 []).evaluate 600 75).1.effRate := by decide +kernel

/-- A barrier evaluation in flight. -/
def flight : Flight := { owner := .barrier 0, stage := 414, table := table, history := [⟨900, 866⟩], carried := 0, now := 1200 }

theorem witness_BarrierEvaluationCompletes :
    let s : State := partWith fun p => { p with flight := some flight }
    let waiting : State := { asking s (request 0x24 0 []) with
      mgmt := { (asking s (request 0x24 0 [])).mgmt with executing := some (.run 0) } }
    s.nresetLow = false ∧ s.plant.flight = some flight ∧ flight.owner = .barrier 0 ∧ (s.plant.village 0).inUse = true ∧
    ((s.plant.village 0).routes.get 0).isSome = true ∧ s.mgmt.executing = none ∧
    waiting.mgmt.executing = some (.run 0) ∧ waiting.mgmt.requests.head? = some (request 0x24 0 []) ∧
    (Wait.run 0).barrier = 0 := by decide +kernel

theorem witness_ExerciseEvaluationCompletes :
    let s : State := partWith fun p => { p with flight := some { flight with owner := .exercise }, session := session }
    s.nresetLow = false ∧ s.plant.flight = some { flight with owner := .exercise } ∧ s.plant.session.active = true ∧
    s.plant.session.barrier = some 0 ∧ (s.plant.village 0).inUse = true ∧ (s.plant.village 0).permit = true ∧
    (s.plant.village 0).routes.get 0 = some (Route.fresh 31) := by decide +kernel

theorem witness_InterpolationFollowsTable :
    table.count ≤ 16 ∧ table.checked = .valid 600 1800 ∧ 600 ≤ 600 ∧ 1 + 1 < table.count ∧
    (table.points.toList.getD 1 ⟨0, 0⟩).stage ≤ 300 ∧ 599 < (table.points.toList.getD 2 ⟨0, 0⟩).stage := by decide +kernel

theorem witness_TableCheckJudges :
    let t (n : Nat) (a b : Point) : Table :=
      { count := n, points := ((Vector.replicate 16 ⟨0, 0⟩).set 0 a).set 1 b, verdict := .unchecked }
    (t 1 ⟨0, 0⟩ ⟨5, 5⟩).checked = .invalid .count none ∧
    (t 2 ⟨0, 1⟩ ⟨5, 5⟩).checked = .invalid .origin (some 0) ∧
    (t 2 ⟨0, 0⟩ ⟨0, 5⟩).checked = .invalid .stageOrder (some 1) ∧
    (t 16 ⟨0, 0⟩ ⟨5, 5⟩).checked = .invalid .stageOrder (some 2) ∧
    ({ table with points := table.points.set 2 ⟨600, 399⟩ } : Table).checked = .invalid .volumeOrder (some 2) ∧
    (t 2 ⟨0, 0⟩ ⟨5, 0⟩).checked = .invalid .capacity (some 1) ∧
    (t 2 ⟨0, 0⟩ ⟨5, 1⟩).checked = .valid 5 1 := by decide +kernel

/-! ### Witnesses: levels -/

theorem witness_EntryLevelInFiveSteps : active.state = .active ∧ active.estimate = some estimate := ⟨rfl, rfl⟩

theorem witness_DecidingEntry :
    (∀ k, Village.cleared.routes.get k = none) ∧ ∃ k, village.routes.get k ≠ none := by
  exact ⟨by decide, 0, by decide⟩

/-! ### Witnesses: requests -/

theorem witness_RequestAdmission :
    let inspected : State := { part with mgmt := { part.mgmt with settings := { part.mgmt.settings with inspecting := true } } }
    let unknown := request 0x7F 0 []
    let held := request 0x23 0 []
    let long := request 0x23 0 [1]
    (asking part unknown).mgmt.requests.head? = some unknown ∧ Instr.unknownRequest.executes unknown = true ∧
    catalogue unknown.code = none ∧
    (asking inspected held).mgmt.requests.head? = some held ∧ Instr.barrierHold.executes held = true ∧
    catalogue held.code = some (.write, 0) ∧ (asking inspected held).mgmt.settings.inspecting = true ∧
    (asking part long).mgmt.requests.head? = some long ∧ Instr.barrierHold.executes long = true ∧
    (asking part long).mgmt.settings.inspecting = false ∧ long.args.length ≠ 0 ∧
    part.nresetLow = false ∧ part.mgmt.executing = none := by decide

theorem witness_SetPartWritesSettings :
    let good := request 0x01 0 [0, 2, 3, 4, 0x03, 0xE8, 60]
    let bad := request 0x01 0 [0, 3, 3, 4, 0x03, 0xE8, 60]
    (asking part good).Begins good 0x01 7 ∧ good.byte 0 ≠ 255 ∧ good.byte 0 ≠ part.ownAddr ∧ good.num16 4 = 1000 ∧
    good.byte 2 ≠ good.byte 3 ∧ (asking part bad).Begins bad 0x01 7 ∧ 2 < (bad.byte 1).toNat ∧
    part.mgmt.settings.inspecting = false := by
  refine ⟨begins _ _ _ _ rfl rfl rfl rfl, by decide, by decide, by decide, by decide, begins _ _ _ _ rfl rfl rfl rfl,
    by decide, rfl⟩

theorem witness_ReadsOnlyReport :
    (∀ r, (r = request 0x02 0 [] ∨ r = request 0x03 0 []) → (asking part r).Begins r r.code.toNat 0) ∧
    (asking part (request 0x12 23 [])).Begins (request 0x12 23 []) 0x12 0 ∧ (request 0x12 23 []).target.toNat < 24 ∧
    (asking part (request 0x12 24 [])).Begins (request 0x12 24 []) 0x12 0 ∧ 24 ≤ (request 0x12 24 []).target.toNat ∧
    (asking part (request 0x1A 47 [])).Begins (request 0x1A 47 []) 0x1A 0 ∧ (request 0x1A 47 []).target.toNat = (47 : Fin 48).1 ∧
    (asking part (request 0x1C 47 [])).Begins (request 0x1C 47 []) 0x1C 0 ∧
    (asking part (request 0x21 3 [1])).Begins (request 0x21 3 [1]) 0x21 1 ∧ ((request 0x21 3 [1]).byte 0).toNat ≤ 1 ∧
    (asking part (request 0x21 3 [2])).Begins (request 0x21 3 [2]) 0x21 1 ∧ 1 < ((request 0x21 3 [2]).byte 0).toNat ∧
    (asking part (request 0x34 7 [])).Begins (request 0x34 7 []) 0x34 0 ∧
    (asking part (request 0x35 8 [])).Begins (request 0x35 8 []) 0x35 0 ∧
    (asking part (request 0x26 3 [])).Begins (request 0x26 3 []) 0x26 0 ∧ (request 0x26 3 []).afterEval = false ∧
    (let s : State := partWith fun p => { p with evalQueue := [⟨.barrier 0, 400⟩] }
     let r := { request 0x25 0 [] with afterEval := true }
     (asking s r).Begins r 0x25 0 ∧ r.afterEval = true ∧ ((asking s r).plant.barrier 0).state = .active ∧
       (asking s r).plant.evalState (.barrier 0) ≠ .idle) := by
  refine ⟨?_, begins _ _ _ _ rfl rfl rfl rfl, by decide, begins _ _ _ _ rfl rfl rfl rfl, by decide,
    begins _ _ _ _ rfl rfl rfl rfl, by decide, begins _ _ _ _ rfl rfl rfl rfl, begins _ _ _ _ rfl rfl rfl rfl, by decide,
    begins _ _ _ _ rfl rfl rfl rfl, by decide, begins _ _ _ _ rfl rfl rfl rfl, begins _ _ _ _ rfl rfl rfl rfl,
    begins _ _ _ _ rfl rfl rfl rfl, rfl, begins _ _ _ _ rfl rfl rfl rfl, rfl, by decide, by decide⟩
  rintro r (rfl | rfl) <;> exact begins _ _ _ _ rfl rfl rfl rfl

theorem witness_CountersClearedAndInspection :
    let inspected : State := { part with mgmt := { part.mgmt with settings := { part.mgmt.settings with inspecting := true } } }
    (asking part (request 0x04 0 [])).Begins (request 0x04 0 []) 0x04 0 ∧
    (asking part (request 0x05 0 [])).Begins (request 0x05 0 []) 0x05 0 ∧ part.mgmt.settings.inspecting = false ∧
    (asking inspected (request 0x05 0 [])).Begins (request 0x05 0 []) 0x05 0 ∧ inspected.mgmt.settings.inspecting = true ∧
    (asking inspected (request 0x06 0 [])).Begins (request 0x06 0 []) 0x06 0 :=
  ⟨begins _ _ _ _ rfl rfl rfl rfl, begins _ _ _ _ rfl rfl rfl rfl, rfl, begins _ _ _ _ rfl rfl rfl rfl, rfl,
    begins _ _ _ _ rfl rfl rfl rfl⟩

theorem witness_Resets :
    let r (scope : Byte) := request 0x07 0 [scope]
    (∀ scope, (asking part (r scope)).Begins (r scope) 0x07 1) ∧ (r 1).byte 0 = 1 ∧ (r 2).byte 0 = 2 ∧ (r 3).byte 0 = 3 ∧
    (asking part (r 1)).mgmt.settings.inspecting = false :=
  ⟨fun _ => begins _ _ _ _ rfl rfl rfl rfl, rfl, rfl, rfl, rfl⟩

/-- An active session for RESET EVAL. -/
theorem witness_ResetEvalClearsEvaluation :
    let s : State := partWith fun p => { p with session := session }
    let r := request 0x07 0 [1]
    (asking s r).Begins r 0x07 1 ∧ s.mgmt.settings.inspecting = false ∧ r.byte 0 = 1 ∧ s.plant.session.active = true ∧
    part.plant.session.active = false ∧ (s.plant.station 0).inUse = true ∧ (s.plant.village 0).inUse = true :=
  ⟨begins _ _ _ _ rfl rfl rfl rfl, rfl, rfl, rfl, rfl, by decide, by decide⟩

/-- An ALERT on the line for RESET LINES, its record DUE, and one whose record is QUIET. -/
theorem witness_ResetLinesClearsPorts :
    let due : Dispatch := { Dispatch.cleared with state := .due .change 0 warning, onLine := true }
    let s (d : Dispatch) : State := { (partWith fun p => p.setDisp 0 d) with
      line := { part.line with dTx := some ⟨frame 1 2 3 4 5 [], .alert 0 none false⟩ } }
    let r := request 0x07 0 [2]
    (asking (s due) r).Begins r 0x07 1 ∧ r.byte 0 = 2 ∧ ((s due).plant.disp 0).onLine = true ∧
    ((s due).plant.disp 0).state = .due .change 0 warning ∧
    ((s { due with state := .quiet }).plant.disp 0).state = .quiet ∧
    ((s { due with state := .quiet }).plant.disp 0).onLine = true ∧ part.line.dTx = none :=
  ⟨begins _ _ _ _ rfl rfl rfl rfl, rfl, by decide, by decide, by decide, by decide, rfl⟩

theorem witness_ResetAllResetsAndReplies :
    let r := { request 0x07 0 [3] with quiet := true }
    (asking part r).Begins r 0x07 1 ∧ part.mgmt.settings.inspecting = false ∧ r.byte 0 = 3 :=
  ⟨begins _ _ _ _ rfl rfl rfl rfl, rfl, rfl⟩

theorem witness_LoadStationWritesRecord :
    let r := request 0x10 23 [0x50, 47, 255, 255, 255, 255, 255, 255, 255, 0x0E, 0x11]
    let s := asking State.reset r
    s.Begins r 0x10 11 ∧ s.mgmt.settings.inspecting = false ∧ r.target.toNat = (23 : Fin 24).1 ∧ r.byte 0 ≠ 0 ∧
    r.byte 0 ≠ 255 ∧ r.byte 0 ≠ s.ownAddr ∧ (∀ j, (s.plant.station j).inUse = false) ∧
    (∀ v, (s.plant.village v).inUse = false) ∧ (∀ c, (s.plant.channel c).inUse = false) ∧
    (∀ j : Fin 8, (r.byte (1 + j.1)).toNat < 48 ∨ r.byte (1 + j.1) = 255) ∧
    (∀ a b : Fin 8, a ≠ b → r.byte (1 + a.1) = r.byte (1 + b.1) → r.byte (1 + a.1) = 255) := by
  refine ⟨begins _ _ _ _ rfl rfl rfl rfl, rfl, by decide, by decide, by decide, by decide, by decide +kernel,
    by decide +kernel, by decide +kernel, by decide +kernel, by decide +kernel⟩

theorem witness_RetireStation :
    let r (i : Nat) := request 0x11 i []
    (∀ i, (asking part (r i)).Begins (r i) 0x11 0) ∧ part.mgmt.settings.inspecting = false ∧ 24 ≤ (r 24).target.toNat ∧
    (r 23).target.toNat = (23 : Fin 24).1 ∧ (part.plant.station 23).inUse = false ∧
    (r 0).target.toNat = (0 : Fin 24).1 ∧ (part.plant.station 0).inUse = true ∧ (part.plant.station 0).state ≠ .retired ∧
    ((heard { station with state := .retired }).plant.station 0).state = .retired :=
  ⟨fun _ => begins _ _ _ _ rfl rfl rfl rfl, rfl, by decide, by decide, by decide, by decide, by decide, by decide, by decide⟩

theorem witness_LoadChannelWritesRecord :
    let r (use kind barrier : Byte) := request 0x18 47 [use, 1, kind, barrier, 0x10, 0, 0, 0, 0, 0x0F, 0xFF, 7, 8, 15, 0, 60, 0, 1]
    let s := State.reset
    (∀ a b c, (asking s (r a b c)).Begins (r a b c) 0x18 18) ∧ s.mgmt.settings.inspecting = false ∧
    (r 1 0 3).target.toNat = (47 : Fin 48).1 ∧ (s.plant.channel 47).inUse = false ∧
    ((r 0 0 0).byte 0 = 0 ∧ (r 1 0 3).byte 0 = 1 ∧ ((r 1 0 3).byte 2).toNat = ChannelKind.stage.code ∧
      ((r 1 0 3).byte 3).toNat = (3 : Fin 4).1 ∧ (r 1 0 3).num16 9 ≤ 4095 ∧ ((r 1 0 3).byte 11).toNat ≤ 7 ∧
      ((r 1 0 3).byte 12).toNat ∈ [1, 2, 4, 8] ∧ ((r 1 0 3).byte 13).toNat ≤ 15) ∧
    ((r 1 1 255).byte 3 = 255 ∧ ((r 1 1 255).byte 2).toNat = ChannelKind.surge.code ∧ (r 1 1 255).num16 16 ≠ 0) ∧
    ((r 1 2 0).byte 2).toNat = ChannelKind.wire.code ∧ (s.plant.barrier 3).state ≠ .active ∧
    ((s.plant.channelsAt 3 .stage).filter (· ≠ 47)).length < 3 := by
  refine ⟨fun _ _ _ => begins _ _ _ _ rfl rfl rfl rfl, rfl, by decide, by decide, by decide +kernel, by decide +kernel,
    by decide, by decide, by decide +kernel⟩

theorem witness_RearmWire :
    let r (c : Nat) := request 0x19 c []
    (∀ c, (asking part (r c)).Begins (r c) 0x19 0) ∧ part.mgmt.settings.inspecting = false ∧ 48 ≤ (r 48).target.toNat ∧
    (r 47).target.toNat = (47 : Fin 48).1 ∧ (part.plant.channel 47).inUse = true ∧ (part.plant.channel 47).kind = .wire ∧
    (part.plant.channel 47).latch = true ∧ (part.plant.channel 47).barrier = some 0 ∧ (part.plant.channel 0).kind ≠ .wire :=
  ⟨fun _ => begins _ _ _ _ rfl rfl rfl rfl, rfl, by decide, by decide, by decide, by decide, by decide, by decide, by decide⟩

theorem witness_LoadPatternRestarts :
    let r (c : Nat) (kind hi lo : Byte) := request 0x1B c [kind, 0, 0, hi, lo, 0, 0, 0, 0, 0, 0]
    (∀ c k a b, (asking part (r c k a b)).Begins (r c k a b) 0x1B 11) ∧ part.mgmt.settings.inspecting = false ∧
    48 ≤ (r 48 0 0 0).target.toNat ∧ (r 47 0 0 0).target.toNat = (47 : Fin 48).1 ∧ 3 < ((r 47 4 0 0).byte 0).toNat ∧
    (((r 47 1 0x10 0).byte 0).toNat = 1 ∧ 4095 < (r 47 1 0x10 0).int16 3) ∧
    (((r 47 1 0xF0 0).byte 0).toNat = 1 ∧ (r 47 1 0xF0 0).int16 3 = -4096) ∧ (r 47 3 0 0).word 9 = 0 ∧
    part.plant.session.active = false ∧ (partWith fun p => { p with session := session }).plant.session.active = true := by
  refine ⟨fun _ _ _ _ => begins _ _ _ _ rfl rfl rfl rfl, rfl, by decide, by decide, by decide, by decide, by decide,
    by decide, rfl, rfl⟩

theorem witness_LoadStagePointsWritesHalf :
    let points : List Byte := List.replicate 32 0
    let r (k : Nat) (half count : Byte) := request 0x20 k ([half, count] ++ points)
    (∀ k a b, (asking part (r k a b)).Begins (r k a b) 0x20 34) ∧ part.mgmt.settings.inspecting = false ∧
    4 ≤ (r 4 0 0).target.toNat ∧ (r 3 1 16).target.toNat = (3 : Fin 4).1 ∧ ((r 3 1 16).byte 0).toNat ≤ 1 ∧
    ((r 3 1 16).byte 1).toNat ≤ 16 ∧ (∀ i : Fin 8, (r 3 1 16).num16 (2 + 4 * i.1) ≤ 4095) ∧
    16 < ((r 3 1 17).byte 1).toNat ∧ (part.plant.barrier 3).state ≠ .active ∧ (part.plant.barrier 0).state = .active := by
  refine ⟨fun _ _ _ => begins _ _ _ _ rfl rfl rfl rfl, rfl, by decide, by decide, by decide, by decide, by decide +kernel,
    by decide, by decide, by decide⟩

theorem witness_LoadBarrierWritesSettings :
    let r (k : Nat) (yes : Byte) := request 0x22 k [0x02, 0x58, 0x02, 0x58, 0x03, 0xE8, 30, yes]
    (∀ k a, (asking part (r k a)).Begins (r k a) 0x22 8) ∧ part.mgmt.settings.inspecting = false ∧
    4 ≤ (r 4 0).target.toNat ∧ (r 3 1).target.toNat = (3 : Fin 4).1 ∧ 1 < ((r 3 2).byte 7).toNat ∧
    ((r 3 1).num16 2 = 600 ∧ (r 3 1).num16 4 = 1000 ∧ ((r 3 1).byte 7).toNat = 1) ∧
    (part.plant.barrier 3).state ≠ .active ∧ (part.plant.barrier 0).state = .active := by
  refine ⟨fun _ _ => begins _ _ _ _ rfl rfl rfl rfl, rfl, by decide, by decide, by decide, by decide, by decide, by decide⟩

theorem witness_BarrierHoldStopsBarrier :
    let r (k : Nat) := request 0x23 k []
    let s : State := partWith fun p => ({ p with session := session }).setBarrier 3 { Barrier.cleared with state := .loading }
    (∀ k, (asking s (r k)).Begins (r k) 0x23 0) ∧ s.mgmt.settings.inspecting = false ∧ 4 ≤ (r 4).target.toNat ∧
    (r 0).target.toNat = (0 : Fin 4).1 ∧ (s.plant.barrier 0).state = .active ∧ s.plant.session.active = true ∧
    s.plant.session.barrier = some 0 ∧ (r 3).target.toNat = (3 : Fin 4).1 ∧ (s.plant.barrier 3).state = .loading ∧
    (s.plant.barrier 2).state = .unloaded ∧ part.plant.session.active = false := by
  refine ⟨fun _ => begins _ _ _ _ rfl rfl rfl rfl, rfl, by decide, by decide, by decide, rfl, rfl, by decide, by decide,
    by decide, rfl⟩

theorem witness_BarrierRunStartsBarrier :
    let r (k : Nat) := request 0x24 k []
    let s : State := partWith fun p => (p.setBarrier 0 { active with state := .loading }).setBarrier 3
      { Barrier.cleared with state := .loading }
    let blind : State := { s with plant := s.plant.setChannel 0 { level 400 with real := .cleared } }
    (∀ k, (asking s (r k)).Begins (r k) 0x24 0) ∧ s.mgmt.settings.inspecting = false ∧ 4 ≤ (r 4).target.toNat ∧
    (r 0).target.toNat = (0 : Fin 4).1 ∧ (s.plant.barrier 0).state = .loading ∧ (s.plant.barrier 1).state ≠ .loading ∧
    (s.plant.table 0).checked.crest?.isSome ∧ 1 ≤ (s.plant.channelsAt 0 .stage).length ∧
    ((s.plant.table 3).checked.crest?.isNone ∧ (s.plant.barrier 3).state = .loading) ∧
    s.plant.realVotes 0 = [400] ∧ blind.plant.realVotes 0 = [] := by
  refine ⟨fun _ => begins _ _ _ _ rfl rfl rfl rfl, rfl, by decide, by decide, by decide, by decide, by decide +kernel,
    by decide +kernel, by decide +kernel, by decide +kernel, by decide +kernel⟩

theorem witness_LoadVillageWritesSettings :
    let r := request 0x30 7 [0x50, 0, 45, 0, 90, 0x05, 0xA0, 20, 0, 10, 3, 1, 44, 0, 120, 1]
    let s := asking State.reset r
    s.Begins r 0x30 16 ∧ s.mgmt.settings.inspecting = false ∧ r.target.toNat = (7 : Fin 8).1 ∧ r.byte 0 ≠ 0 ∧
    r.byte 0 ≠ 255 ∧ r.byte 0 ≠ s.ownAddr ∧ (∀ w, (s.plant.village w).inUse = false) ∧
    (∀ i, (s.plant.station i).inUse = false) ∧ 1 ≤ r.num16 1 ∧ r.num16 1 < r.num16 3 ∧ r.num16 3 < r.num16 5 ∧
    r.num16 5 = 1440 ∧ (r.byte 8).toNat ≤ 1 ∧ (r.byte 15).toNat ≤ 1 := by
  refine ⟨begins _ _ _ _ rfl rfl rfl rfl, rfl, by decide, by decide, by decide, by decide, by decide +kernel,
    by decide +kernel, by decide, by decide, by decide, by decide, by decide, by decide⟩

theorem witness_LoadRouteWritesEntry :
    let r (v : Nat) (k hi lo : Byte) := request 0x31 v [k, hi, lo]
    (∀ v k a b, (asking part (r v k a b)).Begins (r v k a b) 0x31 3) ∧ part.mgmt.settings.inspecting = false ∧
    8 ≤ (r 8 0 0 0).target.toNat ∧ 4 ≤ ((r 0 4 0 0).byte 0).toNat ∧ (r 7 3 0 0).target.toNat = (7 : Fin 8).1 ∧
    ((r 7 3 0 0).byte 0).toNat = (3 : Fin 4).1 ∧ (part.plant.village 7).inUse = false ∧ (part.plant.village 0).inUse = true ∧
    (r 0 0 0x05 0xA0).num16 1 = 1440 ∧ (r 0 0 0x05 0xA1).num16 1 = 1441 ∧ (r 0 0 0xFF 0xFF).num16 1 = 65535 ∧
    (part.plant.village 0).routes.get 3 = none := by
  refine ⟨fun _ _ _ _ => begins _ _ _ _ rfl rfl rfl rfl, rfl, by decide, by decide, by decide, by decide, by decide,
    by decide, by decide, by decide, by decide, by decide⟩

theorem witness_MaskAndRelease :
    let m (v : Nat) (b : Byte) := request 0x32 v [b]
    let r (v : Nat) := request 0x33 v []
    let latched : Village := { village with latch := true, announced := .breach, holdTimer := none }
    let s : State := partWith fun p => p.setVillage 0 latched
    let broken : State := { s with plant := s.plant.setBarrier 0 { active with wire := true } }
    (∀ v b, (asking s (m v b)).Begins (m v b) 0x32 1) ∧ (∀ v, (asking s (r v)).Begins (r v) 0x33 0) ∧
    s.mgmt.settings.inspecting = false ∧ 8 ≤ (m 8 0).target.toNat ∧ (m 0 0x0E).target.toNat = (0 : Fin 8).1 ∧
    (((m 0 0x0E).byte 0).getLsbD 0 = false ∧ ((m 0 0x0E).byte 0).getLsbD 4 = false) ∧ ((m 0 0x10).byte 0).getLsbD 4 = true ∧
    (s.plant.village 7).inUse = false ∧ (s.plant.village 0).latch = true ∧ (part.plant.village 0).latch = false ∧
    ((broken.plant.village 0).routes.get 0 ≠ none ∧ (broken.plant.barrier 0).wire = true) ∧
    (∀ k, (s.plant.barrier k).wire = false ∧ (s.plant.barrier k).overtop = false) := by
  refine ⟨fun _ _ => begins _ _ _ _ rfl rfl rfl rfl, fun _ => begins _ _ _ _ rfl rfl rfl rfl, rfl, by decide, by decide,
    by decide, by decide, by decide, by decide, by decide, by decide, by decide⟩

theorem witness_ExerciseBegins :
    let r (k : Nat) := request 0x40 k []
    (∀ k, (asking part (r k)).Begins (r k) 0x40 0) ∧ part.mgmt.settings.inspecting = false ∧ 4 ≤ (r 4).target.toNat ∧
    (r 3).target.toNat = (3 : Fin 4).1 ∧ (part.plant.barrier 3).state ≠ .active ∧
    (let low : Barrier := { active with estimate := some { estimate with fill := 299 } }
     let s : State := partWith fun p => p.setBarrier 0 low
     s.plant.session.active = false ∧ (s.plant.barrier 0).state = .active ∧
      (∀ e, (s.plant.barrier 0).estimate = some e → e.fill < s.mgmt.settings.ceiling) ∧
      (s.plant.barrier 0).surgeFlag = false ∧ (s.plant.barrier 0).wire = false ∧ (s.plant.barrier 0).overtop = false) := by
  refine ⟨fun _ => begins _ _ _ _ rfl rfl rfl rfl, rfl, by decide, by decide, by decide, rfl, by decide, ?_, by decide,
    by decide, by decide⟩
  intro e h
  have h : some { estimate with fill := 299 } = some e := h
  injection h with h; subst h; decide

theorem witness_ExerciseSyncAndEnd :
    let s : State := partWith fun p => { p with session := session }
    (asking s (request 0x41 0 [])).Begins (request 0x41 0 []) 0x41 0 ∧
    (asking s (request 0x42 0 [])).Begins (request 0x42 0 []) 0x42 0 ∧ s.mgmt.settings.inspecting = false ∧
    s.plant.session.active = true ∧ s.plant.session.barrier = some 0 ∧ part.plant.session.active = false ∧
    (s.plant.village 0).inUse = true :=
  ⟨begins _ _ _ _ rfl rfl rfl rfl, begins _ _ _ _ rfl rfl rfl rfl, rfl, rfl, rfl, rfl, by decide⟩

/-! ### Witnesses: further clauses, at their boundary values -/

/-- A payload length byte of 49, the first above 48, in the last header place. -/
theorem witness_ReceiverHuntsAndBreaks_length :
    let s : State := part.setPort .d { part.line.d with rx := .header [1, 2, 3, 4, 5] 0 }
    s.nresetLow = false ∧ (s.line.port .d).rx = .header [1, 2, 3, 4, 5] 0 ∧ (s.line.port .d).brk ≠ .broken ∧
    48 < (49 : Byte).toNat := by decide

/-- Eight readings, slot 7, an empty slot and a slot above 7 among them, from a station that is silent. -/
theorem witness_SampleReadUpdatesStation_readings :
    let readings : List (Byte × Byte × Byte) := [(0, 1, 2), (7, 0xFF, 0xFF), (8, 0, 1), (255, 0, 1), (1, 0, 1), (0, 0, 0), (0, 1, 1), (7, 0, 0)]
    let f := frame 3 0x20 0x10 39 0 (8 :: readings.flatMap fun x => [x.1, x.2.1, x.2.2])
    let silent : State := heard { station with state := .silent 5, timer := none }
    silent.SampleFor f 0 ∧ (silent.plant.station 0).state ≠ .retired ∧ wellFormedSample f.payload ∧
    (silent.plant.station 0).lastSeq ≠ some f.seq ∧
    f.payload = BitVec.ofNat 8 readings.length :: readings.flatMap (fun x => [x.1, x.2.1, x.2.2]) ∧
    (silent.plant.station 0).state = .silent 5 ∧ (silent.plant.station 0).eligible = false ∧
    (silent.plant.station 0).slots.toList[7]? = some (some 47) ∧ (silent.plant.station 0).slots.toList[8]? = none :=
  ⟨heard_sample _ _ rfl rfl (by decide +kernel) rfl rfl, by decide, ⟨8, _, rfl, by decide, by decide, rfl⟩, by decide, rfl, rfl,
    by decide, by decide, by decide⟩

/-- The states in which an acknowledgement is accepted, and one in which it is not. -/
theorem witness_AlertAckTaken_states :
    let s (st : DispatchState) : State := partWith fun p => p.setDisp 0
      { Dispatch.cleared with state := st, offered := some warning, openOffer := true, unreachedSince := some 0 }
    ((s .await).plant.disp 0).state = .await ∧ ((s .unreached).plant.disp 0).state = .unreached ∧
    ((s (.due .retry 0 warning)).plant.disp 0).state = .due .retry 0 warning ∧
    ((s (.due .reach 0 warning)).plant.disp 0).state = .due .reach 0 warning ∧
    (∀ time c, ((s (.due .change 0 warning)).plant.disp 0).state ≠ .due .retry time c ∧
      ((s (.due .change 0 warning)).plant.disp 0).state ≠ .due .reach time c) := by
  refine ⟨by decide, by decide, by decide, by decide, fun time c => ⟨fun h => ?_, fun h => ?_⟩⟩ <;> injection h with h <;> cases h

theorem witness_UTransmitterServesQueue_completion :
    let f := frame 1 2 3 4 5 []
    let s (queue : List Frame) : State := { part with line := { part.line with du := queue, uTx := some f } }
    (s [f, f]).line.uTx ≠ none ∧ (s [f, f]).line.u.isDown = false ∧ (s [f, f]).line.du = f :: [f] ∧ (s []).line.du = [] ∧
    ((s [f]).setPort .u { part.line.u with state := .down 0 }).line.u.isDown = true ∧ part.line.uTx = none := by
  decide +kernel

/-- The rows of the due test: wanted and not pursued, from QUIET and while DUE; pursued; a correction; nothing wanted. -/
theorem witness_DTransmitCompletion_dueTest :
    let handed : HandOn := ⟨.warn, .clear, ⟨false, false, false⟩, false⟩
    let quiet : Dispatch := { Dispatch.cleared with handed := handed }
    let tests (d : Dispatch) (t : DispatchState) : Prop := (d.dueTest false 9).state = t
    tests quiet (.due .change 9 warning) ∧
    tests { quiet with state := .due .repeated 4 .clear } (.due .change 4 warning) ∧
    tests { quiet with state := .due .retry 4 warning } (.due .retry 4 warning) ∧
    tests { quiet with state := .await, offered := some warning } .await ∧
    tests { quiet with delivered := warning, state := .await, offered := some ⟨.watch, false⟩, openOffer := true }
      (.due .change 9 warning) ∧
    tests { quiet with delivered := warning, state := .due .change 4 ⟨.watch, false⟩ } .quiet ∧
    tests { quiet with delivered := warning, state := .due .change 4 ⟨.watch, false⟩, openOffer := true, offered := some warning }
      (.due .change 4 warning) ∧
    tests { quiet with delivered := warning, state := .due .repeated 4 warning } (.due .repeated 4 warning) ∧
    tests { quiet with delivered := ⟨.watch, false⟩, handed := { handed with mask := ⟨false, true, false⟩ },
                       state := .due .repeated 4 ⟨.watch, false⟩ } .quiet := by
  decide +kernel

theorem witness_SilenceTimerExpires_lapses :
    (plant.channel 5).inUse = false ∧
    ((plant.channel 47).kind = .wire ∧ (plant.channel 47).barrier = some 0) ∧
    ((plant.channel 0).inUse = true ∧ (plant.channel 0).kind = .stage ∧ (plant.channel 0).barrier = some 0 ∧
      (plant.channel 0).real.valid = true ∧ (plant.channel 0).exer.valid = false) ∧
    ((plant.channel 1).inUse = true ∧ (plant.channel 1).kind = .surge ∧ (plant.channel 1).barrier = some 0 ∧
      (plant.channel 1).valid = true) := by decide

/-- A kind that the notice set holds and one that it does not. -/
theorem witness_HoldTimerExpires_posting :
    (∃ n ∈ plant.notices, n.kind = .unconfigured) ∧ (∀ n ∈ plant.notices, n.kind ≠ .breachRaised) := by decide

theorem witness_DurationTimerEndsSession_levels :
    let s : State := partWith fun p => ({ p with session := session, evalQueue := [⟨.exercise, 5⟩] }).setVillage 0
      { village with exComputed := .watch, exAnnounced := .watch }
    s.nresetLow = false ∧ s.plant.session.active = true ∧ s.plant.session.barrier = some 0 ∧
    (s.plant.village 0).inUse = true ∧ (s.plant.village 0).exComputed ≠ .clear ∧ s.plant.evalQueue ≠ [] := by decide

/-- The quality NONE, the same quality and another one; an exercise vote with a value; work that waits and none. -/
theorem witness_VoteAndAssessments_quality :
    ((plant.setBarrier 0 { active with estimate := none }).barrier 0).estimate = none ∧
    ((plant.barrier 0).estimate = some estimate ∧ (plant.barrier 0).voteQuality = some .good) ∧
    ((plant.setBarrier 0 { active with voteQuality := some .blind }).barrier 0).voteQuality ≠ some .good ∧
    (let p : Plant := ({ plant with session := session }).setChannel 0 { level 400 with exer := (level 300).real }
     p.session.active = true ∧ p.session.barrier = some 0 ∧ p.exerciseVotes 0 = [300]) ∧
    (plant.evalQueue = [] ∧ plant.flight = none) := by decide +kernel

/-- Barrier 1 below a full ACTIVE barrier 0 with an effective rate. -/
theorem witness_EvaluationTakesHead_carried :
    let s : State := partWith fun p =>
      ({ p with evalQueue := [⟨.barrier 1, 400⟩] }).setBarrier 0 { active with estimate := some { estimate with fill := 1000, effRate := 7 } }
    s.plant.flight = none ∧ s.plant.evalQueue = ⟨.barrier 1, 400⟩ :: [] ∧ (s.plant.barrier 0).state = .active ∧ 0 < (1 : Fin 4).1 ∧
    s.plant.beginEvaluation.flight.map Flight.carried = some 7 := by decide +kernel

/-- R95: the five tests of the history ring, at the boundaries of the history spacing 75. -/
theorem test_history_ring :
    let ring (history : List HistoryRec) : List Nat :=
      ((Flight.evaluate { owner := .barrier 0, stage := 0, table := table, history := history, carried := 0, now := 200 } 600 75).2).map
        HistoryRec.time
    ring [] = [200] ∧ ring [⟨100, 1⟩, ⟨200, 1⟩] = [100, 200] ∧ ring [⟨199, 1⟩] = [199, 200] ∧
    ring [⟨126, 1⟩, ⟨150, 1⟩] = [126, 200] ∧ ring [⟨125, 1⟩, ⟨150, 1⟩] = [125, 150, 200] ∧
    ring [⟨1, 1⟩, ⟨2, 1⟩, ⟨3, 1⟩, ⟨4, 1⟩, ⟨5, 1⟩, ⟨6, 1⟩, ⟨125, 1⟩, ⟨150, 1⟩] = [2, 3, 4, 5, 6, 125, 150, 200] := by decide +kernel

/-- R93 and the worked burst, events 1 and 2: the first stage voted is taken at once, the second waits, none is superseded. -/
theorem test_burst_takes_first :
    let p := (({ plant with evalQueue := [], flight := none }).offer (.barrier 0) 680).offer (.barrier 0) 682
    p.flight.map Flight.stage = some 680 ∧ p.evalQueue = [⟨.barrier 0, 682⟩] ∧ (p.barrier 0).superseded = 0 := by decide +kernel

/-- A barrier that was not full becomes full below the exercise ceiling's session, with its vote BLIND and no estimate before. -/
theorem witness_BarrierEvaluationCompletes_handedOn :
    let full : Flight := { flight with stage := 600 }
    let s : State := partWith fun p => { p with flight := some full, session := session }
    let blind : State := { s with plant := s.plant.setBarrier 0 { active with estimate := none, voteQuality := some .blind } }
    s.nresetLow = false ∧ s.plant.flight = some full ∧ full.owner = .barrier 0 ∧ s.plant.session.active = true ∧
    s.plant.session.barrier = some 0 ∧ (full.evaluate 600 75).1.fill = 1000 ∧
    (s.plant.barrier 0).estimate.map Estimate.fill ≠ some 1000 ∧ (s.plant.barrier 0).overtop = false ∧
    (blind.plant.barrier 0).estimate = none ∧ (blind.plant.barrier 0).voteQuality = some .blind := by decide +kernel

theorem witness_EntryLevelInFiveSteps_others :
    Barrier.cleared.state = .unloaded ∧ { active with estimate := none }.state = .active ∧
    { active with estimate := none }.estimate = none ∧ { active with state := .loading }.state = .loading ∧
    { active with state := .loading, wire := true }.wire = true ∧ ¬ (active.wire = true ∨ active.overtop = true) := by decide

theorem witness_DecidingEntry_reached :
    let p : Plant := plant.setBarrier 0 { active with wire := true }
    ((p.village 0).inUse = true ∧ (p.village 0).routes.get 0 ≠ none ∧ (p.village 0).latch = false ∧
      ((p.recomputeFor 0).village 0).latch = true) ∧ (p.village 0).routes.get 1 = none ∧
    (∀ w : Fin 8, w ≠ 0 → (p.village w).inUse = false) := by decide +kernel

theorem witness_ReadsOnlyReport_waits :
    let r := { request 0x26 0 [] with afterEval := true }
    (asking part r).Begins r 0x26 0 ∧ r.afterEval = true ∧ part.plant.evalState (.barrier 0) = .idle ∧
    (part.plant.barrier 3).state ≠ .active ∧ (request 0x25 4 []).target.toNat = 4 ∧ (request 0x21 4 [0]).target.toNat = 4 :=
  ⟨begins _ _ _ _ rfl rfl rfl rfl, rfl, by decide, by decide, rfl, rfl⟩

/-- Scopes 0 and 4, the ones beside the three. -/
theorem witness_ResetEvalClearsEvaluation_scope :
    (∀ b, (asking part (request 0x07 0 [b])).Begins (request 0x07 0 [b]) 0x07 1) ∧ (request 0x07 0 [0]).byte 0 = 0 ∧
    3 < ((request 0x07 0 [4]).byte 0).toNat := ⟨fun _ => begins _ _ _ _ rfl rfl rfl rfl, rfl, by decide⟩

/-- A cut ALERT that no record has on the line. -/
theorem witness_ResetLinesClearsPorts_offLine :
    let s : State := { part with line := { part.line with dTx := some ⟨frame 1 2 3 4 5 [], .alert 0 none false⟩ } }
    s.line.dTx = some ⟨frame 1 2 3 4 5 [], .alert 0 none false⟩ ∧ (s.plant.disp 0).onLine = false := by decide +kernel

/-- The refusals of LOAD_STATION: index, addresses, a taken address, slot entries, an ACTIVE barrier; and its clearing form. -/
theorem witness_LoadStationWritesRecord_refused :
    let r (i : Nat) (addr a b : Byte) := request 0x10 i [addr, a, b, 255, 255, 255, 255, 255, 255, 0, 60]
    (∀ i x a b, (asking part (r i x a b)).Begins (r i x a b) 0x10 11) ∧ part.mgmt.settings.inspecting = false ∧
    24 ≤ (r 24 1 0 0).target.toNat ∧ (r 23 255 0 0).byte 0 = 255 ∧ (r 23 254 0 0).byte 0 = part.ownAddr ∧
    ((part.plant.station 0).inUse = true ∧ (part.plant.station 0).addr = (r 23 0x20 0 0).byte 0 ∧ (0 : Fin 24) ≠ 23) ∧
    (48 ≤ ((r 23 1 48 255).byte 1).toNat ∧ (r 23 1 48 255).byte 1 ≠ 255) ∧
    ((r 23 1 5 5).byte 1 = (r 23 1 5 5).byte 2 ∧ ((r 23 1 5 5).byte 1).toNat < 48) ∧
    (((r 23 1 47 255).byte 1).toNat = (47 : Fin 48).1 ∧ (part.plant.station 0).maps 47 = true) ∧
    (((r 23 1 1 255).byte 1).toNat = (1 : Fin 48).1 ∧ (part.plant.channel 1).inUse = true ∧
      (part.plant.channel 1).barrier = some 0 ∧ (part.plant.barrier 0).state = .active) ∧
    ((r 23 0 0 0).byte 0 = 0 ∧ (part.plant.station 23).inUse = false ∧ ∀ c, (part.plant.station 23).maps c = false) := by
  refine ⟨fun _ _ _ _ => begins _ _ _ _ rfl rfl rfl rfl, rfl, by decide, by decide, by decide, by decide, by decide, by decide,
    by decide, by decide, by decide, by decide, by decide⟩

/-- The refusals of LOAD_CHANNEL: index, use, kind, barrier, settings, a barrier at its cap, an ACTIVE barrier; and old records
whose reports it withdraws. -/
theorem witness_LoadChannelWritesRecord_refused :
    let r (c : Nat) (use kind barrier k : Byte) :=
      request 0x18 c [use, 1, kind, barrier, 0x10, 0, 0, 0, 0, 0x0F, 0xFF, k, 8, 15, 0, 60, 0, 1]
    (∀ c a b d k, (asking part (r c a b d k)).Begins (r c a b d k) 0x18 18) ∧ 48 ≤ (r 48 1 0 0 7).target.toNat ∧
    1 < ((r 47 2 0 0 7).byte 0).toNat ∧ 2 < ((r 47 1 3 0 7).byte 2).toNat ∧
    (3 < ((r 47 1 0 4 7).byte 3).toNat ∧ (r 47 1 0 4 7).byte 3 ≠ 255) ∧ 7 < ((r 47 1 0 3 8).byte 11).toNat ∧
    (let full := ((plant.setChannel 2 (level 1)).setChannel 3 (level 2))
     3 ≤ ((full.channelsAt 0 .stage).filter (· ≠ 47)).length) ∧
    ((part.plant.barrier 0).state = .active ∧ (part.plant.channel 47).inUse = true ∧ (part.plant.channel 47).barrier = some 0) ∧
    (let held : Plant := plant.setBarrier 0 { active with state := .loading }
     (held.barrier 0).state ≠ .active ∧ (held.channel 0).real.valid = true ∧ (held.channel 1).valid = true ∧
       (held.channel 47).latch = true) := by
  refine ⟨fun _ _ _ _ _ => begins _ _ _ _ rfl rfl rfl rfl, by decide, by decide, by decide, by decide, by decide,
    by decide +kernel, by decide, by decide⟩

/-- The refusals of LOAD_VILLAGE, its clearing form, and a record in use whose address or ack mode changes. -/
theorem witness_LoadVillageWritesSettings_forms :
    let r (v : Nat) (addr watchLow mode permit : Byte) :=
      request 0x30 v [addr, 0, 45, 0, 90, 0x05, watchLow, 20, mode, 10, 3, 1, 44, 0, 120, permit]
    let quiet : State := partWith fun p => p.setVillage 0 { village with announced := .clear }
    (∀ v a w m p, (asking part (r v a w m p)).Begins (r v a w m p) 0x30 16) ∧ part.mgmt.settings.inspecting = false ∧
    8 ≤ (r 8 1 0xA0 0 0).target.toNat ∧ (r 7 255 0xA0 0 0).byte 0 = 255 ∧ (r 7 254 0xA0 0 0).byte 0 = part.ownAddr ∧
    ((r 7 21 0xA0 0 0).byte 0 = (part.plant.village 0).addr ∧ (part.plant.village 0).inUse = true) ∧
    ((r 7 0x20 0xA0 0 0).byte 0 = (part.plant.station 0).addr ∧ (part.plant.station 0).inUse = true) ∧
    (r 7 1 0xA1 0 0).num16 5 = 1441 ∧ 1 < ((r 7 1 0xA0 2 0).byte 8).toNat ∧ 1 < ((r 7 1 0xA0 0 2).byte 15).toNat ∧
    ((r 0 0 0xA0 0 0).byte 0 = 0 ∧ (part.plant.village 0).announced ≠ .clear ∧ (quiet.plant.village 0).announced = .clear ∧
      (quiet.plant.village 0).exAnnounced = .clear ∧ (part.plant.village 7).inUse = false) ∧
    ((part.plant.village 0).addr ≠ (r 0 22 0xA0 0 0).byte 0 ∧ (part.plant.village 0).addr = (r 0 21 0xA0 1 0).byte 0 ∧
      (part.plant.village 0).ackMode = .confirmed ∧ ((r 0 21 0xA0 1 0).byte 8).toNat = 1) := by
  refine ⟨fun _ _ _ _ _ => begins _ _ _ _ rfl rfl rfl rfl, rfl, by decide, by decide, by decide, by decide, by decide, by decide,
    by decide, by decide, by decide, by decide⟩

/-- An exercise entry in flight and a barrier's entry that waits, for EXERCISE_SYNC. -/
theorem witness_ExerciseSyncAndEnd_work :
    let s : State := partWith fun p =>
      { p with session := session, evalQueue := [⟨.barrier 0, 7⟩], flight := some { flight with owner := .exercise } }
    s.plant.session.active = true ∧ s.plant.session.barrier = some 0 ∧
    (s.plant.workWithout .exercise).1 = [] ∧ (s.plant.workWithout .exercise).2.map Flight.owner = some (.barrier 0) := by
  decide +kernel

/-- The forms of port D: the own address and 255 with another kind, another destination with either kind, the queue at its end. -/
theorem witness_GoodFrameUForwards_portD :
    let f (dst kind : Byte) : Frame := frame dst 9 kind 0 0 []
    part.nresetLow = false ∧ part.line.d.brk ≠ .broken ∧ part.ownAddr = 254 ∧
    ((f 254 0x10).good = true ∧ (f 254 0x10).dst = part.ownAddr ∧ (f 254 0x10).kind ≠ 0x30 ∧ (f 254 0x10).kind ≠ 0x21) ∧
    ((f 255 0x20).good = true ∧ (f 255 0x20).dst ≠ part.ownAddr ∧ (f 255 0x20).kind ≠ 0x30) ∧
    ((f 253 0x30).good = true ∧ (f 253 0x21).good = true ∧ ¬ ((f 253 0x30).dst = part.ownAddr ∨ (f 253 0x30).dst = 255)) ∧
    { part with line := { part.line with du := List.replicate 16 (f 253 0) } }.line.du.length = 16 := by decide +kernel

/-- A flag that was set with a village routed to the barrier, and one that was clear. -/
theorem witness_SurgeHoldExpires_flag :
    let s (flag : Bool) : State := partWith fun p => ({ p with now := 60 }).setBarrier 0 { active with surgeFlag := flag, surgeTimer := some 0 }
    ((s true).plant.barrier 0).surgeFlag = true ∧ ((s false).plant.barrier 0).surgeFlag = false ∧
    ((s true).plant.village 0).inUse = true ∧ ((s true).plant.village 0).routes.get 0 ≠ none ∧
    (∀ c, ((s true).plant.channel c).at 0 .surge = true → c = 1) ∧
    (((s true).plant.channel 1).surgeRing.filter fun e => (s true).plant.now - e.1 < ((s true).plant.channel 1).surgeWindow) = [] := by
  decide +kernel

/-- A village that an exercise evaluation reaches, one in use without a route to the session barrier, and one without a permit. -/
theorem witness_ExerciseEvaluationCompletes_reached :
    let p : Plant := (({ plant with session := session }).setVillage 6 { village with routes := Village.cleared.routes }).setVillage 7
      { village with permit := false }
    (p.village 0).routes.get 0 ≠ none ∧ (p.village 0).permit = true ∧
    ((p.village 6).inUse = true ∧ (p.village 6).permit = true ∧ (p.village 6).routes.get 0 = none) ∧
    ((p.village 7).inUse = true ∧ (p.village 7).permit = false) := by decide

/-- A set latch of a channel of no barrier, and a clear latch. -/
theorem witness_RearmWire_latch :
    let s (ch : Channel) : State := partWith fun p => p.setChannel 47 ch
    (((s { wire with barrier := none }).plant.channel 47).latch = true ∧
      ((s { wire with barrier := none }).plant.channel 47).barrier = none ∧
      ((s { wire with barrier := none }).plant.channel 47).kind = .wire) ∧
    ((s { wire with latch := false }).plant.channel 47).latch = false := by decide

/-- A session with an exercise estimate on the barrier of the village's route, and each of the four cases without a level. -/
theorem witness_AtExercise_cases :
    let s : State := partWith fun p =>
      { p with session := session, exercise := { p.exercise with estimate := some { estimate with ttf := 31 } } }
    s.plant.session.active = true ∧ s.plant.session.barrier = some 0 ∧ s.plant.exercise.estimate.isSome = true ∧
    (s.plant.village 0).permit = true ∧ (s.plant.village 0).routes.get 0 = some (Route.fresh 31) ∧
    (let w := ((s.plant.recomputeBoth 0).village 0)
     (w.exAvailable, w.exComputed, w.exAnnounced, w.exCause) = (62, .warn, .warn, .projection)) ∧
    part.plant.session.active = false ∧ part.plant.exercise.estimate = none ∧ { village with permit := false }.permit = false ∧
    (∀ k, Village.cleared.routes.get k = none) := by decide +kernel

/-- LOAD_ROUTE on village 0: a new travel for its entry, a new entry, the removal of one, and "none" for an absent one. -/
theorem witness_LoadRouteWritesEntry_changes :
    let v := part.plant.village 0
    (part.plant.village 0).inUse = true ∧ v.routes.get 0 = some (Route.fresh 31) ∧ v.routes.get 3 = none ∧
    (request 0x31 0 [3, 0x05, 0xA0]).num16 1 = 1440 ∧ (request 0x31 0 [0, 0xFF, 0xFF]).num16 1 = 65535 ∧
    (request 0x31 0 [0, 0, 0]).num16 1 = 0 ∧ v.latch = false ∧
    { village with latch := true, announced := .breach, holdTimer := none }.latch = true := by decide

/-- A village that the start of a session reaches, and one that it does not. -/
theorem witness_ExerciseBegins_reached :
    ((part.plant.village 0).inUse = true ∧ (part.plant.village 0).permit = true ∧ (part.plant.village 0).routes.get 0 ≠ none) ∧
    (part.plant.village 7).inUse = false := by decide

/-! ### Witnesses: invariants -/

/-- The state right after reset with a command waiting. -/
def waiting (c : Instr) : State := { State.reset with pending := [c] }

theorem reset_station (i : Fin 24) : State.reset.plant.station i = Station.cleared := Vector.getElem_replicate i.2
theorem reset_channel (c : Fin 48) : State.reset.plant.channel c = Channel.cleared := Vector.getElem_replicate c.2
theorem reset_barrier (k : Fin 4) : State.reset.plant.barrier k = Barrier.cleared := Vector.getElem_replicate k.2
theorem reset_village (v : Fin 8) : State.reset.plant.village v = Village.cleared := Vector.getElem_replicate v.2

theorem cleared_maps (c : Fin 48) : Station.cleared.maps c = false := by
  simp [Station.maps, Station.cleared]

theorem reset_slots : State.reset.plant.SlotsExclusive := by
  refine ⟨fun i j c h => ?_, fun i => ?_, fun i _ c => ?_, fun i _ => ?_⟩
  · rw [reset_station, cleared_maps] at h; cases h
  · rw [reset_station]; decide
  · rw [reset_station]; exact cleared_maps c
  · rw [reset_station]; rfl

theorem witness_SlotsAndCapsStayKept :
    (waiting .wholeSecondBoundary).plant.SlotsExclusive ∧ (∃ t, step (waiting .wholeSecondBoundary) = .next t) ∧
    (waiting .wholeSecondBoundary).plant.CapsKept := by
  refine ⟨reset_slots, ⟨_, rfl⟩, fun k kind => ?_⟩
  have e : (waiting .wholeSecondBoundary).plant.channelsAt k kind = [] := by
    show (List.finRange 48).filter _ = []
    rw [List.filter_eq_nil_iff]; intro c _
    show ¬ (State.reset.plant.channel c).at k kind = true
    rw [reset_channel]; simp [Channel.at, Channel.cleared]
  rw [e]; simp

theorem witness_SourcesStayMatched :
    (waiting .grant).plant.SourcesMatch ∧ ∃ t, step (waiting .grant) = .next t := by
  refine ⟨⟨reset_slots, fun c => ?_, fun c => ?_⟩, _, rfl⟩
  · show (State.reset.plant.channel c).eligible = true ↔ ∃ i, (State.reset.plant.station i).inUse = true ∧ _
    rw [reset_channel]
    refine ⟨fun h => by simp [Channel.cleared] at h, fun ⟨i, h, _⟩ => ?_⟩
    rw [reset_station] at h; simp [Station.cleared] at h
  · show (State.reset.plant.channel c).Sound
    rw [reset_channel]
    exact ⟨fun h => by simp [Channel.cleared, StagePath.cleared] at h,
      fun h => by simp [Channel.cleared, StagePath.cleared] at h, fun h => by simp [Channel.cleared] at h⟩

theorem cleared_village_sound : Village.cleared.Sound :=
  ⟨fun _ => rfl, by simp [Village.cleared], fun _ => rfl, fun h => by simp [Village.cleared] at h⟩

theorem witness_LadderStaysSound :
    (waiting (.holdTimerExpiry 7)).plant.LadderSound ∧ ∃ t, step (waiting (.holdTimerExpiry 7)) = .next t :=
  ⟨fun v => by show (State.reset.plant.village v).Sound; rw [reset_village]; exact cleared_village_sound, _, rfl⟩

/-- A village announcing WARN, sound, whose hold is due. -/
theorem witness_AnnouncedFallsOneStepAtHoldExpiry :
    let s : State := { State.reset with plant := State.reset.plant.setVillage 0 { village with holdTimer := some 0 } }
    s.plant.LadderSound ∧ (Instr.holdTimerExpiry 0).isFullReset = false ∧ (∃ t, exec (.holdTimerExpiry 0) s = .next t) ∧
    (s.plant.village 0).holdTimer = some 0 := by
  refine ⟨fun v => ?_, rfl, ⟨_, rfl⟩, by decide⟩
  by_cases hv : v = 0
  · subst hv
    rw [Plant.village_setVillage]
    exact ⟨fun h => by simp [village] at h, by simp [village, Village.cleared], fun h => by simp [village, Village.cleared] at h,
      fun _ _ => rfl⟩
  · rw [Plant.village_setVillage_of_ne _ hv, reset_village]; exact cleared_village_sound

theorem witness_QueuesStayBoundedAndFramesGood :
    (waiting .grant).Bounded ∧ (waiting .grant).FramesGood ∧ ∃ t, step (waiting .grant) = .next t := by
  refine ⟨⟨by decide, by decide, by decide, by decide, by decide, by decide, ?_⟩, ⟨?_, ?_, ?_, ?_, ?_, ?_⟩, _, rfl⟩
  · intro n hn
    have hn : n ∈ [unconfiguredNotice 0] := hn
    obtain rfl := List.mem_singleton.1 hn
    exact ⟨le_rfl, by decide⟩
  · intro f hf; exact absurd hf (List.not_mem_nil)
  · intro f hf; exact absurd hf (List.not_mem_nil)
  · intro f hf; cases hf
  · intro f hf; cases hf
  · intro p; cases p <;> exact trivial
  · intro r hr; exact absurd hr (List.not_mem_nil)

theorem witness_EstimatorStaysSound :
    (waiting .evaluationBegin).plant.EstimatorSound ∧ (waiting .evaluationBegin).plant.AtWork ∧ ∃ t, step (waiting .evaluationBegin) = .next t := by
  refine ⟨⟨fun k h => ?_, fun e h => absurd h (List.not_mem_nil), fun f h => (by cases h),
    fun h => absurd (show Session.cleared.active = true from h) (by decide)⟩, fun _ => rfl, _, rfl⟩
  have h : (State.reset.plant.barrier k).state = .active := h
  rw [reset_barrier] at h; simp [Barrier.cleared] at h

end Sys2Proof.Tests
end

section
/-! The request LOAD_BARRIER (R84): what its rule answers, and the obligation on it. -/

namespace Sys2Proof.Proofs

open Sys2Proof.Machine

/-- The argument check of R84, orders 2 to 4. -/
theorem barrierGood_iff (r : Request) :
    r.barrierGood = true ↔ ¬ (r.num16 2 < 1 ∨ 1000 < r.num16 2 ∨ r.num16 4 < 1 ∨ 1000 < r.num16 4 ∨
      r.num16 4 < r.num16 2 ∨ 1 < (r.byte 7).toNat) := by
  simp only [Request.barrierGood, Request.num, Bool.and_eq_true, Nat.ble_eq]
  omega

theorem loadBarrierRule_badIndex {r : Request} (s : State) (h : 4 ≤ r.target.toNat) :
    loadBarrierRule r s = refuse s .badIndex := by
  simp [loadBarrierRule, Request.index_of_le h]

section
variable {r : Request} {k : Fin 4} (s : State) (hk : r.target.toNat = k.1)
include hk

theorem loadBarrierRule_badValue (bad : ¬ r.barrierGood = true) : loadBarrierRule r s = refuse s .badValue := by
  simp [loadBarrierRule, Request.index_of_lt k hk, bad]

theorem loadBarrierRule_wrongState (good : r.barrierGood = true) (active : (s.plant.barrier k).state = .active) :
    loadBarrierRule r s = refuse s .wrongState := by
  simp [loadBarrierRule, Request.index_of_lt k hk, good, active]

theorem loadBarrierRule_done (good : r.barrierGood = true) (idle : (s.plant.barrier k).state ≠ .active) :
    loadBarrierRule r s = finished (s.plant.setBarrier k ((s.plant.barrier k).load r)) := by
  simp [loadBarrierRule, Request.index_of_lt k hk, good, idle]

end

theorem exec_loadBarrier (s : State) : exec .loadBarrier s = .next (s.request (isCode 0x22) (onPlant loadBarrierRule)) := rfl

section
variable {s : State} {r : Request} (hb : s.Begins r 0x22 8) (hi : s.mgmt.settings.inspecting = false)
include hb hi

/-- A LOAD_BARRIER whose rule refuses is only answered (R2, R169). -/
theorem loadBarrier_onlyAnswers {o : ReqOutcome} (hr : loadBarrierRule r s = refuse s o) :
    ∃ t, exec .loadBarrier s = .next t ∧ s.OnlyAnswers r o t :=
  ⟨{ s with mgmt := s.mgmt.answered r o [] },
    (exec_loadBarrier s).trans (congrArg _ (hb.onPlant_refused rfl (fun _ => hi) hb.isCode hr)), rfl⟩

/-- A LOAD_BARRIER whose rule finishes is answered DONE and leaves the rule's plant. -/
theorem loadBarrier_answers {p : Plant} (hr : loadBarrierRule r s = finished p) :
    ∃ t, exec .loadBarrier s = .next t ∧ s.Answers r .done [] t ∧ t.plant = p :=
  ⟨{ s with plant := p, mgmt := s.mgmt.answered r .done [] },
    (exec_loadBarrier s).trans (congrArg _ (hb.onPlant_done rfl (fun _ => hi) hb.isCode hr)),
    s.answers_intro r .done [] p, rfl⟩

end

/-- Settles O46, by the answer of the rule of LOAD_BARRIER in each case of R84. -/
theorem loadBarrierWritesSettings : Obligations.LoadBarrierWritesSettings := by
  intro s r hb hi bad
  have good_iff : r.barrierGood = true ↔ ¬ bad := barrierGood_iff r
  refine ⟨fun high => loadBarrier_onlyAnswers hb hi (loadBarrierRule_badIndex s high), fun k hk => ⟨?_, ?_, ?_⟩⟩
  · intro isBad
    exact loadBarrier_onlyAnswers hb hi (loadBarrierRule_badValue s hk fun good => good_iff.1 good isBad)
  · intro notBad active
    exact loadBarrier_onlyAnswers hb hi (loadBarrierRule_wrongState s hk (good_iff.2 notBad) active)
  · intro notBad idle
    obtain ⟨t, ht, answers, plant⟩ := loadBarrier_answers hb hi (loadBarrierRule_done s hk (good_iff.2 notBad) idle)
    refine ⟨t, ht, answers, plant, ?_⟩
    rw [plant, Plant.barrier_setBarrier]
    rfl

end Sys2Proof.Proofs
end

section
/-! The results of an evaluation (R81, R95 to R98): the fields of the estimate, the history ring, and the obligation on
them. -/

namespace Sys2Proof.Proofs

open Sys2Proof.Machine

/-! ### The fields of an evaluation's results -/

section
variable (f : Flight) (window spacing : Nat)

theorem evaluate_volume_above :
    ((f.evaluate window spacing).1.volume, (f.evaluate window spacing).1.above) = f.table.interpolate f.stage := rfl

theorem evaluate_fill :
    (f.evaluate window spacing).1.fill = fillOf (f.evaluate window spacing).1.volume f.table.capacity := rfl

theorem evaluate_ring : (f.evaluate window spacing).2 =
    updateHistory spacing f.now (f.evaluate window spacing).1.volume f.history := rfl

theorem evaluate_rate : ((f.evaluate window spacing).1.ownRate, (f.evaluate window spacing).1.rated) =
    ownRate window f.now (f.evaluate window spacing).1.volume (f.evaluate window spacing).2 := rfl

theorem evaluate_effRate : (f.evaluate window spacing).1.effRate =
    effectiveRate (f.evaluate window spacing).1.ownRate f.carried := rfl

theorem evaluate_ttf : (f.evaluate window spacing).1.ttf =
    timeToFull (f.evaluate window spacing).1.fill f.table.capacity (f.evaluate window spacing).1.volume
      (f.evaluate window spacing).1.effRate := rfl

end

/-! ### Rates and time-to-full -/

/-- The own rate is RATED by the oldest other record within the rate window (R96). -/
theorem ownRate_rated {window now : Nat} (volume : Nat) {ring : List HistoryRec} {old : HistoryRec}
    (h : ring.dropLast.find? (fun r => decide (now - r.time ≤ window)) = some old) :
    ownRate window now volume ring =
      (max (-32768) (min ((((volume : Int) - old.volume) * 60).tdiv ((now : Int) - old.time)) 32767), true) := by
  unfold ownRate
  rw [h]
  rfl

/-- Without another record within the rate window the own rate is 0 and not RATED (R96). -/
theorem ownRate_unrated {window now : Nat} (volume : Nat) {ring : List HistoryRec}
    (h : ∀ r ∈ ring.dropLast, window < now - r.time) : ownRate window now volume ring = (0, false) := by
  have none_within : ring.dropLast.find? (fun r => decide (now - r.time ≤ window)) = none :=
    List.find?_eq_none.2 fun r hr => by simpa only [decide_eq_true_eq, Nat.not_le] using h r hr
  unfold ownRate
  rw [none_within]

theorem effectiveRate_cast (own : Int) (carried : Nat) :
    (effectiveRate own carried : Int) = min (max 0 own + carried) 32767 := by
  simp only [effectiveRate, Config.rateMax]
  omega

/-- The model's rounding up is the library's, so that its bounds are the library's Galois connection. -/
theorem ceilDiv_le_iff {a b n : Nat} (hb : 0 < b) : Machine.ceilDiv a b ≤ n ↔ a ≤ n * b := by
  rw [Nat.mul_comm, ← ceilDiv_le_iff_le_mul hb, Nat.ceilDiv_eq_add_pred_div]
  rfl

theorem timeToFull_full (capacity volume rate : Nat) : timeToFull 1000 capacity volume rate = 0 := rfl

theorem timeToFull_still {fill : Nat} (capacity volume : Nat) (h : fill ≠ 1000) :
    timeToFull fill capacity volume 0 = 65535 := by
  simp [timeToFull, Config.fullFill, Config.noMinutes, h]

theorem timeToFull_filling {fill rate : Nat} (capacity volume : Nat) (h : fill ≠ 1000) (hr : 0 < rate) :
    timeToFull fill capacity volume rate = min (Machine.ceilDiv (capacity - volume) rate) 65534 := by
  simp [timeToFull, Config.fullFill, Config.minutesMax, h, hr.ne']

/-- The time-to-full of a filling basin is the least whole number of minutes that fills it, up to 65534 (R98). -/
theorem timeToFull_least {fill rate : Nat} (capacity volume : Nat) (h : fill ≠ 1000) (hr : 0 < rate) :
    let ttf := timeToFull fill capacity volume rate
    ttf ≤ 65534 ∧ (capacity - volume ≤ ttf * rate ∨ ttf = 65534) ∧ ∀ n, capacity - volume ≤ n * rate → ttf ≤ n := by
  simp only [timeToFull_filling capacity volume h hr, ← ceilDiv_le_iff hr]
  exact ⟨by omega, by omega, fun n hn => by omega⟩

/-! ### The history ring (R95) -/

section
variable {spacing now : Nat} (volume : Nat)

theorem updateHistory_nil : updateHistory spacing now volume [] = [⟨now, volume⟩] := rfl

theorem updateHistory_same_second (older : List HistoryRec) {newest : HistoryRec} (h : newest.time = now) :
    updateHistory spacing now volume (older ++ [newest]) = older ++ [⟨now, volume⟩] := by
  simp [updateHistory, h]

theorem updateHistory_singleton {newest : HistoryRec} (h : newest.time ≠ now) :
    updateHistory spacing now volume [newest] = [newest, ⟨now, volume⟩] := by
  simp [updateHistory, h]

theorem updateHistory_within_spacing (older : List HistoryRec) {second newest : HistoryRec} (h : newest.time ≠ now)
    (close : now - second.time < spacing) :
    updateHistory spacing now volume (older ++ [second, newest]) = older ++ [second, ⟨now, volume⟩] := by
  simp [updateHistory, h, close]

theorem updateHistory_spaced (older : List HistoryRec) {second newest : HistoryRec} (h : newest.time ≠ now)
    (spaced : spacing ≤ now - second.time) :
    updateHistory spacing now volume (older ++ [second, newest]) =
      (older ++ [second, newest]).drop ((older ++ [second, newest]).length - 7) ++ [⟨now, volume⟩] := by
  rw [← List.drop_append_of_le_length (by omega)]
  simp [updateHistory, h, Nat.not_lt.2 spaced, Config.historyMax]

/-- What R95 can do: the new record comes last, after all records but the newest, or, where the newest is of another second,
after all records but those beyond the last 7. -/
theorem updateHistory_cases (ring : List HistoryRec) :
    ∃ kept, updateHistory spacing now volume ring = kept ++ [⟨now, volume⟩] ∧
      ((∃ newest, ring = kept ++ [newest]) ∨
        (kept = ring.drop (ring.length - 7) ∧ ∀ newest ∈ ring.getLast?, newest.time ≠ now)) := by
  cases ring using List.reverseRecOn with
  | nil => exact ⟨[], rfl, .inr ⟨rfl, by simp⟩⟩
  | append_singleton older newest =>
    by_cases same : newest.time = now
    · exact ⟨older, updateHistory_same_second volume older same, .inl ⟨newest, rfl⟩⟩
    cases older using List.reverseRecOn with
    | nil => exact ⟨[newest], updateHistory_singleton volume same, .inr ⟨rfl, by simpa using same⟩⟩
    | append_singleton older second =>
      simp only [List.append_assoc, List.singleton_append]
      by_cases close : now - second.time < spacing
      · exact ⟨older ++ [second], by simpa using updateHistory_within_spacing volume older same close,
          .inl ⟨newest, by simp⟩⟩
      · exact ⟨_, updateHistory_spaced volume older same (Nat.le_of_not_lt close), .inr ⟨rfl, by simpa using same⟩⟩

theorem updateHistory_getLast (ring : List HistoryRec) :
    (updateHistory spacing now volume ring).getLast? = some ⟨now, volume⟩ := by
  obtain ⟨kept, eq, _⟩ := updateHistory_cases (spacing := spacing) (now := now) volume ring
  simp [eq]

theorem updateHistory_length {ring : List HistoryRec} (h : ring.length ≤ 8) :
    (updateHistory spacing now volume ring).length ≤ 8 := by
  obtain ⟨kept, eq, ⟨newest, rfl⟩ | ⟨rfl, _⟩⟩ := updateHistory_cases (spacing := spacing) (now := now) volume ring
  · simpa [eq] using h
  · simp [eq]; omega

/-- The times of a ring rise, so a ring whose newest record is not later than `now` stays rising (R95). -/
theorem updateHistory_rises {ring : List HistoryRec} (rises : ring.Pairwise fun a b => a.time < b.time)
    (past : ∀ r ∈ ring, r.time ≤ now) :
    (updateHistory spacing now volume ring).Pairwise fun a b => a.time < b.time := by
  obtain ⟨kept, eq, hk⟩ := updateHistory_cases (spacing := spacing) (now := now) volume ring
  have kept_sublist : kept.Sublist ring := by
    obtain ⟨newest, rfl⟩ | ⟨rfl, _⟩ := hk
    · exact List.sublist_append_left ..
    · exact List.drop_sublist ..
  have kept_earlier : ∀ r ∈ kept, r.time < now := by
    obtain ⟨newest, rfl⟩ | ⟨_, other⟩ := hk
    · intro r hr
      exact (List.pairwise_append.1 rises).2.2 r hr newest (by simp) |>.trans_le (past newest (by simp))
    · intro r hr
      have mem := kept_sublist.subset hr
      cases ring using List.reverseRecOn with
      | nil => cases mem
      | append_singleton older newest =>
        have newest_earlier : newest.time < now := (past newest (by simp)).lt_of_ne (other newest (by simp))
        obtain in_older | rfl : r ∈ older ∨ r = newest := by simpa using mem
        · exact (List.pairwise_append.1 rises).2.2 r in_older newest (by simp) |>.trans newest_earlier
        · exact newest_earlier
  rw [eq]
  exact List.pairwise_append.2 ⟨rises.sublist kept_sublist, List.pairwise_singleton .., by simpa using kept_earlier⟩

end

/-- Settles O26, from the equations of the rates, of the time-to-full and of the history ring. -/
theorem evaluationProjects : Obligations.EvaluationProjects := by
  intro f window spacing e ring c new
  have rate : (e.ownRate, e.rated) = ownRate window f.now e.volume ring := evaluate_rate f window spacing
  have ttf : e.ttf = timeToFull e.fill c e.volume e.effRate := evaluate_ttf f window spacing
  have ring_eq : ring = updateHistory spacing f.now e.volume f.history := evaluate_ring f window spacing
  refine ⟨evaluate_volume_above f window spacing, evaluate_fill f window spacing, ?rated, ?unrated,
    effectiveRate_cast e.ownRate f.carried, ?full, ?still, ?filling, ?empty, ?sameSecond, ?single, ?spacing,
    ring_eq ▸ updateHistory_getLast e.volume f.history, ?length, ?rises⟩
  case rated =>
    intro old h
    rw [ownRate_rated e.volume h] at rate
    exact ⟨congrArg Prod.snd rate, congrArg Prod.fst rate⟩
  case unrated =>
    intro h
    rw [ownRate_unrated e.volume h] at rate
    exact ⟨congrArg Prod.snd rate, congrArg Prod.fst rate⟩
  case full => intro full; rw [ttf, full, timeToFull_full]
  case still => intro notFull zero; rw [ttf, zero, timeToFull_still c e.volume notFull]
  case filling => intro notFull pos; rw [ttf]; exact timeToFull_least c e.volume notFull pos
  case empty => intro h; rw [ring_eq, h]; exact updateHistory_nil e.volume
  case sameSecond => intro older newest h same; rw [ring_eq, h]; exact updateHistory_same_second e.volume older same
  case single => intro newest h other; rw [ring_eq, h]; exact updateHistory_singleton e.volume other
  case spacing =>
    intro older second newest h other
    refine ⟨fun close => ?_, fun spaced short => ?_, fun spaced full => ?_⟩ <;> rw [ring_eq]
    · rw [h]; exact updateHistory_within_spacing e.volume older other close
    · rw [h, updateHistory_spaced e.volume older other spaced, ← h, Nat.sub_eq_zero_of_le (by omega), List.drop_zero]
    · rw [h, updateHistory_spaced e.volume older other spaced, ← h, full, ← List.drop_one]
  case length => intro h; rw [ring_eq]; exact updateHistory_length e.volume h
  case rises => intro h past; rw [ring_eq]; exact updateHistory_rises e.volume h past

end Sys2Proof.Proofs
end

section
/-! The route entry of a barrier (R118 to R120): what each step of its level does to level and cause, the entry in each state
of the barrier, and the obligation on it. -/

namespace Sys2Proof.Proofs

open Sys2Proof.Machine

/-! ### Projection (R118) -/

theorem project_code (vl : Village) (a : Nat) :
    (vl.project a).code = if a ≤ vl.evac then 3 else if a ≤ vl.warn then 2 else if a ≤ vl.watch then 1 else 0 := by
  unfold Village.project
  split_ifs <;> rfl

theorem project_code_le (vl : Village) (a : Nat) : (vl.project a).code ≤ 3 := by
  rw [project_code]; split_ifs <;> decide

/-! ### The steps that raise an entry level (R119) -/

/-- A step of R119 as an entry sees it: its level does not fall, and `cause` is its cause exactly where the level rose. -/
structure Raises (cause : Cause) (before after : Level × Cause) : Prop where
  level_le : before.1.code ≤ after.1.code
  cause_eq : after.2 = if before.1.code < after.1.code then cause else before.2

theorem Raises.refl (cause : Cause) (lc : Level × Cause) : Raises cause lc lc :=
  ⟨le_rfl, by rw [if_neg (lt_irrefl _)]⟩

theorem Raises.trans {cause : Cause} {a b c : Level × Cause} (hab : Raises cause a b) (hbc : Raises cause b c) :
    Raises cause a c := by
  refine ⟨hab.level_le.trans hbc.level_le, ?_⟩
  by_cases rose : b.1.code < c.1.code
  · rw [hbc.cause_eq, if_pos rose, if_pos (hab.level_le.trans_lt rose)]
  · have same : b.1.code = c.1.code := hbc.level_le.antisymm (not_lt.1 rose)
    rw [hbc.cause_eq, if_neg rose, hab.cause_eq, same]

section
variable (floor : Level) (cause : Cause) (lc : Level × Cause)

theorem raiseTo_code : (raiseTo floor cause lc).1.code = max lc.1.code floor.code := by
  unfold raiseTo
  split_ifs with below
  · exact (max_eq_right below.le).symm
  · exact (max_eq_left (not_lt.1 below)).symm

theorem raiseTo_raises : Raises cause lc (raiseTo floor cause lc) := by
  unfold raiseTo
  split_ifs with below
  · exact ⟨below.le, (if_pos below).symm⟩
  · exact .refl cause lc

end

section
variable (condition : Prop) [Decidable condition] (floor : Level) (cause : Cause) (lc : Level × Cause)

theorem raiseTo_if_code :
    (if condition then raiseTo floor cause lc else lc).1.code =
      if condition then max lc.1.code floor.code else lc.1.code := by
  split_ifs
  · exact raiseTo_code ..
  · rfl

theorem raiseTo_if_raises : Raises cause lc (if condition then raiseTo floor cause lc else lc) := by
  split_ifs
  · exact raiseTo_raises ..
  · exact .refl ..

end

section
variable (watchFill warnFill fill : Nat) (lc : Level × Cause)

theorem fillFloors_code :
    let warned := if warnFill ≤ fill ∧ warnFill ≠ 1000 then max lc.1.code 2 else lc.1.code
    (fillFloors watchFill warnFill fill lc).1.code =
      if watchFill ≤ fill ∧ watchFill ≠ 1000 then max warned 1 else warned := by
  unfold fillFloors
  rw [raiseTo_if_code, raiseTo_if_code]
  rfl

theorem fillFloors_raises : Raises .fill lc (fillFloors watchFill warnFill fill lc) :=
  (raiseTo_if_raises ..).trans (raiseTo_if_raises ..)

variable {lc} in
theorem fillFloors_code_le (h : lc.1.code ≤ 3) : (fillFloors watchFill warnFill fill lc).1.code ≤ 3 := by
  rw [fillFloors_code]
  split_ifs <;> omega

end

theorem quality_of_estimate {b : Barrier} {e : Estimate} (h : b.estimate = some e) : b.quality = b.voteQuality := by
  simp only [Barrier.quality, h]

theorem up_code {l : Level} (h : l.code < 4) : l.up.code = l.code + 1 := by
  cases l with
  | breach => exact absurd h (by decide)
  | _ => rfl

section
variable (b : Barrier) (lc : Level × Cause)

theorem blindFloor_code :
    (blindFloor b lc).1.code = if b.quality = some .blind then max lc.1.code 1 else lc.1.code :=
  raiseTo_if_code ..

theorem blindFloor_raises : Raises .blind lc (blindFloor b lc) := raiseTo_if_raises ..

variable {lc} in
theorem blindFloor_code_le (h : lc.1.code ≤ 3) : (blindFloor b lc).1.code ≤ 3 := by
  rw [blindFloor_code]
  split_ifs <;> omega

theorem surgeStep_code :
    (surgeStep b lc).1.code = if b.surgeFlag = true ∧ lc.1.code < 3 then lc.1.code + 1 else lc.1.code := by
  change (if b.surgeFlag = true ∧ lc.1.code < 3 then (lc.1.up, Cause.surge) else lc).1.code = _
  split_ifs with raised
  · exact up_code (raised.2.trans (by decide))
  · rfl

theorem surgeStep_raises : Raises .surge lc (surgeStep b lc) := by
  unfold surgeStep
  split_ifs with raised
  · have rose : lc.1.code < lc.1.up.code := by rw [up_code (raised.2.trans (by decide))]; exact Nat.lt_succ_self _
    exact ⟨rose.le, (if_pos rose).symm⟩
  · exact .refl ..

variable {lc} in
theorem surgeStep_code_le (h : lc.1.code ≤ 3) : (surgeStep b lc).1.code ≤ 3 := by
  rw [surgeStep_code]
  split_ifs <;> omega

/-! ### The breach step and the held level -/

theorem breached_iff : b.breached = true ↔ b.wire = true ∨ b.overtop = true := by
  rw [Barrier.breached, Bool.or_eq_true]

variable {b} in
theorem breachStep_of_breached (h : b.wire = true ∨ b.overtop = true) :
    breachStep b lc = (.breach, if b.wire = true then .wire else .overtop) := if_pos ((breached_iff b).2 h)

variable {b} in
theorem breachStep_of_not_breached (h : ¬ (b.wire = true ∨ b.overtop = true)) : breachStep b lc = lc :=
  if_neg fun breached => h ((breached_iff b).1 breached)

theorem breachStep_code :
    (breachStep b lc).1.code = if b.wire = true ∨ b.overtop = true then 4 else lc.1.code := by
  split_ifs with h
  · rw [breachStep_of_breached lc h]; rfl
  · rw [breachStep_of_not_breached lc h]

theorem breachStep_cause :
    (breachStep b lc).2 = if b.wire = true then .wire else if b.overtop = true then .overtop else lc.2 := by
  by_cases h : b.wire = true ∨ b.overtop = true
  · rw [breachStep_of_breached lc h]
    split_ifs with wire overtop
    · rfl
    · rfl
    · exact absurd h (not_or.2 ⟨wire, overtop⟩)
  · obtain ⟨wire, overtop⟩ := not_or.1 h
    rw [breachStep_of_not_breached lc h, if_neg wire, if_neg overtop]

end

theorem heldAt_code (l : Level) : l.heldAt.code = min l.code 3 := by cases l <;> rfl

/-! ### The entry in each state of its barrier -/

section
variable (b : Barrier) (e : Estimate) (vl : Village) (r : Route)

/-- Level and cause of the entry after the projection (R118). -/
def entryProjected : Level × Cause := (vl.project (availableTime e.ttf r.travel), .projection)

/-- Level and cause of the entry after the fill floors (R119). -/
def entryFloored : Level × Cause := fillFloors b.watchFill b.warnFill e.fill (entryProjected e vl r)

/-- Level and cause of the entry after the blind floor (R119). -/
def entryBlinded : Level × Cause := blindFloor b (entryFloored b e vl r)

/-- Level and cause of the entry after the surge step (R119). -/
def entrySurged : Level × Cause := surgeStep b (entryBlinded b e vl r)

/-- The entry of an ACTIVE barrier with an estimate takes the breach step last (R119). -/
theorem judged_eq : r.judged b e vl =
    { r with level := (breachStep b (entrySurged b e vl r)).1, cause := (breachStep b (entrySurged b e vl r)).2,
             available := availableTime e.ttf r.travel, fill := some e.fill,
             held := (breachStep b (entrySurged b e vl r)).1.heldAt } := rfl

/-- The cause of the entry before the breach step is that of the last step that raised the level (R119). -/
theorem entrySurged_cause : (entrySurged b e vl r).2 =
    if (entryBlinded b e vl r).1.code < (entrySurged b e vl r).1.code then .surge
    else if (entryFloored b e vl r).1.code < (entryBlinded b e vl r).1.code then .blind
    else if (entryProjected e vl r).1.code < (entryFloored b e vl r).1.code then .fill else .projection := by
  have surge : Raises .surge (entryBlinded b e vl r) (entrySurged b e vl r) := surgeStep_raises ..
  have blind : Raises .blind (entryFloored b e vl r) (entryBlinded b e vl r) := blindFloor_raises ..
  have fill : Raises .fill (entryProjected e vl r) (entryFloored b e vl r) := fillFloors_raises ..
  rw [surge.cause_eq, blind.cause_eq, fill.cause_eq]
  rfl

theorem entrySurged_code_le : (entrySurged b e vl r).1.code ≤ 3 :=
  surgeStep_code_le b (blindFloor_code_le b (fillFloors_code_le _ _ _ (project_code_le vl _)))

end

section
variable {b : Barrier} (vl : Village) (r : Route)

theorem routeForm_of_active {e : Estimate} (active : b.state = .active) (he : b.estimate = some e) :
    r.form b vl = r.judged b e vl := by
  simp only [Route.form, active, he]

theorem routeForm_of_no_estimate (h : b.state = .unloaded ∨ b.state = .active ∧ b.estimate = none) :
    r.form b vl = r.unjudged b := by
  obtain unloaded | ⟨active, absent⟩ := h
  · simp only [Route.form, unloaded]
  · simp only [Route.form, active, absent]

theorem routeForm_of_loading (loading : b.state = .loading) : r.form b vl = r.heldOver b := by
  simp only [Route.form, loading]

end

/-- Settles O31, from the entry in each state of the barrier and what each of the five steps does to level and cause. -/
theorem entryLevelInFiveSteps : Obligations.EntryLevelInFiveSteps := by
  intro b vl r out breached breachCause
  refine ⟨?active, ?noEstimate, ?loading⟩
  case active =>
    intro e active he a projection warned filled blind surged
    have out_eq : out = _ := (routeForm_of_active vl r active he).trans (judged_eq b e vl r)
    have projected_code : (entryProjected e vl r).1.code = projection := project_code vl a
    have floored_code : (entryFloored b e vl r).1.code = filled := by
      rw [entryFloored, fillFloors_code, projected_code]
    have blinded_code : (entryBlinded b e vl r).1.code = blind := by
      rw [entryBlinded, blindFloor_code, floored_code, quality_of_estimate he]
    have surged_code : (entrySurged b e vl r).1.code = surged := by
      rw [entrySurged, surgeStep_code, blinded_code]
    rw [out_eq]
    refine ⟨rfl, rfl, rfl, ?level, ?held, ?cause⟩
    case level => rw [breachStep_code, surged_code]
    case held =>
      rw [heldAt_code, breachStep_code, surged_code]
      split_ifs
      · rfl
      · exact min_eq_left (surged_code ▸ entrySurged_code_le b e vl r)
    case cause => rw [breachStep_cause, entrySurged_cause, projected_code, floored_code, blinded_code, surged_code]
  case noEstimate =>
    intro idle
    have out_eq : out = r.unjudged b := routeForm_of_no_estimate vl r idle
    rw [out_eq]
    refine ⟨rfl, rfl, rfl, rfl, fun h => ?_, fun h => ?_⟩
    · simp only [Route.unjudged, breachStep_of_breached _ h, breachCause, and_self]
    · simp only [Route.unjudged, breachStep_of_not_breached _ h, and_self]
  case loading =>
    intro loading
    have out_eq : out = r.heldOver b := routeForm_of_loading vl r loading
    rw [out_eq]
    refine ⟨rfl, rfl, rfl, rfl, fun h => ?_, fun h => ?_⟩
    · simp only [Route.heldOver, breachStep_of_breached _ h, breachCause, and_self]
    · simp only [Route.heldOver, breachStep_of_not_breached _ h, and_self]

end Sys2Proof.Proofs
end

section
/-! The request LOAD_PATTERN (R155): the record it loads for each kind, what its rule answers, and the obligation on it. -/

namespace Sys2Proof.Proofs

open Sys2Proof.Machine

/-! ### A write request that executes a rule on the plant -/

section
variable {c : Instr} {code length : Nat} {rule : Request → State → Plant × ReqResult}
  (row : ∀ s, exec c s = .next (s.request (isCode code) (onPlant rule)))
  (write : catalogue (BitVec.ofNat 8 code) = some (.write, length))
  {s : State} {r : Request} (hb : s.Begins r code length) (hi : s.mgmt.settings.inspecting = false)
include row write hb hi

/-- A write request whose rule refuses is only answered (R2, R169). -/
theorem writeRequest_onlyAnswers {o : ReqOutcome} (hr : rule r s = refuse s o) :
    ∃ t, exec c s = .next t ∧ s.OnlyAnswers r o t :=
  ⟨{ s with mgmt := s.mgmt.answered r o [] },
    (row s).trans (congrArg _ (hb.onPlant_refused write (fun _ => hi) hb.isCode hr)), rfl⟩

/-- A write request whose rule finishes is answered DONE and leaves the rule's plant. -/
theorem writeRequest_answers {p : Plant} (hr : rule r s = finished p) :
    ∃ t, exec c s = .next t ∧ s.Answers r .done [] t ∧ t.plant = p :=
  ⟨{ s with plant := p, mgmt := s.mgmt.answered r .done [] },
    (row s).trans (congrArg _ (hb.onPlant_done write (fun _ => hi) hb.isCode hr)),
    s.answers_intro r .done [] p, rfl⟩

end

/-! ### The loaded record of each kind -/

/-- Checks 2 and 3 of R155 fail: an unknown kind, or a RAMP whose step is out of range. -/
def PatternBad (r : Request) : Prop :=
  3 < (r.byte 0).toNat ∨ (r.byte 0).toNat = 1 ∧ (r.int16 3 < -4096 ∨ 4095 < r.int16 3)

section
variable (q : Pattern) {r : Request}

theorem patternLoad_none (h : (r.byte 0).toNat = 0) : q.load r = some { q with kind := .none } := by
  simp only [Pattern.load, Request.num, h]

theorem patternLoad_ramp (h : (r.byte 0).toNat = 1) (inRange : ¬ (r.int16 3 < -4096 ∨ 4095 < r.int16 3)) :
    q.load r = some { q with kind := .ramp, start := r.word 1, step := r.int16 3 } := by
  simp only [Pattern.load, Request.num, h, if_neg inRange]

theorem patternLoad_alternate (h : (r.byte 0).toNat = 2) :
    q.load r = some { q with kind := .alternate, valueA := r.word 5, valueB := r.word 7 } := by
  simp only [Pattern.load, Request.num, h]

theorem patternLoad_prbs (h : (r.byte 0).toNat = 3) :
    q.load r = some { q with kind := .prbs, seed := if r.word 9 = 0 then 1 else r.word 9 } := by
  simp only [Pattern.load, Request.num, h]

theorem patternLoad_of_bad (bad : PatternBad r) : q.load r = none := by
  obtain unknown | ⟨ramp, outOfRange⟩ := bad
  · have above : 3 < r.num 0 := unknown
    unfold Pattern.load
    split
    case h_5 => rfl
    all_goals omega
  · simp only [Pattern.load, Request.num, ramp, if_pos outOfRange]

/-- A request that passes checks 2 and 3 of R155 loads the record its kind says. -/
theorem patternLoad_of_good (good : ¬ PatternBad r) : ∃ loaded, q.load r = some loaded ∧
    ((r.byte 0).toNat = 0 → loaded = { q with kind := .none }) ∧
    ((r.byte 0).toNat = 1 → loaded = { q with kind := .ramp, start := r.word 1, step := r.int16 3 }) ∧
    ((r.byte 0).toNat = 2 → loaded = { q with kind := .alternate, valueA := r.word 5, valueB := r.word 7 }) ∧
    ((r.byte 0).toNat = 3 → loaded = { q with kind := .prbs, seed := if r.word 9 = 0 then 1 else r.word 9 }) := by
  obtain ⟨known, inRange⟩ := not_or.1 good
  have kinds : (r.byte 0).toNat = 0 ∨ (r.byte 0).toNat = 1 ∨ (r.byte 0).toNat = 2 ∨ (r.byte 0).toNat = 3 := by omega
  obtain h | h | h | h := kinds
  · exact ⟨_, patternLoad_none q h, by simp [h]⟩
  · exact ⟨_, patternLoad_ramp q h fun out => inRange ⟨h, out⟩, by simp [h]⟩
  · exact ⟨_, patternLoad_alternate q h, by simp [h]⟩
  · exact ⟨_, patternLoad_prbs q h, by simp [h]⟩

end

/-! ### The rule's answers, in the order of its checks -/

theorem loadPatternRule_badIndex {r : Request} (s : State) (high : 48 ≤ r.target.toNat) :
    loadPatternRule r s = refuse s .badIndex := by
  simp only [loadPatternRule, Request.index_of_le high]

section
variable {r : Request} {c : Fin 48} (s : State) (hc : r.target.toNat = c.1)
include hc

theorem loadPatternRule_badValue (bad : PatternBad r) : loadPatternRule r s = refuse s .badValue := by
  simp only [loadPatternRule, Request.index_of_lt c hc, patternLoad_of_bad _ bad]

theorem loadPatternRule_wrongState (good : ¬ PatternBad r) (active : s.plant.session.active = true) :
    loadPatternRule r s = refuse s .wrongState := by
  obtain ⟨loaded, load_eq, -⟩ := patternLoad_of_good (s.plant.pattern c) good
  simp only [loadPatternRule, Request.index_of_lt c hc, load_eq, if_pos active]

theorem loadPatternRule_done {loaded : Pattern} (load_eq : (s.plant.pattern c).load r = some loaded)
    (idle : s.plant.session.active = false) :
    loadPatternRule r s = finished (s.plant.setPattern c loaded.restart) := by
  simp only [loadPatternRule, Request.index_of_lt c hc, load_eq, idle, Bool.false_eq_true, if_false]

end

theorem exec_loadPattern (s : State) : exec .loadPattern s = .next (s.request (isCode 0x1B) (onPlant loadPatternRule)) := rfl

/-- Settles O44, by the answer of the rule of LOAD_PATTERN in each case of R155. -/
theorem loadPatternRestarts : Obligations.LoadPatternRestarts := by
  intro s r hb hi bad
  have refuses {o : ReqOutcome} (hr : loadPatternRule r s = refuse s o) :
      ∃ t, exec .loadPattern s = .next t ∧ s.OnlyAnswers r o t :=
    writeRequest_onlyAnswers exec_loadPattern rfl hb hi hr
  refine ⟨?badIndex, ?badValue, ?wrongState, ?done⟩
  case badIndex => exact fun high => refuses (loadPatternRule_badIndex s high)
  case badValue => exact fun low isBad => refuses (loadPatternRule_badValue (c := ⟨_, low⟩) s rfl isBad)
  case wrongState =>
    exact fun low good active => refuses (loadPatternRule_wrongState (c := ⟨_, low⟩) s rfl good active)
  case done =>
    intro c hc good idle q
    obtain ⟨loaded, load_eq, kinds⟩ := patternLoad_of_good q good
    obtain ⟨t, ht, answers, plant⟩ :=
      writeRequest_answers exec_loadPattern rfl hb hi (loadPatternRule_done s hc load_eq idle)
    exact ⟨t, loaded, ht, answers, plant, kinds⟩

end Sys2Proof.Proofs
end

section
/-! The request SET_PART (R176): its manager list and its checks, what its rule answers, and the obligation on it. -/

namespace Sys2Proof.Proofs

open Sys2Proof.Machine

/-! ### The checks -/

/-- A manager address that check 3 of R176 refuses whatever the other one is. -/
def ManagerBarred (own m : Byte) : Prop := m = 0 ∨ m = 255 ∨ m = own

/-- Check 3 of R176 fails on the first manager address. -/
def FirstManagerBad (own : Byte) (r : Request) : Prop := 1 ≤ (r.byte 1).toNat ∧ ManagerBarred own (r.byte 2)

/-- Check 3 of R176 fails on the second manager address. -/
def SecondManagerBad (own : Byte) (r : Request) : Prop :=
  2 ≤ (r.byte 1).toNat ∧ (r.byte 3 = 0 ∨ r.byte 3 = 255 ∨ r.byte 3 = own ∨ r.byte 2 = r.byte 3)

/-- One of the four checks of R176 fails. -/
def PartBad (own : Byte) (r : Request) : Prop :=
  r.byte 0 = 255 ∨ r.byte 0 = own ∨ 2 < (r.byte 1).toNat ∨ FirstManagerBad own r ∨ SecondManagerBad own r ∨
    r.num16 4 < 1 ∨ 1000 < r.num16 4

section
variable {r : Request}

theorem managers_of_count_zero (count : (r.byte 1).toNat = 0) : r.managers = [] := by
  simp [Request.managers, Request.num, count]

theorem managers_of_count_one (count : (r.byte 1).toNat = 1) : r.managers = [r.byte 2] := by
  simp [Request.managers, Request.num, count]

theorem managers_of_count_two (count : (r.byte 1).toNat = 2) : r.managers = [r.byte 2, r.byte 3] := by
  simp [Request.managers, Request.num, count]

/-- Check 3 of R176 on the manager list, by the number of addresses the count names. -/
theorem managersPass_iff (own : Byte) (few : (r.byte 1).toNat ≤ 2) :
    ((∀ m ∈ r.managers, ¬ ManagerBarred own m) ∧ r.managers.Nodup) ↔
      ¬ FirstManagerBad own r ∧ ¬ SecondManagerBad own r := by
  have counts : (r.byte 1).toNat = 0 ∨ (r.byte 1).toNat = 1 ∨ (r.byte 1).toNat = 2 := by omega
  obtain count | count | count := counts
  · simp [managers_of_count_zero count, FirstManagerBad, SecondManagerBad, count]
  · simp [managers_of_count_one count, FirstManagerBad, SecondManagerBad, count]
  · simp [managers_of_count_two count, FirstManagerBad, SecondManagerBad, ManagerBarred, count, and_assoc]

end

/-- The model's test of a SET_PART, check by check. -/
theorem partAccepted_iff_checks (own : Byte) (r : Request) :
    partAccepted own r = true ↔ r.byte 0 ≠ 255 ∧ r.byte 0 ≠ own ∧ (r.byte 1).toNat ≤ 2 ∧
      ((∀ m ∈ r.managers, ¬ ManagerBarred own m) ∧ r.managers.Nodup) ∧ 1 ≤ r.num16 4 ∧ r.num16 4 ≤ 1000 := by
  simp only [partAccepted, Bool.and_eq_true, Nat.ble_eq, List.all_eq_true, bne_iff_ne, decide_eq_true_eq, Request.num,
    Config.broadcast, ManagerBarred, not_or, ne_eq, and_assoc]

/-- The model accepts a SET_PART exactly when no check of R176 fails. -/
theorem partAccepted_iff (own : Byte) (r : Request) : partAccepted own r = true ↔ ¬ PartBad own r := by
  rw [partAccepted_iff_checks]
  by_cases few : (r.byte 1).toNat ≤ 2
  · simp only [managersPass_iff own few, PartBad, not_or, Nat.not_lt, ne_eq, and_assoc]
  · have above : PartBad own r := .inr (.inr (.inl (Nat.lt_of_not_le few)))
    exact iff_of_false (fun ⟨_, _, within, _⟩ => few within) (not_not_intro above)

/-! ### The rule's answers -/

theorem setPartRule_refused {r : Request} {s : State} (bad : PartBad s.ownAddr r) :
    setPartRule r s = (s, .refused .badValue) :=
  if_neg fun accepted => (partAccepted_iff s.ownAddr r).1 accepted bad

theorem setPartRule_done {r : Request} {s : State} (good : ¬ PartBad s.ownAddr r) :
    setPartRule r s = ({ s with mgmt := { s.mgmt with settings := { s.mgmt.settings with
      report := if r.byte 0 = 0 then none else some (r.byte 0), managers := r.managers, ceiling := r.num16 4,
      duration := clampTo 5 240 (r.num 6) } } }, .done []) :=
  if_pos ((partAccepted_iff s.ownAddr r).2 good)

/-- An admitted SET_PART does what its rule says. -/
theorem exec_setPart {s : State} {r : Request} (hb : s.Begins r 0x01 7) (hi : s.mgmt.settings.inspecting = false) :
    exec .setPart s = .next ((setPartRule r s).1.settle r (setPartRule r s).2) :=
  congrArg _ (hb.execute rfl (fun _ => hi) _ hb.isCode setPartRule)

/-- Settles O34, by the answer of the rule of SET_PART when a check of R176 fails and when all pass. -/
theorem setPartWritesSettings : Obligations.SetPartWritesSettings := by
  intro s r hb hi own count bad
  refine ⟨fun isBad => ?refused, fun good => ?done⟩
  case refused =>
    rw [exec_setPart hb hi, setPartRule_refused isBad, State.settle, Mgmt.complete_eq]
    exact ⟨_, rfl, rfl⟩
  case done =>
    rw [exec_setPart hb hi, setPartRule_done good, State.settle, Mgmt.complete_eq]
    rfl

end Sys2Proof.Proofs
end

section
/-! What a command does to each part of the state, said once: a request row, the plant (`Plant.Move`, one constructor per
operation of the plant that a row makes), and the queue of waiting commands. -/

namespace Sys2Proof.Machine

/-! ### Commands, running and requests -/

/-- What holds of a state and of an effect's result holds of what `running` leaves. -/
theorem State.running_elim {s : State} {P : State → Prop} {effect : State → State} (held : P s) (run : P (effect s)) :
    P (s.running effect) := by
  unfold State.running
  split_ifs
  · exact held
  · exact run

/-- What an expiry row leaves: the state as it is, or the effect of a timer that is due. -/
theorem State.expire_elim {s : State} {P : State → Prop} {timer : Plant → Timer} {effect : Plant → Plant} (idle : P s)
    (due : timer s.plant = some 0 → P (s.onPlant effect)) : P (s.expire timer effect) := by
  refine State.running_elim idle ?_
  split_ifs with h
  · exact due ((Timer.due_iff _).1 h)
  · exact idle

@[simp] theorem State.settle_plant (s : State) (r : Request) (x : ReqResult) : (s.settle r x).plant = s.plant := by
  cases x <;> rfl
@[simp] theorem State.settle_line (s : State) (r : Request) (x : ReqResult) : (s.settle r x).line = s.line := by
  cases x <;> rfl
@[simp] theorem State.settle_pending (s : State) (r : Request) (x : ReqResult) : (s.settle r x).pending = s.pending := by
  cases x <;> rfl

/-- What a request row leaves: the state as it is, a refusal at the checks of R169, or what the rule of the head request
answers. -/
theorem State.request_elim {s : State} {P : State → Prop} {mine : Request → Bool}
    {rule : Request → State → State × ReqResult} (idle : P s)
    (refused : ∀ r o, s.mgmt.requests.head? = some r → P (s.settle r (.refused o)))
    (done : ∀ r, s.mgmt.requests.head? = some r → P ((rule r s).1.settle r (rule r s).2)) : P (s.request mine rule) := by
  refine State.running_elim idle ?_
  cases hh : s.head with
  | none => exact idle
  | some r =>
    have head : s.mgmt.requests.head? = some r := by
      unfold State.head at hh
      split_ifs at hh
      exact hh
    dsimp only
    split_ifs
    · unfold State.execute
      split
      · exact refused r _ head
      · exact done r head
    · exact idle

/-- What RESET_ALL leaves: the state as it is, a refusal, or a full reset with one reply. -/
theorem execResetAll_elim {s : State} {P : State → Prop} {straps : Straps} (idle : P s)
    (refused : ∀ r o, s.mgmt.requests.head? = some r → P (s.settle r (.refused o)))
    (reset : ∀ r, P (s.resetAll straps r)) : ∃ t, execResetAll straps s = .next t ∧ P t := by
  refine ⟨_, rfl, State.running_elim idle ?_⟩
  cases hh : s.head with
  | none => exact idle
  | some r =>
    have head : s.mgmt.requests.head? = some r := by
      unfold State.head at hh
      split_ifs at hh
      exact hh
    dsimp only
    split_ifs
    · split
      · exact refused r _ head
      · exact reset r
    · exact idle

/-! ### Messages: dispatch records and notices alone -/

/-- Two plants differ at most in dispatch records and notices, and the notice set stays good. -/
structure Plant.MessageStep (p q : Plant) : Prop where
  only : q = { p with dispatch := q.dispatch, notices := q.notices }
  notices : p.NoticesGood → q.NoticesGood

theorem Plant.MessageStep.refl (p : Plant) : p.MessageStep p := ⟨rfl, id⟩

theorem Plant.MessageStep.trans {p q r : Plant} (h : p.MessageStep q) (h' : q.MessageStep r) : p.MessageStep r :=
  ⟨by rw [h'.only, h.only], fun n => h'.notices (h.notices n)⟩

theorem Plant.MessageStep.toVillageStep {p q : Plant} (h : p.MessageStep q) : p.VillageStep q :=
  ⟨by rw [Plant.VillageSideOnly, h.only], .of_villages (by rw [h.only]), h.notices⟩

theorem Plant.post_message (p : Plant) (kind : NoticeKind) (subject value : Nat) :
    p.MessageStep (p.post kind subject value) := ⟨rfl, fun h => h.post kind subject value⟩

theorem Plant.setDisp_message (p : Plant) (v : Fin 8) (d : Dispatch) : p.MessageStep (p.setDisp v d) := ⟨rfl, id⟩

theorem Plant.updateDisp_message (p : Plant) (v : Fin 8) (f) : p.MessageStep (p.updateDisp v f) := p.setDisp_message v _

/-- A granted notice leaves the set (R180). -/
theorem Plant.dropNotice_message (p : Plant) : p.MessageStep { p with notices := p.notices.tail } :=
  ⟨rfl, fun h => ⟨h.1.sublist ((List.tail_sublist _).map _), fun n hn => h.2 n (List.mem_of_mem_tail hn)⟩⟩

theorem Plant.alertAck_message (p : Plant) (f : Frame) : p.MessageStep (p.alertAck f) := by
  unfold Plant.alertAck
  split
  · exact .refl p
  · dsimp only
    split_ifs
    · split
      · exact (p.post_message _ _ _).trans (Plant.updateDisp_message _ _ _)
      · exact p.updateDisp_message _ _
    · exact p.setDisp_message _ _

theorem Plant.ackExpired_message (p : Plant) (v : Fin 8) : p.MessageStep (p.ackExpired v) := by
  unfold Plant.ackExpired
  dsimp only
  split_ifs
  · exact (p.setDisp_message v _).trans (Plant.post_message _ _ _ _)
  · exact p.setDisp_message v _

/-! ### What a command does to the plant -/

/-- The plant with the counters that CLEAR_COUNTERS sets to 0 (R177). -/
def Plant.countersCleared (p : Plant) : Plant :=
  { p with stations := mapAll p.stations Station.clearCounters
           barriers := mapAll p.barriers fun b => { b with superseded := 0 }
           exercise := { p.exercise with superseded := 0 }
           dispatch := mapAll p.dispatch fun d => { d with stale := 0 } }

theorem State.clearCounters_plant (s : State) : s.clearCounters.plant = s.plant.countersCleared := rfl

/-- The operation that a command makes on the plant, with what the command has checked before it. -/
inductive Plant.Move (p : Plant) : Instr → Plant → Prop
  | reset {c : Instr} (strap : Byte) : c.isFullReset = true → p.Move c (.afterReset strap)
  | message {c : Instr} {q : Plant} : p.MessageStep q → p.Move c q
  | sample {c : Instr} {q : Plant} (i : Fin 24) (f : Frame) : p.MessageStep q → (q.station i).inUse = true →
      p.Move c (q.readSample i f)
  | second {c : Instr} : p.Move c p.tick
  | silence {c : Instr} (i : Fin 24) : p.Move c (p.silenceExpired i)
  | surgeHold {c : Instr} (k : Fin 4) : p.Move c (p.surgeHoldExpired k)
  | evaluation {c : Instr} : p.Move c p.beginEvaluation
  | barrierDone {c : Instr} (ceiling : Nat) (k : Fin 4) (f : Flight) :
      p.Move c (p.completeBarrier ceiling k f).beginEvaluation
  | exerciseDone {c : Instr} : p.Move c p.exerciseDone
  | hold (v : Fin 8) : (p.village v).holdTimer = some 0 → p.Move (.holdTimerExpiry v) (p.holdExpired v)
  | sessionEnd {c : Instr} (reason : EndReason) : p.Move c (p.endSession reason)
  | counters {c : Instr} : p.Move c p.countersCleared
  | evalReset {c : Instr} : p.Move c p.resetEval
  | station {c : Instr} (i : Fin 24) (r : Request) : p.stationValuesBad i r = false →
      p.Move c (p.writeStation i r.stationRecord)
  | retire {c : Instr} (i : Fin 24) : (p.station i).inUse = true → p.Move c (p.retire i)
  | channel {c : Instr} (ch : Fin 48) (r : Request) (new : Channel) : p.requestedChannel ch r = some new →
      p.Move c (p.writeChannel ch new)
  | rearm {c : Instr} (ch : Fin 48) : p.Move c (p.rearm ch)
  | pattern {c : Instr} (ch : Fin 48) (q : Pattern) : p.Move c (p.setPattern ch q)
  | table {c : Instr} (k : Fin 4) (t : Table) : (p.barrier k).state ≠ .active → p.Move c (p.setTable k t)
  | barrierSettings {c : Instr} (k : Fin 4) (r : Request) : p.Move c (p.setBarrier k ((p.barrier k).load r))
  | barrierHold {c : Instr} (k : Fin 4) : p.Move c (p.holdBarrier k)
  | barrierRun {c : Instr} (k : Fin 4) : (p.barrier k).state = .loading →
      (p.table k).check.verdict.crest?.isSome = true → p.Move c ((p.checkTable k).runBarrier k)
  | villageCleared {c : Instr} (v : Fin 8) : ((p.village v).inUse = true → (p.village v).announced = .clear) →
      p.Move c (p.clearVillage v)
  | village {c : Instr} (v : Fin 8) (r : Request) : p.Move c (p.writeVillage v ((p.village v).loaded r))
  | route {c : Instr} (v : Fin 8) (k : Fin 4) (travel : Option Nat) : (p.village v).inUse = true →
      p.Move c (p.writeRoute v k travel)
  | mask {c : Instr} (v : Fin 8) (m : Mask) : (p.village v).inUse = true →
      p.Move c ((p.setVillage v { p.village v with mask := m }).recompute v)
  | release (v : Fin 8) : (p.village v).inUse = true → (p.village v).latch = true →
      p.Move .releaseBreach ((p.setVillage v (p.village v).released).handOn v)
  | exerciseBegin {c : Instr} (k : Fin 4) (ceiling duration : Nat) : p.mayExercise k ceiling = true →
      p.Move c (p.beginExercise k duration)
  | exerciseSync {c : Instr} (k : Fin 4) : p.session.current = some k → p.Move c (p.syncExercise k)

theorem Plant.Move.keep (p : Plant) (c : Instr) : p.Move c p := .message (.refl p)

theorem Plant.Move.of_running {s : State} {c : Instr} {effect : State → State} (run : s.plant.Move c (effect s).plant) :
    s.plant.Move c (s.running effect).plant :=
  State.running_elim (P := fun t => s.plant.Move c t.plant) (.keep _ _) run

theorem Plant.Move.of_expire {s : State} {c : Instr} {timer : Plant → Timer} {effect : Plant → Plant}
    (due : timer s.plant = some 0 → s.plant.Move c (effect s.plant)) : s.plant.Move c (s.expire timer effect).plant :=
  State.expire_elim (P := fun t => s.plant.Move c t.plant) (.keep _ _) due

/-- A request row moves the plant as its rule does, or not at all. -/
theorem Plant.Move.of_request {s : State} {c : Instr} (mine : Request → Bool) {rule : Request → State → State × ReqResult}
    (h : ∀ r, s.plant.Move c (rule r s).1.plant) : s.plant.Move c (s.request mine rule).plant :=
  State.request_elim (P := fun t => s.plant.Move c t.plant) (.keep _ _)
    (fun r o _ => by rw [State.settle_plant]; exact .keep _ _) (fun r _ => by rw [State.settle_plant]; exact h r)

theorem State.portUp_message (s : State) (port : Port) : s.plant.MessageStep (s.portUp port).plant := by
  unfold State.portUp
  dsimp only
  split
  · exact Plant.post_message _ _ _ _
  · exact .refl _
  · exact .refl _

theorem State.portDown_message (s : State) (port : Port) : s.plant.MessageStep (s.portDown port).plant := by
  unfold State.portDown
  dsimp only
  split
  · exact .refl _
  · exact Plant.post_message _ _ _ _
  · exact Plant.post_message _ _ _ _

theorem State.breakOn_message (s : State) (port : Port) : s.plant.MessageStep (s.breakOn port).plant := by
  unfold State.breakOn
  dsimp only
  split_ifs
  · exact .refl _
  · exact State.portDown_message (s.setPort port _) port

theorem Plant.stationOf_some {p : Plant} {addr : Byte} {i : Fin 24} (h : p.stationOf addr = some i) :
    (p.station i).inUse = true ∧ (p.station i).addr = addr := by
  simpa using List.find?_some h

theorem State.classifyU_move {s : State} {p : Plant} (c : Instr) (h : p.MessageStep s.plant) (f : Frame) :
    p.Move c (s.classifyU f).plant := by
  unfold State.classifyU
  generalize hs₁ : (if f.dst = s.ownAddr then s else { s with line := s.line.forwardDown f }) = s₁
  have same : s₁.plant = s.plant := by
    rw [← hs₁]
    split_ifs <;> rfl
  have h₁ : p.MessageStep s₁.plant := same ▸ h
  dsimp only
  split_ifs
  · split
    · rename_i i found
      exact .sample i f h₁ (by rw [same]; exact (Plant.stationOf_some found).1)
    · exact .message h₁
  · exact .message h₁

theorem State.classifyD_message {s : State} {p : Plant} (h : p.MessageStep s.plant) (f : Frame) :
    p.MessageStep (s.classifyD f).plant := by
  unfold State.classifyD
  generalize hs₁ : (if f.dst = s.ownAddr then s else { s with line := s.line.forwardUp f }) = s₁
  have h₁ : p.MessageStep s₁.plant := by
    rw [← hs₁]
    split_ifs <;> exact h
  dsimp only
  split_ifs
  · exact h₁
  · exact h₁.trans (Plant.alertAck_message _ f)
  · exact h₁
  · exact h₁

theorem State.received_move (s : State) (c : Instr) (port : Port) (taken : PortRec × Option Frame) :
    s.plant.Move c (s.received port taken).plant := by
  unfold State.received
  dsimp only
  split
  · rename_i f _
    have h : s.plant.MessageStep ((s.setPort port taken.1).portUp port).plant :=
      State.portUp_message (s.setPort port taken.1) port
    cases port with
    | u => exact State.classifyU_move c h f
    | d => exact .message (State.classifyD_message h f)
  · exact .keep _ _

theorem State.grant_message (s : State) : s.plant.MessageStep s.grant.plant := by
  unfold State.grant
  split_ifs
  · split
    · rename_i g _
      cases g with
      | candidate v c => exact Plant.setDisp_message _ v _
      | forward f => exact .refl _
      | reply r => exact .refl _
      | notice n => exact Plant.dropNotice_message _
    · exact .refl _
  · exact .refl _

theorem State.completeD_message (s : State) : s.plant.MessageStep s.completeD.plant := by
  unfold State.completeD
  split
  · exact .refl _
  · dsimp only
    split
    · rw [State.onPlant_plant]
      exact Plant.updateDisp_message _ _ _
    all_goals exact .refl _

theorem State.resetLineSide_message (s : State) : s.plant.MessageStep s.resetLineSide.plant := by
  unfold State.resetLineSide State.cutD
  dsimp only
  split
  · rw [State.onPlant_plant]
    exact Plant.updateDisp_message _ _ _
  · exact .refl _

@[simp] theorem State.wake_plant (s : State) (k : Fin 4) : (s.wake k).plant = s.plant := by
  unfold State.wake
  split
  · split_ifs <;> rfl
  · rfl

theorem State.barrierDone_move (s : State) (c : Instr) : s.plant.Move c s.barrierDone.plant := by
  unfold State.barrierDone
  split
  · split
    · rw [State.onPlant_plant, State.wake_plant]
      exact .barrierDone _ _ _
    · exact .keep _ _
  · exact .keep _ _

/-! The rules of the requests that write the plant. -/

@[simp] theorem refuse_fst (s : State) (o : ReqOutcome) : (refuse s o).1 = s.plant := rfl
@[simp] theorem finished_fst (p : Plant) : (finished p).1 = p := rfl

section rules
variable (r : Request) (s : State) (c : Instr)

theorem loadStationRule_move : s.plant.Move c (loadStationRule r s).1 := by
  unfold loadStationRule
  split
  · exact .keep _ _
  · split_ifs with _ bad
    · exact .keep _ _
    · exact .keep _ _
    · exact .keep _ _
    · exact .station _ r (by simpa using bad)

theorem retireStationRule_move : s.plant.Move c (retireStationRule r s).1 := by
  unfold retireStationRule
  split
  · exact .keep _ _
  · split_ifs with use
    · exact .retire _ use
    · exact .keep _ _

theorem loadChannelRule_move : s.plant.Move c (loadChannelRule r s).1 := by
  unfold loadChannelRule
  split
  · exact .keep _ _
  · split
    · exact .keep _ _
    · rename_i asked
      split_ifs
      · exact .keep _ _
      · exact .channel _ r _ asked

theorem rearmWireRule_move : s.plant.Move c (rearmWireRule r s).1 := by
  unfold rearmWireRule
  split
  · exact .keep _ _
  · split_ifs
    · exact .rearm _
    · exact .keep _ _

theorem loadPatternRule_move : s.plant.Move c (loadPatternRule r s).1 := by
  unfold loadPatternRule
  split
  · exact .keep _ _
  · split
    · exact .keep _ _
    · split_ifs
      · exact .keep _ _
      · exact .pattern _ _

theorem loadStagePointsRule_move : s.plant.Move c (loadStagePointsRule r s).1 := by
  unfold loadStagePointsRule
  split
  · exact .keep _ _
  · split_ifs with _ active
    · exact .keep _ _
    · exact .keep _ _
    · exact .table _ _ active

theorem loadBarrierRule_move : s.plant.Move c (loadBarrierRule r s).1 := by
  unfold loadBarrierRule
  split
  · exact .keep _ _
  · split_ifs
    · exact .keep _ _
    · exact .keep _ _
    · exact .barrierSettings _ r

theorem barrierHoldRule_move : s.plant.Move c (barrierHoldRule r s).1 := by
  unfold barrierHoldRule
  split
  · exact .keep _ _
  · exact .barrierHold _

theorem barrierRunRule_move : s.plant.Move c (barrierRunRule r s).1 := by
  unfold barrierRunRule
  split
  · exact .keep _ _
  · split
    · exact .keep _ _
    · exact .keep _ _
    · rename_i k _ _ loading
      dsimp only
      by_cases h : ((s.plant.checkTable k).table k).verdict.crest?.isNone = true ∨ (s.plant.checkTable k).assigned k = 0
      · rw [if_pos h]
        exact .table k _ (by simp [loading])
      · rw [if_neg h]
        have valid : (s.plant.table k).check.verdict.crest?.isSome = true := by
          simpa [Plant.checkTable, Option.isSome_iff_ne_none] using (not_or.1 h).1
        dsimp only
        exact .barrierRun k loading valid

theorem loadVillageRule_move : s.plant.Move c (loadVillageRule r s).1 := by
  unfold loadVillageRule
  split
  · exact .keep _ _
  · dsimp only
    split_ifs with _ _ warned
    · exact .keep _ _
    · exact .keep _ _
    · refine .villageCleared _ fun use => ?_
      simp only [use, true_and, not_or, not_not] at warned
      exact warned.1
    · exact .keep _ _
    · exact .village _ r

theorem loadRouteRule_move : s.plant.Move c (loadRouteRule r s).1 := by
  unfold loadRouteRule
  split
  · split_ifs with use
    · split
      · exact .route _ _ _ use
      · exact .keep _ _
    · exact .keep _ _
  · exact .keep _ _

theorem maskVillageRule_move : s.plant.Move c (maskVillageRule r s).1 := by
  unfold maskVillageRule
  split
  · exact .keep _ _
  · split_ifs with use
    · split
      · exact .mask _ _ use
      · exact .keep _ _
    · exact .keep _ _

theorem releaseBreachRule_move : s.plant.Move .releaseBreach (releaseBreachRule r s).1 := by
  unfold releaseBreachRule
  split
  · exact .keep _ _
  · dsimp only
    split_ifs with use latch
    · exact .keep _ _
    · exact .keep _ _
    · exact .keep _ _
    · rw [finished_fst]
      exact .release _ (by simpa using use) (by simpa using latch)

theorem exerciseBeginRule_move : s.plant.Move c (exerciseBeginRule r s).1 := by
  unfold exerciseBeginRule
  split
  · exact .keep _ _
  · rename_i k _
    split_ifs with may
    · rw [finished_fst]
      exact .exerciseBegin k s.mgmt.settings.ceiling s.mgmt.settings.duration may
    · exact .keep _ _

theorem exerciseSyncRule_move : s.plant.Move c (exerciseSyncRule r s).1 := by
  unfold exerciseSyncRule
  split
  · exact .keep _ _
  · rename_i current
    rw [finished_fst]
    exact .exerciseSync _ current

theorem resetEvalRule_move : s.plant.Move c (resetEvalRule r s).1 := by
  unfold resetEvalRule
  split_ifs
  · exact .evalReset
  · exact .keep _ _

theorem setPartRule_plant : (setPartRule r s).1.plant = s.plant := by
  unfold setPartRule
  split_ifs <;> rfl

end rules

/-- Every command of the table completes, keeps the queue of waiting commands, and makes one of the moves on the plant. -/
theorem exec_move (c : Instr) (s : State) :
    ∃ t, exec c s = .next t ∧ s.plant.Move c t.plant := by
  have keep : s.plant.Move c s.plant := .keep _ _
  cases c
  case resetAll straps =>
    exact execResetAll_elim (P := fun t => s.plant.Move _ t.plant) keep
      (fun r o _ => by rw [State.settle_plant]; exact keep) fun r => .reset _ rfl
  all_goals refine ⟨_, rfl, ?_⟩
  case powerOn | nresetRelease => exact .reset _ rfl
  case nresetAssert => exact keep
  case receiveByte | goodFrameU | goodFrameD => exact Plant.Move.of_running (State.received_move _ _ _ _)
  case gapTimeout | breakEnd | uTransmitStart | uTransmitCompletion => exact Plant.Move.of_running keep
  case breakDetected port => exact Plant.Move.of_running (.message (s.breakOn_message port))
  case grant => exact Plant.Move.of_running (.message s.grant_message)
  case dTransmitCompletion => exact Plant.Move.of_running (.message s.completeD_message)
  case silenceTimerExpiry i => exact Plant.Move.of_expire fun _ => .silence i
  case surgeHoldExpiry k => exact Plant.Move.of_expire fun _ => .surgeHold k
  case evaluationBegin => exact Plant.Move.of_running .evaluation
  case barrierEvaluationCompletion => exact Plant.Move.of_running (s.barrierDone_move _)
  case exerciseEvaluationCompletion => exact Plant.Move.of_running .exerciseDone
  case holdTimerExpiry v => exact Plant.Move.of_expire fun due => .hold v due
  case ackTimerExpiry v => exact Plant.Move.of_expire fun _ => .message (s.plant.ackExpired_message v)
  case reachTimerExpiry v | repeatTimerExpiry v =>
    exact Plant.Move.of_expire fun _ => .message (s.plant.updateDisp_message v _)
  case durationTimerExpiry => exact Plant.Move.of_expire fun _ => .sessionEnd _
  case wholeSecondBoundary => exact Plant.Move.of_running .second
  case unknownRequest | statusPart | statusLines | inspectOn | inspectOff | readStation | readChannel | readPattern |
      readStagePoints | readBarrier | statusBarrier | readVillage | statusVillage => exact .of_request _ fun _ => keep
  case setPart => exact .of_request _ fun r => by rw [setPartRule_plant]; exact keep
  case clearCounters => exact .of_request _ fun _ => .counters
  case resetEval => exact .of_request _ fun r => resetEvalRule_move r s _
  case resetLines => exact .of_request _ fun _ => .message s.resetLineSide_message
  case loadStation => exact .of_request _ fun r => loadStationRule_move r s _
  case retireStation => exact .of_request _ fun r => retireStationRule_move r s _
  case loadChannel => exact .of_request _ fun r => loadChannelRule_move r s _
  case rearmWire => exact .of_request _ fun r => rearmWireRule_move r s _
  case loadPattern => exact .of_request _ fun r => loadPatternRule_move r s _
  case loadStagePoints => exact .of_request _ fun r => loadStagePointsRule_move r s _
  case loadBarrier => exact .of_request _ fun r => loadBarrierRule_move r s _
  case barrierHold => exact .of_request _ fun r => barrierHoldRule_move r s _
  case barrierRun => exact .of_request _ fun r => barrierRunRule_move r s _
  case loadVillage => exact .of_request _ fun r => loadVillageRule_move r s _
  case loadRoute => exact .of_request _ fun r => loadRouteRule_move r s _
  case maskVillage => exact .of_request _ fun r => maskVillageRule_move r s _
  case releaseBreach => exact .of_request _ fun r => releaseBreachRule_move r s
  case exerciseBegin => exact .of_request _ fun r => exerciseBeginRule_move r s _
  case exerciseSync => exact .of_request _ fun r => exerciseSyncRule_move r s _
  case exerciseEnd => exact .of_request _ fun r => .sessionEnd _

/-- A step moves the plant as its front command does, and an idle step leaves it. -/
theorem step_move {s t : State} (h : step s = .next t) : ∃ c, s.plant.Move c t.plant := by
  unfold step at h
  split at h
  · cases h
    exact ⟨.grant, .keep _ _⟩
  · rename_i c rest _
    obtain ⟨t', ht, move⟩ := exec_move c { s with pending := rest }
    rw [ht] at h
    cases h
    exact ⟨c, move⟩

end Sys2Proof.Machine
end

section
/-! The moves on the plant sorted: those that keep part time, tables and barrier states and the standing facts of ladder, notice
set, evaluation queue and estimator (`Plant.IntakeStep`), and the seven others (`Plant.StateMove`). -/

namespace Sys2Proof.Machine

/-! ### Operations that are an `IntakeStep` -/

theorem Plant.VillageStep.toIntakeStep {p q : Plant} (h : p.VillageStep q) : p.IntakeStep q :=
  (h.toBarrierStep.toChannelStep h.estimator).toIntakeStep

theorem Plant.BarrierStep.toIntakeStep {p q : Plant} (h : p.BarrierStep q) (e : p.EstimatorSound → q.EstimatorSound) :
    p.IntakeStep q := (h.toChannelStep e).toIntakeStep

theorem Plant.readSample_intake (p : Plant) (i : Fin 24) (f : Frame) : p.IntakeStep (p.readSample i f) := by
  by_cases retired : (p.station i).state = .retired
  · rw [Plant.readSample, if_pos retired]
    exact .refl p
  · unfold Plant.readSample
    rw [if_neg retired]
    split_ifs
    · exact p.setStation_intake i _
    · exact p.setStation_intake i _
    · have read := (Plant.handReadings_spec (p.setStation i { p.station i with
        gap := raise (p.station i).gap (gapAdded (p.station i).lastSeq f.seq) }) (p.station i) (readingsOf f.payload.tail)).1
      refine ((p.setStation_intake i _).trans read.toIntakeStep).trans (Plant.stationHeard_spec _ i f.seq ?_).1
      rw [read.only.station, Plant.station_setStation]
      exact retired

theorem Plant.silenceExpired_intake (p : Plant) (i : Fin 24) : p.IntakeStep (p.silenceExpired i) := by
  unfold Plant.silenceExpired
  dsimp only
  split
  · exact p.setStation_intake i _
  · exact (p.setStation_lapseAll_spec i _ _ (p.station i).channels_nodup).1.trans (Plant.post_intake _ _ _ _)
  all_goals exact .refl p

theorem Plant.writeStation_intake (p : Plant) (i : Fin 24) (new : Station) : p.IntakeStep (p.writeStation i new) :=
  (p.setStation_lapseAll_spec i new _ (mappedByEither_nodup _ _)).1

theorem Plant.retire_intake (p : Plant) (i : Fin 24) : p.IntakeStep (p.retire i) := by
  unfold Plant.retire
  dsimp only
  split_ifs
  · exact .refl p
  · exact (p.setStation_lapseAll_spec i _ _ (p.station i).channels_nodup).1

/-- The SURGE channels of a barrier tested at the part time, as its surge hold expires (R105). -/
def Plant.surgeTested (p : Plant) (k : Fin 4) : Plant :=
  (p.channelsAt k .surge).foldl (init := p) fun q c => q.setChannel c ((q.channel c).testSurge q.now)

theorem Plant.surgeTested_spec (p : Plant) (k : Fin 4) :
    p.surgeTested k = { p with channels := (p.surgeTested k).channels } ∧
    ∀ c, (p.surgeTested k).channel c =
      if (p.channel c).at k .surge then (p.channel c).testSurge p.now else p.channel c := by
  have only : p.surgeTested k = { p with channels := (p.surgeTested k).channels } :=
    foldl_keeps (R := fun q => q = { p with channels := q.channels })
      (fun q c hq => by rw [Plant.setChannel, hq]) _ p rfl
  refine ⟨only, fun c => ?_⟩
  have tested := foldl_each (get := Plant.channel) (R := fun q => q.now = p.now)
    (f := fun q c => q.setChannel c ((q.channel c).testSurge q.now)) (g := fun _ ch => ch.testSurge p.now)
    (fun _ _ hq => hq) (fun q c hq => by rw [Plant.channel_setChannel, hq])
    (fun q c d _ hd => q.channel_setChannel_of_ne hd _) _ (p.channelsAt_nodup k .surge) p rfl c
  simp only [Plant.mem_channelsAt] at tested
  exact tested

theorem Plant.surgeHoldExpired_eq (p : Plant) (k : Fin 4) : p.surgeHoldExpired k =
    if (p.surgeTested k).anySurging k then
      (p.surgeTested k).setSurgeFlag k (p.barrier k).surgeFlag (.startMin (p.barrier k).surgeHold)
    else (p.surgeTested k).setSurgeFlag k false none := rfl

theorem Plant.surgeHoldExpired_intake (p : Plant) (k : Fin 4) : p.IntakeStep (p.surgeHoldExpired k) := by
  have tested : p.ChannelStep (p.surgeTested k) := .foldl (fun q c => q.setChannel_step c _) _ p
  have same : (p.surgeTested k).barrier k = p.barrier k := by rw [(p.surgeTested_spec k).1]; rfl
  rw [p.surgeHoldExpired_eq]
  split_ifs
  · exact (tested.trans ((Plant.setSurgeFlag_step _ k _ _).toChannelStep fun h =>
      h.setSurgeFlag k _ _ fun set => by rw [same]; exact set)).toIntakeStep
  · exact (tested.trans ((Plant.setSurgeFlag_step _ k _ _).toChannelStep fun h =>
      h.setSurgeFlag k _ _ fun set => by simp at set)).toIntakeStep

theorem Plant.beginEvaluation_intake (p : Plant) : p.IntakeStep p.beginEvaluation :=
  p.beginEvaluation_step.toIntakeStep fun h => h.beginEvaluation

theorem Plant.completeBarrier_intake (p : Plant) (ceiling : Nat) (k : Fin 4) (f : Flight) :
    p.IntakeStep (p.completeBarrier ceiling k f) :=
  (p.completeWith_step ceiling k _ _).toIntakeStep fun h => h.completeWith ceiling k _ _

theorem Plant.exerciseDone_intake (p : Plant) : p.IntakeStep p.exerciseDone := by
  unfold Plant.exerciseDone
  split
  · rename_i f _
    split_ifs
    · exact ((p.completeExercise_step f).toIntakeStep fun h => h.completeExercise f).trans (Plant.beginEvaluation_intake _)
    · exact .refl p
  · exact .refl p

theorem Plant.endSessionOf_intake (p : Plant) (reason : EndReason) (noted : List (Fin 8)) :
    p.IntakeStep (p.endSessionOf reason noted) :=
  (p.endSessionOf_step reason noted).toIntakeStep fun h => h.endSessionOf reason noted

theorem Plant.countersCleared_barrier (p : Plant) (k : Fin 4) :
    p.countersCleared.barrier k = { p.barrier k with superseded := 0 } := mapAll_get ..

theorem Plant.countersCleared_keeps (p : Plant) :
    p.countersCleared.now = p.now ∧ p.countersCleared.tables = p.tables ∧ p.countersCleared.villages = p.villages ∧
    p.countersCleared.notices = p.notices ∧ p.countersCleared.evalQueue = p.evalQueue ∧
    p.countersCleared.flight = p.flight ∧ p.countersCleared.session = p.session := by
  simp [Plant.countersCleared]

theorem Plant.countersCleared_intake (p : Plant) : p.IntakeStep p.countersCleared := by
  obtain ⟨now, tables, villages, notices, queue, flight, session⟩ := p.countersCleared_keeps
  refine ⟨now, tables, .of_villages villages, fun n => ?_, fun n => ?_, fun k => ?_, fun h => ?_⟩
  · rw [Plant.NoticesGood, notices]; exact n
  · rw [queue]; exact n
  · rw [p.countersCleared_barrier]
  · exact h.congr (by funext k; rw [Plant.table, tables, Plant.table])
      (fun k => by rw [p.countersCleared_barrier]; exact ⟨rfl, rfl, rfl⟩)
      (by rw [queue]) flight session

/-- The plant as RESET EVAL leaves it before the end of a session (R44, R68, R110, R133). -/
def Plant.evalCleared (p : Plant) : Plant :=
  { p with stations := mapAll p.stations Station.resetEval
           channels := mapAll p.channels Channel.resetEval
           barriers := mapAll p.barriers Barrier.resetEval
           evalQueue := []
           flight := none
           exercise := p.exercise.clear
           villages := mapAll p.villages Village.resetEval }

theorem Plant.resetEval_eq (p : Plant) : p.resetEval = p.evalCleared.endSessionOf .reset p.exercising := rfl

section
variable (p : Plant)
@[simp] theorem Plant.evalCleared_station (i : Fin 24) : p.evalCleared.station i = (p.station i).resetEval := mapAll_get ..
@[simp] theorem Plant.evalCleared_channel (c : Fin 48) : p.evalCleared.channel c = (p.channel c).resetEval := mapAll_get ..
@[simp] theorem Plant.evalCleared_barrier (k : Fin 4) : p.evalCleared.barrier k = (p.barrier k).resetEval := mapAll_get ..
@[simp] theorem Plant.evalCleared_village (v : Fin 8) : p.evalCleared.village v = (p.village v).resetEval := mapAll_get ..
end

theorem Village.resetEval_of_inUse {vl : Village} (use : vl.inUse = true) : vl.resetEval =
    { vl with routes := mapAll vl.routes fun r => r.map Route.resetEval, computed := .clear, decBarrier := none,
              decCause := .projection, decAvailable := 65535, decFill := none, exComputed := .clear,
              exAnnounced := .clear, exCause := .projection, exAvailable := 65535,
              holdTimer := if vl.latch then none else some (60 * vl.holdTime) } := if_pos use

theorem Village.resetEval_of_unused {vl : Village} (unused : vl.inUse = false) : vl.resetEval = vl :=
  if_neg (by simp [unused])

/-- RESET EVAL keeps a village sound and its announced level (R133). -/
theorem Village.resetEval_sound {vl : Village} (h : vl.Sound) :
    vl.resetEval.Sound ∧ vl.resetEval.announced = vl.announced := by
  cases use : vl.inUse
  · rw [Village.resetEval_of_unused use]
    exact ⟨h, rfl⟩
  · rw [Village.resetEval_of_inUse use]
    refine ⟨⟨fun n => ?_, h.latched, fun l => ?_, fun _ l => ?_⟩, rfl⟩
    · simp [use] at n
    · exact if_pos l
    · simpa using l

theorem Plant.LadderUp.of_each {p q : Plant}
    (h : ∀ v, (p.village v).Sound → (q.village v).Sound ∧ (p.village v).announced.code ≤ (q.village v).announced.code) :
    p.LadderUp q := fun hp => ⟨fun v => (h v (hp v)).1, fun v => (h v (hp v)).2⟩

theorem Plant.evalCleared_keeps (p : Plant) :
    p.evalCleared.now = p.now ∧ p.evalCleared.tables = p.tables ∧ p.evalCleared.notices = p.notices ∧
    p.evalCleared.evalQueue = [] ∧ p.evalCleared.flight = none ∧ p.evalCleared.session = p.session := by
  simp [Plant.evalCleared]

theorem Plant.evalCleared_intake (p : Plant) : p.IntakeStep p.evalCleared := by
  obtain ⟨now, tables, notices, queue, flight, session⟩ := p.evalCleared_keeps
  refine ⟨now, tables, .of_each fun v hv => ?_, fun n => ?_, fun _ => ?_, fun k => ?_, fun h => ?_⟩
  · rw [Plant.evalCleared_village]
    exact ⟨(Village.resetEval_sound hv).1, (congrArg Level.code (Village.resetEval_sound hv).2).ge⟩
  · rw [Plant.NoticesGood, notices]; exact n
  · rw [queue]; exact List.nodup_nil
  · rw [Plant.evalCleared_barrier]; rfl
  · refine ⟨fun k hk => ?_, fun e he => ?_, fun f hf => ?_, fun ha => ?_⟩
    · rw [Plant.evalCleared_barrier] at hk
      rw [Plant.table, tables]
      exact h.table k hk
    · rw [queue] at he
      exact absurd he List.not_mem_nil
    · rw [flight] at hf
      cases hf
    · rw [session] at ha ⊢
      obtain ⟨k, hk, active, _, _⟩ := h.session ha
      exact ⟨k, hk, by rw [Plant.evalCleared_barrier]; exact ⟨active, rfl, rfl⟩⟩

theorem Plant.resetEval_intake (p : Plant) : p.IntakeStep p.resetEval :=
  p.evalCleared_intake.trans (Plant.endSessionOf_intake _ _ _)

theorem Plant.setPattern_intake (p : Plant) (c : Fin 48) (q : Pattern) : p.IntakeStep (p.setPattern c q) :=
  (p.setPattern_step c q).toIntakeStep

theorem Plant.setBarrier_load_intake (p : Plant) (k : Fin 4) (r : Request) :
    p.IntakeStep (p.setBarrier k ((p.barrier k).load r)) :=
  (p.setBarrier_step k ((p.barrier k).load r) rfl).toIntakeStep fun h => h.setBarrier k ((p.barrier k).load r) rfl rfl rfl

/-- One village rewritten by a record that is sound and does not stand lower. -/
theorem Plant.setVillage_step {p : Plant} {v : Fin 8} (r : Village)
    (h : (p.village v).Sound → r.Sound ∧ (p.village v).announced.code ≤ r.announced.code) :
    p.VillageStep (p.setVillage v r) := ⟨rfl, .setVillage h, id⟩

theorem Village.cleared_sound : Village.cleared.Sound :=
  ⟨fun _ => rfl, by simp [Village.cleared], fun h => by simp [Village.cleared] at h, fun h => by simp [Village.cleared] at h⟩

/-- LOAD_VILLAGE with line address 0 clears a village that stands at CLEAR (R115). -/
theorem Plant.clearVillage_step {p : Plant} {v : Fin 8}
    (low : (p.village v).inUse = true → (p.village v).announced = .clear) : p.VillageStep (p.clearVillage v) := by
  unfold Plant.clearVillage
  split_ifs with use
  · refine (Plant.setVillage_step Village.cleared fun _ => ⟨Village.cleared_sound, ?_⟩).trans (Plant.setDisp_step _ v _)
    rw [low use]
    exact Nat.zero_le _
  · exact .refl p

/-- A village of a sound ladder stands at most at its announced level, in use or not, before a LOAD_VILLAGE forms it. -/
theorem Village.loaded_form {vl : Village} (h : vl.Sound) (r : Request) (barrier : Fin 4 → Barrier) :
    ((vl.loaded r).form barrier).Sound ∧ vl.announced.code ≤ ((vl.loaded r).form barrier).announced.code := by
  cases use : vl.inUse
  · have cleared := h.unused use
    have latched : (vl.loaded r).latch = true ↔ (vl.loaded r).announced = .breach := by
      simp [Village.loaded, use, Village.load, Village.cleared]
    refine ⟨(vl.loaded r).form_sound barrier rfl latched, ?_⟩
    rw [cleared]
    exact Nat.zero_le _
  · have loaded : vl.loaded r = vl.load r := by rw [Village.loaded, if_pos use]
    rw [loaded]
    exact (vl.load r).form_up barrier rfl ⟨fun n => by simp [Village.load] at n, h.latched, h.stopped,
      fun _ => h.holding use⟩

theorem Plant.restartFor_message (p : Plant) (v : Fin 8) (old new : Village) : p.MessageStep (p.restartFor v old new) := by
  unfold Plant.restartFor
  split_ifs
  · exact p.updateDisp_message v _
  · exact .refl p

theorem Plant.writeVillage_step (p : Plant) (v : Fin 8) (r : Request) :
    p.VillageStep (p.writeVillage v ((p.village v).loaded r)) := by
  set new := (p.village v).loaded r
  set q := (p.setVillage v new).restartFor v (p.village v) new
  have message : (p.setVillage v new).MessageStep q := Plant.restartFor_message _ v _ _
  have side : p.VillageSideOnly q :=
    Plant.VillageSideOnly.trans (rfl : p.VillageSideOnly (p.setVillage v new)) message.toVillageStep.only
  have same (w : Fin 8) : q.village w = (p.setVillage v new).village w := by rw [message.only]; rfl
  have qv : q.village v = new := by rw [same, Plant.village_setVillage]
  obtain ⟨step, formed, others⟩ := q.recomputeBoth_spec v
  refine ⟨side.trans step.only, .of_each fun w hw => ?_, fun n => step.notices (message.notices n)⟩
  show ((q.recomputeBoth v).village w).Sound ∧ _ ≤ ((q.recomputeBoth v).village w).announced.code
  by_cases hwv : w = v
  · subst hwv
    have use : new.inUse = true := rfl
    rw [formed, qv, if_pos use, side.barrier]
    obtain ⟨sound, up⟩ := Village.loaded_form hw r p.barrier
    have use' : (new.form p.barrier).inUse = true := by rw [(new.form_realOnly p.barrier).eq]; exact use
    obtain ⟨sound', same'⟩ := Village.formExercise_sound _ q.exerciseBasis use' sound
    exact ⟨sound', by rw [same']; exact up⟩
  · rw [(others w hwv).1, same, Plant.village_setVillage_of_ne _ hwv]
    exact ⟨hw, le_rfl⟩

/-- A field of a village in use that the ladder's facts do not rest on is rewritten. -/
theorem Village.Sound.of_inUse {vl w : Village} (h : vl.Sound) (use : vl.inUse = true) (same : w.inUse = vl.inUse)
    (announced : w.announced = vl.announced) (latch : w.latch = vl.latch) (timer : w.holdTimer = vl.holdTimer) :
    w.Sound ∧ vl.announced.code ≤ w.announced.code := by
  refine ⟨⟨fun n => ?_, ?_, fun l => ?_, fun _ l => ?_⟩, by rw [announced]⟩
  · simp [same, use] at n
  · rw [latch, announced]; exact h.latched
  · rw [timer]; exact h.stopped (latch ▸ l)
  · rw [timer]; exact h.holding use (latch ▸ l)

theorem Plant.writeRoute_step {p : Plant} {v : Fin 8} (use : (p.village v).inUse = true) (k : Fin 4) (travel : Option Nat) :
    p.VillageStep (p.writeRoute v k travel) := by
  unfold Plant.writeRoute
  extract_lets vl
  split_ifs
  · exact .refl p
  · exact (Plant.setVillage_step { vl with routes := vl.routes.set k.1 (Route.load (vl.routes.get k) travel) k.2 }
      fun h => h.of_inUse use rfl rfl rfl rfl).trans
      (Plant.recomputeBoth_spec _ v).1

theorem Plant.maskVillage_step {p : Plant} {v : Fin 8} (use : (p.village v).inUse = true) (m : Mask) :
    p.VillageStep ((p.setVillage v { p.village v with mask := m }).recompute v) :=
  (Plant.setVillage_step { p.village v with mask := m } fun h => h.of_inUse use rfl rfl rfl rfl).trans
    (Plant.recompute_step _ v)

/-! ### Exercise sessions -/

theorem Plant.mayExercise_iff (p : Plant) (k : Fin 4) (ceiling : Nat) : p.mayExercise k ceiling = true ↔
    p.session.active = false ∧ (p.barrier k).state = .active ∧
      (∀ e, (p.barrier k).estimate = some e → e.fill < ceiling) ∧ (p.barrier k).surgeFlag = false ∧
      (p.barrier k).breached = false := by
  have below : ((p.barrier k).estimate.any fun e => Nat.ble ceiling e.fill) = false ↔
      ∀ e, (p.barrier k).estimate = some e → e.fill < ceiling := by
    cases (p.barrier k).estimate with
    | none => simp
    | some e => simp [Bool.eq_false_iff]
  simp only [Plant.mayExercise, Bool.and_eq_true, Bool.not_eq_true', beq_iff_eq, below, and_assoc]

theorem Plant.EstimatorSound.abandon {p : Plant} (h : p.EstimatorSound) (o : EvalOwner) : (p.abandon o).EstimatorSound := by
  have core := Plant.EstimatorCore.abandon o h.table (fun e he _ => h.queue e he) fun f hf _ => h.flight f hf
  refine ⟨core.table, core.queue, core.flight, ?_⟩
  rw [p.abandon_only o]
  exact h.session

/-- A restart of the front end of a session keeps what the estimator's facts rest on. -/
theorem Plant.restartExercise_intake (p : Plant) (k : Fin 4) : p.IntakeStep (p.restartExercise k) := by
  have e := (p.restartExercise_spec k).1
  rw [e]
  exact ⟨rfl, rfl, .of_villages rfl, id, id, fun _ => rfl, fun h => h.congr rfl (fun _ => ⟨rfl, rfl, rfl⟩) rfl rfl rfl⟩

theorem Plant.recomputeExerciseFor_intake (p : Plant) (k : Fin 4) : p.IntakeStep (p.recomputeExerciseFor k) :=
  (p.recomputeExerciseFor_spec k).1.toIntakeStep

/-- The session record of an accepted EXERCISE_BEGIN stands on a barrier that meets the session's condition (R159, R162). -/
theorem Plant.begunSession_intake {p : Plant} {k : Fin 4} {ceiling : Nat} (may : p.mayExercise k ceiling = true)
    (duration : Nat) : p.IntakeStep { p with session := p.session.begun k p.now duration } := by
  obtain ⟨_, active, _, calm, whole⟩ := (p.mayExercise_iff k ceiling).1 may
  refine ⟨rfl, rfl, .of_villages rfl, id, id, fun _ => rfl, fun h => ?_⟩
  have live : ∀ o, p.Live o → ({ p with session := p.session.begun k p.now duration } : Plant).Live o := fun o ho => by
    cases o with
    | barrier j => exact ho
    | exercise => rfl
  exact ⟨h.table, fun e he => live _ (h.queue e he), fun f hf => live _ (h.flight f hf), fun _ => ⟨k, rfl, active, calm, whole⟩⟩

theorem Plant.beginExercise_intake {p : Plant} {k : Fin 4} {ceiling : Nat} (may : p.mayExercise k ceiling = true)
    (duration : Nat) : p.IntakeStep (p.beginExercise k duration) :=
  ((Plant.begunSession_intake may duration).trans (Plant.restartExercise_intake _ k)).trans
    (Plant.recomputeExerciseFor_intake _ k)

theorem Plant.syncExercise_intake (p : Plant) (k : Fin 4) : p.IntakeStep (p.syncExercise k) :=
  ((p.restartExercise_intake k).trans ((Plant.abandon_step _ .exercise).toIntakeStep fun h => h.abandon .exercise)).trans
    (Plant.recomputeExerciseFor_intake _ k)

/-! ### The moves sorted -/

/-- The moves that reset the plant, let a second pass, take a village down, load a table, or change a barrier's state. -/
inductive Plant.StateMove (p : Plant) : Instr → Plant → Prop
  | reset {c : Instr} (strap : Byte) : c.isFullReset = true → p.StateMove c (.afterReset strap)
  | second {c : Instr} : p.StateMove c p.tick
  | hold (v : Fin 8) : (p.village v).holdTimer = some 0 → p.StateMove (.holdTimerExpiry v) (p.holdExpired v)
  | release (v : Fin 8) : (p.village v).inUse = true → (p.village v).latch = true →
      p.StateMove .releaseBreach ((p.setVillage v (p.village v).released).handOn v)
  | table {c : Instr} (k : Fin 4) (t : Table) : (p.barrier k).state ≠ .active → p.StateMove c (p.setTable k t)
  | barrierHold {c : Instr} (k : Fin 4) : p.StateMove c (p.holdBarrier k)
  | barrierRun {c : Instr} (k : Fin 4) : (p.barrier k).state = .loading →
      (p.table k).check.verdict.crest?.isSome = true → p.StateMove c ((p.checkTable k).runBarrier k)

/-- Every move is an `IntakeStep` or one of the seven others. -/
theorem Plant.Move.sorted {p q : Plant} {c : Instr} (m : p.Move c q) : p.IntakeStep q ∨ p.StateMove c q := by
  cases m with
  | reset strap full => exact .inr (.reset strap full)
  | message h => exact .inl h.toVillageStep.toIntakeStep
  | sample i f h _ => exact .inl (h.toVillageStep.toIntakeStep.trans (Plant.readSample_intake _ i f))
  | second => exact .inr .second
  | silence i => exact .inl (p.silenceExpired_intake i)
  | surgeHold k => exact .inl (p.surgeHoldExpired_intake k)
  | evaluation => exact .inl p.beginEvaluation_intake
  | barrierDone ceiling k f => exact .inl ((p.completeBarrier_intake ceiling k f).trans (Plant.beginEvaluation_intake _))
  | exerciseDone => exact .inl p.exerciseDone_intake
  | hold v due => exact .inr (.hold v due)
  | sessionEnd reason => exact .inl (p.endSessionOf_intake reason _)
  | counters => exact .inl p.countersCleared_intake
  | evalReset => exact .inl p.resetEval_intake
  | station i r _ => exact .inl (p.writeStation_intake i _)
  | retire i _ => exact .inl (p.retire_intake i)
  | channel ch r new _ => exact .inl (p.writeChannel_spec ch new).1.toIntakeStep
  | rearm ch => exact .inl (p.rearm_spec ch).1.toIntakeStep
  | pattern ch r => exact .inl (p.setPattern_intake ch r)
  | table k t idle => exact .inr (.table k t idle)
  | barrierSettings k r => exact .inl (p.setBarrier_load_intake k r)
  | barrierHold k => exact .inr (.barrierHold k)
  | barrierRun k loading valid => exact .inr (.barrierRun k loading valid)
  | villageCleared v low => exact .inl (Plant.clearVillage_step low).toIntakeStep
  | village v r => exact .inl (p.writeVillage_step v r).toIntakeStep
  | route v k travel use => exact .inl (Plant.writeRoute_step use k travel).toIntakeStep
  | mask v m use => exact .inl (Plant.maskVillage_step use m).toIntakeStep
  | release v use latch => exact .inr (.release v use latch)
  | exerciseBegin k ceiling duration may => exact .inl (Plant.beginExercise_intake may duration)
  | exerciseSync k _ => exact .inl (p.syncExercise_intake k)

end Sys2Proof.Machine
end

section
/-! The ladder's standing facts through the moves that are no `Plant.IntakeStep`, and the two obligations on announced levels. -/

namespace Sys2Proof.Machine

/-! ### Reset and second -/

section
variable (strap : Byte)
@[simp] theorem Plant.afterReset_station (i : Fin 24) : (Plant.afterReset strap).station i = .cleared :=
    Vector.getElem_replicate i.2
@[simp] theorem Plant.afterReset_channel (c : Fin 48) : (Plant.afterReset strap).channel c = .cleared :=
    Vector.getElem_replicate c.2
@[simp] theorem Plant.afterReset_pattern (c : Fin 48) : (Plant.afterReset strap).pattern c = .cleared :=
    Vector.getElem_replicate c.2
@[simp] theorem Plant.afterReset_table (k : Fin 4) : (Plant.afterReset strap).table k = .cleared := Vector.getElem_replicate k.2
@[simp] theorem Plant.afterReset_barrier (k : Fin 4) : (Plant.afterReset strap).barrier k = .cleared :=
    Vector.getElem_replicate k.2
@[simp] theorem Plant.afterReset_village (v : Fin 8) : (Plant.afterReset strap).village v = .cleared :=
    Vector.getElem_replicate v.2
@[simp] theorem Plant.afterReset_disp (v : Fin 8) : (Plant.afterReset strap).disp v = .cleared := Vector.getElem_replicate v.2
end

section
variable (p : Plant)
@[simp] theorem Plant.tick_station (i : Fin 24) :
    p.tick.station i = { p.station i with timer := (p.station i).timer.tick } := by
  simp only [Plant.tick, Plant.station, mapAll_get]
@[simp] theorem Plant.tick_channel (c : Fin 48) : p.tick.channel c = p.channel c := by
  simp only [Plant.tick, Plant.channel]
@[simp] theorem Plant.tick_table (k : Fin 4) : p.tick.table k = p.table k := by
  simp only [Plant.tick, Plant.table]
@[simp] theorem Plant.tick_barrier (k : Fin 4) :
    p.tick.barrier k = { p.barrier k with surgeTimer := (p.barrier k).surgeTimer.tick } := by
  simp only [Plant.tick, Plant.barrier, mapAll_get]
@[simp] theorem Plant.tick_village (v : Fin 8) :
    p.tick.village v = { p.village v with holdTimer := (p.village v).holdTimer.tick } := by
  simp only [Plant.tick, Plant.village, mapAll_get]
@[simp] theorem Plant.tick_disp (v : Fin 8) : p.tick.disp v = (p.disp v).tick := by
  simp only [Plant.tick, Plant.disp, mapAll_get]
end

theorem Plant.afterReset_ladder (strap : Byte) : (Plant.afterReset strap).LadderSound := fun v => by
  rw [Plant.afterReset_village]
  exact Village.cleared_sound

theorem Village.Sound.tick {vl : Village} (h : vl.Sound) : { vl with holdTimer := vl.holdTimer.tick }.Sound := by
  refine ⟨fun n => ?_, h.latched, fun l => ?_, fun use l => ?_⟩
  · rw [h.unused n]
    rfl
  · exact (Timer.tick_none_iff _).2 (h.stopped l)
  · simpa [Timer.tick] using h.holding use l

theorem Plant.tick_ladder (p : Plant) : p.LadderUp p.tick := .of_each fun v hv => by
  rw [p.tick_village]
  exact ⟨hv.tick, le_rfl⟩

/-! ### A hold expiry and a release -/

/-- A village whose hold is due is in use and not latched (R124). -/
theorem Village.Sound.of_due {vl : Village} (h : vl.Sound) (due : vl.holdTimer = some 0) :
    vl.inUse = true ∧ vl.latch = false := by
  refine ⟨?_, ?_⟩
  · by_contra n
    rw [h.unused (by simpa using n)] at due
    simp [Village.cleared] at due
  · by_contra l
    rw [h.stopped (by simpa using l)] at due
    cases due

theorem Plant.holdExpired_village {p : Plant} {v : Fin 8} (use : (p.village v).inUse = true) :
    (p.holdExpired v).village v = { p.village v with holdTimer := none }.form p.barrier ∧
    ∀ w, w ≠ v → (p.holdExpired v).village w = p.village w := by
  obtain ⟨_, formed, others⟩ := (p.setVillage v { p.village v with holdTimer := none }).recompute_spec v
  rw [Plant.village_setVillage, if_pos use] at formed
  exact ⟨formed, fun w hw => (others w hw).1.trans (p.village_setVillage_of_ne hw _)⟩

theorem Plant.holdExpired_ladder {p : Plant} {v : Fin 8} (h : p.LadderSound) (due : (p.village v).holdTimer = some 0) :
    (p.holdExpired v).LadderSound ∧
    ((p.village v).announced.code ≤ ((p.holdExpired v).village v).announced.code ∨
      ((p.holdExpired v).village v).announced = (p.village v).announced.down) := by
  obtain ⟨formed, others⟩ := p.holdExpired_village ((h v).of_due due).1
  set stopped := { p.village v with holdTimer := none }
  have sound := stopped.form_sound p.barrier ((h v).of_due due).1 (h v).latched
  refine ⟨fun w => ?_, ?_⟩
  · by_cases hw : w = v
    · subst hw; rw [formed]; exact sound
    · rw [others w hw]; exact h w
  · rw [formed]
    rcases stopped.form_announced p.barrier with up | ⟨_, down⟩ | ⟨_, latched⟩
    · exact .inl up
    · exact .inr down
    · rw [sound.latched.1 latched]
      exact .inl (Level.code_le_breach _)

theorem Plant.release_village (p : Plant) (v : Fin 8) (r : Village) :
    ((p.setVillage v r).handOn v).village v = r ∧
    ∀ w, w ≠ v → ((p.setVillage v r).handOn v).village w = p.village w :=
  ⟨p.village_setVillage v r, fun _ hw => p.village_setVillage_of_ne hw r⟩

theorem Village.released_sound {vl : Village} (use : vl.inUse = true) : vl.released.Sound :=
  ⟨fun n => by simp [Village.released, use] at n, by simp [Village.released], fun l => by simp [Village.released] at l,
    fun _ _ => rfl⟩

/-! ### A barrier's state changes -/

/-- What a change of a barrier's state keeps: all above the barriers, the ladder, the notice set and the one evaluation entry
per owner. -/
structure Plant.OrderlyStep (p q : Plant) : Prop where
  only : p.BarrierSideOnly q
  ladder : p.LadderUp q
  notices : p.NoticesGood → q.NoticesGood
  owners : (p.evalQueue.map EvalEntry.owner).Nodup → (q.evalQueue.map EvalEntry.owner).Nodup

theorem Plant.OrderlyStep.trans {p q r : Plant} (h : p.OrderlyStep q) (h' : q.OrderlyStep r) : p.OrderlyStep r :=
  ⟨h.only.trans h'.only, h.ladder.trans h'.ladder, fun n => h'.notices (h.notices n), fun n => h'.owners (h.owners n)⟩

theorem Plant.BarrierStep.orderly {p q : Plant} (h : p.BarrierStep q) : p.OrderlyStep q :=
  ⟨h.only, h.ladder, h.notices, h.owners⟩

theorem Plant.setBarrier_orderly (p : Plant) (k : Fin 4) (b : Barrier) : p.OrderlyStep (p.setBarrier k b) :=
  ⟨rfl, .of_villages rfl, id, id⟩

theorem Plant.changeState_orderly (p : Plant) (k : Fin 4) (b : Barrier) : p.OrderlyStep (p.changeState k b) :=
  (p.setBarrier_orderly k b).trans (Plant.recomputeFor_step _ k).toBarrierStep.orderly

theorem Plant.holdBarrier_orderly (p : Plant) (k : Fin 4) : p.OrderlyStep (p.holdBarrier k) := by
  unfold Plant.holdBarrier
  split
  · exact ⟨rfl, .refl p, id, id⟩
  · exact p.changeState_orderly k _
  · unfold Plant.holdActive
    have left := (p.changeState_orderly k { p.barrier k with state := .loading }).trans
      (Plant.abandon_step _ (.barrier k)).orderly
    dsimp only
    split_ifs
    · exact left.trans ((Plant.reofferBelow_step _ k).trans (Plant.endSessionOn_step _ k _)).orderly
    · exact left.trans (Plant.endSessionOn_step _ k _).orderly

theorem Plant.runBarrier_orderly (p : Plant) (k : Fin 4) : p.OrderlyStep (p.runBarrier k) :=
  (p.changeState_orderly k _).trans (Plant.vote_step _ k).orderly

/-! ### Every move -/

/-- The announced level of a village does not fall, or does at its own hold expiry or at a release (R124, R126). -/
def Plant.FallsOnlyAs (p : Plant) (c : Instr) (q : Plant) (v : Fin 8) : Prop :=
  (p.village v).announced.code ≤ (q.village v).announced.code ∨
    (c = .holdTimerExpiry v ∧ (p.village v).holdTimer = some 0 ∧
      (q.village v).announced = (p.village v).announced.down) ∨
    (c = .releaseBreach ∧ (p.village v).announced = .breach ∧ (q.village v).announced = .evacuate)

/-- But for a full reset, a hold expiry and a release, a move lets no announced level fall. -/
theorem Plant.StateMove.ladder {p q : Plant} {c : Instr} (m : p.StateMove c q) (h : p.LadderSound) : q.LadderSound ∧
    (c.isFullReset = false → ∀ v, p.FallsOnlyAs c q v) := by
  have of_up (up : p.LadderUp q) : q.LadderSound ∧ (c.isFullReset = false → ∀ v, p.FallsOnlyAs c q v) :=
    (up h).imp id fun le _ v => .inl (le v)
  cases m with
  | reset strap full => exact ⟨Plant.afterReset_ladder strap, fun n => by simp [full] at n⟩
  | second => exact of_up p.tick_ladder
  | hold v due =>
    obtain ⟨sound, fall⟩ := Plant.holdExpired_ladder h due
    refine ⟨sound, fun _ w => ?_⟩
    by_cases hw : w = v
    · subst hw
      exact fall.imp id fun e => .inl ⟨rfl, due, e⟩
    · refine .inl ?_
      rw [(p.holdExpired_village ((h v).of_due due).1).2 w hw]
  | release v use latch =>
    obtain ⟨written, others⟩ := p.release_village v (p.village v).released
    refine ⟨fun w => ?_, fun _ w => ?_⟩ <;> by_cases hw : w = v
    · subst hw; rw [written]; exact Village.released_sound use
    · rw [others w hw]; exact h w
    · subst hw
      refine .inr (.inr ⟨rfl, (h w).latched.1 latch, ?_⟩)
      rw [written]
      rfl
    · refine .inl ?_
      rw [others w hw]
  | table k t _ => exact of_up (.of_villages rfl)
  | barrierHold k => exact of_up (p.holdBarrier_orderly k).ladder
  | barrierRun k _ _ =>
    exact of_up (.trans (.of_villages rfl : p.LadderUp (p.checkTable k)) ((p.checkTable k).runBarrier_orderly k).ladder)

end Sys2Proof.Machine

namespace Sys2Proof.Proofs

open Sys2Proof.Machine

/-- Settles O57, over the moves of the plant: an `IntakeStep` keeps the ladder, the seven others do one by one. -/
theorem ladderStaysSound : Obligations.LadderStaysSound := by
  intro s t sound run
  obtain ⟨c, move⟩ := step_move run
  rcases move.sorted with intake | other
  · exact (intake.ladder sound).1
  · exact (other.ladder sound).1

/-- Settles O60, over the moves of the plant: an `IntakeStep` lets no announced level fall, nor do the other moves but a hold
expiry and a release. -/
theorem announcedFallsOneStepAtHoldExpiry : Obligations.AnnouncedFallsOneStepAtHoldExpiry := by
  intro c s t v sound kept run
  obtain ⟨t', run', move⟩ := exec_move c s
  obtain rfl : t = t' := by
    rw [run] at run'
    injection run'
  rcases move.sorted with intake | other
  · exact .inl ((intake.ladder sound).2 v)
  · exact (other.ladder sound).2 kept v

end Sys2Proof.Proofs
end

section
/-! The estimator's standing facts and the unit at work through every move of the plant. -/

namespace Sys2Proof.Machine

/-! ### The unit at work through readings, lapses and writes of channels -/

section
variable {p : Plant} (h : p.AtWork)
include h

theorem Plant.AtWork.reportReal (ch : Channel) (report : Bool) : (p.reportReal ch report).AtWork := by
  unfold Plant.reportReal
  split
  · exact h.vote _
  · exact h

theorem Plant.AtWork.reportExercise (ch : Channel) (report : Bool) : (p.reportExercise ch report).AtWork := by
  unfold Plant.reportExercise
  split
  · exact h.exerciseVote _
  · exact h

theorem Plant.AtWork.reportSurge (ch : Channel) : (p.reportSurge ch).AtWork := by
  unfold Plant.reportSurge
  split
  · exact h.assessSurge _
  · exact h

theorem Plant.AtWork.reportLatch (ch : Channel) (changed : Bool) : (p.reportLatch ch changed).AtWork := by
  unfold Plant.reportLatch
  split
  · exact h.assessBreach _
  · exact h

theorem Plant.AtWork.reportLost (old : Channel) : (p.reportLost old).AtWork := by
  unfold Plant.reportLost
  by_cases use : old.inUse = true
  · rw [if_pos use]
    split
    · exact (h.reportReal old _).reportExercise old _
    · split_ifs
      · exact h.reportSurge old
      · exact h
    · exact h
  · rw [if_neg use]
    exact h

theorem Plant.AtWork.setChannel (c : Fin 48) (ch : Channel) : (p.setChannel c ch).AtWork := h

theorem Plant.AtWork.setStation (i : Fin 24) (st : Station) : (p.setStation i st).AtWork := h

theorem Plant.AtWork.setBarrier (k : Fin 4) (b : Barrier) : (p.setBarrier k b).AtWork := h

theorem Plant.AtWork.driveExercise (c : Fin 48) (r : Nat) : (p.driveExercise c r).AtWork := by
  unfold Plant.driveExercise
  dsimp only
  split_ifs
  · refine Plant.AtWork.reportExercise (Plant.AtWork.setChannel ?_ _ _) _ _
    exact h
  · exact h

theorem Plant.AtWork.reading (c : Fin 48) (r : Nat) : (p.reading c r).AtWork := by
  unfold Plant.reading
  dsimp only
  split_ifs
  · split
    · exact ((h.setChannel c _).reportReal _ _).driveExercise c r
    · exact (h.setChannel c _).reportSurge _
    · exact (h.setChannel c _).reportLatch _ _
  · exact h

theorem Plant.AtWork.handReadings (st : Station) (rs : List (Nat × Nat)) : (p.handReadings st rs).AtWork :=
  foldl_keeps (R := Plant.AtWork) (fun q r hq => by
    split
    · exact hq.reading _ _
    · exact hq) rs p h

theorem Plant.AtWork.lapseAll (cs : List (Fin 48)) : (p.lapseAll cs).AtWork :=
  foldl_keeps (R := Plant.AtWork) (fun _ c hq => (hq.setChannel c _).reportLost _) cs p h

theorem Plant.AtWork.returnAll (cs : List (Fin 48)) : (p.returnAll cs).AtWork :=
  foldl_keeps (R := Plant.AtWork) (fun _ c hq => hq.setChannel c _) cs p h

theorem Plant.AtWork.post (kind : NoticeKind) (subject value : Nat) : (p.post kind subject value).AtWork := h

theorem Plant.AtWork.stationHeard (i : Fin 24) (seq : Byte) : (p.stationHeard i seq).AtWork := by
  unfold Plant.stationHeard
  dsimp only
  split
  · exact (h.setStation i _).returnAll _
  · exact ((h.setStation i _).returnAll _).post _ _ _
  · exact h
  · exact h
  · exact h

theorem Plant.AtWork.readSample (i : Fin 24) (f : Frame) : (p.readSample i f).AtWork := by
  by_cases retired : (p.station i).state = .retired
  · rw [Plant.readSample, if_pos retired]
    exact h
  · unfold Plant.readSample
    rw [if_neg retired]
    split_ifs
    · exact h
    · exact h
    · exact ((h.setStation i _).handReadings _ _).stationHeard i _

theorem Plant.AtWork.silenceExpired (i : Fin 24) : (p.silenceExpired i).AtWork := by
  unfold Plant.silenceExpired
  dsimp only
  split
  · exact h
  · exact ((h.setStation i _).lapseAll _).post _ _ _
  all_goals exact h

theorem Plant.AtWork.surgeHoldExpired (k : Fin 4) : (p.surgeHoldExpired k).AtWork := by
  have tested : (p.surgeTested k).AtWork := foldl_keeps (R := Plant.AtWork) (fun _ c hq => hq.setChannel c _) _ p h
  rw [p.surgeHoldExpired_eq]
  split_ifs
  · exact (Plant.setSurgeFlag_spec _ k _ _).atWork tested
  · exact (Plant.setSurgeFlag_spec _ k _ _).atWork tested

theorem Plant.AtWork.retire (i : Fin 24) : (p.retire i).AtWork := by
  unfold Plant.retire
  dsimp only
  split_ifs
  · exact h
  · exact (h.setStation i _).lapseAll _

theorem Plant.AtWork.exerciseDone : p.exerciseDone.AtWork := by
  unfold Plant.exerciseDone
  split
  · split_ifs
    · exact .of_beginEvaluation _
    · exact h
  · exact h

theorem Plant.AtWork.syncExercise (k : Fin 4) : (p.syncExercise k).AtWork := by
  have restarted : (p.restartExercise k).AtWork := by
    rw [(p.restartExercise_spec k).1]
    exact h
  exact (Plant.recomputeExerciseFor_spec _ k).1.atWork (restarted.abandon .exercise)

theorem Plant.AtWork.beginExercise (k : Fin 4) (duration : Nat) : (p.beginExercise k duration).AtWork := by
  refine (Plant.recomputeExerciseFor_spec _ k).1.atWork ?_
  rw [(Plant.restartExercise_spec _ k).1]
  exact h

theorem Plant.AtWork.changeState (k : Fin 4) (b : Barrier) : (p.changeState k b).AtWork :=
  (Plant.recomputeFor_step _ k).atWork (h.setBarrier k b)

theorem Plant.AtWork.holdBarrier (k : Fin 4) : (p.holdBarrier k).AtWork := by
  unfold Plant.holdBarrier
  split
  · exact h
  · exact h.changeState k _
  · unfold Plant.holdActive
    have left := (h.changeState k { p.barrier k with state := .loading }).abandon (.barrier k)
    dsimp only
    split_ifs
    · exact (left.reofferBelow k).endSessionOn k _
    · exact left.endSessionOn k _

end

/-- Every move keeps the unit at work while the queue holds an entry (R93). -/
theorem Plant.Move.atWork {p q : Plant} {c : Instr} (m : p.Move c q) (h : p.AtWork) : q.AtWork := by
  cases m with
  | reset strap _ => exact fun _ => rfl
  | message step => exact step.toVillageStep.atWork h
  | sample i f step _ => exact (step.toVillageStep.atWork h).readSample i f
  | second => exact h.congr (by simp only [Plant.tick]) (by simp only [Plant.tick])
  | silence i => exact h.silenceExpired i
  | surgeHold k => exact h.surgeHoldExpired k
  | evaluation => exact .of_beginEvaluation p
  | barrierDone ceiling k f => exact .of_beginEvaluation _
  | exerciseDone => exact h.exerciseDone
  | hold v _ => exact (Plant.recompute_spec _ v).1.atWork h
  | sessionEnd reason => exact h.endSessionOf reason _
  | counters =>
    obtain ⟨_, _, _, _, queue, flight, _⟩ := p.countersCleared_keeps
    exact h.congr queue flight
  | evalReset =>
    obtain ⟨_, _, _, queue, _⟩ := p.evalCleared_keeps
    exact Plant.AtWork.endSessionOf (p := p.evalCleared) (fun _ => queue) _ _
  | station i r _ => exact (h.setStation i _).lapseAll _
  | retire i _ => exact h.retire i
  | channel ch r new _ => exact ((h.setChannel ch _).reportLost _).reportLatch _ _
  | rearm ch => exact (h.setChannel ch _).reportLatch _ _
  | pattern ch r => exact h
  | table k t _ => exact h
  | barrierSettings k r => exact h
  | barrierHold k => exact h.holdBarrier k
  | barrierRun k _ _ => exact (Plant.AtWork.changeState (p := p.checkTable k) h k _).vote k
  | villageCleared v low => exact (Plant.clearVillage_step low).atWork h
  | village v r => exact (p.writeVillage_step v r).atWork h
  | route v k travel use => exact (Plant.writeRoute_step use k travel).atWork h
  | mask v m use => exact (Plant.maskVillage_step use m).atWork h
  | release v _ _ => exact h
  | exerciseBegin k ceiling duration _ => exact h.beginExercise k duration
  | exerciseSync k _ => exact h.syncExercise k

/-! ### The estimator's facts through a change of a barrier's state -/

/-- The estimator's facts but the session's, from which owners are at work. -/
theorem Plant.EstimatorCore.of_work {p : Plant}
    (table : ∀ k, (p.barrier k).state = .active → (p.table k).verdict.crest?.isSome = true)
    (live : ∀ o, p.queued o = true ∨ p.inFlight o = true → p.Live o) : p.EstimatorCore :=
  ⟨table, fun e he => live _ (.inl (List.any_eq_true.2 ⟨e, he, by simp⟩)),
    fun f hf => live _ (.inr (by simp [Plant.inFlight, hf]))⟩

theorem Plant.EstimatorCore.live {p : Plant} (h : p.EstimatorCore) (o : EvalOwner)
    (work : p.queued o = true ∨ p.inFlight o = true) : p.Live o := by
  rcases work with queued | flown
  · obtain ⟨e, he, ho⟩ := List.any_eq_true.1 queued
    exact (beq_iff_eq.1 ho) ▸ h.queue e he
  · cases hf : p.flight with
    | none => simp [Plant.inFlight, hf] at flown
    | some f =>
      have ho : f.owner = o := by simpa [Plant.inFlight, hf] using flown
      exact ho ▸ h.flight f hf

theorem Plant.EstimatorCore.offer {p : Plant} (h : p.EstimatorCore) (o : EvalOwner) (stage : Nat) (live : p.Live o) :
    (p.offer o stage).EstimatorCore := by
  have states (k : Fin 4) : ((p.offer o stage).barrier k).state = (p.barrier k).state := by rw [p.offer_barrier]
  have same (o' : EvalOwner) : (p.offer o stage).Live o' ↔ p.Live o' := by
    cases o' with
    | barrier k => simp only [Plant.Live, states]
    | exercise => rw [p.offer_only o stage]; rfl
  refine .of_work (fun k active => ?_) fun o' work => ?_
  · rw [states] at active
    rw [p.offer_only o stage]
    exact h.table k active
  · rw [same]
    rcases (p.offer_work o o' stage).1 work with before | rfl
    · exact h.live o' before
    · exact live

theorem Plant.EstimatorCore.reofferBelow {p : Plant} (h : p.EstimatorCore) (k : Fin 4) : (p.reofferBelow k).EstimatorCore := by
  unfold Plant.reofferBelow
  split
  · dsimp only
    split
    · rename_i active _
      split_ifs
      · exact h
      · exact h.offer _ _ active
    · exact h
  · exact h

/-- A barrier whose state changes to another than ACTIVE loses its work; the facts but the session's stay (R85, R102). -/
theorem Plant.EstimatorSound.leave {p : Plant} (h : p.EstimatorSound) (k : Fin 4) (b : Barrier) (left : b.state ≠ .active) :
    ((p.changeState k b).abandon (.barrier k)).EstimatorCore := by
  have side := (Plant.recomputeFor_step (p.setBarrier k b) k).only
  have states (j : Fin 4) (active : ((p.changeState k b).barrier j).state = .active) : (p.barrier j).state = .active := by
    rw [Plant.changeState, side.barrier] at active
    by_cases hj : j = k
    · subst hj
      rw [Plant.barrier_setBarrier] at active
      exact absurd active left
    · rwa [Plant.barrier_setBarrier_of_ne _ hj] at active
  have live (o : EvalOwner) (ho : o ≠ .barrier k) (before : p.Live o) : (p.changeState k b).Live o := by
    cases o with
    | barrier j =>
      have hj : j ≠ k := fun e => ho (congrArg _ e)
      show ((p.changeState k b).barrier j).state = .active
      rw [Plant.changeState, side.barrier, Plant.barrier_setBarrier_of_ne _ hj]
      exact before
    | exercise =>
      show (p.changeState k b).session.active = true
      rw [Plant.changeState, side.session]
      exact before
  refine .abandon _ (fun j active => ?_) (fun e he ho => live _ ho (h.queue e ?_)) fun f hf ho => live _ ho (h.flight f ?_)
  · have tables : (p.changeState k b).table j = p.table j := by
      rw [Plant.changeState, Plant.table, side.tables]
      rfl
    rw [tables]
    exact h.table j (states j active)
  · rw [Plant.changeState, side.evalQueue] at he
    exact he
  · rw [Plant.changeState, side.flight] at hf
    exact hf

/-- A state change of a barrier that is not ACTIVE, to another state than ACTIVE, touches nothing the facts rest on. -/
theorem Plant.EstimatorSound.load {p : Plant} (h : p.EstimatorSound) (k : Fin 4) (b : Barrier) (left : b.state ≠ .active)
    (idle : (p.barrier k).state ≠ .active) : (p.changeState k b).EstimatorSound := by
  refine (Plant.recomputeFor_step _ k).estimator ?_
  have states (j : Fin 4) : ((p.setBarrier k b).barrier j).state = .active ↔ (p.barrier j).state = .active := by
    by_cases hj : j = k
    · subst hj
      rw [Plant.barrier_setBarrier]
      exact iff_of_false left idle
    · rw [Plant.barrier_setBarrier_of_ne _ hj]
  have live (o : EvalOwner) (before : p.Live o) : (p.setBarrier k b).Live o := by
    cases o with
    | barrier j => exact (states j).2 before
    | exercise => exact before
  refine ⟨fun j active => h.table j ((states j).1 active), fun e he => live _ (h.queue e he),
    fun f hf => live _ (h.flight f hf), fun on => ?_⟩
  obtain ⟨j, hj, active, calm, whole⟩ := h.session on
  have hjk : j ≠ k := fun e => idle (e ▸ active)
  exact ⟨j, hj, by rw [Plant.barrier_setBarrier_of_ne _ hjk]; exact ⟨active, calm, whole⟩⟩

theorem Plant.abandon_session (p : Plant) (o : EvalOwner) : (p.abandon o).session = p.session := by rw [p.abandon_only o]

theorem Plant.abandon_barrier (p : Plant) (o : EvalOwner) (k : Fin 4) : (p.abandon o).barrier k = p.barrier k := by
  rw [p.abandon_only o]
  rfl

theorem Plant.EstimatorSound.holdBarrier {p : Plant} (h : p.EstimatorSound) (k : Fin 4) : (p.holdBarrier k).EstimatorSound := by
  unfold Plant.holdBarrier
  split
  · exact h
  · rename_i unloaded
    exact h.load k _ (by simp) (by simp [unloaded])
  · unfold Plant.holdActive
    set b : Barrier := { p.barrier k with state := .loading }
    have core := h.leave k b (by simp [b])
    have side := (Plant.recomputeFor_step (p.setBarrier k b) k).only
    generalize hq : (p.changeState k b).abandon (.barrier k) = q at core
    have session : q.session = p.session := by
      rw [← hq, Plant.abandon_session]
      exact side.session
    have others (j : Fin 4) (hj : j ≠ k) : q.barrier j = p.barrier j := by
      rw [← hq, Plant.abandon_barrier, Plant.changeState, side.barrier, Plant.barrier_setBarrier_of_ne _ hj]
    dsimp only
    rw [hq]
    split_ifs
    · obtain ⟨only, barriers⟩ := q.reofferBelow_only k
      refine (core.reofferBelow k).endSessionOn k .barrierLeft fun on => ?_
      have same : (q.reofferBelow k).session = p.session := by rw [only, session]
      rw [same] at on ⊢
      obtain ⟨j, hj, facts⟩ := h.session on
      exact ⟨j, hj, fun hjk => by rw [barriers, others j hjk]; exact facts⟩
    · refine core.endSessionOn k .barrierLeft fun on => ?_
      rw [session] at on ⊢
      obtain ⟨j, hj, facts⟩ := h.session on
      exact ⟨j, hj, fun hjk => by rw [others j hjk]; exact facts⟩

/-- A barrier that is LOADING becomes ACTIVE with a VALID table (R87). -/
theorem Plant.EstimatorSound.runBarrier {p : Plant} (h : p.EstimatorSound) (k : Fin 4)
    (loading : (p.barrier k).state = .loading) (valid : (p.table k).verdict.crest?.isSome = true) :
    (p.runBarrier k).EstimatorSound := by
  refine Plant.EstimatorSound.vote ((Plant.recomputeFor_step _ k).estimator ?_) k
  have live (o : EvalOwner) (before : p.Live o) : (p.setBarrier k (p.barrier k).started).Live o := by
    cases o with
    | barrier j =>
      show ((p.setBarrier k (p.barrier k).started).barrier j).state = .active
      by_cases hj : j = k
      · subst hj
        rw [Plant.barrier_setBarrier]
        rfl
      · rw [Plant.barrier_setBarrier_of_ne _ hj]
        exact before
    | exercise => exact before
  refine ⟨fun j active => ?_, fun e he => live _ (h.queue e he), fun f hf => live _ (h.flight f hf), fun on => ?_⟩
  · by_cases hj : j = k
    · subst hj
      exact valid
    · rw [Plant.barrier_setBarrier_of_ne _ hj] at active
      exact h.table j active
  · obtain ⟨j, hj, active, calm, whole⟩ := h.session on
    have hjk : j ≠ k := fun e => by
      rw [e, loading] at active
      cases active
    exact ⟨j, hj, by rw [Plant.barrier_setBarrier_of_ne _ hjk]; exact ⟨active, calm, whole⟩⟩

/-- The table of a barrier that is not ACTIVE is rewritten. -/
theorem Plant.EstimatorSound.setTable {p : Plant} (h : p.EstimatorSound) {k : Fin 4} (idle : (p.barrier k).state ≠ .active)
    (t : Table) : (p.setTable k t).EstimatorSound := by
  refine ⟨fun j active => ?_, h.queue, h.flight, h.session⟩
  have hj : j ≠ k := fun e => idle (e ▸ active)
  rw [Plant.table_setTable_of_ne _ hj]
  exact h.table j active

theorem Plant.EstimatorSound.of_villageSide {p q : Plant} (h : p.EstimatorSound) (s : p.VillageSideOnly q) : q.EstimatorSound :=
  h.congr (by funext k; rw [Plant.table, s.tables, Plant.table]) (fun k => by rw [s.barrier]; exact ⟨rfl, rfl, rfl⟩)
    (by rw [s.evalQueue]) s.flight s.session

theorem Plant.tick_keeps (p : Plant) : p.tick.tables = p.tables ∧ p.tick.evalQueue = p.evalQueue ∧ p.tick.flight = p.flight ∧
    p.tick.notices = p.notices ∧ p.tick.session = { p.session with timer := p.session.timer.tick } := by
  simp [Plant.tick]

theorem Plant.EstimatorSound.tick {p : Plant} (h : p.EstimatorSound) : p.tick.EstimatorSound := by
  obtain ⟨_, queue, flight, _, session⟩ := p.tick_keeps
  have live (o : EvalOwner) (before : p.Live o) : p.tick.Live o := by
    cases o with
    | barrier k => simpa [Plant.Live] using before
    | exercise =>
      rw [Plant.Live, session]
      exact before
  refine ⟨fun k active => ?_, fun e he => live _ (h.queue e (queue ▸ he)), fun f hf => live _ (h.flight f (flight ▸ hf)),
    fun on => ?_⟩
  · rw [p.tick_barrier] at active
    rw [p.tick_table]
    exact h.table k active
  · rw [session] at on ⊢
    obtain ⟨k, hk, facts⟩ := h.session on
    exact ⟨k, hk, by rw [p.tick_barrier]; exact facts⟩

theorem Plant.afterReset_estimator (strap : Byte) : (Plant.afterReset strap).EstimatorSound := by
  refine ⟨fun k active => ?_, fun e he => absurd he List.not_mem_nil, fun f hf => (by cases hf), fun on => (by cases on)⟩
  rw [Plant.afterReset_barrier] at active
  cases active

theorem Plant.StateMove.estimator {p q : Plant} {c : Instr} (m : p.StateMove c q) (h : p.EstimatorSound) : q.EstimatorSound := by
  cases m with
  | reset strap _ => exact Plant.afterReset_estimator strap
  | second => exact h.tick
  | hold v _ =>
    exact h.of_villageSide (Plant.VillageSideOnly.trans (rfl : p.VillageSideOnly (p.setVillage v _))
      (Plant.recompute_step _ v).only)
  | release v _ _ => exact h.of_villageSide rfl
  | table k t idle => exact h.setTable idle t
  | barrierHold k => exact h.holdBarrier k
  | barrierRun k loading valid =>
    refine Plant.EstimatorSound.runBarrier (p := p.checkTable k) (h.setTable (by simp [loading]) _) k loading ?_
    rw [Plant.checkTable, Plant.table_setTable]
    exact valid

end Sys2Proof.Machine

namespace Sys2Proof.Proofs

open Sys2Proof.Machine

/-- Settles O59, over the moves of the plant: an `IntakeStep` keeps the estimator's facts, the seven others do one by one, and
every move leaves the unit at work. -/
theorem estimatorStaysSound : Obligations.EstimatorStaysSound := by
  intro s t run
  obtain ⟨c, move⟩ := step_move run
  refine ⟨fun sound => ?_, move.atWork⟩
  rcases move.sorted with intake | other
  · exact intake.estimator sound
  · exact other.estimator sound

end Sys2Proof.Proofs
end

section
/-! The standing facts of slot maps, channel caps and sources through every move of the plant. -/

namespace Sys2Proof.Machine

/-! ### What the facts rest on -/

/-- What a step keeps of slot maps, caps and sources. -/
structure Plant.LinkStep (p q : Plant) : Prop where
  slots : p.SlotsExclusive → q.SlotsExclusive
  caps : p.CapsKept → q.CapsKept
  sources : p.SourcesMatch → q.SourcesMatch

theorem Plant.LinkStep.refl (p : Plant) : p.LinkStep p := ⟨id, id, id⟩

theorem Plant.LinkStep.trans {p q r : Plant} (h : p.LinkStep q) (h' : q.LinkStep r) : p.LinkStep r :=
  ⟨fun x => h'.slots (h.slots x), fun x => h'.caps (h.caps x), fun x => h'.sources (h.sources x)⟩

/-- A station record that maps the same channels: use and slot map kept. -/
def Station.SameMap (a b : Station) : Prop := b.inUse = a.inUse ∧ b.slots = a.slots

theorem Station.SameMap.maps {a b : Station} (h : a.SameMap b) : b.maps = a.maps := by
  funext c
  rw [Station.maps, h.2, Station.maps]

/-- A station that is UNUSED before and after a step that keeps its map is not eligible after it if it was not before. -/
theorem Plant.SlotsExclusive.of_sameMap {p q : Plant} (h : p.SlotsExclusive)
    (same : ∀ i, (p.station i).SameMap (q.station i))
    (silent : ∀ i, (q.station i).inUse = false → (q.station i).eligible = false) : q.SlotsExclusive := by
  refine ⟨fun i j c hi hj => ?_, fun i => ?_, fun i unused c => ?_, silent⟩
  · rw [(same i).maps] at hi
    rw [(same j).maps] at hj
    exact h.acrossStations i j c hi hj
  · rw [(same i).2]
    exact h.withinStation i
  · rw [(same i).1] at unused
    rw [(same i).maps]
    exact h.unusedEmpty i unused c

/-- Channels that keep use, kind and barrier fill the same lists (R49). -/
theorem Plant.CapsKept.congr {p q : Plant} (h : p.CapsKept) (same : ∀ c, (q.channel c).inUse = (p.channel c).inUse ∧
    (q.channel c).kind = (p.channel c).kind ∧ (q.channel c).barrier = (p.channel c).barrier) : q.CapsKept := fun k kind => by
  have lists : q.channelsAt k kind = p.channelsAt k kind :=
    List.filter_congr fun c _ => by
      obtain ⟨use, kind', barrier⟩ := same c
      rw [Channel.at, use, kind', barrier, Channel.at]
  rw [lists]
  exact h k kind

/-- Stations keep map and eligibility, and channels settings, source and soundness. -/
structure Plant.LinksKept (p q : Plant) : Prop where
  map : ∀ i, (p.station i).SameMap (q.station i)
  eligible : ∀ i, (q.station i).eligible = (p.station i).eligible
  channel : ∀ c, (p.channel c).Conditioned (q.channel c)

theorem Plant.LinksKept.step {p q : Plant} (h : p.LinksKept q) : p.LinkStep q := by
  have slots (s : p.SlotsExclusive) : q.SlotsExclusive := s.of_sameMap h.map fun i unused => by
    rw [(h.map i).1] at unused
    rw [h.eligible]
    exact s.unusedSilent i unused
  refine ⟨slots, fun s => s.congr fun c => ⟨(h.channel c).inUse, (h.channel c).kind, (h.channel c).barrier⟩,
    fun s => ⟨slots s.slots, fun c => ?_, fun c => (h.channel c).sound (s.sound c)⟩⟩
  rw [(h.channel c).eligible, s.source c]
  simp only [(h.map _).1, (h.map _).maps, h.eligible]

theorem Plant.LinksKept.refl (p : Plant) : p.LinksKept p := ⟨fun _ => ⟨rfl, rfl⟩, fun _ => rfl, fun _ => .refl _⟩

theorem Plant.LinksKept.of_same {p q : Plant} (stations : q.station = p.station) (channels : q.channel = p.channel) :
    p.LinksKept q := by
  refine ⟨fun i => ?_, fun i => ?_, fun c => ?_⟩
  · rw [stations]; exact ⟨rfl, rfl⟩
  · rw [stations]
  · rw [channels]; exact .refl _

theorem Plant.BarrierSideOnly.links {p q : Plant} (h : p.BarrierSideOnly q) : p.LinkStep q :=
  (Plant.LinksKept.of_same h.toChannelSideOnly.station h.channel).step

theorem Plant.VillageSideOnly.links {p q : Plant} (h : p.VillageSideOnly q) : p.LinkStep q := h.toBarrierSideOnly.links

/-! ### One station rewritten -/

/-- A station record is rewritten, and the channels that its old or new map names take the new record's eligibility. -/
structure Plant.Rewired (p q : Plant) (i : Fin 24) : Prop where
  others : ∀ j, j ≠ i → q.station j = p.station j
  mapped : ∀ c, (p.station i).maps c = true ∨ (q.station i).maps c = true →
    (q.channel c).eligible = (q.station i).eligible
  names : ∀ c, (p.station i).maps c = true → (q.station i).eligible = true → (q.station i).maps c = true
  unmapped : ∀ c, (p.station i).maps c = false → (q.station i).maps c = false → q.channel c = p.channel c
  settings : ∀ c, (q.channel c).inUse = (p.channel c).inUse ∧ (q.channel c).kind = (p.channel c).kind ∧
    (q.channel c).barrier = (p.channel c).barrier
  sound : ∀ c, (p.channel c).Sound → (q.channel c).Sound

theorem Plant.Rewired.step {p q : Plant} {i : Fin 24} (h : p.Rewired q i) (slots : p.SlotsExclusive → q.SlotsExclusive) :
    p.LinkStep q := by
  refine ⟨slots, fun s => s.congr h.settings, fun s => ⟨slots s.slots, fun c => ?_, fun c => h.sound c (s.sound c)⟩⟩
  have excl := slots s.slots
  have used (st : Fin 24) (maps : (q.station st).maps c = true) : (q.station st).inUse = true := by
    by_contra unused
    rw [excl.unusedEmpty st (by simpa using unused) c] at maps
    cases maps
  by_cases touched : (p.station i).maps c = true ∨ (q.station i).maps c = true
  · rw [h.mapped c touched]
    constructor
    · intro eligible
      have maps : (q.station i).maps c = true := touched.elim (fun old => h.names c old eligible) id
      exact ⟨i, used i maps, maps, eligible⟩
    · rintro ⟨j, -, maps, eligible⟩
      have hj : j = i := by
        by_contra hj
        rcases touched with old | new
        · rw [h.others j hj] at maps
          exact hj (s.slots.acrossStations j i c maps old)
        · exact hj (excl.acrossStations j i c maps new)
      rw [← hj]
      exact eligible
  · obtain ⟨old, new⟩ := not_or.1 touched
    rw [h.unmapped c (by simpa using old) (by simpa using new), s.source c]
    refine exists_congr fun j => ?_
    by_cases hj : j = i
    · subst hj
      exact iff_of_false (fun x => old x.2.1) fun x => new x.2.1
    · rw [h.others j hj]

theorem Plant.SlotsExclusive.rewrite {p q : Plant} {i : Fin 24} (h : p.SlotsExclusive)
    (others : ∀ j, j ≠ i → q.station j = p.station j) (same : (p.station i).SameMap (q.station i))
    (silent : (q.station i).inUse = false → (q.station i).eligible = false) : q.SlotsExclusive := by
  refine h.of_sameMap (fun j => ?_) fun j => ?_ <;> by_cases hj : j = i
  · subst hj; exact same
  · rw [others j hj]; exact ⟨rfl, rfl⟩
  · subst hj; exact silent
  · rw [others j hj]; exact h.unusedSilent j

/-- A station record keeps its map and the channels it maps lapse (R30, R37). -/
theorem Plant.lapsed_links (p : Plant) (i : Fin 24) (st : Station) (same : (p.station i).SameMap st)
    (silent : st.eligible = false) :
    p.LinkStep ((p.setStation i st).lapseAll (p.station i).channels) := by
  obtain ⟨_, written, others, _, lapses⟩ := p.setStation_lapseAll_spec i st _ (p.station i).channels_nodup
  generalize (p.setStation i st).lapseAll (p.station i).channels = q at written others lapses ⊢
  subst written
  simp only [Station.mem_channels] at lapses
  refine Plant.Rewired.step ⟨others, fun c maps => ?_, fun c _ e => ?_, fun c old _ => ?_, fun c => ?_, fun c => ?_⟩
    fun s => s.rewrite others same fun _ => silent
  · rw [same.maps, or_self] at maps
    rw [lapses, if_pos maps, (p.channel c).lapsed_spec.1, silent]
  · rw [silent] at e
    cases e
  · rw [lapses, if_neg (by simp [old])]
  · obtain ⟨_, use, kind, barrier, _⟩ := (p.channel c).lapsed_spec
    rw [lapses]
    split_ifs
    · exact ⟨use, kind, barrier⟩
    · exact ⟨rfl, rfl, rfl⟩
  · rw [lapses]
    split_ifs
    · exact (p.channel c).lapsed_spec.2.2.2.2
    · exact id

theorem Plant.silenceExpired_links (p : Plant) (i : Fin 24) : p.LinkStep (p.silenceExpired i) := by
  unfold Plant.silenceExpired
  dsimp only
  split
  · rename_i live
    refine Plant.LinksKept.step ⟨fun j => ?_, fun j => ?_, fun c => .refl _⟩ <;> by_cases hj : j = i
    · subst hj; rw [Plant.station_setStation]; exact ⟨rfl, rfl⟩
    · rw [Plant.station_setStation_of_ne _ hj]; exact ⟨rfl, rfl⟩
    · subst hj; rw [Plant.station_setStation]; simp [Station.eligible, live]
    · rw [Plant.station_setStation_of_ne _ hj]
  · exact (p.lapsed_links i { p.station i with state := .silent p.now, timer := none } ⟨rfl, rfl⟩ rfl).trans
      (Plant.VillageSideOnly.links rfl)
  all_goals exact .refl p

theorem Plant.retire_links (p : Plant) (i : Fin 24) : p.LinkStep (p.retire i) := by
  unfold Plant.retire
  dsimp only
  split_ifs
  · exact .refl p
  · exact p.lapsed_links i { p.station i with state := .retired, timer := none, lastSeq := none } ⟨rfl, rfl⟩ rfl

theorem Plant.stationHeard_links (p : Plant) (i : Fin 24) (seq : Byte) (use : (p.station i).inUse = true)
    (known : (p.station i).state ≠ .retired) : p.LinkStep (p.stationHeard i seq) := by
  obtain ⟨_, written, others, _, channels⟩ := p.stationHeard_spec i seq known
  have same : (p.station i).SameMap ((p.stationHeard i seq).station i) := by rw [written]; exact ⟨rfl, rfl⟩
  have eligible : ((p.stationHeard i seq).station i).eligible = true := by rw [written]; rfl
  have slots (s : p.SlotsExclusive) : (p.stationHeard i seq).SlotsExclusive := s.rewrite others same fun unused => by
    rw [same.1, use] at unused
    cases unused
  refine ⟨slots, fun s => s.congr fun c => ?_, fun s => ?_⟩
  · rw [channels]
    split_ifs <;> exact ⟨rfl, rfl, rfl⟩
  · refine Plant.LinkStep.sources (Plant.Rewired.step ⟨others, fun c maps => ?_, fun c maps _ => ?_, fun c old _ => ?_,
      fun c => ?_, fun c sound => ?_⟩ slots) s
    · rw [same.maps, or_self] at maps
      rw [eligible, channels]
      split_ifs with returns
      · rfl
      · exact (s.source c).2 ⟨i, use, maps, by simpa [maps] using returns⟩
    · rw [same.maps]
      exact maps
    · rw [channels, if_neg (by simp [old])]
    · rw [channels]
      split_ifs <;> exact ⟨rfl, rfl, rfl⟩
    · rw [channels]
      split_ifs
      · exact ⟨fun h => ⟨rfl, (sound.real h).2⟩, fun h => ⟨rfl, (sound.exer h).2⟩, fun h => ⟨rfl, (sound.other h).2⟩⟩
      · exact sound

theorem Station.mem_slots (st : Station) (c : Fin 48) : st.maps c = true ↔ c ∈ st.slots.toList.reduceOption := by
  rw [Station.maps, List.contains_iff_mem, List.reduceOption_mem_iff]

theorem Station.cleared_maps_none (c : Fin 48) : Station.cleared.maps c = false := by
  simp [Station.maps, Station.cleared]

/-- A record that passes the checks of LOAD_STATION keeps slots exclusive (R27). -/
theorem Plant.SlotsExclusive.write {p q : Plant} {i : Fin 24} {r : Request} (h : p.SlotsExclusive)
    (good : p.stationValuesBad i r = false) (written : q.station i = r.stationRecord)
    (others : ∀ j, j ≠ i → q.station j = p.station j) : q.SlotsExclusive := by
  by_cases none : r.byte 0 = 0
  · have record : r.stationRecord = .cleared := if_pos none
    rw [record] at written
    refine ⟨fun j k c hj hk => ?_, fun j => ?_, fun j => ?_, fun j => ?_⟩
    · have ne (j : Fin 24) (hj : (q.station j).maps c = true) : j ≠ i := fun e => by
        rw [e, written, Station.cleared_maps_none] at hj
        cases hj
      rw [others j (ne j hj)] at hj
      rw [others k (ne k hk)] at hk
      exact h.acrossStations j k c hj hk
    all_goals by_cases hj : j = i
    · subst hj; rw [written]; decide
    · rw [others j hj]; exact h.withinStation j
    · subst hj; rw [written]; exact fun _ => Station.cleared_maps_none
    · rw [others j hj]; exact h.unusedEmpty j
    · subst hj; rw [written]; exact fun _ => rfl
    · rw [others j hj]; exact h.unusedSilent j
  · have record : r.stationRecord = { Station.cleared with
        inUse := true, addr := r.byte 0, slots := r.slots, timeout := clampTo 10 3600 (r.num16 9) } := if_neg none
    have free : r.slots.toList.reduceOption.Nodup ∧ ∀ c ∈ r.slots.toList.reduceOption, ∀ j, j ≠ i →
        (p.station j).inUse = true → (p.station j).maps c = false := by
      have : (r.byte 0 != 0) = true := by simpa using none
      simp only [Plant.stationValuesBad, this, Bool.true_and, Bool.or_eq_false_iff, Plant.slotClash] at good
      obtain ⟨_, within, across⟩ := good
      refine ⟨by simpa using within, fun c hc j hj use => ?_⟩
      have none := List.any_eq_false.1 across c hc
      simp only [Bool.not_eq_true, List.any_eq_false, List.mem_finRange, true_implies] at none
      simpa [hj, use] using none j
    have used (j : Fin 24) (c : Fin 48) (maps : (p.station j).maps c = true) : (p.station j).inUse = true := by
      by_contra unused
      rw [h.unusedEmpty j (by simpa using unused) c] at maps
      cases maps
    have apart (j : Fin 24) (c : Fin 48) (new : (q.station i).maps c = true) (old : (q.station j).maps c = true) : j = i := by
      by_contra hj
      rw [others j hj] at old
      rw [written, Station.mem_slots, record] at new
      rw [free.2 c new j hj (used j c old)] at old
      cases old
    refine ⟨fun j k c hj hk => ?_, fun j => ?_, fun j => ?_, fun j => ?_⟩
    · by_cases hji : j = i
      · subst hji; exact (apart k c hj hk).symm
      · by_cases hki : k = i
        · subst hki; exact apart j c hk hj
        · rw [others j hji] at hj
          rw [others k hki] at hk
          exact h.acrossStations j k c hj hk
    all_goals by_cases hj : j = i
    · subst hj; rw [written, record]; exact free.1
    · rw [others j hj]; exact h.withinStation j
    · subst hj; rw [written, record]; exact fun unused => absurd unused (by simp)
    · rw [others j hj]; exact h.unusedEmpty j
    · subst hj; rw [written, record]; exact fun unused => absurd unused (by simp)
    · rw [others j hj]; exact h.unusedSilent j

theorem Request.stationRecord_silent (r : Request) : r.stationRecord.eligible = false := by
  unfold Request.stationRecord
  split_ifs <;> rfl

theorem Plant.writeStation_links {p : Plant} {i : Fin 24} {r : Request} (good : p.stationValuesBad i r = false) :
    p.LinkStep (p.writeStation i r.stationRecord) := by
  obtain ⟨_, written, others, _, lapses⟩ :=
    p.setStation_lapseAll_spec i r.stationRecord _ (mappedByEither_nodup (p.station i) r.stationRecord)
  unfold Plant.writeStation
  generalize (p.setStation i r.stationRecord).lapseAll _ = q at written others lapses ⊢
  have silent : (q.station i).eligible = false := by rw [written, r.stationRecord_silent]
  simp only [mem_mappedByEither, ← written] at lapses
  refine Plant.Rewired.step ⟨others, fun c maps => ?_, fun c _ e => ?_, fun c old new => ?_, fun c => ?_, fun c => ?_⟩
    fun s => s.write good written others
  · rw [lapses, if_pos maps, (p.channel c).lapsed_spec.1, silent]
  · rw [silent] at e
    cases e
  · rw [lapses, if_neg (by simp [old, new])]
  · obtain ⟨_, use, kind, barrier, _⟩ := (p.channel c).lapsed_spec
    rw [lapses]
    split_ifs
    · exact ⟨use, kind, barrier⟩
    · exact ⟨rfl, rfl, rfl⟩
  · rw [lapses]
    split_ifs
    · exact (p.channel c).lapsed_spec.2.2.2.2
    · exact id

/-! ### One channel written -/

/-- A record that LOAD_CHANNEL accepts leaves room below the cap of its kind (R46, R49). -/
theorem Plant.requestedChannel_room {p : Plant} {c : Fin 48} {r : Request} {new : Channel}
    (asked : p.requestedChannel c r = some new) {k : Fin 4} {kind : ChannelKind} (role : new.at k kind = true) :
    ((p.channelsAt k kind).filter fun j => j != c).length < channelCap kind := by
  unfold Plant.requestedChannel at asked
  split_ifs at asked
  · obtain rfl := Option.some.inj asked
    simp [Channel.at, Channel.cleared] at role
  · split at asked
    · rename_i kind' barrier _ _
      dsimp only at asked
      split_ifs at asked with checks
      · obtain rfl := Option.some.inj asked
        simp only [Channel.at, Request.channelRecord, Bool.and_eq_true, beq_iff_eq] at role
        obtain ⟨⟨-, rfl⟩, rfl⟩ := role
        rw [Bool.and_eq_true] at checks
        simpa [Plant.atCap, Bool.eq_false_iff] using checks.2
    · cases asked

/-- A list of channels without duplicates is at most one longer than without one channel. -/
theorem length_le_filter_ne {l : List (Fin 48)} (nodup : l.Nodup) (c : Fin 48) :
    l.length ≤ (l.filter fun j => j != c).length + 1 ∧ (c ∉ l → l.length = (l.filter fun j => j != c).length) := by
  rw [← nodup.erase_eq_filter]
  refine ⟨?_, fun absent => by rw [List.erase_of_not_mem absent]⟩
  by_cases present : c ∈ l
  · rw [List.length_erase_of_mem present]
    omega
  · rw [List.erase_of_not_mem present]
    omega

theorem Plant.CapsKept.write {p q : Plant} {c : Fin 48} (h : p.CapsKept)
    (others : ∀ d, d ≠ c → q.channel d = p.channel d)
    (room : ∀ k kind, (q.channel c).at k kind = true →
      ((p.channelsAt k kind).filter fun j => j != c).length < channelCap kind) : q.CapsKept := fun k kind => by
  have rest : (q.channelsAt k kind).filter (fun j => j != c) = (p.channelsAt k kind).filter fun j => j != c := by
    simp only [Plant.channelsAt, List.filter_filter]
    refine List.filter_congr fun d _ => ?_
    by_cases hd : d = c
    · subst hd; simp
    · rw [others d hd]
  obtain ⟨most, without⟩ := length_le_filter_ne (q.channelsAt_nodup k kind) c
  rw [rest] at most without
  by_cases role : (q.channel c).at k kind = true
  · have := room k kind role
    omega
  · rw [without (by rw [q.mem_channelsAt]; exact role)]
    exact (List.length_filter_le _ _).trans (h k kind)

theorem Plant.sourceOf_iff (p : Plant) (slots : p.SlotsExclusive) (c : Fin 48) : p.sourceOf c = true ↔
    ∃ i, (p.station i).inUse = true ∧ (p.station i).maps c = true ∧ (p.station i).eligible = true := by
  unfold Plant.sourceOf
  cases found : p.mappingStation c with
  | none =>
    refine iff_of_false (by simp) ?_
    rintro ⟨i, use, maps, -⟩
    exact List.find?_eq_none.1 found i (List.mem_finRange i) (by simp [use, maps])
  | some i =>
    have maps : (p.station i).inUse = true ∧ (p.station i).maps c = true := by simpa using List.find?_some found
    refine ⟨fun e => ⟨i, maps.1, maps.2, by simpa using e⟩, ?_⟩
    rintro ⟨j, -, maps', e⟩
    rw [slots.acrossStations i j c maps.2 maps']
    simpa using e

theorem Plant.writeChannel_links {p : Plant} {c : Fin 48} {r : Request} {new : Channel}
    (asked : p.requestedChannel c r = some new) : p.LinkStep (p.writeChannel c new) := by
  obtain ⟨step, _, channels⟩ := p.writeChannel_spec c new
  have stations := step.only.station
  have slots (s : p.SlotsExclusive) : (p.writeChannel c new).SlotsExclusive :=
    s.of_sameMap (fun i => by rw [stations]; exact ⟨rfl, rfl⟩) fun i => by rw [stations]; exact s.unusedSilent i
  refine ⟨slots, fun s => s.write (c := c) (fun d hd => by rw [channels, if_neg hd]) fun k kind role => ?_,
    fun s => ⟨slots s.slots, fun d => ?_, fun d => ?_⟩⟩
  · rw [channels, if_pos rfl] at role
    exact Plant.requestedChannel_room asked role
  · rw [stations, channels]
    split_ifs with hd
    · subst hd; exact p.sourceOf_iff s.slots d
    · exact s.source d
  · rw [channels]
    split_ifs
    · exact new.clearState_sound _
    · exact s.sound d

/-! ### Every move -/

theorem Plant.afterReset_slots (strap : Byte) : (Plant.afterReset strap).SlotsExclusive := by
  refine ⟨fun i j c maps => ?_, fun i => ?_, fun i _ c => ?_, fun i _ => ?_⟩ <;> rw [Plant.afterReset_station] at *
  · rw [Station.cleared_maps_none] at maps
    cases maps
  · decide
  · exact Station.cleared_maps_none c
  · rfl

theorem Plant.afterReset_caps (strap : Byte) : (Plant.afterReset strap).CapsKept := fun k kind => by
  have none : (Plant.afterReset strap).channelsAt k kind = [] :=
    List.filter_eq_nil_iff.2 fun c _ => by
      rw [Plant.afterReset_channel]
      simp [Channel.at, Channel.cleared]
  rw [none]
  exact Nat.zero_le _

theorem Plant.afterReset_sources (strap : Byte) : (Plant.afterReset strap).SourcesMatch := by
  refine ⟨Plant.afterReset_slots strap, fun c => ?_, fun c => ?_⟩
  · rw [Plant.afterReset_channel]
    refine iff_of_false (by simp [Channel.cleared]) ?_
    rintro ⟨i, use, -⟩
    rw [Plant.afterReset_station] at use
    cases use
  · rw [Plant.afterReset_channel]
    exact Channel.clearState_sound .cleared false

theorem Plant.afterReset_links (p : Plant) (strap : Byte) : p.LinkStep (.afterReset strap) :=
  ⟨fun _ => Plant.afterReset_slots strap, fun _ => Plant.afterReset_caps strap, fun _ => Plant.afterReset_sources strap⟩

theorem Plant.handReadings_links (p : Plant) (st : Station) (rs : List (Nat × Nat)) : p.LinkStep (p.handReadings st rs) := by
  obtain ⟨step, conditioned, _⟩ := p.handReadings_spec st rs
  refine Plant.LinksKept.step ⟨fun i => ?_, fun i => ?_, conditioned⟩ <;> rw [step.only.station]
  exact ⟨rfl, rfl⟩

/-- A station record is rewritten with use, slot map and state kept. -/
theorem Plant.setStation_links (p : Plant) (i : Fin 24) (st : Station) (same : (p.station i).SameMap st)
    (state : st.state = (p.station i).state) : p.LinkStep (p.setStation i st) := by
  refine Plant.LinksKept.step ⟨fun j => ?_, fun j => ?_, fun c => .refl _⟩ <;> by_cases hj : j = i
  · subst hj; rw [Plant.station_setStation]; exact same
  · rw [Plant.station_setStation_of_ne _ hj]; exact ⟨rfl, rfl⟩
  · subst hj; rw [Plant.station_setStation, Station.eligible, state, Station.eligible]
  · rw [Plant.station_setStation_of_ne _ hj]

theorem Plant.readSample_links {p : Plant} {i : Fin 24} (use : (p.station i).inUse = true) (f : Frame) :
    p.LinkStep (p.readSample i f) := by
  by_cases retired : (p.station i).state = .retired
  · rw [Plant.readSample, if_pos retired]
    exact .refl p
  · unfold Plant.readSample
    rw [if_neg retired]
    dsimp only
    split_ifs
    · exact p.setStation_links i { p.station i with malformed := raise (p.station i).malformed 1 } ⟨rfl, rfl⟩ rfl
    · exact p.setStation_links i { p.station i with duplicate := raise (p.station i).duplicate 1 } ⟨rfl, rfl⟩ rfl
    · set st : Station := { p.station i with gap := raise (p.station i).gap (gapAdded (p.station i).lastSeq f.seq) }
      have read := ((p.setStation i st).handReadings_spec (p.station i) (readingsOf f.payload.tail)).1.only.station
      refine ((p.setStation_links i st ⟨rfl, rfl⟩ rfl).trans (Plant.handReadings_links _ _ _)).trans
        (Plant.stationHeard_links _ i f.seq ?_ ?_)
      · rw [read, Plant.station_setStation]; exact use
      · rw [read, Plant.station_setStation]; exact retired

theorem Plant.tick_links (p : Plant) : p.LinkStep p.tick := by
  refine Plant.LinksKept.step ⟨fun i => ?_, fun i => ?_, fun c => ?_⟩
  · rw [p.tick_station]; exact ⟨rfl, rfl⟩
  · rw [p.tick_station]; rfl
  · rw [p.tick_channel]; exact .refl _

theorem Plant.surgeHoldExpired_links (p : Plant) (k : Fin 4) : p.LinkStep (p.surgeHoldExpired k) := by
  have tested : p.LinkStep (p.surgeTested k) := by
    obtain ⟨only, channels⟩ := p.surgeTested_spec k
    refine Plant.LinksKept.step ⟨fun i => ?_, fun i => ?_, fun c => ?_⟩
    · rw [only]; exact ⟨rfl, rfl⟩
    · rw [only]; rfl
    · rw [channels]
      split_ifs
      · exact ⟨rfl, rfl, rfl, rfl, fun s => ⟨s.real, s.exer, s.other⟩⟩
      · exact .refl _
  rw [p.surgeHoldExpired_eq]
  split_ifs
  · exact tested.trans (Plant.setSurgeFlag_step _ k _ _).only.links
  · exact tested.trans (Plant.setSurgeFlag_step _ k _ _).only.links

theorem Plant.countersCleared_links (p : Plant) : p.LinkStep p.countersCleared := by
  have station (i : Fin 24) : p.countersCleared.station i = (p.station i).clearCounters := mapAll_get ..
  have channel : p.countersCleared.channel = p.channel := by
    funext c
    simp only [Plant.countersCleared, Plant.channel]
  refine Plant.LinksKept.step ⟨fun i => ?_, fun i => ?_, fun c => ?_⟩
  · rw [station]; exact ⟨rfl, rfl⟩
  · rw [station]; rfl
  · rw [channel]; exact .refl _

theorem Station.resetEval_spec (st : Station) : st.SameMap st.resetEval ∧
    ((st.inUse = false → st.eligible = false) → st.resetEval.eligible = false) := by
  unfold Station.resetEval
  split_ifs with reset
  · exact ⟨⟨rfl, rfl⟩, fun _ => rfl⟩
  · refine ⟨⟨rfl, rfl⟩, fun unused => ?_⟩
    by_cases use : st.inUse = true
    · have retired : st.state = .retired := by simpa [use] using reset
      simp [Station.eligible, retired]
    · exact unused (by simpa using use)

theorem Plant.evalCleared_links (p : Plant) : p.LinkStep p.evalCleared := by
  have slots (s : p.SlotsExclusive) : p.evalCleared.SlotsExclusive :=
    s.of_sameMap (fun i => by rw [p.evalCleared_station]; exact (Station.resetEval_spec _).1) fun i _ => by
      rw [p.evalCleared_station]
      exact (Station.resetEval_spec _).2 (s.unusedSilent i)
  refine ⟨slots, fun s => s.congr fun c => by rw [p.evalCleared_channel]; exact ⟨rfl, rfl, rfl⟩,
    fun s => ⟨slots s.slots, fun c => ?_, fun c => ?_⟩⟩
  · rw [p.evalCleared_channel]
    refine iff_of_false (by simp [Channel.resetEval]) ?_
    rintro ⟨i, -, -, eligible⟩
    rw [p.evalCleared_station, (Station.resetEval_spec _).2 (s.slots.unusedSilent i)] at eligible
    cases eligible
  · rw [p.evalCleared_channel]
    exact Channel.clearState_sound _ false

theorem Plant.restartExercise_links (p : Plant) (k : Fin 4) : p.LinkStep (p.restartExercise k) := by
  obtain ⟨only, _, channels⟩ := p.restartExercise_spec k
  refine Plant.LinksKept.step ⟨fun i => ?_, fun i => ?_, fun c => ?_⟩
  · rw [only]; exact ⟨rfl, rfl⟩
  · rw [only]; rfl
  · rw [channels]
    split_ifs
    · exact ⟨rfl, rfl, rfl, rfl, fun s => ⟨s.real, fun h => by simp [StagePath.cleared] at h, s.other⟩⟩
    · exact .refl _

theorem Plant.rearm_links (p : Plant) (c : Fin 48) : p.LinkStep (p.rearm c) := by
  obtain ⟨step, _, channels⟩ := p.rearm_spec c
  refine Plant.LinksKept.step ⟨fun i => ?_, fun i => ?_, fun d => ?_⟩
  · rw [step.only.station]; exact ⟨rfl, rfl⟩
  · rw [step.only.station]
  · rw [channels]
    split_ifs with hd
    · subst hd; exact ⟨rfl, rfl, rfl, rfl, fun s => ⟨s.real, s.exer, s.other⟩⟩
    · exact .refl _

theorem Plant.exerciseDone_links (p : Plant) : p.LinkStep p.exerciseDone := by
  unfold Plant.exerciseDone
  split
  · split_ifs
    · exact ((p.completeExercise_step _).trans (Plant.beginEvaluation_step _)).only.links
    · exact .refl p
  · exact .refl p

theorem Plant.Move.links {p q : Plant} {c : Instr} (m : p.Move c q) : p.LinkStep q := by
  cases m with
  | reset strap _ => exact p.afterReset_links strap
  | message step => exact step.toVillageStep.only.links
  | sample i f step use => exact step.toVillageStep.only.links.trans (Plant.readSample_links use f)
  | second => exact p.tick_links
  | silence i => exact p.silenceExpired_links i
  | surgeHold k => exact p.surgeHoldExpired_links k
  | evaluation => exact p.beginEvaluation_step.only.links
  | barrierDone ceiling k f => exact ((p.completeWith_step ceiling k _ _).trans (Plant.beginEvaluation_step _)).only.links
  | exerciseDone => exact p.exerciseDone_links
  | hold v _ =>
    exact (Plant.VillageSideOnly.trans (rfl : p.VillageSideOnly (p.setVillage v _)) (Plant.recompute_step _ v).only).links
  | sessionEnd reason => exact (p.endSessionOf_step reason _).only.links
  | counters => exact p.countersCleared_links
  | evalReset => exact p.evalCleared_links.trans (Plant.endSessionOf_step _ _ _).only.links
  | station i r good => exact Plant.writeStation_links good
  | retire i _ => exact p.retire_links i
  | channel ch r new asked => exact Plant.writeChannel_links asked
  | rearm ch => exact p.rearm_links ch
  | pattern ch r => exact (Plant.LinksKept.of_same (p := p) (q := p.setPattern ch r) rfl rfl).step
  | table k t _ => exact (Plant.LinksKept.of_same (p := p) (q := p.setTable k t) rfl rfl).step
  | barrierSettings k r => exact Plant.BarrierSideOnly.links rfl
  | barrierHold k => exact (p.holdBarrier_orderly k).only.links
  | barrierRun k _ _ =>
    exact (Plant.LinksKept.of_same (p := p) (q := p.checkTable k) rfl rfl).step.trans
      ((p.checkTable k).runBarrier_orderly k).only.links
  | villageCleared v low => exact (Plant.clearVillage_step low).only.links
  | village v r => exact (p.writeVillage_step v r).only.links
  | route v k travel use => exact (Plant.writeRoute_step use k travel).only.links
  | mask v m use => exact (Plant.maskVillage_step use m).only.links
  | release v _ _ => exact Plant.VillageSideOnly.links rfl
  | exerciseBegin k ceiling duration _ =>
    exact ((Plant.LinksKept.of_same (p := p) (q := { p with session := p.session.begun k p.now duration }) rfl rfl).step.trans
      (Plant.restartExercise_links _ k)).trans (Plant.recomputeExerciseFor_spec _ k).1.only.links
  | exerciseSync k _ =>
    exact ((p.restartExercise_links k).trans (Plant.abandon_step _ _).only.links).trans
      (Plant.recomputeExerciseFor_spec _ k).1.only.links

end Sys2Proof.Machine

namespace Sys2Proof.Proofs

open Sys2Proof.Machine

/-- Settles O55, over the moves of the plant: LOAD_STATION checks its map, LOAD_CHANNEL checks the cap, and no other move writes
either. -/
theorem slotsAndCapsStayKept : Obligations.SlotsAndCapsStayKept := by
  intro s t run
  obtain ⟨c, move⟩ := step_move run
  exact ⟨move.links.slots, move.links.caps⟩

/-- Settles O56, over the moves of the plant: a station's eligibility and that of the channels it maps change together. -/
theorem sourcesStayMatched : Obligations.SourcesStayMatched := by
  intro s t sources run
  obtain ⟨c, move⟩ := step_move run
  exact move.links.sources sources

end Sys2Proof.Proofs
end

section
/-! Queues within capacity and good frames through every row: receiving, grants and completions, and the Request Unit. -/

namespace Sys2Proof.Machine

/-! ### What a row does to line and Request Unit -/

/-- The queues of line and Request Unit are within capacity (R16, R168, R172). -/
structure State.QueuesFit (s : State) : Prop where
  ud : s.line.ud.length ≤ 16
  du : s.line.du.length ≤ 16
  requests : s.mgmt.requests.length ≤ 2
  replies : s.mgmt.replies.length ≤ 4

/-- A row keeps the queues within capacity, and every frame good where what it hands on is. -/
structure State.LineStep (s t : State) (given : Prop) : Prop where
  fit : s.QueuesFit → t.QueuesFit
  good : given → s.FramesGood → t.FramesGood

section
variable {given : Prop}

theorem State.LineStep.refl (s : State) : s.LineStep s given := ⟨id, fun _ => id⟩

theorem State.LineStep.trans {s t u : State} (h : s.LineStep t given) (h' : t.LineStep u given) : s.LineStep u given :=
  ⟨fun x => h'.fit (h.fit x), fun g x => h'.good g (h.good g x)⟩

theorem State.LineStep.of_same {s t : State} (line : t.line = s.line) (mgmt : t.mgmt = s.mgmt) : s.LineStep t given := by
  refine ⟨fun h => ?_, fun _ h => ?_⟩
  · refine ⟨?_, ?_, ?_, ?_⟩
    · rw [line]; exact h.ud
    · rw [line]; exact h.du
    · rw [mgmt]; exact h.requests
    · rw [mgmt]; exact h.replies
  · refine ⟨?_, ?_, ?_, ?_, ?_, ?_⟩
    · rw [line]; exact h.ud
    · rw [line]; exact h.du
    · rw [line]; exact h.uTx
    · rw [line]; exact h.dTx
    · rw [line]; exact h.rx
    · rw [mgmt]; exact h.replies

/-- The Request Unit is rewritten with both queues within capacity and every reply short. -/
theorem State.LineStep.of_mgmt {s : State} {m : Mgmt} (requests : s.mgmt.requests.length ≤ 2 → m.requests.length ≤ 2)
    (replies : s.mgmt.replies.length ≤ 4 → m.replies.length ≤ 4)
    (short : ∀ x ∈ m.replies, x ∈ s.mgmt.replies ∨ x.data.length ≤ 45) : s.LineStep { s with mgmt := m } given :=
  ⟨fun h => ⟨h.ud, h.du, requests h.requests, replies h.replies⟩,
    fun _ h => ⟨h.ud, h.du, h.uTx, h.dTx, h.rx, fun x hx => (short x hx).elim (h.replies x) id⟩⟩

/-- A port's record is rewritten with a receive state that keeps its shape. -/
theorem State.setPort_lineStep (s : State) (port : Port) (r : PortRec)
    (sound : (s.line.port port).rx.Sound → r.rx.Sound) : s.LineStep (s.setPort port r) given := by
  refine ⟨fun h => ?_, fun _ h => ?_⟩
  · cases port <;> exact ⟨h.ud, h.du, h.requests, h.replies⟩
  · have rx : ∀ q, ((s.line.setPort port r).port q).rx.Sound := fun q => by
      cases port <;> cases q
      · exact sound (h.rx .u)
      · exact h.rx .d
      · exact h.rx .u
      · exact sound (h.rx .d)
    cases port <;> exact ⟨h.ud, h.du, h.uTx, h.dTx, rx, h.replies⟩

/-- Receive states keep their shape where both ports' do. -/
theorem Line.rx_congr {l l' : Line} (u : l'.u.rx = l.u.rx) (d : l'.d.rx = l.d.rx) (h : ∀ q, (l.port q).rx.Sound) (q : Port) :
    (l'.port q).rx.Sound := by
  cases q with
  | u => exact u ▸ h .u
  | d => exact d ▸ h .d

/-! ### Receiving -/

theorem checkOf_append (l : List Byte) (b : Byte) : checkOf (l ++ [b]) = checkByte (checkOf l) b := by
  simp [checkOf]

theorem afterHeader_sound {got : List Byte} {crc : Half} {rx : RxState} (short : got.length ≤ 6) (check : crc = checkOf got)
    (h : afterHeader got crc = some rx) : rx.Sound := by
  unfold afterHeader at h
  split at h
  · rename_i dst src kind seq flags length
    dsimp only at h
    split_ifs at h with long empty
    · obtain rfl := Option.some.inj h
      refine ⟨by simp, ?_⟩
      rw [check, ← BitVec.toNat_inj.1 (show (0 : Byte).toNat = length.toNat from empty.symm)]
      rfl
    · obtain rfl := Option.some.inj h
      refine ⟨by simp; omega, by simpa [Config.maxPayload] using long, ?_⟩
      rw [check, BitVec.ofNat_toNat, BitVec.setWidth_eq]
      rfl
  · rename_i other
    obtain rfl := Option.some.inj h
    refine ⟨?_, check⟩
    rcases short.lt_or_eq with lt | six
    · exact lt
    · obtain ⟨a, b, c, d, e, f, rfl⟩ : ∃ a b c d e f, got = [a, b, c, d, e, f] := by
        match got, six with
        | [a, b, c, d, e, f], _ => exact ⟨a, b, c, d, e, f, rfl⟩
      exact absurd rfl (other a b c d e f)

/-- A byte keeps the shape of the frame in reception, and a frame that it completes is good (R7, R9). -/
theorem PortRec.byte_sound {r : PortRec} (sound : r.rx.Sound) (b : Byte) :
    (r.byte b).1.rx.Sound ∧ ∀ f, (r.byte b).2 = some f → f.good = true := by
  unfold PortRec.byte
  split
  · split_ifs
    · exact ⟨⟨by simp, rfl⟩, fun f h => by cases h⟩
    · exact ⟨sound, fun f h => by cases h⟩
  · rename_i got crc state
    rw [state] at sound
    obtain ⟨short, check⟩ := sound
    split
    · rename_i rx next
      exact ⟨afterHeader_sound (by simp; omega) (by rw [checkOf_append, check]) next, fun f h => by cases h⟩
    · exact ⟨trivial, fun f h => by cases h⟩
  · rename_i h length got crc state
    rw [state] at sound
    obtain ⟨short, long, check⟩ := sound
    have check' : checkByte crc b =
        checkOf ([h.dst, h.src, h.kind, h.seq, h.flags, BitVec.ofNat 8 length] ++ (got ++ [b])) := by
      rw [← List.append_assoc, checkOf_append, check]
    dsimp only
    split_ifs with more
    · exact ⟨⟨more, long, check'⟩, fun f h => by cases h⟩
    · have full : (got ++ [b]).length = length := by
        simp only [List.length_append, List.length_singleton] at more ⊢
        omega
      refine ⟨⟨by rw [full]; exact long, ?_⟩, fun f h => by cases h⟩
      rw [full]
      exact check'
  · rename_i h payload crc state
    rw [state] at sound
    exact ⟨sound, fun f h => by cases h⟩
  · rename_i h payload crc high state
    rw [state] at sound
    obtain ⟨long, check⟩ := sound
    split_ifs
    · refine ⟨trivial, fun f done => ?_⟩
      obtain rfl := Option.some.inj done
      simp only [Frame.good, Frame.withinLength, Frame.checkMatches, Bool.and_eq_true, decide_eq_true_eq, beq_iff_eq]
      exact ⟨long, check⟩
    · exact ⟨trivial, fun f h => by cases h⟩

theorem PortRec.byteError_sound {r : PortRec} (sound : r.rx.Sound) : r.byteError.rx.Sound := by
  unfold PortRec.byteError
  split
  · exact sound
  all_goals exact trivial

/-- A receiver that takes an item keeps the shape of R7 and hands on good frames alone (R9). -/
theorem PortRec.take_sound {r : PortRec} (sound : r.rx.Sound) (x : RxItem) :
    (r.take x).1.rx.Sound ∧ ∀ f, (r.take x).2 = some f → f.good = true := by
  unfold PortRec.take
  split_ifs
  · exact ⟨sound, fun f h => by cases h⟩
  · cases x with
    | byte b => exact PortRec.byte_sound (r := { r with brk := .marking }) sound b
    | error => exact ⟨PortRec.byteError_sound (r := { r with brk := .spacing }) sound, fun f h => by cases h⟩

theorem PortRec.takeFrame_sound {r : PortRec} (sound : r.rx.Sound) (f : Frame) :
    (r.takeFrame f).1.rx.Sound ∧ ∀ g, (r.takeFrame f).2 = some g → g.good = true := by
  unfold PortRec.takeFrame
  dsimp only
  split_ifs with broken long check
  · exact ⟨sound, fun g h => by cases h⟩
  · exact ⟨trivial, fun g h => by cases h⟩
  · refine ⟨trivial, fun g h => ?_⟩
    obtain rfl := Option.some.inj h
    rw [Frame.good, check, Bool.and_true]
    simpa using long
  · exact ⟨trivial, fun g h => by cases h⟩

/-! ### Forwarding and taking in -/

theorem State.forwardDown_lineStep (s : State) (f : Frame) :
    s.LineStep { s with line := s.line.forwardDown f } (f.good = true) := by
  unfold Line.forwardDown
  split_ifs with room
  · refine ⟨fun h => ⟨by simpa [Config.forwardQueueMax] using room, h.du, h.requests, h.replies⟩, fun good h => ?_⟩
    refine ⟨fun g hg => ?_, h.du, h.uTx, h.dTx, fun q => ?_, h.replies⟩
    · rcases List.mem_append.1 hg with old | new
      · exact h.ud g old
      · rw [List.mem_singleton.1 new]; exact good
    · exact Line.rx_congr rfl rfl h.rx q
  · exact s.setPort_lineStep .u _ id

theorem State.forwardUp_lineStep (s : State) (f : Frame) :
    s.LineStep { s with line := s.line.forwardUp f } (f.good = true) := by
  unfold Line.forwardUp
  split_ifs with room
  · refine ⟨fun h => ⟨h.ud, by simpa [Config.forwardQueueMax] using room, h.requests, h.replies⟩, fun good h => ?_⟩
    refine ⟨h.ud, fun g hg => ?_, h.uTx, h.dTx, fun q => ?_, h.replies⟩
    · rcases List.mem_append.1 hg with old | new
      · exact h.du g old
      · rw [List.mem_singleton.1 new]; exact good
    · exact Line.rx_congr rfl rfl h.rx q
  · exact s.setPort_lineStep .d _ id

theorem State.pushReply_lineStep (s : State) (r : Reply) (short : r.data.length ≤ 45) :
    s.LineStep { s with mgmt := s.mgmt.pushReply r } given := by
  obtain ⟨requests, _, _, room, members⟩ := s.mgmt.withReply_spec r
  rw [Mgmt.pushReply_eq]
  exact .of_mgmt (by rw [requests]; exact id) room fun x hx => (members x hx).imp id fun e => by rw [e]; exact short

theorem State.takeIn_lineStep (s : State) (f : Frame) : s.LineStep { s with mgmt := s.mgmt.takeIn f } given := by
  unfold Mgmt.takeIn
  split
  · exact .refl s
  · rename_i r _
    split_ifs with _ _ full
    · exact .refl s
    · exact s.pushReply_lineStep _ (Nat.zero_le _)
    · exact s.pushReply_lineStep _ (Nat.zero_le _)
    · refine .of_mgmt (fun _ => ?_) id fun x hx => .inl hx
      simp only [Config.requestQueueMax, not_le] at full
      simpa using full

theorem State.portUp_lineStep (s : State) (port : Port) : s.LineStep (s.portUp port) given := by
  have up := s.setPort_lineStep (given := given) port { s.line.port port with state := .up } id
  unfold State.portUp
  dsimp only
  split
  · exact up.trans (.of_same rfl rfl)
  · exact up
  · exact up

theorem State.classifyU_lineStep (s : State) (f : Frame) : s.LineStep (s.classifyU f) (f.good = true) := by
  unfold State.classifyU
  generalize hs₁ : (if f.dst = s.ownAddr then s else { s with line := s.line.forwardDown f }) = s₁
  have step : s.LineStep s₁ (f.good = true) := by
    rw [← hs₁]
    split_ifs
    · exact .refl s
    · exact s.forwardDown_lineStep f
  dsimp only
  split_ifs
  · split
    · exact step.trans (.of_same rfl rfl)
    · exact step
  · exact step

theorem State.classifyD_lineStep (s : State) (f : Frame) : s.LineStep (s.classifyD f) (f.good = true) := by
  unfold State.classifyD
  generalize hs₁ : (if f.dst = s.ownAddr then s else { s with line := s.line.forwardUp f }) = s₁
  have step : s.LineStep s₁ (f.good = true) := by
    rw [← hs₁]
    split_ifs
    · exact .refl s
    · exact s.forwardUp_lineStep f
  dsimp only
  split_ifs
  · exact step.trans (s₁.takeIn_lineStep f)
  · exact step.trans (.of_same rfl rfl)
  · exact step
  · exact step

/-- What a receiver made of its line is taken up (R9). -/
theorem State.received_lineStep (s : State) (port : Port) (taken : PortRec × Option Frame)
    (sound : (s.line.port port).rx.Sound → taken.1.rx.Sound ∧ ∀ f, taken.2 = some f → f.good = true) :
    s.LineStep (s.received port taken) given := by
  unfold State.received
  dsimp only
  split
  · rename_i f done
    have handed : s.LineStep ((s.setPort port taken.1).goodFrame port f) (f.good = true) := by
      have set := s.setPort_lineStep (given := f.good = true) port taken.1 fun h => (sound h).1
      cases port with
      | u => exact (set.trans (State.portUp_lineStep _ .u)).trans (State.classifyU_lineStep _ f)
      | d => exact (set.trans (State.portUp_lineStep _ .d)).trans (State.classifyD_lineStep _ f)
    exact ⟨handed.fit, fun _ h => handed.good ((sound (h.rx port)).2 f done) h⟩
  · exact s.setPort_lineStep port taken.1 fun h => (sound h).1

theorem State.portDown_lineStep (s : State) (port : Port) : s.LineStep (s.portDown port) given := by
  unfold State.portDown
  dsimp only
  split
  · exact .refl s
  all_goals exact (s.setPort_lineStep port { s.line.port port with state := .down s.plant.now } id).trans (.of_same rfl rfl)

theorem State.breakOn_lineStep (s : State) (port : Port) : s.LineStep (s.breakOn port) given := by
  unfold State.breakOn
  dsimp only
  split_ifs
  · exact .refl s
  · exact (s.setPort_lineStep port _ fun h => PortRec.byteError_sound
      (r := { s.line.port port with breaks := raise (s.line.port port).breaks 1, brk := .broken }) h).trans
      (State.portDown_lineStep _ port)

/-! ### Transmitters -/

theorem State.startU_lineStep (s : State) : s.LineStep { s with line := s.line.startU } given := by
  unfold Line.startU
  split
  · rename_i f rest idle queue
    split_ifs
    · exact .refl s
    · refine ⟨fun h => ⟨h.ud, ?_, h.requests, h.replies⟩, fun _ h => ⟨h.ud, fun g hg => ?_, fun g hg => ?_, h.dTx,
        fun q => ?_, h.replies⟩⟩
      · have := h.du
        rw [queue, List.length_cons] at this
        show rest.length ≤ 16
        omega
      · exact h.du g (by rw [queue]; exact List.mem_cons_of_mem f hg)
      · obtain rfl := Option.some.inj hg
        exact h.du f (by rw [queue]; exact List.mem_cons_self)
      · exact Line.rx_congr rfl rfl h.rx q
  · exact .refl s

theorem State.completeU_lineStep (s : State) : s.LineStep { s with line := s.line.completeU } given := by
  unfold Line.completeU
  split_ifs
  · have idle : s.LineStep { s with line := { s.line with uTx := none } } given :=
      ⟨fun h => ⟨h.ud, h.du, h.requests, h.replies⟩, fun _ h => ⟨h.ud, h.du, fun g hg => (by cases hg), h.dTx,
        Line.rx_congr rfl rfl h.rx, h.replies⟩⟩
    exact idle.trans (State.startU_lineStep _)
  · exact .refl s

/-- A frame that the part builds is good if its payload fits (R17, R22, R185). -/
theorem buildFrame_good (dst src kind seq flags : Byte) {payload : List Byte} (short : payload.length ≤ 48) :
    (buildFrame dst src kind seq flags payload).good = true := by
  simp only [Frame.good, Frame.withinLength, Frame.checkMatches, Bool.and_eq_true, decide_eq_true_eq, beq_iff_eq]
  exact ⟨short, rfl⟩

theorem State.sendOwn_lineStep (s : State) (dst kind flags : Byte) {payload : List Byte} (origin : DOrigin)
    (short : payload.length ≤ 48) : s.LineStep (s.sendOwn dst kind flags payload origin) given :=
  ⟨fun h => ⟨h.ud, h.du, h.requests, h.replies⟩, fun _ h => ⟨h.ud, h.du, h.uTx,
    fun tx htx => by
      obtain rfl := Option.some.inj htx
      exact buildFrame_good _ _ _ _ _ short,
    Line.rx_congr rfl rfl h.rx, h.replies⟩⟩

/-- What a grant is taken from: the candidate, or the head of its queue (R20). -/
def State.Holds (s : State) : Grant → Prop
  | .candidate v c => s.plant.candidate = some (c, v)
  | .forward f => s.line.ud.head? = some f
  | .reply r => s.mgmt.replies.head? = some r
  | .notice n => s.plant.notices.head? = some n

theorem State.nextGrant_holds {s : State} {g : Grant} (h : s.nextGrant = some g) : s.Holds g := by
  have cand (g : Grant) (h : s.plant.candidate.map (fun e => Grant.candidate e.2 e.1) = some g) : s.Holds g := by
    obtain ⟨⟨c, v⟩, hc, rfl⟩ := Option.map_eq_some_iff.1 h
    exact hc
  have forward (g : Grant) (h : s.line.ud.head?.map Grant.forward = some g) : s.Holds g := by
    obtain ⟨f, hf, rfl⟩ := Option.map_eq_some_iff.1 h
    exact hf
  have reply (g : Grant) (h : s.mgmt.replies.head?.map Grant.reply = some g) : s.Holds g := by
    obtain ⟨f, hf, rfl⟩ := Option.map_eq_some_iff.1 h
    exact hf
  have notice (g : Grant) (h : s.plant.notices.head?.map Grant.notice = some g) : s.Holds g := by
    obtain ⟨f, hf, rfl⟩ := Option.map_eq_some_iff.1 h
    exact hf
  have guarded (c : Prop) [Decidable c] (o : Option Grant) (h : (if c then o else none) = some g) : o = some g := by
    split_ifs at h
    exact h
  unfold State.nextGrant at h
  simp only [Option.orElse_eq_some] at h
  rcases h with h | ⟨_, h | ⟨_, h | ⟨_, h | ⟨_, h | ⟨_, h⟩⟩⟩⟩⟩
  · exact cand g (guarded _ _ h)
  · exact forward g (guarded _ _ h)
  · exact cand g h
  · exact reply g h
  · exact notice g h
  · exact forward g h

theorem alertPayload_length (p : Plant) (v : Fin 8) (c : Content) : (alertPayload p v c).length = 5 := by
  simp [alertPayload]

theorem Notice.payload_length (n : Notice) : n.payload.length = 5 := by simp [Notice.payload]

theorem Reply.payload_length (r : Reply) : r.payload.length ≤ 3 + r.data.length := by
  unfold Reply.payload
  split_ifs
  · simp only [List.length_append, List.length_cons, List.length_nil]
    omega
  · simp

theorem State.give_lineStep {s : State} {g : Grant} (h : s.Holds g) : s.LineStep (s.give g) given := by
  cases g with
  | candidate v c => exact (s.sendOwn_lineStep _ _ _ _ (by rw [alertPayload_length]; omega)).trans (.of_same rfl rfl)
  | notice n => exact (s.sendOwn_lineStep _ _ _ _ (by rw [Notice.payload_length]; omega)).trans (.of_same rfl rfl)
  | forward f =>
    have head : f ∈ s.line.ud := List.mem_of_mem_head? h
    refine ⟨fun h => ⟨(List.tail_sublist _).length_le.trans h.ud, h.du, h.requests, h.replies⟩, fun _ h =>
      ⟨fun g hg => h.ud g (List.mem_of_mem_tail hg), h.du, h.uTx, fun tx htx => ?_,
        Line.rx_congr rfl rfl h.rx, h.replies⟩⟩
    obtain rfl := Option.some.inj htx
    exact h.ud f head
  | reply r =>
    have head : r ∈ s.mgmt.replies := List.mem_of_mem_head? h
    refine ⟨fun h => ⟨h.ud, h.du, h.requests, (List.tail_sublist _).length_le.trans h.replies⟩, fun _ h =>
      ⟨h.ud, h.du, h.uTx, fun tx htx => ?_, Line.rx_congr rfl rfl h.rx,
        fun x hx => h.replies x (List.mem_of_mem_tail hx)⟩⟩
    obtain rfl := Option.some.inj htx
    have short := h.replies r head
    exact buildFrame_good _ _ _ _ _ (r.payload_length.trans (by omega))

theorem State.grant_lineStep (s : State) : s.LineStep s.grant given := by
  unfold State.grant
  split_ifs
  · split
    · rename_i g next
      exact State.give_lineStep (State.nextGrant_holds next)
    · exact .refl s
  · exact .refl s

theorem State.completeD_lineStep (s : State) : s.LineStep s.completeD given := by
  have idle : s.LineStep { s with line := { s.line with dTx := none } } given :=
    ⟨fun h => ⟨h.ud, h.du, h.requests, h.replies⟩, fun _ h => ⟨h.ud, h.du, h.uTx, fun tx htx => (by cases htx),
      Line.rx_congr rfl rfl h.rx, h.replies⟩⟩
  unfold State.completeD
  split
  · exact .refl s
  · dsimp only
    split
    · exact idle.trans (.of_same rfl rfl)
    all_goals exact idle

theorem State.resetLineSide_lineStep (s : State) : s.LineStep s.resetLineSide given := by
  have cut : s.LineStep s.cutD given := by
    unfold State.cutD
    split
    · exact .of_same rfl rfl
    · exact .refl s
  refine cut.trans ⟨fun h => ⟨Nat.zero_le _, Nat.zero_le _, h.requests, h.replies⟩, fun _ h => ?_⟩
  refine ⟨fun f hf => absurd hf List.not_mem_nil, fun f hf => absurd hf List.not_mem_nil, fun f hf => (by cases hf),
    fun f hf => (by cases hf), fun q => ?_, h.replies⟩
  cases q <;> exact trivial

/-! ### The Request Unit -/

/-- What a rule answers fits a frame: the longest reply data are 45 bytes (R187). -/
def ReqResult.Short (x : ReqResult) : Prop := ∀ data, x = .done data → data.length ≤ 45

@[simp] theorem ReqResult.short_refused (o : ReqOutcome) : (ReqResult.refused o).Short := fun _ h => by cases h
@[simp] theorem ReqResult.short_wait (w : Wait) : (ReqResult.wait w).Short := fun _ h => by cases h
theorem ReqResult.short_done {data : List Byte} : (ReqResult.done data).Short ↔ data.length ≤ 45 :=
  ⟨fun h => h data rfl, fun h _ e => by cases e; exact h⟩

theorem State.complete_lineStep (s : State) (r : Request) (o : ReqOutcome) {data : List Byte} (short : data.length ≤ 45) :
    s.LineStep { s with mgmt := s.mgmt.complete r o data } given := by
  obtain ⟨requests, _, _, room, members⟩ := s.mgmt.answered_spec r o data
  rw [Mgmt.complete_eq]
  refine .of_mgmt (fun h => ?_) room fun x hx => (members x hx).imp id fun e => by rw [e]; exact short
  rw [requests]
  exact (List.tail_sublist _).length_le.trans h

theorem State.settle_lineStep (s : State) (r : Request) {x : ReqResult} (short : x.Short) :
    s.LineStep (s.settle r x) given := by
  cases x with
  | done data => exact s.complete_lineStep r .done (short data rfl)
  | refused o => exact s.complete_lineStep r o (Nat.zero_le _)
  | wait w => exact .of_mgmt id id fun x hx => .inl hx

/-- A request row keeps queues and frames if its rule does and answers short data. -/
theorem State.request_lineStep (s : State) (mine : Request → Bool) {rule : Request → State → State × ReqResult}
    (h : ∀ r, s.LineStep (rule r s).1 given ∧ (rule r s).2.Short) : s.LineStep (s.request mine rule) given :=
  State.request_elim (P := fun t => s.LineStep t given) (.refl s) (fun r o _ => s.settle_lineStep r (by simp))
    fun r _ => (h r).1.trans (State.settle_lineStep _ r (h r).2)

theorem State.onPlant_lineStep (s : State) (mine : Request → Bool) {rule : Request → State → Plant × ReqResult}
    (short : ∀ r, (rule r s).2.Short) : s.LineStep (s.request mine (Machine.onPlant rule)) given :=
  s.request_lineStep mine fun r => ⟨.of_same rfl rfl, short r⟩

theorem State.reading_lineStep (s : State) (mine : Request → Bool) {rule : Request → State → ReqResult}
    (short : ∀ r, (rule r s).Short) : s.LineStep (s.request mine (Machine.reading rule)) given :=
  s.request_lineStep mine fun r => ⟨.refl s, short r⟩

theorem refuse_short (s : State) (o : ReqOutcome) : (refuse s o).2.Short := ReqResult.short_refused o
theorem finished_short (p : Plant) : (finished p).2.Short := ReqResult.short_done.2 (Nat.zero_le _)

section rules
variable (r : Request) (s : State)

theorem loadStationRule_short : (loadStationRule r s).2.Short := by
  unfold loadStationRule
  split
  · exact refuse_short s _
  · split_ifs <;> simp only [refuse_short, finished_short]

theorem retireStationRule_short : (retireStationRule r s).2.Short := by
  unfold retireStationRule
  split
  · exact refuse_short s _
  · split_ifs <;> simp only [refuse_short, finished_short]

theorem loadChannelRule_short : (loadChannelRule r s).2.Short := by
  unfold loadChannelRule
  split
  · exact refuse_short s _
  · split
    · exact refuse_short s _
    · split_ifs <;> simp only [refuse_short, finished_short]

theorem rearmWireRule_short : (rearmWireRule r s).2.Short := by
  unfold rearmWireRule
  split
  · exact refuse_short s _
  · split_ifs <;> simp only [refuse_short, finished_short]

theorem loadPatternRule_short : (loadPatternRule r s).2.Short := by
  unfold loadPatternRule
  split
  · exact refuse_short s _
  · split
    · exact refuse_short s _
    · split_ifs <;> simp only [refuse_short, finished_short]

theorem loadStagePointsRule_short : (loadStagePointsRule r s).2.Short := by
  unfold loadStagePointsRule
  split
  · exact refuse_short s _
  · split_ifs <;> simp only [refuse_short, finished_short]

theorem loadBarrierRule_short : (loadBarrierRule r s).2.Short := by
  unfold loadBarrierRule
  split
  · exact refuse_short s _
  · split_ifs <;> simp only [refuse_short, finished_short]

theorem barrierHoldRule_short : (barrierHoldRule r s).2.Short := by
  unfold barrierHoldRule
  split
  · exact refuse_short s _
  · exact finished_short _

theorem barrierRunRule_short : (barrierRunRule r s).2.Short := by
  unfold barrierRunRule
  split
  · exact refuse_short s _
  · split
    · exact refuse_short s _
    · exact refuse_short s _
    · dsimp only
      split_ifs <;> simp [ReqResult.short_done]

theorem loadVillageRule_short : (loadVillageRule r s).2.Short := by
  unfold loadVillageRule
  split
  · exact refuse_short s _
  · dsimp only
    split_ifs <;> simp only [refuse_short, finished_short]

theorem loadRouteRule_short : (loadRouteRule r s).2.Short := by
  unfold loadRouteRule
  split
  · split_ifs
    · split
      · exact finished_short _
      · exact refuse_short s _
    · exact refuse_short s _
  · exact refuse_short s _

theorem maskVillageRule_short : (maskVillageRule r s).2.Short := by
  unfold maskVillageRule
  split
  · exact refuse_short s _
  · split_ifs
    · split
      · exact finished_short _
      · exact refuse_short s _
    · exact refuse_short s _

theorem releaseBreachRule_short : (releaseBreachRule r s).2.Short := by
  unfold releaseBreachRule
  split
  · exact refuse_short s _
  · dsimp only
    split_ifs <;> simp only [refuse_short, finished_short]

theorem exerciseBeginRule_short : (exerciseBeginRule r s).2.Short := by
  unfold exerciseBeginRule
  split
  · exact refuse_short s _
  · split_ifs <;> simp only [refuse_short, finished_short]

theorem exerciseSyncRule_short : (exerciseSyncRule r s).2.Short := by
  unfold exerciseSyncRule
  split
  · exact refuse_short s _
  · exact finished_short _

theorem resetEvalRule_short : (resetEvalRule r s).2.Short := by
  unfold resetEvalRule
  split_ifs <;> simp only [refuse_short, finished_short]

theorem readBarrierWith_short (wait : Fin 4 → Wait) : (readBarrierWith wait r s).Short := by
  unfold readBarrierWith
  split
  · exact ReqResult.short_refused _
  · split_ifs
    · exact ReqResult.short_wait _
    · exact ReqResult.short_done.2 (Wait.data_length ..)

theorem readStationRule_short : (readStationRule r s).Short := by
  unfold readStationRule
  split
  · exact ReqResult.short_refused _
  · exact ReqResult.short_done.2 (by simp)

theorem readChannelRule_short : (readChannelRule r s).Short := by
  unfold readChannelRule
  split
  · exact ReqResult.short_refused _
  · refine ReqResult.short_done.2 ?_
    rw [channelData_length]
    split <;> omega

theorem readPatternRule_short : (readPatternRule r s).Short := by
  unfold readPatternRule
  split
  · exact ReqResult.short_refused _
  · exact ReqResult.short_done.2 (by simp)

theorem readStagePointsRule_short : (readStagePointsRule r s).Short := by
  unfold readStagePointsRule
  split
  · exact ReqResult.short_refused _
  · split_ifs with half
    · exact ReqResult.short_refused _
    · exact ReqResult.short_done.2 (by rw [tableData_length _ (by omega)]; omega)

theorem readVillageRule_short : (readVillageRule r s).Short := by
  unfold readVillageRule
  split
  · exact ReqResult.short_refused _
  · exact ReqResult.short_done.2 (by simp)

theorem statusVillageRule_short : (statusVillageRule r s).Short := by
  unfold statusVillageRule
  split
  · exact ReqResult.short_refused _
  · exact ReqResult.short_done.2 (by simp)

theorem setPartRule_lineStep : s.LineStep (setPartRule r s).1 given ∧ (setPartRule r s).2.Short := by
  unfold setPartRule
  split
  · exact ⟨.of_mgmt id id fun x hx => .inl hx, ReqResult.short_done.2 (Nat.zero_le _)⟩
  · exact ⟨.refl s, ReqResult.short_refused _⟩

end rules

/-! ### Every row -/

theorem State.wake_lineStep (s : State) (k : Fin 4) : s.LineStep (s.wake k) given := by
  unfold State.wake
  split
  · split_ifs
    · exact s.complete_lineStep _ _ (Wait.data_length ..)
    · exact .refl s
  · exact .refl s

theorem State.barrierDone_lineStep (s : State) : s.LineStep s.barrierDone given := by
  unfold State.barrierDone
  split
  · split
    · rename_i f _ _ k _
      set done := s.onPlant fun p => p.completeBarrier s.mgmt.settings.ceiling k f
      have completed : s.LineStep done given := .of_same rfl rfl
      exact (completed.trans (done.wake_lineStep k)).trans
        (.of_same (s := done.wake k) (t := (done.wake k).onPlant Plant.beginEvaluation) rfl rfl)
    · exact .refl s
  · exact .refl s

theorem State.clearCounters_lineStep (s : State) : s.LineStep s.clearCounters given := by
  have lines : s.LineStep { s with line := { s.line with u := s.line.u.clearCounters, d := s.line.d.clearCounters } } given :=
    ⟨fun h => ⟨h.ud, h.du, h.requests, h.replies⟩,
      fun _ h => ⟨h.ud, h.du, h.uTx, h.dTx, Line.rx_congr (l := s.line) rfl rfl h.rx, h.replies⟩⟩
  exact (lines.trans (.of_mgmt (m := { s.mgmt with discarded := 0 }) id id fun x hx => .inl hx)).trans (.of_same rfl rfl)

theorem State.fullReset_fit (s : State) (straps : Straps) (u d : Bool) : (s.fullReset straps u d).QueuesFit :=
  ⟨Nat.zero_le _, Nat.zero_le _, Nat.zero_le _, Nat.zero_le _⟩

theorem State.fullReset_good (s : State) (straps : Straps) (u d : Bool) : (s.fullReset straps u d).FramesGood := by
  refine ⟨fun f hf => absurd hf List.not_mem_nil, fun f hf => absurd hf List.not_mem_nil, fun f hf => (by cases hf),
    fun f hf => (by cases hf), fun q => ?_, fun f hf => absurd hf List.not_mem_nil⟩
  cases q <;> exact trivial

theorem State.fullReset_lineStep (s : State) (straps : Straps) (u d : Bool) : s.LineStep (s.fullReset straps u d) given :=
  ⟨fun _ => s.fullReset_fit straps u d, fun _ _ => s.fullReset_good straps u d⟩

theorem State.running_lineStep {s : State} {effect : State → State} (h : s.LineStep (effect s) given) :
    s.LineStep (s.running effect) given :=
  State.running_elim (P := fun t => s.LineStep t given) (.refl s) h

theorem State.expire_lineStep (s : State) (timer : Plant → Timer) (effect : Plant → Plant) :
    s.LineStep (s.expire timer effect) given :=
  State.expire_elim (P := fun t => s.LineStep t given) (.refl s) fun _ => .of_same rfl rfl

/-- Every row keeps queues within capacity and frames good. -/
theorem exec_lineStep (c : Instr) (s : State) : ∃ t, exec c s = .next t ∧ s.LineStep t given := by
  cases c
  case resetAll straps =>
    exact execResetAll_elim (P := fun t => s.LineStep t given) (.refl s) (fun r o _ => s.settle_lineStep r (by simp))
      fun r => (s.fullReset_lineStep _ _ _).trans (State.pushReply_lineStep _ _ (Nat.zero_le _))
  all_goals refine ⟨_, rfl, ?_⟩
  case powerOn | nresetRelease => exact s.fullReset_lineStep _ _ _
  case nresetAssert =>
    refine ⟨fun h => ⟨h.ud, h.du, h.requests, h.replies⟩, fun _ h => ⟨h.ud, h.du, fun f hf => (by cases hf),
      fun f hf => (by cases hf), fun q => ?_, h.replies⟩⟩
    cases q <;> exact trivial
  case receiveByte port item => exact State.running_lineStep (s.received_lineStep port _ fun h => PortRec.take_sound h item)
  case goodFrameU f => exact State.running_lineStep (s.received_lineStep .u _ fun h => PortRec.takeFrame_sound h f)
  case goodFrameD f => exact State.running_lineStep (s.received_lineStep .d _ fun h => PortRec.takeFrame_sound h f)
  case gapTimeout port => exact State.running_lineStep (s.setPort_lineStep port _ PortRec.byteError_sound)
  case breakEnd port =>
    refine State.running_lineStep (s.setPort_lineStep port _ fun h => ?_)
    dsimp only
    split_ifs
    · exact trivial
    · exact h
  case breakDetected port => exact State.running_lineStep (s.breakOn_lineStep port)
  case uTransmitStart => exact State.running_lineStep s.startU_lineStep
  case uTransmitCompletion => exact State.running_lineStep s.completeU_lineStep
  case grant => exact State.running_lineStep s.grant_lineStep
  case dTransmitCompletion => exact State.running_lineStep s.completeD_lineStep
  case barrierEvaluationCompletion => exact State.running_lineStep s.barrierDone_lineStep
  case evaluationBegin | exerciseEvaluationCompletion | wholeSecondBoundary => exact State.running_lineStep (.of_same rfl rfl)
  case silenceTimerExpiry | surgeHoldExpiry | holdTimerExpiry | ackTimerExpiry | reachTimerExpiry | repeatTimerExpiry |
      durationTimerExpiry => exact s.expire_lineStep _ _
  case unknownRequest => exact s.request_lineStep _ fun _ => ⟨.refl s, ReqResult.short_refused _⟩
  case setPart => exact s.request_lineStep _ fun r => setPartRule_lineStep r s
  case clearCounters => exact s.request_lineStep _ fun _ => ⟨s.clearCounters_lineStep, ReqResult.short_done.2 (Nat.zero_le _)⟩
  case resetLines => exact s.request_lineStep _ fun _ => ⟨s.resetLineSide_lineStep, ReqResult.short_done.2 (Nat.zero_le _)⟩
  case inspectOn | inspectOff =>
    exact s.request_lineStep _ fun _ => ⟨.of_mgmt id id fun x hx => .inl hx, ReqResult.short_done.2 (Nat.zero_le _)⟩
  case statusPart => exact s.reading_lineStep _ fun _ => ReqResult.short_done.2 (by simp)
  case statusLines => exact s.reading_lineStep _ fun _ => ReqResult.short_done.2 (by simp)
  case readStation => exact s.reading_lineStep _ fun r => readStationRule_short r s
  case readChannel => exact s.reading_lineStep _ fun r => readChannelRule_short r s
  case readPattern => exact s.reading_lineStep _ fun r => readPatternRule_short r s
  case readStagePoints => exact s.reading_lineStep _ fun r => readStagePointsRule_short r s
  case readBarrier | statusBarrier => exact s.reading_lineStep _ fun r => readBarrierWith_short r s _
  case readVillage => exact s.reading_lineStep _ fun r => readVillageRule_short r s
  case statusVillage => exact s.reading_lineStep _ fun r => statusVillageRule_short r s
  case resetEval => exact s.onPlant_lineStep _ fun r => resetEvalRule_short r s
  case loadStation => exact s.onPlant_lineStep _ fun r => loadStationRule_short r s
  case retireStation => exact s.onPlant_lineStep _ fun r => retireStationRule_short r s
  case loadChannel => exact s.onPlant_lineStep _ fun r => loadChannelRule_short r s
  case rearmWire => exact s.onPlant_lineStep _ fun r => rearmWireRule_short r s
  case loadPattern => exact s.onPlant_lineStep _ fun r => loadPatternRule_short r s
  case loadStagePoints => exact s.onPlant_lineStep _ fun r => loadStagePointsRule_short r s
  case loadBarrier => exact s.onPlant_lineStep _ fun r => loadBarrierRule_short r s
  case barrierHold => exact s.onPlant_lineStep _ fun r => barrierHoldRule_short r s
  case barrierRun => exact s.onPlant_lineStep _ fun r => barrierRunRule_short r s
  case loadVillage => exact s.onPlant_lineStep _ fun r => loadVillageRule_short r s
  case loadRoute => exact s.onPlant_lineStep _ fun r => loadRouteRule_short r s
  case maskVillage => exact s.onPlant_lineStep _ fun r => maskVillageRule_short r s
  case releaseBreach => exact s.onPlant_lineStep _ fun r => releaseBreachRule_short r s
  case exerciseBegin => exact s.onPlant_lineStep _ fun r => exerciseBeginRule_short r s
  case exerciseSync => exact s.onPlant_lineStep _ fun r => exerciseSyncRule_short r s
  case exerciseEnd => exact s.onPlant_lineStep _ fun r => finished_short _

end

/-- A step keeps queues within capacity and frames good. -/
theorem step_lineStep {s t : State} (h : step s = .next t) : s.LineStep t True := by
  unfold step at h
  split at h
  · cases h
    exact .refl s
  · rename_i c rest _
    obtain ⟨t', ht, lines⟩ := exec_lineStep (given := True) c { s with pending := rest }
    rw [ht] at h
    cases h
    exact (State.LineStep.of_same (s := s) (t := { s with pending := rest }) rfl rfl).trans lines

/-! ### The plant's queues -/

theorem Plant.afterReset_notices (strap : Byte) : (Plant.afterReset strap).NoticesGood := by
  refine ⟨List.nodup_singleton _, fun n hn => ?_⟩
  obtain rfl := List.mem_singleton.1 hn
  exact ⟨le_rfl, Nat.le_of_ble_eq_true rfl⟩

/-- The evaluation queue has one entry per owner and the notice set is good (R91, R179). -/
theorem Plant.StateMove.queues {p q : Plant} {c : Instr} (m : p.StateMove c q) :
    ((p.evalQueue.map EvalEntry.owner).Nodup → (q.evalQueue.map EvalEntry.owner).Nodup) ∧
    (p.NoticesGood → q.NoticesGood) := by
  cases m with
  | reset strap _ =>
    exact ⟨fun _ => List.nodup_nil, fun _ => Plant.afterReset_notices strap⟩
  | second =>
    obtain ⟨_, queue, _, notices, _⟩ := p.tick_keeps
    exact ⟨fun h => by rw [queue]; exact h, fun h => by rw [Plant.NoticesGood, notices]; exact h⟩
  | hold v _ =>
    have step := (p.setVillage v { p.village v with holdTimer := none }).recompute_step v
    exact ⟨fun h => by rw [Plant.holdExpired, step.only.evalQueue]; exact h, fun h => step.notices h⟩
  | release v _ _ => exact ⟨id, id⟩
  | table k t _ => exact ⟨id, id⟩
  | barrierHold k => exact ⟨(p.holdBarrier_orderly k).owners, (p.holdBarrier_orderly k).notices⟩
  | barrierRun k _ _ =>
    exact ⟨((p.checkTable k).runBarrier_orderly k).owners, ((p.checkTable k).runBarrier_orderly k).notices⟩

theorem Plant.Move.queues {p q : Plant} {c : Instr} (m : p.Move c q) :
    ((p.evalQueue.map EvalEntry.owner).Nodup → (q.evalQueue.map EvalEntry.owner).Nodup) ∧
    (p.NoticesGood → q.NoticesGood) :=
  m.sorted.elim (fun intake => ⟨intake.owners, intake.notices⟩) Plant.StateMove.queues

theorem State.bounded_iff (s : State) : s.Bounded ↔
    s.QueuesFit ∧ (s.plant.evalQueue.map EvalEntry.owner).Nodup ∧ s.plant.NoticesGood :=
  ⟨fun h => ⟨⟨h.ud, h.du, h.requests, h.replies⟩, h.evaluations, h.notices, h.counts⟩,
    fun ⟨fit, owners, kinds, counts⟩ => ⟨fit.ud, fit.du, fit.requests, fit.replies, owners, kinds, counts⟩⟩

end Sys2Proof.Machine

namespace Sys2Proof.Proofs

open Sys2Proof.Machine

/-- Settles O58: line and Request Unit over the rows, the evaluation queue and the notice set over the moves of the plant. -/
theorem queuesStayBoundedAndFramesGood : Obligations.QueuesStayBoundedAndFramesGood := by
  intro s t run
  obtain ⟨c, move⟩ := step_move run
  have lines := step_lineStep run
  refine ⟨fun h => ?_, lines.good trivial⟩
  obtain ⟨fit, owners, notices⟩ := s.bounded_iff.1 h
  exact t.bounded_iff.2 ⟨lines.fit fit, move.queues.1 owners, move.queues.2 notices⟩

end Sys2Proof.Proofs
end

section
/-! The machine as a whole: a step, completion and the waiting queue, absent occasions, power and the reset pin, the second. -/

namespace Sys2Proof.Machine

/-! ### The queue of waiting commands -/

section
variable (s : State)

@[simp] theorem State.portUp_pending (port : Port) : (s.portUp port).pending = s.pending := by
  unfold State.portUp
  dsimp only
  split <;> rfl

@[simp] theorem State.portDown_pending (port : Port) : (s.portDown port).pending = s.pending := by
  unfold State.portDown
  dsimp only
  split <;> rfl

@[simp] theorem State.breakOn_pending (port : Port) : (s.breakOn port).pending = s.pending := by
  unfold State.breakOn
  dsimp only
  split_ifs
  · rfl
  · simp

@[simp] theorem State.classifyU_pending (f : Frame) : (s.classifyU f).pending = s.pending := by
  unfold State.classifyU
  dsimp only
  split_ifs
  · split <;> rfl
  · split <;> rfl
  · rfl
  · rfl

@[simp] theorem State.classifyD_pending (f : Frame) : (s.classifyD f).pending = s.pending := by
  unfold State.classifyD
  dsimp only
  split_ifs <;> rfl

@[simp] theorem State.received_pending (port : Port) (taken : PortRec × Option Frame) :
    (s.received port taken).pending = s.pending := by
  unfold State.received
  dsimp only
  split
  · cases port <;> simp [State.goodFrame]
  · rfl

@[simp] theorem State.grant_pending : s.grant.pending = s.pending := by
  unfold State.grant
  split_ifs
  · split
    · rename_i g _
      cases g <;> rfl
    · rfl
  · rfl

@[simp] theorem State.completeD_pending : s.completeD.pending = s.pending := by
  unfold State.completeD
  split
  · rfl
  · dsimp only
    split <;> rfl

@[simp] theorem State.wake_pending (k : Fin 4) : (s.wake k).pending = s.pending := by
  unfold State.wake
  split
  · split_ifs <;> rfl
  · rfl

@[simp] theorem State.barrierDone_pending : s.barrierDone.pending = s.pending := by
  unfold State.barrierDone
  split
  · split
    · simp
    · rfl
  · rfl

@[simp] theorem State.resetLineSide_pending : s.resetLineSide.pending = s.pending := by
  unfold State.resetLineSide State.cutD
  dsimp only
  split <;> rfl

theorem setPartRule_pending (r : Request) : (setPartRule r s).1.pending = s.pending := by
  unfold setPartRule
  split <;> rfl

/-- A request row leaves the waiting queue if its rule does. -/
theorem State.request_pending (mine : Request → Bool) {rule : Request → State → State × ReqResult}
    (h : ∀ r, (rule r s).1.pending = s.pending) : (s.request mine rule).pending = s.pending :=
  State.request_elim (P := fun t => t.pending = s.pending) rfl (fun r _ _ => s.settle_pending r _)
    fun r _ => (State.settle_pending _ r _).trans (h r)

theorem exec_pending (c : Instr) : ∃ t, exec c s = .next t ∧ t.pending = s.pending := by
  have running (effect : State → State) (h : (effect s).pending = s.pending) : (s.running effect).pending = s.pending :=
    State.running_elim (P := fun t => t.pending = s.pending) rfl h
  cases c
  case resetAll straps =>
    exact execResetAll_elim (P := fun t => t.pending = s.pending) rfl (fun r _ _ => s.settle_pending r _) fun _ => rfl
  all_goals refine ⟨_, rfl, ?_⟩
  case powerOn | nresetRelease | nresetAssert => rfl
  case receiveByte | goodFrameU | goodFrameD => exact running _ (s.received_pending _ _)
  case gapTimeout | breakEnd | uTransmitStart | uTransmitCompletion | evaluationBegin | exerciseEvaluationCompletion |
      wholeSecondBoundary => exact running _ rfl
  case breakDetected port => exact running _ (s.breakOn_pending port)
  case grant => exact running _ s.grant_pending
  case dTransmitCompletion => exact running _ s.completeD_pending
  case barrierEvaluationCompletion => exact running _ s.barrierDone_pending
  case silenceTimerExpiry | surgeHoldExpiry | holdTimerExpiry | ackTimerExpiry | reachTimerExpiry | repeatTimerExpiry |
      durationTimerExpiry => exact State.expire_elim (P := fun t => t.pending = s.pending) rfl fun _ => rfl
  case setPart => exact s.request_pending _ (setPartRule_pending s)
  case resetLines => exact s.request_pending _ fun _ => s.resetLineSide_pending
  all_goals exact s.request_pending _ fun _ => rfl

end

/-! ### Absent occasions -/

theorem State.expire_of_not_due {s : State} {timer : Plant → Timer} (h : timer s.plant ≠ some 0) (effect : Plant → Plant) :
    s.expire timer effect = s :=
  State.expire_elim (P := fun t => t = s) rfl fun due => absurd due h

/-- A request row without its request at the head of a free Request Unit changes nothing (log entry 4). -/
theorem State.request_of_absent {s : State} {mine : Request → Bool}
    (h : s.mgmt.executing ≠ none ∨ ∀ r, s.mgmt.requests.head? = some r → mine r = false)
    (rule : Request → State → State × ReqResult) : s.request mine rule = s := by
  refine State.running_elim (P := fun t => t = s) rfl ?_
  unfold State.head
  rcases h with busy | other
  · rw [if_pos (Option.isSome_iff_ne_none.2 busy)]
  · split_ifs
    · rfl
    · cases head : s.mgmt.requests.head? with
      | none => rfl
      | some r =>
        dsimp only
        rw [if_neg (by simp [other r head])]

theorem execResetAll_of_absent {s : State} {straps : Straps}
    (h : s.mgmt.executing ≠ none ∨ ∀ r, s.mgmt.requests.head? = some r → r.resetOf scopeAll = false) :
    execResetAll straps s = .next s := by
  refine congrArg Host.Outcome.next (State.running_elim (P := fun t => t = s) rfl ?_)
  unfold State.head
  rcases h with busy | other
  · rw [if_pos (Option.isSome_iff_ne_none.2 busy)]
  · split_ifs
    · rfl
    · cases head : s.mgmt.requests.head? with
      | none => rfl
      | some r =>
        dsimp only
        rw [if_neg (by simp [other r head])]

theorem exec_of_held {s : State} (held : s.nresetLow = true) {c : Instr} (power : ∀ pins, c ≠ .powerOn pins)
    (release : ∀ pins, c ≠ .nresetRelease pins) (assert : c ≠ .nresetAssert) : exec c s = .next s := by
  cases c
  case powerOn pins => exact absurd rfl (power pins)
  case nresetRelease pins => exact absurd rfl (release pins)
  case nresetAssert => exact absurd rfl assert
  all_goals exact congrArg Host.Outcome.next (State.running_of_held held _)

theorem exec_of_absent {s : State} {c : Instr} (request : c.isRequest = true)
    (h : s.mgmt.executing ≠ none ∨ ∀ r, s.mgmt.requests.head? = some r → c.executes r = false) : exec c s = .next s := by
  cases c
  case resetAll straps => exact execResetAll_of_absent h
  case powerOn | nresetAssert | nresetRelease | receiveByte | gapTimeout | breakDetected | breakEnd | goodFrameU | goodFrameD |
      uTransmitStart | uTransmitCompletion | grant | dTransmitCompletion | silenceTimerExpiry | surgeHoldExpiry |
      evaluationBegin | barrierEvaluationCompletion | exerciseEvaluationCompletion | holdTimerExpiry | ackTimerExpiry |
      reachTimerExpiry | repeatTimerExpiry | durationTimerExpiry | wholeSecondBoundary => cases request
  all_goals exact congrArg Host.Outcome.next (State.request_of_absent h _)

end Sys2Proof.Machine

namespace Sys2Proof.Proofs

open Sys2Proof.Machine

/-- Settles O1: a step takes the front command by definition. -/
theorem stepExecutesFrontCommand : Obligations.StepExecutesFrontCommand := fun _ _ _ => rfl

/-- Settles O2, over the rows. -/
theorem everyCommandCompletes : Obligations.EveryCommandCompletes := fun c s => exec_pending s c

/-- Settles O54: the state at reset is a full reset. -/
theorem invariantsHoldAtReset : Obligations.InvariantsHoldAtReset :=
  have frames : State.reset.FramesGood := State.reset.fullReset_good openStraps false false
  have fit : State.reset.QueuesFit := State.reset.fullReset_fit openStraps false false
  ⟨Plant.afterReset_slots _, Plant.afterReset_caps _, Plant.afterReset_sources _, Plant.afterReset_ladder _,
    State.reset.bounded_iff.2 ⟨fit, List.nodup_nil, Plant.afterReset_notices _⟩, frames,
      Plant.afterReset_estimator _, fun _ => rfl⟩

/-- Settles O3: held in reset, a timer that is not due, or no request to execute. -/
theorem commandsWithoutOccasionIdle : Obligations.CommandsWithoutOccasionIdle := by
  intro s
  have idle {timer : Plant → Timer} (h : timer s.plant ≠ some 0) (effect : Plant → Plant) :
      (Host.Outcome.next (s.expire timer effect) : Answer) = .next s := congrArg _ (State.expire_of_not_due h effect)
  exact ⟨fun c held power release assert => exec_of_held held power release assert,
    fun i h => idle (timer := fun p => (p.station i).timer) h _, fun k h => idle (timer := fun p => (p.barrier k).surgeTimer) h _,
    fun v h => idle (timer := fun p => (p.village v).holdTimer) h _, fun v h => idle (timer := fun p => (p.disp v).ackTimer) h _,
    fun v h => idle (timer := fun p => (p.disp v).reachTimer) h _, fun v h => idle (timer := fun p => (p.disp v).repeatTimer) h _,
    fun h => idle (timer := fun p => p.session.timer) h _, fun c request h => exec_of_absent request h⟩

/-- Settles O4: both rows are the full reset of every block, and the assertion ends what is on the lines. -/
theorem powerAndResetPin : Obligations.PowerAndResetPin := by
  intro pins s path
  refine ⟨⟨s.fullReset pins.straps pins.uSpacing pins.dSpacing, rfl, rfl, rfl, rfl, rfl, rfl, rfl, rfl,
    Plant.afterReset_station _, Plant.afterReset_channel _, Plant.afterReset_pattern _, Plant.afterReset_table _,
    Plant.afterReset_barrier _, rfl, rfl, rfl, Plant.afterReset_village _, Plant.afterReset_disp _, rfl, rfl, rfl⟩, ?_⟩
  exact ⟨_, rfl, rfl, rfl, rfl, rfl, rfl, rfl, rfl, rfl⟩

/-- Settles O5, record by record. -/
theorem wholeSecondCountsTimers : Obligations.WholeSecondCountsTimers := by
  intro s run
  refine ⟨{ s with plant := s.plant.tick }, congrArg Host.Outcome.next (State.running_of_out run _), ?_, ?_,
    s.plant.tick_station, s.plant.tick_barrier, s.plant.tick_village, s.plant.tick_disp, ?_⟩
  · simp only [Plant.tick]
  · simp only [Plant.tick, Config.partTimeMax]
  · simp only [Plant.tick, Timer.tick]

end Sys2Proof.Proofs
end

section
/-! The line side: what a receiver makes of a byte, a break and a whole frame, and the frame classified and forwarded. -/

namespace Sys2Proof.Machine

/-! ### Writing a port -/

theorem State.setPort_self (s : State) (port : Port) : s.setPort port (s.line.port port) = s := by
  rw [State.setPort, Line.setPort_self]

theorem State.setPort_setPort (s : State) (port : Port) (r r' : PortRec) :
    (s.setPort port r).setPort port r' = s.setPort port r' := by
  rw [State.setPort, State.setPort, State.setPort, Line.setPort_setPort]

/-- A receiver that hands on no frame changes its port record alone. -/
theorem State.received_none (s : State) (port : Port) (r : PortRec) : s.received port (r, none) = s.setPort port r := rfl

/-- Taking up what a receiver made does not depend on the record it made it from. -/
theorem State.received_setPort (s : State) (port : Port) (r : PortRec) (taken : PortRec × Option Frame) :
    (s.setPort port r).received port taken = s.received port taken := by
  unfold State.received
  rw [State.setPort_setPort]

theorem exec_receiveByte {s : State} (run : s.nresetLow = false) (port : Port) (x : RxItem) :
    exec (.receiveByte port x) s = .next (s.received port ((s.line.port port).take x)) :=
  congrArg Host.Outcome.next (State.running_of_out run _)

theorem exec_goodFrameOn {s : State} (run : s.nresetLow = false) (port : Port) (f : Frame) :
    exec (goodFrameOn port f) s = .next (s.received port ((s.line.port port).takeFrame f)) := by
  cases port <;> exact congrArg Host.Outcome.next (State.running_of_out run _)

/-! ### One item (R5 to R8) -/

theorem PortRec.take_of_broken {r : PortRec} (broken : r.brk = .broken) (x : RxItem) : r.take x = (r, none) :=
  if_pos broken

theorem PortRec.take_byte {r : PortRec} (whole : r.brk ≠ .broken) (b : Byte) :
    r.take (.byte b) = { r with brk := .marking }.byte b :=
  if_neg whole

theorem PortRec.take_error {r : PortRec} (whole : r.brk ≠ .broken) :
    r.take .error = ({ r with brk := .spacing }.byteError, none) :=
  if_neg whole

theorem PortRec.byteError_of_hunt {r : PortRec} (hunt : r.rx = .hunt) : r.byteError = r := by
  rw [PortRec.byteError, hunt]

theorem PortRec.byteError_of_frame {r : PortRec} (frame : r.rx ≠ .hunt) : r.byteError = r.abandonFrame := by
  unfold PortRec.byteError
  split
  · rename_i hunt
    exact absurd hunt frame
  all_goals rfl

theorem PortRec.byte_of_hunt {r : PortRec} (hunt : r.rx = .hunt) (b : Byte) :
    r.byte b = ({ r with rx := if b = 0xA5 then .header [] 0xFFFF else .hunt }, none) := by
  unfold PortRec.byte
  rw [hunt]
  dsimp only
  split_ifs with preamble other other
  · rfl
  · exact absurd preamble other
  · exact absurd other preamble
  · rw [← hunt]

/-- A break detected (R10, R11, R12). -/
theorem State.breakOn_eq {s : State} {port : Port} (whole : (s.line.port port).brk ≠ .broken) :
    s.breakOn port = { s with
      line := s.line.setPort port { s.line.port port with
        breaks := raise (s.line.port port).breaks 1, brk := .broken, rx := .hunt,
        framing := if (s.line.port port).rx = .hunt then (s.line.port port).framing
          else raise (s.line.port port).framing 1,
        state := if (s.line.port port).isDown then (s.line.port port).state else .down s.plant.now }
      plant := if (s.line.port port).isDown then s.plant
        else s.plant.post .lineDown (portSubject port) (raise (s.line.port port).breaks 1) } := by
  set r := s.line.port port
  have error : ({ r with breaks := raise r.breaks 1, brk := .broken } : PortRec).byteError =
      { r with breaks := raise r.breaks 1, brk := .broken, rx := .hunt,
               framing := if r.rx = .hunt then r.framing else raise r.framing 1 } := by
    by_cases hunt : r.rx = .hunt
    · refine (PortRec.byteError_of_hunt (by exact hunt)).trans ?_
      rw [if_pos hunt, ← hunt]
    · refine (PortRec.byteError_of_frame (by exact hunt)).trans ?_
      rw [if_neg hunt]
      rfl
  unfold State.breakOn
  dsimp only
  rw [if_neg whole, error]
  unfold State.portDown
  simp only [State.setPort, Line.port_setPort, State.onPlant]
  cases state : r.state <;> simp [PortRec.isDown, state, Line.setPort_setPort]

/-! ### A frame byte by byte (R6, R7, R9) -/

theorem wordOf_high_low (w : Half) : wordOf (highByte w) (lowByte w) = w := by
  refine BitVec.eq_of_toNat_eq ?_
  have := w.isLt
  rw [wordOf_toNat]
  simp only [highByte, lowByte, BitVec.toNat_setWidth, BitVec.toNat_ushiftRight, Nat.shiftRight_eq_div_pow]
  omega

/-- A port in the middle of a frame, its line marking. -/
def State.receiving (s : State) (port : Port) (x : RxState) : State :=
  s.setPort port { s.line.port port with brk := .marking, rx := x }

theorem State.receiving_port (s : State) (port : Port) (x : RxState) :
    (s.receiving port x).line.port port = { s.line.port port with brk := .marking, rx := x } := by
  simp [State.receiving]

/-- A byte that completes no frame takes the receive state on. -/
theorem feed_receiving {s : State} (run : s.nresetLow = false) (port : Port) {x x' : RxState} (b : Byte) (rest : List Byte)
    (next : ({ s.line.port port with brk := .marking, rx := x } : PortRec).byte b =
      ({ s.line.port port with brk := .marking, rx := x' }, none)) :
    feed port (b :: rest) (s.receiving port x) = feed port rest (s.receiving port x') := by
  have taken : ((s.receiving port x).line.port port).take (.byte b) =
      ({ s.line.port port with brk := .marking, rx := x' }, none) := by
    rw [s.receiving_port, PortRec.take_byte (by simp), ← next]
  rw [feed, exec_receiveByte (s := s.receiving port x) run, taken, State.received_none, State.receiving, State.setPort_setPort]
  rfl

/-- The header of a frame within length, byte by byte (R7). -/
theorem feed_header {s : State} (run : s.nresetLow = false) (port : Port) (h : Header) (n : Nat) (short : n ≤ 48)
    (rest : List Byte) :
    feed port (h.dst :: h.src :: h.kind :: h.seq :: h.flags :: BitVec.ofNat 8 n :: rest)
      (s.receiving port (.header [] checkStart)) =
    feed port rest (s.receiving port
      (if n = 0 then .check h [] (checkOf [h.dst, h.src, h.kind, h.seq, h.flags, BitVec.ofNat 8 n]) none
       else .payload h n [] (checkOf [h.dst, h.src, h.kind, h.seq, h.flags, BitVec.ofNat 8 n]))) := by
  rw [feed_receiving run port (x' := .header [h.dst] (checkOf [h.dst])) _ _ rfl,
    feed_receiving run port (x' := .header [h.dst, h.src] (checkOf [h.dst, h.src])) _ _ rfl,
    feed_receiving run port (x' := .header [h.dst, h.src, h.kind] (checkOf [h.dst, h.src, h.kind])) _ _ rfl,
    feed_receiving run port (x' := .header [h.dst, h.src, h.kind, h.seq] (checkOf [h.dst, h.src, h.kind, h.seq])) _ _ rfl,
    feed_receiving run port (x' := .header [h.dst, h.src, h.kind, h.seq, h.flags]
      (checkOf [h.dst, h.src, h.kind, h.seq, h.flags])) _ _ rfl]
  refine feed_receiving run port _ _ ?_
  have length : (BitVec.ofNat 8 n).toNat = n := by simp; omega
  have after : afterHeader [h.dst, h.src, h.kind, h.seq, h.flags, BitVec.ofNat 8 n]
      (checkOf [h.dst, h.src, h.kind, h.seq, h.flags, BitVec.ofNat 8 n]) =
      some (if n = 0 then .check h [] (checkOf [h.dst, h.src, h.kind, h.seq, h.flags, BitVec.ofNat 8 n]) none
        else .payload h n [] (checkOf [h.dst, h.src, h.kind, h.seq, h.flags, BitVec.ofNat 8 n])) := by
    unfold afterHeader
    dsimp only
    rw [length, if_neg (by simp [Config.maxPayload]; omega)]
    split_ifs <;> rfl
  show (match afterHeader [h.dst, h.src, h.kind, h.seq, h.flags, BitVec.ofNat 8 n]
      (checkOf [h.dst, h.src, h.kind, h.seq, h.flags, BitVec.ofNat 8 n]) with
    | some rx => _
    | none => _) = _
  rw [after]

/-- The payload of a frame, byte by byte (R7). -/
theorem feed_payload {s : State} (run : s.nresetLow = false) (port : Port) (h : Header) (rest : List Byte) :
    ∀ (more got : List Byte) (crc : Half), more ≠ [] →
    feed port (more ++ rest) (s.receiving port (.payload h (got.length + more.length) got crc)) =
      feed port rest (s.receiving port (.check h (got ++ more) (more.foldl checkByte crc) none)) := by
  intro more
  induction more with
  | nil => exact fun _ _ none => absurd rfl none
  | cons b more ih =>
    intro got crc _
    by_cases last : more = []
    · subst last
      refine feed_receiving run port b rest ?_
      simp [PortRec.byte]
    · have room : 0 < more.length := List.length_pos_iff.2 last
      rw [List.cons_append, feed_receiving run port (x' := .payload h ((got ++ [b]).length + more.length)
        (got ++ [b]) (checkByte crc b))
        b (more ++ rest) ?_, ih _ _ last]
      · simp
      · have length : got.length + (b :: more).length = (got ++ [b]).length + more.length := by simp; omega
        unfold PortRec.byte
        dsimp only
        rw [length, if_pos (by omega)]

/-- The check bytes of a frame within length end its reception as the row of the whole frame does (R9). -/
theorem received_check {s : State} (run : s.nresetLow = false) (port : Port) (f : Frame)
    (whole : (s.line.port port).brk ≠ .broken)
    (short : f.payload.length ≤ 48) :
    feed port [highByte f.check, lowByte f.check]
      (s.receiving port (.check ⟨f.dst, f.src, f.kind, f.seq, f.flags⟩ f.payload (checkOf f.covered) none)) =
    .next (s.received port ((s.line.port port).takeFrame f)) := by
  set h : Header := ⟨f.dst, f.src, f.kind, f.seq, f.flags⟩
  have last : PortRec.byte { s.line.port port with
        brk := .marking, rx := .check h f.payload (checkOf f.covered) (some (highByte f.check)) } (lowByte f.check) =
      (s.line.port port).takeFrame f := by
    have within : f.withinLength = true := decide_eq_true short
    unfold PortRec.takeFrame PortRec.byte
    simp only [wordOf_high_low, if_neg whole, within, Bool.not_true, Bool.false_eq_true, if_false]
    by_cases good : f.check = checkOf f.covered
    · rw [if_pos good, if_pos (by simpa [Frame.checkMatches] using good), ← good]
      rfl
    · rw [if_neg good, if_neg (by simpa [Frame.checkMatches] using good)]
      rfl
  rw [feed_receiving run port (x' := .check h f.payload (checkOf f.covered) (some (highByte f.check))) _ _ rfl]
  rw [feed, exec_receiveByte (s := s.receiving port _) run, s.receiving_port, PortRec.take_byte (by simp)]
  simp only [feed]
  rw [last, State.receiving, State.received_setPort]

/-! ### A good frame -/

theorem PortRec.takeFrame_good {r : PortRec} (whole : r.brk ≠ .broken) {f : Frame} (good : f.good = true) :
    r.takeFrame f = ({ r with brk := .marking, rx := .hunt }.matched, some f) := by
  rw [Frame.good, Bool.and_eq_true] at good
  unfold PortRec.takeFrame
  dsimp only
  rw [if_neg whole, good.1, if_neg (by simp), if_pos good.2]

/-- A good frame takes its port UP before it is classified (R9, R11). -/
theorem State.received_good {s : State} {port : Port} (whole : (s.line.port port).brk ≠ .broken) {f : Frame}
    (good : f.good = true) : s.received port ((s.line.port port).takeFrame f) =
      (match port with
       | .u => State.classifyU
       | .d => State.classifyD)
        { s with line := s.line.setPort port (s.line.port port).afterGood, plant := s.plantUp port } f := by
  have up : (s.setPort port { s.line.port port with brk := .marking, rx := .hunt }.matched).portUp port =
      { s with line := s.line.setPort port (s.line.port port).afterGood, plant := s.plantUp port } := by
    unfold State.portUp State.plantUp
    simp only [State.setPort, Line.port_setPort, Line.setPort_setPort]
    show (match (s.line.port port).state with | _ => _) = _
    cases (s.line.port port).state <;> rfl
  rw [PortRec.takeFrame_good whole good]
  unfold State.received
  dsimp only
  cases port with
  | u => rw [State.goodFrame, up]
  | d => rw [State.goodFrame, up]

theorem exec_goodFrameU {s : State} {f : Frame} (run : s.nresetLow = false) (whole : s.line.u.brk ≠ .broken)
    (good : f.good = true) : exec (.goodFrameU f) s =
      .next ({ s with line := { s.line with u := s.line.u.afterGood }, plant := s.plantUp .u }.classifyU f) :=
  (exec_goodFrameOn run .u f).trans (congrArg _ (State.received_good (port := .u) whole good))

theorem exec_goodFrameD {s : State} {f : Frame} (run : s.nresetLow = false) (whole : s.line.d.brk ≠ .broken)
    (good : f.good = true) : exec (.goodFrameD f) s =
      .next ({ s with line := { s.line with d := s.line.d.afterGood }, plant := s.plantUp .d }.classifyD f) :=
  (exec_goodFrameOn run .d f).trans (congrArg _ (State.received_good (port := .d) whole good))

/-- The line side of a classified frame on port U (R14, R16). -/
theorem State.forwardU_eq (s : State) (p : Plant) (f : Frame) :
    (if f.dst = s.ownAddr then ({ s with line := { s.line with u := s.line.u.afterGood }, plant := p } : State)
      else { s with line := ({ s.line with u := s.line.u.afterGood } : Line).forwardDown f, plant := p }) =
    { s with line := s.forwardedU f, plant := p } := by
  unfold State.forwardedU Line.forwardDown
  dsimp only
  split_ifs with own room full full
  · rfl
  · rfl
  · exact absurd room full
  · exact absurd full room
  · rfl

theorem State.forwardD_eq (s : State) (p : Plant) (f : Frame) :
    (if f.dst = s.ownAddr then ({ s with line := { s.line with d := s.line.d.afterGood }, plant := p } : State)
      else { s with line := ({ s.line with d := s.line.d.afterGood } : Line).forwardUp f, plant := p }) =
    { s with line := s.forwardedD f, plant := p } := by
  unfold State.forwardedD Line.forwardUp
  dsimp only
  split_ifs with own room full full
  · rfl
  · rfl
  · exact absurd room full
  · exact absurd full room
  · rfl

/-- A good frame on port U: forwarded or not, and then read if it is a SAMPLE of a known station (R14). -/
theorem exec_goodFrameU_eq {s : State} {f : Frame} (run : s.nresetLow = false) (whole : s.line.u.brk ≠ .broken)
    (good : f.good = true) : exec (.goodFrameU f) s = .next { s with
      line := s.forwardedU f
      plant := if f.kind = kindSample then
          (s.plant.stationOf f.src).elim (s.plantUp .u) fun i => (s.plantUp .u).readSample i f
        else s.plantUp .u } := by
  rw [exec_goodFrameU run whole good]
  have known : (s.plantUp .u).stationOf f.src = s.plant.stationOf f.src := by
    unfold State.plantUp
    split <;> rfl
  refine congrArg _ ?_
  unfold State.classifyU
  dsimp only
  rw [known]
  have forward := s.forwardU_eq (s.plantUp .u) f
  have own : State.ownAddr { s with line := { s.line with u := s.line.u.afterGood }, plant := s.plantUp .u } = s.ownAddr := rfl
  rw [own, forward]
  split_ifs
  · cases s.plant.stationOf f.src <;> rfl
  · rfl

/-- A good frame on port D: forwarded or not, and then taken in if it is addressed to the part (R15). -/
theorem exec_goodFrameD_eq {s : State} {f : Frame} (run : s.nresetLow = false) (whole : s.line.d.brk ≠ .broken)
    (good : f.good = true) : exec (.goodFrameD f) s = .next (
      if f.dst = s.ownAddr ∨ f.dst = 255 then
        if f.kind = kindRequest then { s with line := s.forwardedD f, plant := s.plantUp .d, mgmt := s.mgmt.takeIn f }
        else if f.kind = kindAlertAck then { s with line := s.forwardedD f, plant := (s.plantUp .d).alertAck f }
        else { s with line := s.forwardedD f, plant := s.plantUp .d }
      else { s with line := s.forwardedD f, plant := s.plantUp .d }) := by
  rw [exec_goodFrameD run whole good]
  refine congrArg _ ?_
  unfold State.classifyD
  dsimp only
  have forward := s.forwardD_eq (s.plantUp .d) f
  have own : State.ownAddr { s with line := { s.line with d := s.line.d.afterGood }, plant := s.plantUp .d } = s.ownAddr := rfl
  rw [own, forward]
  rfl

end Sys2Proof.Machine

namespace Sys2Proof.Proofs

open Sys2Proof.Machine

/-- Settles O6, item by item and row by row. -/
theorem receiverHuntsAndBreaks : Obligations.ReceiverHuntsAndBreaks := by
  intro s port b run r become
  have row (effect : State → State) {t : State} (h : effect s = t) : (Host.Outcome.next (s.running effect) : Answer) = .next t :=
    congrArg _ ((State.running_of_out run effect).trans h)
  have received (x : RxItem) (r' : PortRec) (h : r.take x = (r', none)) : exec (.receiveByte port x) s = become r' := by
    rw [exec_receiveByte run, show (s.line.port port).take x = _ from h]
    rfl
  refine ⟨fun broken x => ?_, fun hunt whole => ⟨?_, ?_⟩, fun frame whole => ?_,
    fun dst src kind seq flags crc header whole long => ?_,
    fun frame => ?_, fun hunt => ?_, ?_, fun broken => ?_, fun whole => ?_⟩
  · rw [received x r (PortRec.take_of_broken broken x)]
    exact congrArg Host.Outcome.next (s.setPort_self port)
  · exact received _ _ ((PortRec.take_byte whole b).trans (PortRec.byte_of_hunt (by exact hunt) b))
  · exact received _ _ ((PortRec.take_error whole).trans (congrArg (·, none) (PortRec.byteError_of_hunt (by exact hunt))))
  · exact received _ _ ((PortRec.take_error whole).trans (congrArg (·, none) (PortRec.byteError_of_frame (by exact frame))))
  · refine received _ _ ((PortRec.take_byte whole b).trans ?_)
    unfold PortRec.byte
    dsimp only
    rw [header]
    dsimp only [afterHeader, List.cons_append, List.nil_append]
    rw [if_pos (by simpa [Config.maxPayload] using long)]
    rfl
  · exact row _ (congrArg (s.setPort port) (PortRec.byteError_of_frame frame))
  · exact row _ ((congrArg (s.setPort port) (PortRec.byteError_of_hunt hunt)).trans (s.setPort_self port))
  · exact row _ rfl
  · exact row _ (if_pos broken)
  · refine row _ ((State.breakOn_eq whole).trans ?_)
    cases port <;> rfl

/-- Settles O7: the preamble, the header, the payload by induction, and the two check bytes. -/
theorem byteByByteIsWholeFrame : Obligations.ByteByByteIsWholeFrame := by
  intro s port f run hunt whole short
  have start : feed port f.bytes s = feed port (f.covered ++ [highByte f.check, lowByte f.check])
      (s.receiving port (.header [] checkStart)) := by
    rw [Frame.bytes, List.cons_append, feed, exec_receiveByte run, PortRec.take_byte whole, PortRec.byte_of_hunt (by exact hunt)]
    rfl
  rw [start, exec_goodFrameOn run, ← received_check run port f whole short]
  set h : Header := ⟨f.dst, f.src, f.kind, f.seq, f.flags⟩
  refine (feed_header run port h f.payload.length short (f.payload ++ [highByte f.check, lowByte f.check])).trans ?_
  by_cases empty : f.payload = []
  · have covered : f.covered = [h.dst, h.src, h.kind, h.seq, h.flags, BitVec.ofNat 8 f.payload.length] := by
      rw [Frame.covered, empty, List.append_nil, Frame.length, empty]
    rw [if_pos (by simp [empty]), covered, empty]
    rfl
  · rw [if_neg (by simpa using empty)]
    have payload := feed_payload run port h [highByte f.check, lowByte f.check] f.payload []
      (checkOf [h.dst, h.src, h.kind, h.seq, h.flags, BitVec.ofNat 8 f.payload.length]) empty
    rw [List.length_nil, Nat.zero_add, List.nil_append] at payload
    rw [payload]
    refine congrArg _ (congrArg (s.receiving port) ?_)
    simp [checkOf, Frame.covered, Frame.length, h]

/-- Settles O8, from what each port does with a good frame. -/
theorem goodFrameUForwards : Obligations.GoodFrameUForwards := by
  intro s f run good
  refine ⟨fun whole other => ?_, fun whole other => ?_⟩
  · rw [exec_goodFrameU_eq run whole good]
    split_ifs with sample
    · have unknown : s.plant.stationOf f.src = none := by
        refine Option.eq_none_iff_forall_ne_some.2 fun i found => ?_
        obtain ⟨use, addr⟩ := Plant.stationOf_some found
        exact other.elim (fun kind => kind sample) fun none => none i use addr
      rw [unknown]
      rfl
    · rfl
  · rw [exec_goodFrameD_eq run whole good]
    split_ifs with mine request ack
    · exact absurd ⟨mine, .inl request⟩ other
    · exact absurd ⟨mine, .inr ack⟩ other
    · rfl
    · rfl

/-- Settles O12: the Request Unit's own rows, taken in on port D. -/
theorem requestTakenIn : Obligations.RequestTakenIn := by
  intro s f run whole good kind mine
  rw [exec_goodFrameD_eq run whole good, if_pos mine, if_pos (show f.kind = kindRequest from kind)]
  refine congrArg Host.Outcome.next ?_
  unfold Mgmt.takeIn requestOf
  match f.payload with
  | [] | [_] | _ :: _ :: _ => rfl

/-- Settles O14: the branches of start and completion. -/
theorem uTransmitterServesQueue : Obligations.UTransmitterServesQueue := by
  intro s run sending
  have start : exec .uTransmitStart s = .next { s with line := s.line.startU } :=
    congrArg Host.Outcome.next (State.running_of_out run _)
  have complete : exec .uTransmitCompletion s = .next { s with line := s.line.completeU } :=
    congrArg Host.Outcome.next (State.running_of_out run _)
  refine ⟨fun f rest idle up queue => ⟨?_, ?_⟩, fun none => ?_, fun f rest busy up queue => ?_,
    fun busy none => ?_, fun idle => ?_⟩
  · rw [start, Line.startU, idle, queue]
    dsimp only
    rw [up, if_neg (by simp)]
  · simp [Frame.bytes, Frame.covered]
    omega
  · rw [start]
    refine congrArg Host.Outcome.next ?_
    unfold Line.startU
    split
    · rename_i idle queue
      rcases none with busy | down | empty
      · exact absurd idle busy
      · rw [if_pos down]
      · rw [queue] at empty
        cases empty
    · rfl
  · rw [complete, Line.completeU, if_pos (Option.isSome_iff_ne_none.2 busy), Line.startU, queue]
    dsimp only
    rw [up, if_neg (by simp)]
  · rw [complete, Line.completeU, if_pos (Option.isSome_iff_ne_none.2 busy), Line.startU]
    dsimp only
    split
    · rename_i f rest _ queue
      rcases none with down | empty
      · rw [if_pos down, queue]
      · rw [queue] at empty
        cases empty
    · rfl
  · rw [complete, Line.completeU, idle, if_neg (by simp)]

end Sys2Proof.Proofs
end

section
/-! Intake on port U and acknowledgements on port D: which record a frame reaches, and what it makes of it. -/

namespace Sys2Proof.Machine

/-! ### The plant when a port comes UP -/

section
variable (s : State) (port : Port)

theorem State.plantUp_only : s.plantUp port = { s.plant with notices := (s.plantUp port).notices } := by
  unfold State.plantUp
  split <;> rfl

@[simp] theorem State.plantUp_now : (s.plantUp port).now = s.plant.now := by rw [s.plantUp_only]
@[simp] theorem State.plantUp_tables : (s.plantUp port).tables = s.plant.tables := by rw [s.plantUp_only]
@[simp] theorem State.plantUp_session : (s.plantUp port).session = s.plant.session := by rw [s.plantUp_only]
@[simp] theorem State.plantUp_station (i : Fin 24) : (s.plantUp port).station i = s.plant.station i := by
  rw [s.plantUp_only]; rfl
@[simp] theorem State.plantUp_channel (c : Fin 48) : (s.plantUp port).channel c = s.plant.channel c := by
  rw [s.plantUp_only]; rfl
@[simp] theorem State.plantUp_pattern (c : Fin 48) : (s.plantUp port).pattern c = s.plant.pattern c := by
  rw [s.plantUp_only]; rfl
@[simp] theorem State.plantUp_village (v : Fin 8) : (s.plantUp port).village v = s.plant.village v := by
  rw [s.plantUp_only]; rfl
@[simp] theorem State.plantUp_disp (v : Fin 8) : (s.plantUp port).disp v = s.plant.disp v := by
  rw [s.plantUp_only]; rfl

end

/-! ### A SAMPLE -/

theorem malformedSample_iff (payload : List Byte) : malformedSample payload = false ↔ wellFormedSample payload := by
  cases payload with
  | nil => simp [malformedSample, wellFormedSample]
  | cons n rest =>
    have most : Nat.blt 8 n.toNat = false ↔ n.toNat ≤ 8 := by
      rw [← Bool.not_eq_true, Nat.blt_eq]
      omega
    simp only [malformedSample, wellFormedSample, Bool.or_eq_false_iff, beq_eq_false_iff_ne, most, bne_eq_false_iff_eq,
      List.cons.injEq, List.length_cons]
    constructor
    · rintro ⟨⟨some, most⟩, length⟩
      exact ⟨n, rest, ⟨rfl, rfl⟩, by omega, by omega, by omega⟩
    · rintro ⟨m, rest', ⟨rfl, rfl⟩, some, most, length⟩
      exact ⟨⟨by omega, by omega⟩, by omega⟩

/-- The missing sequence numbers between two accepted frames (R34). -/
theorem gapAdded_eq (last : Option Byte) (seq : Byte) : gapAdded last seq =
    match last with
    | none => 0
    | some l => if seq = 0 then 0 else (seq.toNat + 255 - l.toNat) % 256 := by
  cases last with
  | none => rfl
  | some l =>
    show (if seq = 0 then 0 else (seq - l - 1).toNat) = if seq = 0 then 0 else (seq.toNat + 255 - l.toNat) % 256
    split_ifs
    · rfl
    · have := seq.isLt
      have := l.isLt
      have one : (1 : Byte).toNat = 1 := rfl
      rw [BitVec.toNat_sub, BitVec.toNat_sub, one]
      omega

theorem Station.slotChannel_eq (st : Station) (slot : Nat) : st.slotChannel slot =
    match st.slots.toList[slot]? with
    | some (some c) => some c
    | _ => none := by
  unfold Station.slotChannel
  split_ifs with h
  · rw [List.getElem?_eq_getElem (by simpa using h), Vector.getElem_toList]
    show st.slots[slot] = _
    cases st.slots[slot] <;> rfl
  · rw [List.getElem?_eq_none (by simpa using h)]

/-- The readings of a payload written out, as they are handed on (R35). -/
theorem Plant.handReadings_flatMap (p : Plant) (st : Station) (readings : List (Byte × Byte × Byte)) :
    p.handReadings st (readingsOf (readings.flatMap fun x => [x.1, x.2.1, x.2.2])) =
      readings.foldl (init := p) fun p x =>
        match st.slots.toList[x.1.toNat]? with
        | some (some c) => p.reading c (256 * x.2.1.toNat + x.2.2.toNat)
        | _ => p := by
  rw [readingsOf_flatMap, Plant.handReadings, List.foldl_map]
  congr 1
  funext q x
  rw [Station.slotChannel_eq, wordOf_toNat]
  rcases st.slots.toList[x.1.toNat]? with _ | _ | c <;> rfl

theorem State.SampleFor.stationOf {s : State} {f : Frame} {i : Fin 24} (h : s.SampleFor f i) :
    s.plant.stationOf f.src = some i := by
  cases found : s.plant.stationOf f.src with
  | none =>
    have := List.find?_eq_none.1 found i (List.mem_finRange i)
    simp [h.held.1, h.held.2] at this
  | some j =>
    obtain ⟨use, addr⟩ := Plant.stationOf_some found
    rw [h.only j use addr]

theorem State.SampleFor.exec {s : State} {f : Frame} {i : Fin 24} (h : s.SampleFor f i) :
    exec (.goodFrameU f) s = .next { s with line := s.forwardedU f, plant := (s.plantUp .u).readSample i f } := by
  rw [exec_goodFrameU_eq h.running h.open_ h.good, if_pos (show f.kind = kindSample from h.kind), h.stationOf]
  rfl

/-! ### An ALERT_ACK -/

theorem Level.ofCode_eq_some (n : Nat) (l : Level) : Level.ofCode n = some l ↔ n = l.code := by
  constructor
  · intro h
    unfold Level.ofCode at h
    split at h <;> cases h <;> rfl
  · rintro rfl
    cases l <;> rfl

theorem Dispatch.acceptsAck_iff (d : Dispatch) : d.acceptsAck = true ↔
    d.state = .await ∨ d.state = .unreached ∨ ∃ time c, d.state = .due .retry time c ∨ d.state = .due .reach time c := by
  unfold Dispatch.acceptsAck
  cases d.state with
  | due reason time c => cases reason <;> simp
  | quiet => simp
  | await => simp
  | unreached => simp

theorem ackContent_eq_some (f : Frame) (c : Content) : ackContent f = some c ↔
    ∃ b l, f.payload = [b] ∧ b.toNat = Level.code l ∧ c = ⟨l, f.flags.getLsbD 0⟩ := by
  unfold ackContent
  split
  · rename_i b payload
    rw [payload]
    simp only [Option.map_eq_some_iff, Level.ofCode_eq_some, List.cons.injEq, and_true]
    constructor
    · rintro ⟨l, code, rfl⟩
      exact ⟨b, l, rfl, code, rfl⟩
    · rintro ⟨_, l, rfl, code, rfl⟩
      exact ⟨l, code, rfl⟩
  · rename_i other
    refine iff_of_false (by simp) ?_
    rintro ⟨b, l, payload, -⟩
    exact other b payload

/-- An acknowledgement is accepted in the states of R146, with the offered content. -/
theorem Dispatch.accepts_iff (d : Dispatch) (f : Frame) :
    (d.acceptsAck && (ackContent f).isSome && ackContent f == d.offered) = true ↔
      (d.state = .await ∨ d.state = .unreached ∨ ∃ time c, d.state = .due .retry time c ∨ d.state = .due .reach time c) ∧
      ∃ b l, f.payload = [b] ∧ b.toNat = Level.code l ∧ d.offered = some ⟨l, f.flags.getLsbD 0⟩ := by
  rw [Bool.and_eq_true, Bool.and_eq_true, d.acceptsAck_iff, and_assoc, beq_iff_eq, Option.isSome_iff_exists]
  refine and_congr_right fun _ => ?_
  constructor
  · rintro ⟨⟨c, hc⟩, offered⟩
    obtain ⟨b, l, payload, code, rfl⟩ := (ackContent_eq_some f c).1 hc
    exact ⟨b, l, payload, code, by rw [← offered, hc]⟩
  · rintro ⟨b, l, payload, code, offered⟩
    have hc := (ackContent_eq_some f ⟨l, f.flags.getLsbD 0⟩).2 ⟨b, l, payload, code, rfl⟩
    exact ⟨⟨_, hc⟩, by rw [hc, offered]⟩

theorem Plant.villageOf_some {p : Plant} {addr : Byte} {v : Fin 8} (h : p.villageOf addr = some v) :
    (p.village v).inUse = true ∧ (p.village v).addr = addr := by
  simpa using List.find?_some h

theorem Plant.villageOf_eq {p : Plant} {addr : Byte} {v : Fin 8} (use : (p.village v).inUse = true)
    (held : (p.village v).addr = addr) (only : ∀ w, (p.village w).inUse = true → (p.village w).addr = addr → w = v) :
    p.villageOf addr = some v := by
  cases found : p.villageOf addr with
  | none =>
    have := List.find?_eq_none.1 found v (List.mem_finRange v)
    simp [use, held] at this
  | some w =>
    obtain ⟨use', held'⟩ := Plant.villageOf_some found
    rw [only w use' held']

theorem exec_alertAck {s : State} {f : Frame} (run : s.nresetLow = false) (whole : s.line.d.brk ≠ .broken)
    (good : f.good = true) (kind : f.kind = 0x21) (mine : f.dst = s.ownAddr ∨ f.dst = 255) :
    exec (.goodFrameD f) s = .next { s with line := s.forwardedD f, plant := (s.plantUp .d).alertAck f } := by
  rw [exec_goodFrameD_eq run whole good, if_pos mine, if_neg (by rw [kind]; decide),
    if_pos (show f.kind = kindAlertAck from kind)]

end Sys2Proof.Machine

namespace Sys2Proof.Proofs

open Sys2Proof.Machine

/-- Settles O10: the rows of a SAMPLE that is not read, and the accepted one. -/
theorem sampleTurnedAway : Obligations.SampleTurnedAway := by
  intro s f i sample
  have row := sample.exec
  unfold Plant.readSample at row
  simp only [State.plantUp_station] at row
  refine ⟨fun retired => ?_, fun known malformed => ?_, fun known formed repeated => ?_, fun known formed new => ?_⟩
  · rw [row, if_pos retired]
  · rw [row, if_neg known, if_pos (by simpa [← malformedSample_iff] using malformed)]
    rfl
  · rw [row, if_neg known, if_neg (by simp [(malformedSample_iff _).2 formed]), if_pos repeated]
    rfl
  · refine ⟨_, sample.exec, ?_⟩
    have known' : ((s.plantUp .u).station i).state ≠ .retired := by simpa using known
    rw [Plant.readSample_accepted known' ((malformedSample_iff _).2 formed) (by simpa using new)]
    set q := ((s.plantUp .u).setStation i _).handReadings _ _
    have read : q.station = _ := (Plant.handReadings_spec _ _ _).1.only.station
    have here : q.station i = _ := (congrFun read i).trans (Plant.station_setStation ..)
    rw [(q.stationHeard_spec i f.seq (by rw [here]; exact known')).2.1, here]
    simp [Station.heard, raise, Config.counterMax]

/-- Settles O9: the readings by their slots, then the station's update. -/
theorem sampleReadUpdatesStation : Obligations.SampleReadUpdatesStation := by
  intro s f i sample known formed new
  refine ⟨_, sample.exec, rfl, ?_⟩
  show ((s.plantUp .u).readSample i f).station i = _ ∧ _
  rw [Plant.readSample_accepted (by simpa using known) ((malformedSample_iff _).2 formed) (by simpa using new),
    State.plantUp_station]
  set st := s.plant.station i with hst
  set before := (s.plantUp .u).setStation i { st with gap := raise st.gap (gapAdded st.lastSeq f.seq) } with hbefore
  obtain ⟨step, _, kept⟩ := before.handReadings_spec st (readingsOf f.payload.tail)
  set after := before.handReadings st (readingsOf f.payload.tail) with hafter
  have here : after.station i = { st with gap := raise st.gap (gapAdded st.lastSeq f.seq) } :=
    (congrFun step.only.station i).trans (Plant.station_setStation ..)
  have known' : (after.station i).state ≠ .retired := by rw [here]; exact known
  obtain ⟨heard, written, others, patterns, channels⟩ := after.stationHeard_spec i f.seq known'
  obtain ⟨only, notices⟩ := after.stationHeard_eq i f.seq known'
  rw [here] at written channels notices
  refine ⟨?_, fun j hj => ?_, ?_, ?_, fun c unmapped => ⟨?_, ?_⟩, fun readings payload => ?_⟩
  · rw [written, gapAdded_eq]
    rfl
  · rw [others j hj, congrFun step.only.station j, Plant.station_setStation_of_ne _ hj, State.plantUp_station]
  · rw [heard.now, step.only.now]
    exact s.plantUp_now .u
  · rw [heard.tables, step.only.tables]
    exact s.plantUp_tables .u
  · rw [channels, if_neg (fun mapped => Bool.false_ne_true (unmapped.symm.trans mapped.1)),
      (kept c unmapped).1]
    exact s.plantUp_channel .u c
  · rw [Plant.pattern, patterns]
    exact (kept c unmapped).2.trans (s.plantUp_pattern .u c)
  · intro start read
    have started : start = before := congrArg (fun g => (s.plantUp .u).setStation i { st with gap := g })
      (congrArg Station.gap written)
    have readings_read : read = after := by
      rw [hafter, payload, List.tail_cons, Plant.handReadings_flatMap, ← started] <;> rfl
    clear_value read
    subst readings_read
    rw [written]
    refine ⟨only.trans (by rw [here]), channels, ?_⟩
    rw [notices, step.only.now, show before.now = s.plant.now from s.plantUp_now .u]
    rfl

/-- Settles O13, by who is acknowledging and whether the record accepts it. -/
theorem alertAckTaken : Obligations.AlertAckTaken := by
  intro s f run whole good kind mine
  have row := exec_alertAck run whole good kind mine
  refine ⟨fun nobody => ?_, fun v use held only => ?_⟩
  · have unknown : (s.plantUp .d).villageOf f.src = none := by
      refine Option.eq_none_iff_forall_ne_some.2 fun v found => ?_
      obtain ⟨use, addr⟩ := Plant.villageOf_some found
      rw [State.plantUp_village] at use addr
      exact nobody v use addr
    rw [row, Plant.alertAck, unknown]
  · have found : (s.plantUp .d).villageOf f.src = some v :=
      Plant.villageOf_eq (by simpa using use) (by simpa using held) (by simpa using only)
    rw [Plant.alertAck, found] at row
    simp only [State.plantUp_disp, State.plantUp_now] at row
    refine ⟨fun c offered accepted => ?_, fun refused => ?_⟩
    · rw [row, if_pos ((Dispatch.accepts_iff _ f).2 accepted)]
      refine congrArg Host.Outcome.next ?_
      cases since : (s.plant.disp v).unreachedSince with
      | none =>
        dsimp only
        rw [Plant.updateDisp, State.plantUp_disp, State.plantUp_session, State.plantUp_now, Dispatch.acked, offered]
        rfl
      | some since =>
        dsimp only
        rw [Plant.updateDisp, Plant.post_disp, Plant.post_session, Plant.post_now, State.plantUp_disp, State.plantUp_session,
          State.plantUp_now, Dispatch.acked, offered]
        rfl
    · rw [row, if_neg fun accepted => refused ((Dispatch.accepts_iff _ f).1 accepted)]
      rfl

/-- Settles O18, from the head of the due list. -/
theorem candidateHeadsDueList : Obligations.CandidateHeadsDueList := by
  intro p
  refine ⟨?_, fun c v candidate => ?_⟩
  · rw [p.candidate_none_iff]
    refine forall_congr' fun w => ⟨fun unlisted reason time c due => ?_, fun lined => ?_⟩
    · by_contra idle
      have := ((p.disp w).listed_iff c time).2 ⟨⟨reason, due⟩, by simpa using idle⟩
      rw [unlisted] at this
      cases this
    · refine Option.eq_none_iff_forall_ne_some.2 fun ⟨c, time⟩ listed => ?_
      obtain ⟨⟨reason, due⟩, idle⟩ := ((p.disp w).listed_iff c time).1 listed
      rw [lined reason time c due] at idle
      cases idle
  · obtain ⟨time, listed, first⟩ := p.candidate_spec c v candidate
    obtain ⟨⟨reason, due⟩, idle⟩ := ((p.disp v).listed_iff c time).1 listed
    refine ⟨reason, time, due, idle, fun w reason' time' c' due' idle' => ?_⟩
    have before := first w c' time' (((p.disp w).listed_iff c' time').2 ⟨⟨reason', due'⟩, idle'⟩)
    unfold dueBefore at before
    dsimp only at before
    split_ifs at before with level mark time_
    · exact .inl (of_decide_eq_true before)
    · refine .inr ⟨(not_not.1 level).symm, .inl ⟨?_, before⟩⟩
      rw [before] at mark
      simpa using mark
    · exact .inr ⟨(not_not.1 level).symm, .inr ⟨not_not.1 mark, .inl (of_decide_eq_true before)⟩⟩
    · exact .inr ⟨(not_not.1 level).symm, .inr ⟨not_not.1 mark, .inr ⟨not_not.1 time_, of_decide_eq_true before⟩⟩⟩

end Sys2Proof.Proofs
end

section
/-! The D transmitter: the arbiter's list, what a grant sends, and the end of a transmission. -/

namespace Sys2Proof.Machine

/-! ### The arbiter's list (R20) -/

theorem Level.evacuate_ble (l : Level) : Nat.ble Level.evacuate.code l.code = true ↔ l = .evacuate ∨ l = .breach := by
  cases l <;> decide

theorem State.nextGrant_of_urgent {s : State} {c : Content} {v : Fin 8} (candidate : s.plant.candidate = some (c, v))
    (urgent : c.level = .evacuate ∨ c.level = .breach) : s.nextGrant = some (.candidate v c) := by
  simp [State.nextGrant, candidate, (Level.evacuate_ble _).2 urgent]

/-- The list after its first entry, for a candidate below EVACUATE or none at all. -/
theorem State.nextGrant_of_calm {s : State}
    (calm : ∀ c v, s.plant.candidate = some (c, v) → c.level ≠ .evacuate ∧ c.level ≠ .breach) : s.nextGrant =
      ((if 12 ≤ s.line.ud.length ∧ s.line.lastGrant ≠ .forward then s.line.ud.head?.map Grant.forward else none) <|>
        (s.plant.candidate.map fun e => Grant.candidate e.2 e.1) <|>
        s.mgmt.replies.head?.map Grant.reply <|> s.plant.notices.head?.map Grant.notice <|>
        s.line.ud.head?.map Grant.forward) := by
  have rest : (s.plant.candidate.any fun e => Nat.ble Level.evacuate.code e.1.level.code) = false := by
    rw [Option.any_eq_false]
    rintro ⟨c, v⟩ candidate
    exact Bool.eq_false_iff.2 (mt (Level.evacuate_ble c.level).1 (not_or.2 (calm c v candidate)))
  simp [State.nextGrant, rest, Config.udWatermark]

theorem exec_grant {s : State} {g : Grant} (run : s.nresetLow = false) (idle : s.line.dTx = none)
    (up : s.line.d.isDown = false) (next : s.nextGrant = some g) : exec .grant s = .next (s.give g) := by
  refine congrArg Host.Outcome.next ((State.running_of_out run _).trans ?_)
  rw [State.grant, if_pos ⟨by rw [idle]; rfl, up⟩, next]

theorem exec_grant_none {s : State} (run : s.nresetLow = false)
    (none : s.line.dTx ≠ none ∨ s.line.d.isDown = true ∨ s.nextGrant = none) : exec .grant s = .next s := by
  refine congrArg Host.Outcome.next ((State.running_of_out run _).trans ?_)
  unfold State.grant
  split_ifs with free
  · rcases none with busy | down | empty
    · exact absurd (Option.isNone_iff_eq_none.1 free.1) busy
    · rw [down] at free
      exact absurd free.2 (by decide)
    · rw [empty]
  · rfl

/-! ### What a grant sends -/

theorem ReqOutcome.field8_code (o : ReqOutcome) : field8 o.code = BitVec.ofNat 8 o.code := by cases o <;> rfl

theorem NoticeKind.field8_code (k : NoticeKind) : field8 k.code = BitVec.ofNat 8 k.code := by cases k <;> rfl

theorem alertPayload_eq (p : Plant) (v : Fin 8) (c : Content) : alertPayload p v c =
    field16 (c.level.code * 8192 + (if c.level = .clear then Cause.allClear
        else if c.marked then (p.village v).exCause else (p.village v).decCause).code * 1024 +
        min ((if c.marked then p.exercise.estimate.map Estimate.fill else (p.village v).decFill).getD 1023) 1023) ++
      [fieldIx (if c.marked then p.session.current else (p.village v).decBarrier)] ++
      field16 (if c.marked then (p.village v).exAvailable else (p.village v).decAvailable) := by
  rw [alertPayload, Nat.mul_comm 8192, Nat.mul_comm 1024]
  rfl

/-- The candidate's record is DUE with the granted content, so the grant offers it (R139). -/
theorem Plant.granted_of_candidate {p : Plant} {c : Content} {v : Fin 8} (h : p.candidate = some (c, v)) :
    (p.disp v).granted = { p.disp v with offered := some c, openOffer := true, onLine := true } := by
  obtain ⟨time, listed, -⟩ := p.candidate_spec c v h
  obtain ⟨⟨reason, due⟩, -⟩ := ((p.disp v).listed_iff c time).1 listed
  unfold Dispatch.granted
  split
  · rename_i reason' time' pending due'
    rw [due] at due'
    cases due'
    rfl
  all_goals
    rename_i other
    rw [due] at other
    cases other

/-! ### The end of a transmission -/

theorem State.completeD_alert {s : State} {tx : DTransmission} (sending : s.line.dTx = some tx) {v : Fin 8}
    {o : Option Content} {b : Bool} (alert : tx.origin = .alert v o b) : s.completeD =
      { s with
        line := { s.line with dTx := none }
        plant := s.plant.setDisp v
          ((s.plant.disp v).alertDone s.plant.session.active s.plant.now (s.plant.village v)) } := by
  simp only [State.completeD, sending, alert]
  rfl

theorem State.completeD_other {s : State} {tx : DTransmission} (sending : s.line.dTx = some tx)
    (other : ∀ v o b, tx.origin ≠ .alert v o b) : s.completeD = { s with line := { s.line with dTx := none } } := by
  simp only [State.completeD, sending]
  cases origin : tx.origin with
  | alert v o b => exact absurd origin (other v o b)
  | forward => rfl
  | reply => rfl
  | notice => rfl

section
variable {active : Bool} {now : Nat} {d : Dispatch} (vl : Village)

theorem Dispatch.alertDone_of_off (d : Dispatch) (off : d.onLine = false) : d.alertDone active now vl = d := by
  rw [Dispatch.alertDone, if_neg (by rw [off]; decide)]

theorem Dispatch.alertDone_confirmed (d : Dispatch) (on : d.onLine = true) (mode : vl.ackMode = .confirmed) :
    d.alertDone active now vl = d.doneConfirmed vl := by
  rw [Dispatch.alertDone, if_pos on, mode]

theorem Dispatch.alertDone_unconfirmed (d : Dispatch) (on : d.onLine = true) (mode : vl.ackMode = .unconfirmed) :
    d.alertDone active now vl = d.doneUnconfirmed active now vl := by
  rw [Dispatch.alertDone, if_pos on, mode]

variable {reason : DueReason} {time : Nat} {c : Content}

theorem Dispatch.doneConfirmed_await (due : d.state = .due reason time c) (offered : d.offered = some c)
    (why : reason = .change ∨ reason = .retry) : d.doneConfirmed vl =
      { d with onLine := false, state := .await, retry := d.retry + 1, ackTimer := some vl.ackTimeout } := by
  rcases why with rfl | rfl <;> simp [Dispatch.doneConfirmed, due, offered, Timer.start]

theorem Dispatch.doneConfirmed_reach (due : d.state = .due .reach time c) (offered : d.offered = some c) :
    d.doneConfirmed vl = { d with onLine := false, state := .unreached, reachTimer := some vl.reachInterval } := by
  simp [Dispatch.doneConfirmed, due, offered, Timer.start]

theorem Dispatch.doneConfirmed_changed (due : d.state = .due reason time c) (other : d.offered ≠ some c) :
    d.doneConfirmed vl = { d with onLine := false } := by
  cases reason <;> simp [Dispatch.doneConfirmed, due, other]

theorem Dispatch.doneConfirmed_quiet (quiet : d.state = .quiet) : d.doneConfirmed vl = { d with onLine := false } := by
  simp [Dispatch.doneConfirmed, quiet]

end

theorem Dispatch.startRepeat_eq (interval : Nat) (d : Dispatch) : d.startRepeat interval =
    if d.state = .quiet ∧ d.delivered.marked = false ∧ d.delivered.level ≠ .clear then
      { d with repeatTimer := some interval }
    else d := by
  unfold Dispatch.startRepeat
  refine if_congr ?_ rfl rfl
  simp [Dispatch.isQuiet, and_assoc]

/-! ### The due test by its rows (R135 to R137) -/

theorem Dispatch.formContent_eq (active : Bool) (d : Dispatch) : d.formContent active =
    if d.handed.announced ≠ .clear then ⟨d.handed.announced, false⟩
    else if d.handed.permit = true ∧ (active = true ∨ d.delivered.marked = true ∨
        (d.openOffer = true ∧ d.offered.map Content.marked = some true)) then ⟨d.handed.exAnnounced, true⟩
    else ⟨.clear, false⟩ := by
  unfold Dispatch.formContent
  refine if_congr Iff.rfl rfl (if_congr ?_ rfl rfl)
  have marked : d.openMarked = true ↔ d.openOffer = true ∧ d.offered.map Content.marked = some true := by
    unfold Dispatch.openMarked
    cases d.offered <;> simp
  rw [Bool.and_eq_true, Bool.or_eq_true, Bool.or_eq_true, marked, or_assoc]

theorem Dispatch.suppresses_eq (d : Dispatch) (c : Content) : d.suppresses c = (!c.marked &&
    match c.level with
    | .watch => d.handed.mask.watch
    | .warn => d.handed.mask.warn
    | .evacuate => d.handed.mask.evacuate
    | .clear | .breach => false) := by
  unfold Dispatch.suppresses Mask.holds
  cases c.level <;> rfl

theorem Dispatch.wants_iff (d : Dispatch) (c : Content) : d.wants c = true ↔
    d.suppresses c = false ∧ c ≠ d.delivered ∧ ¬ (c.level = .clear ∧ d.delivered.level = .clear) := by
  simp [Dispatch.wants, and_assoc, imp_iff_not_or]

theorem Dispatch.corrects_iff (d : Dispatch) (c : Content) : d.corrects c = true ↔
    d.openOffer = true ∧ d.offered ≠ some c := by
  simp [Dispatch.corrects]

theorem Dispatch.pursues_iff (d : Dispatch) (c : Content) : d.pursues c = true ↔
    (∃ reason time, d.state = .due reason time c) ∨ ((d.state = .await ∨ d.state = .unreached) ∧ d.offered = some c) := by
  unfold Dispatch.pursues
  cases state : d.state with
  | due reason time pending => simp
  | quiet => simp
  | await => simp
  | unreached => simp

section
variable (active : Bool) (now : Nat) (d : Dispatch)

/-- The record with its content formed again, before the rows of the due test (R135, R137). -/
def Dispatch.formed : Dispatch :=
  { d with current := d.formContent active, suppressed := d.suppresses (d.formContent active) }

theorem Dispatch.dueTest_eq : d.dueTest active now =
    if d.wants (d.formContent active) || d.corrects (d.formContent active) then
      if d.pursues (d.formContent active) then d.formed active
      else
        match d.state with
        | .due _ time _ => { d.formed active with state := .due .change time (d.formContent active), retry := 0 }
        | .quiet | .await | .unreached => (d.formed active).becomeDue now (d.formContent active)
    else
      match d.state with
      | .due .repeated _ pending =>
        if pending = d.formContent active then d.formed active else { d.formed active with state := .quiet }
      | .due .change time _ =>
        if d.openOffer then { d.formed active with state := .due .change time (d.formContent active) }
        else { d.formed active with state := .quiet }
      | .due .retry _ _ | .due .reach _ _ | .quiet | .await | .unreached => d.formed active := rfl

end

end Sys2Proof.Machine

namespace Sys2Proof.Proofs

open Sys2Proof.Machine

/-- Settles O15, from the list after its first entry. -/
theorem arbiterOrder : Obligations.ArbiterOrder := by
  intro s run
  refine ⟨fun busy => exec_grant_none run (busy.imp_right .inl), fun idle up => ⟨fun c v candidate urgent =>
    exec_grant run idle up (State.nextGrant_of_urgent candidate urgent), fun calm => ?_⟩⟩
  have list := State.nextGrant_of_calm calm
  refine ⟨fun f rest queue full last => exec_grant run idle up ?_, fun short => ?_⟩
  · rw [list, if_pos ⟨full, last⟩, queue]
    rfl
  · rw [if_neg (by rintro ⟨full, last⟩; exact short.elim (fun less => absurd full (Nat.not_le.2 less)) last)] at list
    refine ⟨fun c v candidate => exec_grant run idle up ?_, fun none => ⟨fun r rest replies => exec_grant run idle up ?_,
      fun silent => ⟨fun n rest notices => exec_grant run idle up ?_, fun quiet => ⟨fun f rest queue =>
        exec_grant run idle up ?_, fun empty => exec_grant_none run (.inr (.inr ?_))⟩⟩⟩⟩
    · rw [list, candidate]
      rfl
    · rw [list, none, replies]
      rfl
    · rw [list, none, silent, notices]
      rfl
    · rw [list, none, silent, quiet, queue]
      rfl
    · rw [list, none, silent, quiet, empty]
      rfl

/-- Settles O16, by what is granted. -/
theorem grantFixesFrame : Obligations.GrantFixesFrame := by
  intro s g run idle up next own line
  rw [exec_grant run idle up next]
  refine congrArg Host.Outcome.next ?_
  cases g with
  | forward f => rfl
  | reply r =>
    dsimp only [State.give]
    rw [Reply.payload, ReqOutcome.field8_code]
    rfl
  | notice n =>
    dsimp only [State.give]
    rw [Notice.payload, NoticeKind.field8_code]
    rfl
  | candidate v c =>
    have granted := Plant.granted_of_candidate (State.nextGrant_holds next)
    dsimp only [State.give]
    rw [granted]
    change { s with
      line := line (own _ 0x20 _ (alertPayload s.plant v c)) _
      plant := s.plant.setDisp v _ } = _
    clear_value own
    rw [alertPayload_eq]
    generalize (if c.marked = true then s.plant.session.current else _) = barrier
    cases barrier <;> rfl

/-- Settles O17: the completion by what was on the line, and the due test by its rows. -/
theorem dTransmitCompletion : Obligations.DTransmitCompletion := by
  constructor
  · intro s tx run sending idle
    have row : exec .dTransmitCompletion s = .next s.completeD := congrArg Host.Outcome.next (State.running_of_out run _)
    refine ⟨fun other => by rw [row, State.completeD_other sending other], ?_⟩
    intro v o b alert d vl
    have ended (e : Dispatch) (h : d.alertDone s.plant.session.active s.plant.now vl = e) :
        exec .dTransmitCompletion s = .next { idle with plant := s.plant.setDisp v e } := by
      rw [row, State.completeD_alert sending alert, ← h]
    clear_value d vl
    refine ⟨fun off => ended _ (d.alertDone_of_off vl off), fun on => ⟨fun confirmed => ?_, ?_⟩⟩
    · rw [d.alertDone_confirmed vl on confirmed] at ended
      exact ⟨fun reason time c due offered why => ended _ (Dispatch.doneConfirmed_await vl due offered why),
        fun time c due offered => ended _ (Dispatch.doneConfirmed_reach vl due offered),
        fun reason time c due other => ended _ (Dispatch.doneConfirmed_changed vl due other),
        fun quiet => ended _ (Dispatch.doneConfirmed_quiet vl quiet)⟩
    · intro unconfirmed c offered e
      refine ended _ ?_
      rw [d.alertDone_unconfirmed vl on unconfirmed, Dispatch.doneUnconfirmed, Dispatch.startRepeat_eq,
        show d.offered.getD d.delivered = c by rw [offered]; rfl]
  · intro d active now content suppressed
    have hcontent : ∀ d, content d = d.formContent active := fun d => (d.formContent_eq active).symm
    have hsuppressed : ∀ d c, suppressed d c = d.suppresses c := fun d c => (d.suppresses_eq c).symm
    clear_value content suppressed
    obtain rfl : content = fun d => d.formContent active := funext hcontent
    obtain rfl : suppressed = fun d c => d.suppresses c := funext₂ hsuppressed
    intro c e wanted correction pursuing
    have moved : (d.wants c || d.corrects c) = true ↔ wanted ∨ correction := by
      rw [Bool.or_eq_true, d.wants_iff, d.corrects_iff]
    have pursued : d.pursues c = true ↔ pursuing := d.pursues_iff c
    have test := d.dueTest_eq active now
    change _ = if (d.wants c || d.corrects c) = true then _ else _ at test
    refine ⟨fun want pursue => ?_, fun want free => ?_, fun settled => ?_, fun _ => rfl⟩
    · rw [test, if_pos (moved.2 want), if_pos (pursued.2 pursue)]
      rfl
    · rw [if_pos (moved.2 want), if_neg (mt pursued.1 free)] at test
      refine ⟨fun other => ?_, fun reason time old due => ?_⟩
      · cases state : d.state with
        | due reason time old => exact absurd state (other reason time old)
        | quiet =>
          rw [test, state]
          rfl
        | await =>
          rw [test, state]
          rfl
        | unreached =>
          rw [test, state]
          rfl
      · rw [test, due]
        rfl
    · rw [if_neg (mt moved.1 settled)] at test
      refine ⟨fun kept => ?_, fun time due => ?_, fun time old due other => ?_, fun time old due closed => ?_,
        fun time old due opened => ?_⟩
      · cases state : d.state with
        | due reason time old =>
          rw [test, state]
          rcases kept reason time old state with rfl | rfl <;> rfl
        | quiet =>
          rw [test, state]
          rfl
        | await =>
          rw [test, state]
          rfl
        | unreached =>
          rw [test, state]
          rfl
      · rw [test, due]
        exact if_pos rfl
      · rw [test, due]
        exact if_neg other
      · rw [test, due]
        exact if_neg (by rw [closed]; decide)
      · rw [test, due]
        exact if_pos opened

end Sys2Proof.Proofs
end

section
/-! Conditioning: what one reading makes of a path, a surge ring and a wire, and what the channel hands to its barrier. -/

namespace Sys2Proof.Machine

/-! ### One reading on a path (R51 to R56) -/

/-- The value that the slew limit puts in place of a stage, if it does (R53). -/
def Channel.held (ch : Channel) (s : StagePath) (stage : Nat) : Option Nat :=
  s.previous.bind fun v =>
    if ch.slew ≠ 0 ∧ ch.slew < max stage v - min stage v ∧ s.spikeRun + 1 < ch.spikeAccept then
      some (if v < stage then v + ch.slew else v - ch.slew)
    else none

theorem slewLimit_eq (ch : Channel) (s : StagePath) (stage : Nat) :
    slewLimit ch.slew ch.spikeAccept s.previous s.spikeRun stage =
      ((ch.held s stage).getD stage, if (ch.held s stage).isSome then s.spikeRun + 1 else 0) := by
  unfold slewLimit Channel.held
  cases s.previous with
  | none => rfl
  | some v =>
    have gap : stageGap stage v = max stage v - min stage v := by
      unfold stageGap
      omega
    rw [Option.bind_some, ← gap]
    dsimp only
    by_cases near : ch.slew = 0 ∨ stageGap stage v ≤ ch.slew
    · rw [if_pos near, if_neg (c := ch.slew ≠ 0 ∧ _) (by omega)]
      rfl
    · rw [if_neg near]
      by_cases run : s.spikeRun + 1 < ch.spikeAccept
      · rw [if_pos run, if_pos (c := ch.slew ≠ 0 ∧ _) ⟨by omega, by omega, run⟩]
        rfl
      · rw [if_neg run, if_neg (c := ch.slew ≠ 0 ∧ _) (fun h => run h.2.2)]
        rfl

theorem clampStage_eq (x : Int) :
    clampStage x = ((max 0 (min x 4095)).toNat, decide (x < 0 ∨ 4095 < x)) := by
  have most : ((Config.stageMax : Nat) : Int) = 4095 := rfl
  unfold clampStage
  rw [most]
  split_ifs with low high
  · rw [decide_eq_true (.inl low), show (max 0 (min x 4095)).toNat = 0 by omega]
  · rw [decide_eq_true (.inr high), show (max 0 (min x 4095)).toNat = 4095 by omega]
    rfl
  · rw [decide_eq_false (by omega), show (max 0 (min x 4095)).toNat = x.toNat by omega]

theorem pushRing_eq (window v : Nat) (ring : List Nat) :
    pushRing window v ring = (ring ++ [v]).drop ((ring ++ [v]).length - window) := by simp [pushRing]

/-- A missing reading, and whether it withdraws a VALID path (R51). -/
theorem StagePath.condition_missing (ch : Channel) (s : StagePath) : s.condition ch 65535 =
    (if min (s.missRun + 1) 15 < ch.missLimit then { s with missRun := min (s.missRun + 1) 15 }
      else { s with missRun := min (s.missRun + 1) 15, previous := none, ring := [], spikeRun := 0,
                    latest := none, valid := false },
      s.valid && decide (ch.missLimit ≤ min (s.missRun + 1) 15)) := by
  show s.miss ch.missLimit = _
  unfold StagePath.miss
  rw [show Config.missRunMax = 15 from rfl]
  dsimp only
  by_cases few : min (s.missRun + 1) 15 < ch.missLimit
  · rw [if_pos few, if_pos few, decide_eq_false (by omega), Bool.and_false]
  · rw [if_neg few, if_neg few, decide_eq_true (by omega), Bool.and_true]
    rfl

/-- A path after a value: its ring, and what the slew limit held. -/
def StagePath.taken (ch : Channel) (s : StagePath) (scaled : Int) : StagePath :=
  let stage := (max 0 (min scaled 4095)).toNat
  let held := ch.held s stage
  let all := s.ring ++ [held.getD stage]
  let ring := all.drop (all.length - ch.window)
  { valid := ch.eligible, previous := some (held.getD stage), spikeRun := if held.isSome then s.spikeRun + 1 else 0,
    missRun := 0, ring := ring, latest := some (ring.sum / ring.length), clamped := decide (scaled < 0 ∨ 4095 < scaled) }

theorem StagePath.condition_value (ch : Channel) (s : StagePath) {raw : Nat} (h : raw ≠ 65535) :
    s.condition ch raw = (s.taken ch (ch.scaled raw), ch.eligible) := by
  rw [StagePath.condition, if_neg (show raw ≠ Config.missingRaw from h), StagePath.value, clampStage_eq]
  dsimp only
  rw [slewLimit_eq]
  dsimp only
  rw [pushRing_eq]
  rfl

/-! ### Values stay within 0..4095 (R52 to R54) -/

/-- A path whose values and ring are in range. -/
structure StagePath.InRange (window : Nat) (s : StagePath) : Prop where
  length : s.ring.length ≤ window
  ring : ∀ v ∈ s.ring, v ≤ 4095
  previous : ∀ v, s.previous = some v → v ≤ 4095
  latest : ∀ v, s.latest = some v → v ≤ 4095

theorem Channel.held_le {ch : Channel} {s : StagePath} {stage v : Nat} (previous : ∀ v, s.previous = some v → v ≤ 4095)
    (most : stage ≤ 4095) (h : ch.held s stage = some v) : v ≤ 4095 := by
  obtain ⟨w, last, h⟩ := Option.bind_eq_some_iff.1 h
  have := previous w last
  split_ifs at h with far rising
  · obtain rfl := Option.some.inj h
    obtain ⟨-, far, -⟩ := far
    omega
  · obtain rfl := Option.some.inj h
    omega

theorem mean_le {l : List Nat} {m : Nat} (h : ∀ v ∈ l, v ≤ m) : l.sum / l.length ≤ m := by
  have total : l.sum ≤ l.length * m := by simpa using List.sum_le_card_nsmul l m h
  exact Nat.div_le_of_le_mul total

theorem StagePath.InRange.condition {s : StagePath} {ch : Channel} (h : s.InRange ch.window) (raw : Nat) :
    (s.condition ch raw).1.InRange ch.window := by
  by_cases missing : raw = 65535
  · subst missing
    rw [StagePath.condition_missing]
    dsimp only
    split_ifs
    · exact ⟨h.length, h.ring, h.previous, h.latest⟩
    · exact ⟨Nat.zero_le _, fun _ hv => absurd hv (List.not_mem_nil), fun _ hv => (by cases hv), fun _ hv => (by cases hv)⟩
  · rw [StagePath.condition_value ch s missing]
    have stage : (max 0 (min (ch.scaled raw) 4095)).toNat ≤ 4095 := by omega
    have value : (ch.held s (max 0 (min (ch.scaled raw) 4095)).toNat).getD (max 0 (min (ch.scaled raw) 4095)).toNat ≤ 4095 := by
      cases held : ch.held s (max 0 (min (ch.scaled raw) 4095)).toNat with
      | none => exact stage
      | some v => exact Channel.held_le h.previous stage held
    have ring : ∀ v ∈ (s.taken ch (ch.scaled raw)).ring, v ≤ 4095 := fun v hv => by
      rcases List.mem_append.1 (List.mem_of_mem_drop hv) with old | new
      · exact h.ring v old
      · rw [List.mem_singleton.1 new]
        exact value
    refine ⟨?_, ring, fun v hv => ?_, fun v hv => ?_⟩
    · simp only [StagePath.taken, List.length_drop]
      omega
    · rw [← Option.some.inj hv]
      exact value
    · rw [← Option.some.inj hv]
      exact mean_le ring

/-! ### Patterns (R156) -/

/-- The pattern record after a yield. -/
theorem Pattern.yield_record (q : Pattern) (r : Nat) : (q.yield r).2 =
    { q with yields := min (q.yields + 1) 65535, ramp := if q.kind = .ramp then q.ramp + BitVec.ofInt 16 q.step else q.ramp,
             phaseB := if q.kind = .alternate then !q.phaseB else q.phaseB
             gen := if q.kind = .prbs then prbsStep q.gen else q.gen } := by
  unfold Pattern.yield
  cases q.kind <;> simp [raise, Config.counterMax]

theorem Pattern.yield_raw (q : Pattern) (r : Nat) : (q.yield r).1 =
    match q.kind with
    | .none => r
    | .ramp => q.ramp.toNat
    | .alternate => (if q.phaseB then q.valueB else q.valueA).toNat
    | .prbs => (prbsStep q.gen).toNat := by
  unfold Pattern.yield
  cases q.kind <;> rfl

/-! ### Surge rings (R60, R61) -/

theorem enterRing_eq {now r : Nat} (small : r ≤ 65535) (ring : List (Nat × Nat)) : enterRing now r ring =
    match ring.getLast? with
    | some (time, n) =>
      if time = now ∨ ring.length = 16 then ring.dropLast ++ [(time, min (n + r) 65535)] else ring ++ [(now, r)]
    | none => [(now, r)] := by
  have kept : min r Config.counterMax = r := Nat.min_eq_left small
  unfold enterRing
  rw [kept]
  rcases List.eq_nil_or_concat ring with rfl | ⟨older, ⟨time, n⟩, rfl⟩
  · rfl
  · rw [List.concat_eq_append, List.reverse_append, List.getLast?_append_of_ne_nil _ (by simp), List.dropLast_concat]
    simp only [List.reverse_singleton, List.singleton_append, List.getLast?_singleton, List.reverse_reverse]
    rfl

theorem Channel.testSurge_eq (ch : Channel) (now : Nat) : ch.testSurge now =
    let ring := ch.surgeRing.filter fun e => now - e.1 < ch.surgeWindow
    { ch with surgeRing := ring, windowSum := min (ring.map Prod.snd).sum 65535,
              surging := ch.valid && decide (ch.surgeThreshold ≤ min (ring.map Prod.snd).sum 65535) } := by
  have test (sum : Nat) : Nat.ble ch.surgeThreshold sum = decide (ch.surgeThreshold ≤ sum) := by
    rw [Bool.eq_iff_iff, Nat.ble_eq, decide_eq_true_iff]
  rw [Channel.testSurge]
  dsimp only
  rw [test]
  rfl

/-! ### Reports (R56, R57) -/

theorem Plant.vote_session (p : Plant) (k : Fin 4) : (p.vote k).session = p.session := by
  have counted : (p.countVotes k).session = p.session := (p.countVotes_spec k).only.session
  unfold Plant.vote
  split
  · split
    · exact (Plant.offer_session _ _ _).trans counted
    · exact counted
  · rfl
  · rfl

theorem Plant.reportReal_session (p : Plant) (ch : Channel) (report : Bool) : (p.reportReal ch report).session = p.session := by
  unfold Plant.reportReal
  split
  · exact p.vote_session _
  · rfl

/-- A report reaches an assessment of the channel's barrier. -/
def Plant.reported (p : Plant) (barrier : Option (Fin 4)) (report : Bool) (assess : Plant → Fin 4 → Plant) : Plant :=
  barrier.elim p fun k => if report = true then assess p k else p

theorem Plant.reportReal_eq (p : Plant) (ch : Channel) (report : Bool) :
    p.reportReal ch report = p.reported ch.barrier report Plant.vote := by
  unfold Plant.reportReal Plant.reported
  cases ch.barrier <;> cases report <;> rfl

theorem Plant.reportExercise_eq (p : Plant) (ch : Channel) (report : Bool) :
    p.reportExercise ch report = p.reported ch.barrier report Plant.exerciseVote := by
  unfold Plant.reportExercise Plant.reported
  cases ch.barrier <;> cases report <;> rfl

theorem Plant.reportSurge_eq (p : Plant) (ch : Channel) :
    p.reportSurge ch = p.reported ch.barrier true Plant.assessSurge := by
  unfold Plant.reportSurge Plant.reported
  cases ch.barrier <;> rfl

theorem Plant.reportLatch_eq (p : Plant) (ch : Channel) (changed : Bool) :
    p.reportLatch ch changed = p.reported ch.barrier changed Plant.assessBreach := by
  unfold Plant.reportLatch Plant.reported
  cases ch.barrier <;> cases changed <;> rfl

/-! ### The rows of a reading (R50) -/

section
variable {p : Plant} {c : Fin 48} {r : Nat}

theorem Plant.reading_of_idle (idle : (p.channel c).inUse = false ∨ (p.channel c).enabled = false) : p.reading c r = p := by
  unfold Plant.reading
  rcases idle with h | h <;> simp [h]

section
variable (use : (p.channel c).inUse = true) (on : (p.channel c).enabled = true)
include use on

theorem Plant.reading_stage (kind : (p.channel c).kind = .stage) : p.reading c r = p.stageArrival c r := by
  simp [Plant.reading, use, on, kind]

theorem Plant.reading_surge (kind : (p.channel c).kind = .surge) : p.reading c r = p.surgeArrival c r := by
  simp [Plant.reading, use, on, kind]

theorem Plant.reading_wire (kind : (p.channel c).kind = .wire) : p.reading c r = p.wireArrival c r := by
  simp [Plant.reading, use, on, kind]

end

/-- The channel's exercise path is driven: it is a channel of the session barrier (R50). -/
def Plant.drives (p : Plant) (c : Fin 48) : Prop :=
  (p.channel c).barrier ≠ none ∧ p.session.active = true ∧ p.session.barrier = (p.channel c).barrier

theorem Plant.drives_iff : p.drives c ↔
    (p.channel c).barrier.isSome = true ∧ p.session.current = (p.channel c).barrier := by
  unfold Plant.drives
  cases barrier : (p.channel c).barrier with
  | none => simp
  | some k => simp [Plant.current_some_iff]

/-- The channel after its real path conditioned a reading, and the plant after the report of that path. -/
def Plant.realArrival (p : Plant) (c : Fin 48) (r : Nat) : Plant :=
  (p.setChannel c { p.channel c with real := ((p.channel c).real.condition (p.channel c) r).1 }).reported
    (p.channel c).barrier ((p.channel c).real.condition (p.channel c) r).2 Plant.vote

theorem Plant.stageArrival_eq : p.stageArrival c r = (p.realArrival c r).driveExercise c r := by
  rw [Plant.realArrival, ← Plant.reportReal_eq]
  rfl

theorem Plant.realArrival_holds (p : Plant) (c : Fin 48) (r : Nat) : (p.realArrival c r).channel c =
      { p.channel c with real := ((p.channel c).real.condition (p.channel c) r).1 } ∧
    (p.realArrival c r).pattern c = p.pattern c ∧ (p.realArrival c r).session = p.session := by
  unfold Plant.realArrival
  rw [← Plant.reportReal_eq]
  have held := Plant.ChannelSideOnly.setChannel_barrierSide (Plant.reportReal_step (p.setChannel c { p.channel c with
    real := ((p.channel c).real.condition (p.channel c) r).1 }) (p.channel c)
    ((p.channel c).real.condition (p.channel c) r).2).1.only c
  rw [if_pos rfl] at held
  exact ⟨held.1, held.2, Plant.reportReal_session _ _ _⟩

theorem Plant.driveExercise_of_driven {q : Plant} (driven : q.drives c) : q.driveExercise c r =
    ((q.setPattern c ((q.pattern c).yield r).2).setChannel c { q.channel c with
      exer := ((q.channel c).exer.condition (q.channel c) ((q.pattern c).yield r).1).1 }).reported (q.channel c).barrier
      ((q.channel c).exer.condition (q.channel c) ((q.pattern c).yield r).1).2 Plant.exerciseVote := by
  rw [Plant.driveExercise, if_pos (Plant.drives_iff.1 driven), ← Plant.reportExercise_eq]

theorem Plant.driveExercise_of_not_driven {q : Plant} (undriven : ¬ q.drives c) : q.driveExercise c r = q := by
  rw [Plant.driveExercise, if_neg (mt Plant.drives_iff.2 undriven)]

theorem Plant.reported_channel (p : Plant) (c : Fin 48) (ch : Channel) (barrier : Option (Fin 4)) (report : Bool)
    (assess : Plant → Fin 4 → Plant) (only : ∀ q k, (q : Plant).BarrierSideOnly (assess q k)) :
    ((p.setChannel c ch).reported barrier report assess).channel c = ch ∧
    ((p.setChannel c ch).reported barrier report assess).pattern c = p.pattern c := by
  have side : (p.setChannel c ch).BarrierSideOnly ((p.setChannel c ch).reported barrier report assess) := by
    unfold Plant.reported
    cases barrier with
    | none => exact .refl _
    | some k =>
      show Plant.BarrierSideOnly _ (if _ then _ else _)
      split_ifs
      · exact only _ k
      · exact .refl _
  have held := Plant.ChannelSideOnly.setChannel_barrierSide side c
  rw [if_pos rfl] at held
  exact held

end

end Sys2Proof.Machine

namespace Sys2Proof.Proofs

open Sys2Proof.Machine

/-- Settles O11, by the channel's kind. -/
theorem conditioningFollowsChain : Obligations.ConditioningFollowsChain := by
  intro p c r small ch q t chain reports driven lfsr raw yielded inRange told
  have chained (s : StagePath) (raw : Nat) : (chain s raw, reports s raw) = s.condition ch raw := by
    by_cases missing : raw = 65535
    · subst missing
      rw [StagePath.condition_missing]
      refine Prod.ext ?_ ?_
      · show chain s 65535 = _
        dsimp only [chain]
        rw [if_pos rfl]
      show reports s 65535 = _
      dsimp only [reports]
      rw [if_pos rfl]
    · rw [StagePath.condition_value ch s missing]
      refine Prod.ext (if_neg missing) ?_
      show reports s raw = _
      dsimp only [reports]
      rw [if_neg missing]
  have telling : told = fun p report assess => p.reported ch.barrier report assess := by
    funext p report assess
    dsimp only [told, Plant.reported]
    generalize ch.barrier = barrier
    cases barrier <;> rfl
  have ranged (s : StagePath) : inRange s ↔ s.InRange ch.window :=
    ⟨fun ⟨length, ring, previous, latest⟩ => ⟨length, ring, previous, latest⟩,
      fun ⟨length, ring, previous, latest⟩ => ⟨length, ring, previous, latest⟩⟩
  have yielding : (raw, yielded) = q.yield r :=
    Prod.ext (q.yield_raw r).symm (q.yield_record r).symm
  clear_value chain reports inRange told raw yielded
  obtain rfl : chain = fun s raw => (s.condition ch raw).1 := funext₂ fun s raw => congrArg Prod.fst (chained s raw)
  obtain rfl : reports = fun s raw => (s.condition ch raw).2 := funext₂ fun s raw => congrArg Prod.snd (chained s raw)
  obtain rfl : raw = (q.yield r).1 := congrArg Prod.fst yielding
  obtain rfl : yielded = (q.yield r).2 := congrArg Prod.snd yielding
  subst telling
  obtain ⟨step, -, others⟩ := p.reading_spec c r
  refine ⟨Plant.reading_of_idle, fun use on => ⟨others, step.only.stations, step.only.tables, step.only.now, ?_, ?_, ?_⟩⟩
  · intro kind real voted
    have arrival : t = (p.realArrival c r).driveExercise c r := (Plant.reading_stage use on kind).trans Plant.stageArrival_eq
    obtain ⟨channel, pattern, session⟩ := p.realArrival_holds c r
    have drives : (p.realArrival c r).drives c ↔ driven := by
      rw [Plant.drives, channel, session]
    have driving (drive : driven) : t.channel c = { real with exer := (ch.exer.condition ch (q.yield r).1).1 } ∧
        t.pattern c = (q.yield r).2 ∧
        t = ((voted.setPattern c (q.yield r).2).setChannel c
          { real with exer := (ch.exer.condition ch (q.yield r).1).1 }).reported
          ch.barrier (ch.exer.condition ch (q.yield r).1).2 Plant.exerciseVote := by
      rw [arrival, Plant.driveExercise_of_driven (drives.2 drive), channel, pattern]
      have held := Plant.reported_channel ((p.realArrival c r).setPattern c (q.yield r).2) c
        { real with exer := (ch.exer.condition ch (q.yield r).1).1 } ch.barrier (ch.exer.condition ch (q.yield r).1).2
        Plant.exerciseVote fun q k => (q.exerciseVote_step k).only
      exact ⟨held.1, held.2.trans (Plant.pattern_setPattern ..), rfl⟩
    have stopping (still : ¬ driven) : t.channel c = real ∧ t.pattern c = q ∧ t = voted := by
      rw [arrival, Plant.driveExercise_of_not_driven (mt drives.1 still), channel, pattern]
      exact ⟨rfl, rfl, rfl⟩
    refine ⟨driving, stopping, fun range => ?_, fun range => ?_⟩
    · have path : (t.channel c).real = (ch.real.condition ch r).1 := by
        by_cases drive : driven
        · rw [(driving drive).1]
        · rw [(stopping drive).1]
      rw [path]
      exact (ranged _).2 (((ranged _).1 range).condition r)
    · by_cases drive : driven
      · rw [(driving drive).1]
        exact (ranged _).2 (((ranged _).1 range).condition _)
      · rw [(stopping drive).1]
        exact range
  · intro kind aged entered kept sum
    have entering : entered = enterRing p.now r aged := (enterRing_eq small aged).symm
    clear_value entered
    subst entering
    have arrival : t = (p.setChannel c _).reported ch.barrier true Plant.assessSurge :=
      (Plant.reading_surge use on kind).trans (Plant.reportSurge_eq _ _)
    obtain ⟨channel, pattern⟩ := Plant.reported_channel p c _ ch.barrier true Plant.assessSurge
      fun q k => (q.assessSurge_step k).only
    rw [← arrival] at channel pattern
    refine ⟨pattern, ?_, ?_⟩
    · rw [channel]
      rw [Channel.testSurge_eq]
      rfl
    · rw [channel]
      exact arrival
  · intro kind
    have arrival : t = (p.setChannel c _).reported ch.barrier _ Plant.assessBreach :=
      (Plant.reading_wire use on kind).trans (Plant.reportLatch_eq _ _ _)
    obtain ⟨channel, pattern⟩ := Plant.reported_channel p c _ ch.barrier _ Plant.assessBreach
      fun q k => (q.assessBreach_step k).only
    rw [← arrival] at channel pattern
    have broken : (r != 0) = decide (r ≠ 0) := by
      by_cases zero : r = 0 <;> simp [zero]
    have read : (if (r != 0) = true then WireReading.broken else .intact) = if r = 0 then .intact else .broken := by
      by_cases zero : r = 0 <;> simp [zero]
    rw [read, broken] at channel arrival
    refine ⟨pattern, channel, ?_⟩
    rw [channel]
    exact arrival

end Sys2Proof.Proofs
end

section
/-! Timer expiries: silence and lapses, surge holds, hold timers, the dispatcher's timers, the end of a session. -/

namespace Sys2Proof.Machine

theorem State.expire_due {s : State} {timer : Plant → Timer} {effect : Plant → Plant} (run : s.nresetLow = false)
    (due : timer s.plant = some 0) : s.expire timer effect = { s with plant := effect s.plant } :=
  (State.running_of_out run _).trans (if_pos ((Timer.due_iff _).2 due))

/-! ### Lapses -/

section
variable (p : Plant) (old : Channel)

theorem Plant.reportLost_silent (h : old.inUse = false ∨ old.kind = .wire ∨ old.barrier = none) : p.reportLost old = p := by
  by_cases use : old.inUse = true
  · rw [Plant.reportLost, if_pos use]
    rcases h with unused | wire | none
    · rw [unused] at use
      exact absurd use (by decide)
    · rw [wire]
    · cases kind : old.kind with
      | stage =>
        dsimp only
        rw [Plant.reportExercise_eq, Plant.reportReal_eq, none]
        rfl
      | surge =>
        dsimp only
        rw [Plant.reportSurge_eq, none]
        split_ifs <;> rfl
      | wire => rfl
  · rw [Plant.reportLost, if_neg use]

theorem Plant.reportLost_stage {k : Fin 4} (use : old.inUse = true) (barrier : old.barrier = some k) (kind : old.kind = .stage) :
    p.reportLost old =
      if old.exer.valid = true then (if old.real.valid = true then p.vote k else p).exerciseVote k
      else if old.real.valid = true then p.vote k else p := by
  rw [Plant.reportLost, if_pos use, kind]
  dsimp only
  rw [Plant.reportExercise_eq, Plant.reportReal_eq, barrier]
  rfl

theorem Plant.reportLost_surge {k : Fin 4} (use : old.inUse = true) (barrier : old.barrier = some k) (kind : old.kind = .surge) :
    p.reportLost old = if old.valid = true then p.assessSurge k else p := by
  rw [Plant.reportLost, if_pos use, kind]
  dsimp only
  rw [Plant.reportSurge_eq, barrier]
  rfl

end

/-! ### Silence (R37 to R39) -/

section
variable {p : Plant} {i : Fin 24}

theorem Plant.silenceExpired_live (live : (p.station i).state = .live) : p.silenceExpired i =
    p.setStation i { p.station i with state := .late, timer := some (p.station i).timeout } := by
  rw [Plant.silenceExpired]
  dsimp only
  rw [live]
  rfl

theorem Plant.silenceExpired_late (late : (p.station i).state = .late) : p.silenceExpired i =
    ((p.setStation i { p.station i with state := .silent p.now, timer := none }).lapseAll (p.station i).channels).post
      .stationSilent i.1 (((p.station i).lastSeq.map BitVec.toNat).getD 65535) := by
  rw [Plant.silenceExpired]
  dsimp only
  rw [late]
  rfl

end

/-! ### The surge hold (R105) -/

theorem Plant.setSurgeFlag_eq (p : Plant) (k : Fin 4) (flag : Bool) (timer : Timer) : p.setSurgeFlag k flag timer =
    if (p.barrier k).surgeFlag = flag then p.setBarrier k { p.barrier k with surgeFlag := flag, surgeTimer := timer }
    else (p.setBarrier k { p.barrier k with surgeFlag := flag, surgeTimer := timer }).recomputeFor k := rfl

theorem Plant.anySurging_iff (p : Plant) (k : Fin 4) :
    p.anySurging k = true ↔ ∃ c, (p.channel c).at k .surge = true ∧ (p.channel c).surges = true := by
  simp [Plant.anySurging, List.any_eq_true, Plant.mem_channelsAt]

theorem Channel.at_testSurge (ch : Channel) (now : Nat) (k : Fin 4) (kind : ChannelKind) :
    (ch.testSurge now).at k kind = ch.at k kind := rfl

/-- A channel would be found surging by a test (R61). -/
def Channel.wouldSurge (ch : Channel) (now : Nat) : Bool := (ch.testSurge now).surging

theorem Channel.surges_testSurge (ch : Channel) (now : Nat) : (ch.testSurge now).surges = ch.wouldSurge now := by
  rw [Channel.surges, Channel.wouldSurge, Channel.testSurge_eq]
  cases ch.valid <;> rfl

theorem Plant.surgeTested_anySurging (p : Plant) (k : Fin 4) : (p.surgeTested k).anySurging k = true ↔
    ∃ c, (p.channel c).at k .surge = true ∧ (p.channel c).wouldSurge p.now = true := by
  rw [Plant.anySurging_iff]
  refine exists_congr fun c => ?_
  rw [(p.surgeTested_spec k).2]
  by_cases surge : (p.channel c).at k .surge = true
  · rw [if_pos surge, Channel.at_testSurge, Channel.surges_testSurge]
  · rw [if_neg surge]
    exact iff_of_false (fun h => surge h.1) fun h => surge h.1

theorem Plant.surgeTested_barrier (p : Plant) (k j : Fin 4) : (p.surgeTested k).barrier j = p.barrier j := by
  rw [(p.surgeTested_spec k).1]
  rfl

theorem Plant.surgeHoldExpired_surging {p : Plant} {k : Fin 4}
    (found : ∃ c, (p.channel c).at k .surge = true ∧ (p.channel c).wouldSurge p.now = true) : p.surgeHoldExpired k =
      (p.surgeTested k).setSurgeFlag k (p.barrier k).surgeFlag (some (60 * (p.barrier k).surgeHold)) := by
  rw [p.surgeHoldExpired_eq, if_pos ((p.surgeTested_anySurging k).2 found)]
  rfl

theorem Plant.surgeHoldExpired_calm {p : Plant} {k : Fin 4}
    (calm : ¬ ∃ c, (p.channel c).at k .surge = true ∧ (p.channel c).wouldSurge p.now = true) : p.surgeHoldExpired k =
      (p.surgeTested k).setSurgeFlag k false none := by
  rw [p.surgeHoldExpired_eq, if_neg (mt (p.surgeTested_anySurging k).1 calm)]

theorem Plant.setSurgeFlag_only (p : Plant) (k : Fin 4) (flag : Bool) (timer : Timer) :
    p.setSurgeFlag k flag timer = { p with
      channels := (p.setSurgeFlag k flag timer).channels
      barriers := (p.setSurgeFlag k flag timer).barriers
      villages := (p.setSurgeFlag k flag timer).villages
      dispatch := (p.setSurgeFlag k flag timer).dispatch
      notices := (p.setSurgeFlag k flag timer).notices } := by
  have told := (p.setSurgeFlag_spec k flag timer).only
  refine told.eq.trans ?_
  rw [told.barriers, told.channels]
  rfl

/-- The surge hold's expiry tests the channels, writes flag and timer of the barrier and may tell the ladder (R105). -/
theorem Plant.surgeHoldExpired_frame (p : Plant) (k : Fin 4) (flag : Bool) (timer : Timer) :
    let q := (p.surgeTested k).setSurgeFlag k flag timer
    (∀ c, q.channel c = if (p.channel c).at k .surge then (p.channel c).testSurge p.now else p.channel c) ∧
    (∀ j, q.barrier j = if j = k then { p.barrier k with surgeFlag := flag, surgeTimer := timer } else p.barrier j) ∧
    q = { p with channels := q.channels, barriers := q.barriers, villages := q.villages, dispatch := q.dispatch,
                 notices := q.notices } ∧
    (let fallen := { p with channels := q.channels }.setBarrier k (q.barrier k)
     q = if (p.barrier k).surgeFlag = flag then fallen else fallen.recomputeFor k) := by
  obtain ⟨only, tested⟩ := p.surgeTested_spec k
  have step := (p.surgeTested k).setSurgeFlag_step k flag timer
  have barriers (j : Fin 4) : ((p.surgeTested k).setSurgeFlag k flag timer).barrier j =
      if j = k then { p.barrier k with surgeFlag := flag, surgeTimer := timer } else p.barrier j := by
    rw [Plant.setSurgeFlag_barrier, Plant.surgeTested_barrier, Plant.surgeTested_barrier]
  refine ⟨fun c => ?_, barriers, ?_, ?_⟩
  · rw [step.only.channel]
    exact tested c
  · generalize p.surgeTested k = r at only
    rw [only]
    exact Plant.setSurgeFlag_only _ k flag timer
  · intro fallen
    have fell : fallen = (p.surgeTested k).setBarrier k { p.barrier k with surgeFlag := flag, surgeTimer := timer } := by
      show Plant.setBarrier _ k _ = _
      rw [barriers, if_pos rfl, step.only.channels, ← only]
    rw [fell, Plant.setSurgeFlag_eq, Plant.surgeTested_barrier]

/-! ### Hold timers (R124, R125) -/

/-- An unlatched village whose hold timer is stopped, formed without a computed level of BREACH (R124). -/
theorem Village.form_unlatched {vl : Village} {barrier : Fin 4 → Barrier} (latch : vl.latch = false)
    (stopped : vl.holdTimer = none) (calm : (vl.form barrier).computed ≠ .breach) :
    (vl.form barrier).holdTimer = some (60 * vl.holdTime) ∧
    (vl.form barrier).announced =
      if vl.announced.code < (vl.form barrier).computed.code then (vl.form barrier).computed
      else if (vl.form barrier).computed = vl.announced then vl.announced else vl.announced.down := by
  have judged := (vl.withEntries barrier).judge_eq
  rw [Village.form_def] at calm ⊢
  generalize (vl.withEntries barrier).judge = w at judged calm ⊢
  have computed : w.latchBreach.announce.computed = w.computed := by rw [Village.announce_eq, Village.latchBreach_eq]
  rw [computed] at calm ⊢
  have unlatched : w.latchBreach = w := if_neg fun h => calm h.1
  have latch' : w.latch = false := by rw [judged]; exact latch
  have timer : w.holdTimer = none := by rw [judged]; exact stopped
  have announced : w.announced = vl.announced := by rw [judged]; rfl
  have time : w.holdTime = vl.holdTime := by rw [judged]; rfl
  rw [unlatched, Village.announce, if_neg (by rw [latch']; decide), announced, time, timer]
  split_ifs with rises stays running
  · exact ⟨rfl, rfl⟩
  · exact ⟨rfl, rfl⟩
  · exact absurd running (by decide)
  · exact ⟨rfl, rfl⟩

/-- A village formed with a latch set announces BREACH with its hold timer stopped (R123, R124). -/
theorem Village.form_of_latched {vl : Village} {barrier : Fin 4 → Barrier} (latched : (vl.form barrier).latch = true) :
    (vl.form barrier).announced = .breach ∧ (vl.form barrier).holdTimer = none := by
  rw [Village.form_def] at latched ⊢
  rcases ((vl.withEntries barrier).judge.latchBreach).announce_cases with ⟨-, announced, timer⟩ | ⟨unlatched, -, -⟩
  · exact ⟨announced, timer⟩
  · rw [Village.announce_eq] at latched
    rw [unlatched] at latched
    cases latched

theorem postInto_eq (now : Nat) (kind : NoticeKind) (subject value : Nat) (set : List Notice) :
    ((∀ n ∈ set, n.kind ≠ kind) → postInto now kind subject value set = set ++
      [{ kind := kind, subject := subject, value := value, count := 1, firstPost := now }]) ∧
    ((∃ n ∈ set, n.kind = kind) → postInto now kind subject value set = set.map fun n =>
      if n.kind = kind then { n with subject := subject, value := value, count := min (n.count + 1) 255 } else n) := by
  have held : (set.any fun n => n.kind == kind) = true ↔ ∃ n ∈ set, n.kind = kind := by
    simp [List.any_eq_true]
  refine ⟨fun none => ?_, fun some => ?_⟩
  · rw [postInto, if_neg (mt held.1 fun ⟨n, mem, same⟩ => none n mem same)]
  · rw [postInto, if_pos (held.2 some)]
    refine List.map_congr_left fun n _ => ?_
    simp only [beq_iff_eq]
    rfl

/-! ### The dispatcher's timers (R143 to R145) -/

theorem Plant.ackExpired_retry {p : Plant} {v : Fin 8} {c : Content} (offered : (p.disp v).offered = some c)
    (few : (p.disp v).retry < (p.village v).retryLimit) : p.ackExpired v =
      p.setDisp v { p.disp v with ackTimer := none, state := .due .retry p.now c } := by
  unfold Plant.ackExpired Dispatch.ackExpired
  rw [if_pos few]
  dsimp only [Dispatch.offerAgain]
  rw [offered]
  rfl

theorem Plant.ackExpired_unreached {p : Plant} {v : Fin 8} {c : Content} (offered : (p.disp v).offered = some c)
    (many : (p.village v).retryLimit ≤ (p.disp v).retry) : p.ackExpired v =
      (p.setDisp v { p.disp v with
        ackTimer := none
        state := .unreached
        reachTimer := some (p.village v).reachInterval
        unreachedSince := some ((p.disp v).unreachedSince.getD p.now) }).post .villageUnreached v.1 c.level.code := by
  unfold Plant.ackExpired Dispatch.ackExpired
  rw [if_neg (Nat.not_lt.2 many)]
  dsimp only
  rw [offered]
  rfl

theorem Dispatch.reachExpired_offered {d : Dispatch} {c : Content} (now : Nat) (offered : d.offered = some c) :
    d.reachExpired now = { d with reachTimer := none, state := .due .reach now c } := by
  unfold Dispatch.reachExpired Dispatch.offerAgain
  dsimp only
  rw [offered]

/-! ### The end of a session (R163) -/

theorem Village.clear_eq {vl : Village} (computed : vl.exComputed = .clear) (announced : vl.exAnnounced = .clear) :
    vl = { vl with exComputed := .clear, exAnnounced := .clear } := by
  cases vl
  cases computed
  cases announced
  rfl

theorem Plant.exercising_nodup (p : Plant) : p.exercising.Nodup := (List.nodup_finRange 8).filter _

theorem Plant.mem_exercising (p : Plant) (v : Fin 8) : v ∈ p.exercising ↔
    (p.village v).inUse = true ∧ ((p.village v).exComputed ≠ .clear ∨ (p.village v).exAnnounced ≠ .clear) := by
  simp [Plant.exercising, Village.exercising, List.mem_finRange]

end Sys2Proof.Machine

namespace Sys2Proof.Proofs

open Sys2Proof.Machine

/-- Settles O19: the lapse by kind, then the silence timer by the station's state. -/
theorem silenceTimerExpires : Obligations.SilenceTimerExpires := by
  unfold Obligations.SilenceTimerExpires
  intro path lapsed
  have lapsing : ∀ ch : Channel, ch.lapsed = lapsed ch := fun ch => rfl
  clear_value lapsed
  obtain rfl : lapsed = Channel.lapsed := funext fun ch => (lapsing ch).symm
  refine ⟨fun _ => rfl, fun p c => ⟨fun silent => Plant.reportLost_silent _ _ silent, fun k use barrier =>
    ⟨fun kind => Plant.reportLost_stage _ _ use barrier kind, fun kind => Plant.reportLost_surge _ _ use barrier kind⟩⟩,
    fun s i run due => ⟨fun live => ?_, fun late => ?_⟩⟩
  · rw [← Plant.silenceExpired_live live]
    exact congrArg Host.Outcome.next (State.expire_due run due)
  · have row : exec (.silenceTimerExpiry i) s = .next { s with plant := _ } := congrArg Host.Outcome.next
      ((State.expire_due run due).trans (congrArg (fun p => { s with plant := p }) (Plant.silenceExpired_late late)))
    refine ⟨_, row, rfl, ?_⟩
    obtain ⟨step, here, others, patterns, channels⟩ := s.plant.setStation_lapseAll_spec i
      { s.plant.station i with state := .silent s.plant.now, timer := none } _ (s.plant.station i).channels_nodup
    simp only [Station.mem_channels] at channels
    have value : (match (s.plant.station i).lastSeq with | some l => l.toNat | none => 65535) =
        ((s.plant.station i).lastSeq.map BitVec.toNat).getD 65535 := by
      cases (s.plant.station i).lastSeq <;> rfl
    refine ⟨here, others, fun c mapped => ?_, fun c unmapped => ?_, step.now, step.tables, patterns, ?_⟩
    · have fallen := (channels c).trans (if_pos mapped)
      exact ⟨fallen, (congrArg Channel.eligible fallen).trans (Channel.lapsed_spec _).1⟩
    · exact (channels c).trans (if_neg (by rw [unmapped]; decide))
    · intro posted
      have same : posted = ((s.plant.station i).lastSeq.map BitVec.toNat).getD 65535 := value
      clear_value posted
      subst same
      refine ⟨Plant.post_mem _ _ _ _, ?_⟩
      refine congrArg (fun st => Plant.post (Plant.lapseAll (s.plant.setStation i st) _) _ _ _) here.symm

/-- Settles O20, by whether a channel is found surging. -/
theorem surgeHoldExpires : Obligations.SurgeHoldExpires := by
  intro s k run due aged sum surging
  refine ⟨_, congrArg Host.Outcome.next (State.expire_due run due), rfl, ?_⟩
  have tested (ch : Channel) : ch.testSurge s.plant.now =
      { ch with surgeRing := aged ch, windowSum := sum ch, surging := surging ch } := ch.testSurge_eq _
  have surge (ch : Channel) : ch.wouldSurge s.plant.now = surging ch := congrArg Channel.surging (tested ch)
  clear_value surging sum aged
  by_cases found : ∃ c, (s.plant.channel c).at k .surge = true ∧ (s.plant.channel c).wouldSurge s.plant.now = true
  · rw [Plant.surgeHoldExpired_surging found]
    obtain ⟨channels, barriers, only, fell⟩ := s.plant.surgeHoldExpired_frame k (s.plant.barrier k).surgeFlag
      (some (60 * (s.plant.barrier k).surgeHold))
    simp only [tested] at channels
    refine ⟨channels, fun _ => ⟨(barriers k).trans (if_pos rfl), ?_⟩, fun calm => ?_,
      fun j hj => (barriers j).trans (if_neg hj), only⟩
    · exact fell.trans (if_pos rfl)
    · obtain ⟨c, at_, surges⟩ := found
      rw [surge, calm c at_] at surges
      cases surges
  · rw [Plant.surgeHoldExpired_calm found]
    obtain ⟨channels, barriers, only, fell⟩ := s.plant.surgeHoldExpired_frame k false none
    simp only [tested] at channels
    refine ⟨channels, fun some => ?_, fun _ => ⟨(barriers k).trans (if_pos rfl), ?_⟩,
      fun j hj => (barriers j).trans (if_neg hj), only⟩
    · simp only [surge] at found
      exact absurd some found
    · refine fell.trans ?_
      cases (s.plant.barrier k).surgeFlag <;> rfl

/-- Settles O21: the hold expiry by what the forming finds, and the posting by whether the kind is in the set. -/
theorem holdTimerExpires : Obligations.HoldTimerExpires := by
  refine ⟨fun s v run due use latch => ?_, fun p kind subject value => ?_⟩
  · refine ⟨_, congrArg Host.Outcome.next (State.expire_due run due), rfl, ?_⟩
    set stopped := s.plant.setVillage v { s.plant.village v with holdTimer := none }
    have formed : s.plant.VillageFormed (s.plant.holdExpired v) v (stopped.village v).latch (stopped.disp v) :=
      (stopped.recompute_formed v (by rw [Plant.village_setVillage]; exact use)).after rfl rfl fun w hw =>
        ⟨s.plant.village_setVillage_of_ne hw _, rfl⟩
    have unlatched : (stopped.village v).latch = false := by
      rw [Plant.village_setVillage]
      exact latch
    have here := (Plant.holdExpired_village use).1
    refine ⟨formed.only, formed.others, here, formed.handed, fun calm => ?_, fun breach => ?_⟩
    · have levels := Village.form_unlatched latch (vl := { s.plant.village v with holdTimer := none }) rfl (here ▸ calm)
      rw [← here] at levels
      exact ⟨levels.1, levels.2, formed.silent (.inr calm)⟩
    · have latched := formed.latched.2 (.inr breach)
      have levels := Village.form_of_latched (here ▸ latched)
      rw [← here] at levels
      exact ⟨levels.1, latched, levels.2, formed.raised unlatched breach⟩
  · exact ⟨rfl, (postInto_eq p.now kind subject value p.notices).1, (postInto_eq p.now kind subject value p.notices).2⟩

/-- Settles O22, timer by timer. -/
theorem dispatchTimersExpire : Obligations.DispatchTimersExpire := by
  intro s v run d vl
  refine ⟨fun c offered due => ⟨fun few => ?_, fun many => ?_⟩, fun c offered due => ?_, fun due => ?_⟩
  · rw [← Plant.ackExpired_retry offered few]
    exact congrArg Host.Outcome.next (State.expire_due run due)
  · rw [← Plant.ackExpired_unreached offered many]
    exact congrArg Host.Outcome.next (State.expire_due run due)
  · rw [← Dispatch.reachExpired_offered s.plant.now offered]
    exact congrArg Host.Outcome.next (State.expire_due run due)
  · exact congrArg Host.Outcome.next (State.expire_due run due)

/-- Settles O23, from what an end of session leaves. -/
theorem durationTimerEndsSession : Obligations.DurationTimerEndsSession := by
  intro s k run active barrier
  refine ⟨fun due => congrArg Host.Outcome.next (State.expire_due run due), fun reason => ⟨_, rfl, ?_⟩⟩
  obtain ⟨only, session, work, villages, handed, notices⟩ :=
    s.plant.endSessionOf_result reason s.plant.exercising s.plant.exercising_nodup active
  simp only [Plant.mem_exercising] at villages handed
  have reached (v : Fin 8) : (((s.plant.village v).inUse = true ∧
      ((s.plant.village v).exComputed ≠ .clear ∨ (s.plant.village v).exAnnounced ≠ .clear)) ∧ (s.plant.village v).inUse = true) ↔
      (s.plant.village v).inUse = true ∧
      ((s.plant.village v).exComputed ≠ .clear ∨ (s.plant.village v).exAnnounced ≠ .clear) :=
    ⟨And.left, fun h => ⟨h, h.1⟩⟩
  simp only [reached] at villages handed
  refine ⟨only, session, work, fun v use => ?_, fun v => ⟨villages v, handed v⟩, ?_⟩
  · rw [show (s.plant.endSession reason).village v = _ from villages v]
    split_ifs with level
    · exact ⟨rfl, rfl, rfl⟩
    · have clear : (s.plant.village v).exComputed = .clear ∧ (s.plant.village v).exAnnounced = .clear := by
        by_contra other
        exact level ⟨use, not_and_or.1 other⟩
      exact ⟨clear.1, clear.2, Village.clear_eq clear.1 clear.2⟩
  · obtain ⟨n, mem, kind, subject, value⟩ := s.plant.post_mem .exerciseEnded
      ((s.plant.session.barrier.map Fin.val).getD 255) reason.code
    rw [← notices] at mem
    refine ⟨n, mem, kind, ?_, ?_⟩
    · rw [subject, barrier]
      rfl
    · rw [value]
      cases reason <;> rfl

end Sys2Proof.Proofs
end

section
/-! The estimator's events: offers, the vote, the exercise vote, the surge and breach assessments, and the take of the head. -/

namespace Sys2Proof.Machine

/-! ### Offers (R92, R93) -/

section
variable {p : Plant} {o : EvalOwner} {stage : Nat}

theorem Plant.queued_iff (p : Plant) (o : EvalOwner) : p.queued o = true ↔ ∃ e ∈ p.evalQueue, e.owner = o := by
  simp [Plant.queued]

theorem Plant.beginEvaluation_of_busy (busy : p.flight ≠ none ∨ p.evalQueue = []) : p.beginEvaluation = p := by
  rcases p.beginEvaluation_cases with ⟨-, same⟩ | ⟨e, rest, f, idle, queue, -⟩
  · exact same
  · rcases busy with busy | empty
    · exact absurd idle busy
    · rw [queue] at empty
      cases empty

theorem Plant.offer_new (new : ∀ e ∈ p.evalQueue, e.owner ≠ o) :
    let appended : Plant := { p with evalQueue := p.evalQueue ++ [⟨o, stage⟩] }
    p.offer o stage = if p.evalQueue = [] ∧ p.flight = none then appended.beginEvaluation else appended := by
  intro appended
  have joined : p.enqueue o stage = { p with evalQueue := p.evalQueue ++ [⟨o, stage⟩] } :=
    if_neg fun queued => by
      obtain ⟨e, mem, same⟩ := (p.queued_iff o).1 queued
      exact new e mem same
  rw [Plant.offer_eq, joined]
  by_cases empty : p.evalQueue = []
  · by_cases idle : p.flight = none
    · rw [if_pos empty, if_pos ⟨empty, idle⟩]
    · rw [if_pos empty, if_neg fun both => idle both.2]
      exact Plant.beginEvaluation_of_busy (.inl idle)
  · rw [if_neg empty, if_neg fun both => empty both.1]

theorem Plant.offer_waiting (waiting : ∃ e ∈ p.evalQueue, e.owner = o) : p.offer o stage =
    { p.countSuperseded o with
      evalQueue := p.evalQueue.map fun e => if e.owner = o then { e with stage := stage } else e } := by
  have some : p.evalQueue ≠ [] := by
    rintro empty
    obtain ⟨e, mem, -⟩ := waiting
    rw [empty] at mem
    cases mem
  rw [Plant.offer_eq, if_neg some, Plant.enqueue, if_pos ((p.queued_iff o).2 waiting)]
  simp only [beq_iff_eq]

theorem Plant.countSuperseded_barrier_eq (p : Plant) (o : EvalOwner) (j : Fin 4) : (p.countSuperseded o).barrier j =
    if o = .barrier j then { p.barrier j with superseded := min ((p.barrier j).superseded + 1) 65535 } else p.barrier j := by
  cases o with
  | exercise => rfl
  | barrier k =>
    by_cases same : j = k
    · subst same
      rw [if_pos rfl, Plant.countSuperseded, Plant.barrier_setBarrier]
      rfl
    · rw [if_neg fun h => same (EvalOwner.barrier.inj h).symm, Plant.countSuperseded, Plant.barrier_setBarrier_of_ne _ same]

theorem Plant.countSuperseded_exercise_eq (p : Plant) (o : EvalOwner) : (p.countSuperseded o).exercise =
    if o = .exercise then { p.exercise with superseded := min (p.exercise.superseded + 1) 65535 } else p.exercise := by
  cases o with
  | exercise => rfl
  | barrier k => rfl

theorem Plant.countSuperseded_only (p : Plant) (o : EvalOwner) : p.countSuperseded o =
    { p with barriers := (p.countSuperseded o).barriers, exercise := (p.countSuperseded o).exercise } := by
  cases o <;> rfl

/-- Every barrier after an offer: the owner's superseded count rises if its entry waited (R92). -/
theorem Plant.offer_barrier_eq' (p : Plant) (o : EvalOwner) (stage : Nat) (j : Fin 4) : (p.offer o stage).barrier j =
    if (∃ e ∈ p.evalQueue, e.owner = o) ∧ o = .barrier j then
      { p.barrier j with superseded := min ((p.barrier j).superseded + 1) 65535 }
    else p.barrier j := by
  by_cases waiting : ∃ e ∈ p.evalQueue, e.owner = o
  · rw [Plant.offer_waiting waiting]
    refine (p.countSuperseded_barrier_eq o j).trans ?_
    simp only [waiting, true_and]
  · rw [if_neg fun both => waiting both.1, Plant.offer_barrier_eq, Plant.enqueue, if_neg (mt (p.queued_iff o).1 waiting)]
    rfl

end

/-! ### The vote (R88 to R90) -/

/-- The one value that a vote gives (R88). -/
def Voted (votes : List Nat) (stage : Nat) : Prop :=
  votes = [stage] ∨ (∃ x y, votes = [x, y] ∧ stage = max x y) ∨
    ∃ x y z, votes = [x, y, z] ∧ stage = max (min x y) (min (max x y) z)

theorem Voted.voteStage {votes : List Nat} {stage : Nat} (h : Voted votes stage) : voteStage votes = some stage := by
  rcases h with rfl | ⟨x, y, rfl, rfl⟩ | ⟨x, y, z, rfl, rfl⟩ <;> rfl

theorem qualityOf_eq (votes : List Nat) (assigned : Nat) : qualityOf votes.length assigned =
    if votes = [] then .blind else if votes.length = assigned then .good else .degraded := by
  unfold qualityOf
  refine if_congr List.length_eq_zero_iff rfl rfl

/-- The counts of a vote, and what a change of the quality causes (R88, R90). -/
theorem Plant.countVotes_eq (p : Plant) (k : Fin 4) :
    let counted := (p.barrier k).counted (p.realVotes k).length (p.assigned k)
    let quality := qualityOf (p.realVotes k).length (p.assigned k)
    p.countVotes k = (p.barrier k).estimate.elim (p.setBarrier k counted) fun e =>
      if (p.barrier k).voteQuality = some quality then p.setBarrier k counted
      else (if quality = .blind then (p.setBarrier k counted).post .barrierBlind k.1 e.fill
        else p.setBarrier k counted).recomputeFor k := by
  intro counted quality
  have unfolded : p.countVotes k = if counted.quality = (p.barrier k).quality then p.setBarrier k counted
      else ((p.setBarrier k counted).postBlind k).recomputeFor k := rfl
  have posted : (p.setBarrier k counted).postBlind k = if counted.quality = some .blind then
      (p.setBarrier k counted).post .barrierBlind k.1 ((counted.estimate.map Estimate.fill).getD 0)
      else p.setBarrier k counted := by
    rw [Plant.postBlind, Plant.barrier_setBarrier]
  rw [unfolded, posted]
  cases estimate : (p.barrier k).estimate with
  | none =>
    have same : counted.quality = (p.barrier k).quality := by
      simp only [Barrier.quality, counted, Barrier.counted, estimate]
    rw [if_pos same]
    rfl
  | some e =>
    have before : (p.barrier k).quality = (p.barrier k).voteQuality := by simp only [Barrier.quality, estimate]
    have now : counted.quality = some quality := by
      simp only [Barrier.quality, counted, Barrier.counted, estimate, quality]
    have fill : (counted.estimate.map Estimate.fill).getD 0 = e.fill := by
      simp only [counted, Barrier.counted, estimate, Option.map_some, Option.getD_some]
    rw [before, now, fill]
    simp only [Option.elim_some, Option.some.injEq, eq_comm]

/-- A vote that gives a stage: what it leaves of the barrier and of the evaluation work (R89, R92). -/
theorem Plant.takeStage_holds (p : Plant) (k : Fin 4) (stage : Nat) :
    let counted := (p.barrier k).counted (p.realVotes k).length (p.assigned k)
    let taken := (p.countVotes k).takeStage k stage
    taken = ((p.countVotes k).setBarrier k { counted with lastStage := some stage }).offer (.barrier k) stage ∧
    (∀ j, taken.barrier j = if j = k then { counted with
        lastStage := some stage
        superseded := if ∃ e ∈ p.evalQueue, e.owner = .barrier k then min ((p.barrier k).superseded + 1) 65535
          else (p.barrier k).superseded }
      else p.barrier j) ∧
    (taken.evalQueue, taken.flight) = ((p.offer (.barrier k) stage).evalQueue, (p.offer (.barrier k) stage).flight) := by
  intro counted taken
  have told := (p.countVotes_spec k).only
  have same : taken = ((p.countVotes k).setBarrier k { counted with lastStage := some stage }).offer (.barrier k) stage := by
    show Plant.takeStage _ k stage = _
    rw [Plant.takeStage, Plant.countVotes_barrier, if_pos rfl]
  set q := (p.countVotes k).setBarrier k { counted with lastStage := some stage } with hq
  have queue : q.evalQueue = p.evalQueue := told.evalQueue
  have barriers (j : Fin 4) : q.barrier j = if j = k then { counted with lastStage := some stage } else p.barrier j := by
    by_cases own : j = k
    · rw [own, if_pos rfl]
      exact Plant.barrier_setBarrier ..
    · rw [if_neg own, hq, Plant.barrier_setBarrier_of_ne _ own, Plant.countVotes_barrier, if_neg own]
  refine ⟨same, fun j => ?_, ?_⟩
  · rw [same, Plant.offer_barrier_eq', queue, barriers]
    by_cases own : j = k
    · subst own
      rw [if_pos rfl, if_pos rfl]
      by_cases waits : ∃ e ∈ p.evalQueue, e.owner = .barrier j
      · rw [if_pos ⟨waits, rfl⟩, if_pos waits]
        rfl
      · rw [if_neg fun both => waits both.1, if_neg waits]
        rfl
    · rw [if_neg own, if_neg own, if_neg fun both => own (EvalOwner.barrier.inj both.2).symm]
  · obtain ⟨left, flight⟩ := Plant.offer_congr (p := p) (q := q) queue told.flight told.tables told.now
      (congrArg Session.barrier told.session) (congrArg ExerciseRec.history told.exercise) (fun j => by
        rw [barriers]
        split_ifs with own
        · rw [own]
          exact ⟨rfl, rfl, rfl⟩
        · exact ⟨rfl, rfl, rfl⟩) (.barrier k) stage
    rw [same]
    exact Prod.ext left flight

theorem Plant.vote_barrier_of_ne (p : Plant) {k j : Fin 4} (other : j ≠ k) : (p.vote k).barrier j = p.barrier j := by
  by_cases active : (p.barrier k).state = .active
  · rw [Plant.vote_of_active active]
    split
    · rename_i stage _
      rw [(p.takeStage_holds k stage).2.1, if_neg other]
    · rw [Plant.countVotes_barrier, if_neg other]
  · rw [Plant.vote_of_not_active active]

/-! ### Assessments (R104, R106) -/

theorem Plant.anyLatched_iff (p : Plant) (k : Fin 4) :
    p.anyLatched k = true ↔ ∃ c, (p.channel c).at k .wire = true ∧ (p.channel c).latch = true := by
  simp [Plant.anyLatched, List.any_eq_true, Plant.mem_channelsAt]

/-- An event of a barrier ends a session on it (R162). -/
theorem Plant.endSessionOn_eq (p : Plant) (k : Fin 4) (reason : EndReason) : p.endSessionOn k reason =
    if p.session.active = true ∧ p.session.barrier = some k then p.endSession reason else p :=
  if_congr (Plant.current_some_iff _ _) rfl rfl

section
variable {p : Plant} {k : Fin 4}

theorem Plant.assessSurge_surging (surging : p.anySurging k = true) :
    let set := p.setBarrier k { p.barrier k with surgeFlag := true, surgeTimer := some (60 * (p.barrier k).surgeHold) }
    p.assessSurge k = if (p.barrier k).surgeFlag = true then set else (set.recomputeFor k).endSessionOn k .surge := by
  intro set
  rw [Plant.assessSurge]
  dsimp only
  rw [if_pos surging, Plant.setSurgeFlag_eq]
  by_cases flag : (p.barrier k).surgeFlag = true
  · rw [if_pos flag, if_pos flag, if_pos flag]
    rfl
  · rw [if_neg flag, if_neg flag, if_neg flag]
    rfl

theorem Plant.assessSurge_clearing (calm : ¬ p.anySurging k = true) (stopped : (p.barrier k).surgeTimer = none) :
    let cleared := p.setBarrier k { p.barrier k with surgeFlag := false }
    p.assessSurge k = if (p.barrier k).surgeFlag = true then cleared.recomputeFor k else cleared := by
  intro cleared
  have same : { p.barrier k with surgeFlag := false, surgeTimer := none } = { p.barrier k with surgeFlag := false } := by
    rw [← stopped]
  rw [Plant.assessSurge]
  dsimp only
  rw [if_neg calm, stopped, if_neg (by decide), Plant.setSurgeFlag_eq, same]
  cases (p.barrier k).surgeFlag <;> rfl

theorem Plant.assessSurge_holding (calm : ¬ p.anySurging k = true) (running : (p.barrier k).surgeTimer ≠ none) :
    p.assessSurge k = p := by
  rw [Plant.assessSurge]
  dsimp only
  rw [if_neg calm, if_pos (show Timer.running _ = true from Option.isSome_iff_ne_none.2 running)]

theorem Plant.assessSurge_barrier (p : Plant) (k j : Fin 4) (other : j ≠ k) : (p.assessSurge k).barrier j = p.barrier j := by
  rw [Plant.assessSurge]
  dsimp only
  split_ifs
  · rw [Plant.setSurgeFlag_barrier, if_neg other]
  · rw [Plant.endSessionOn_barrier, Plant.setSurgeFlag_barrier, if_neg other]
  · rfl
  · rw [Plant.setSurgeFlag_barrier, if_neg other]

theorem Plant.assessBreach_latched (latched : p.anyLatched k = true) : p.assessBreach k =
    if (p.barrier k).wire = true then p
    else ((p.setBarrier k { p.barrier k with wire := true }).recomputeFor k).endSessionOn k .breach := by
  rw [Plant.assessBreach]
  dsimp only
  rw [latched, if_pos rfl]
  exact if_congr eq_comm rfl rfl

theorem Plant.assessBreach_clear (clear : p.anyLatched k = false) : p.assessBreach k =
    if (p.barrier k).wire = true then (p.setBarrier k { p.barrier k with wire := false }).recomputeFor k else p := by
  rw [Plant.assessBreach]
  dsimp only
  rw [clear]
  by_cases wire : (p.barrier k).wire = true
  · rw [if_neg (by rw [wire]; decide), if_neg (by decide), if_pos wire]
  · rw [if_pos (Bool.eq_false_iff.2 wire).symm, if_neg wire]

end

/-! ### The take of the head (R77, R93) -/

section
variable {p : Plant} {e : EvalEntry} {rest : List EvalEntry}

theorem Plant.beginEvaluation_barrierEntry {k : Fin 4} (idle : p.flight = none) (queue : p.evalQueue = e :: rest)
    (owner : e.owner = .barrier k) : p.beginEvaluation = { p with
      evalQueue := rest
      flight := some { owner := e.owner, stage := e.stage, table := p.table k, history := (p.barrier k).history,
                       carried := p.carriedRate k, now := p.now } } := by
  simp only [Plant.beginEvaluation, idle, queue, owner]

theorem Plant.beginEvaluation_exerciseEntry {k : Fin 4} (idle : p.flight = none) (queue : p.evalQueue = e :: rest)
    (owner : e.owner = .exercise) (session : p.session.barrier = some k) : p.beginEvaluation = { p with
      evalQueue := rest
      flight := some { owner := e.owner, stage := e.stage, table := p.table k, history := p.exercise.history,
                       carried := 0, now := p.now } } := by
  simp only [Plant.beginEvaluation, idle, queue, owner, session, Option.map_some, Option.getD_some]

end

theorem Plant.carriedRate_eq (p : Plant) (k : Fin 4) : p.carriedRate k =
    match p.barriers.toList[k.1 - 1]?.bind fun above => if above.state = .active then above.estimate else none with
    | some x => if 0 < k.1 ∧ x.fill = 1000 then x.effRate else 0
    | none => 0 := by
  have bound : k.1 - 1 < 4 := by omega
  have above : p.barriers.toList[k.1 - 1]? = some (p.barrier ⟨k.1 - 1, bound⟩) := by
    rw [List.getElem?_eq_getElem (by simpa using bound), Vector.getElem_toList]
    rfl
  rw [above, Option.bind_some, Plant.carriedRate]
  by_cases first : 0 < k.1
  · rw [dif_pos first]
    dsimp only
    generalize p.barrier ⟨k.1 - 1, bound⟩ = b
    by_cases active : b.state = .active
    · rw [if_pos active]
      cases estimate : b.estimate with
      | none => simp [Barrier.full, estimate]
      | some x => simp [Barrier.full, estimate, active, first, Config.fullFill]
    · rw [if_neg active, if_neg fun both => active both.1]
  · rw [dif_neg first]
    split
    · rw [if_neg fun both => first both.1]
    · rfl

end Sys2Proof.Machine

namespace Sys2Proof.Proofs

open Sys2Proof.Machine

/-- Settles O24, operation by operation. -/
theorem voteAndAssessments : Obligations.VoteAndAssessments := by
  intro p k b assigned votesOf voted votes quality counted told surging latched ended
  have counting : counted = b.counted (p.realVotes k).length (p.assigned k) :=
    congrArg (fun q => { b with validCount := votes.length, voteQuality := some q }) (qualityOf_eq votes assigned).symm
  have graded : quality = qualityOf (p.realVotes k).length (p.assigned k) := (qualityOf_eq votes assigned).symm
  have telling : told = p.countVotes k := by
    refine Eq.trans ?_ (p.countVotes_eq k).symm
    rw [← graded, ← counting]
    dsimp only [told, b]
    cases (p.barrier k).estimate <;> rfl
  have surges : p.anySurging k = true ↔ surging := by
    rw [p.anySurging_iff]
    refine exists_congr fun c => and_congr_right fun _ => ?_
    rw [Channel.surges, Bool.and_eq_true]
  have latches : p.anyLatched k = true ↔ latched := p.anyLatched_iff k
  have ending (q : Plant) (reason : EndReason) : ended q reason = q.endSessionOn k reason := (q.endSessionOn_eq k reason).symm
  clear_value told counted surging latched ended
  subst told counted
  obtain rfl : ended = fun q reason => q.endSessionOn k reason := funext₂ ending
  refine ⟨?_, fun o stage => ⟨Plant.offer_new, fun waiting => ?_⟩, fun idle => Plant.vote_of_not_active idle, fun active => ?_,
    fun none => ?_, fun active barrier => ?_, fun surge => ?_, fun calm stopped => ?_, fun calm running => ?_,
    fun latch => ?_, fun clear => ?_⟩
  · rintro t (rfl | rfl | rfl)
    · exact ⟨(p.vote_step k).only, fun j other => p.vote_barrier_of_ne other⟩
    · exact ⟨(p.assessSurge_step k).only, fun j other => p.assessSurge_barrier k j other⟩
    · exact ⟨(p.assessBreach_step k).only, fun j other => (p.assessBreach_barrier k j).trans (if_neg other)⟩
  · rw [Plant.offer_waiting waiting]
    refine ⟨?_, p.countSuperseded_barrier_eq o, p.countSuperseded_exercise_eq o⟩
    cases o <;> rfl
  · have row := Plant.vote_of_active active
    have told := (p.countVotes_spec k).only
    refine ⟨fun none => ?_, fun stage vote => ?_⟩
    · rw [row, show voteStage (p.realVotes k) = Option.none from congrArg voteStage none]
      exact ⟨rfl, (p.countVotes_barrier k k).trans (if_pos rfl), told.evalQueue, told.flight⟩
    · rw [row, show voteStage (p.realVotes k) = some stage from Voted.voteStage vote]
      obtain ⟨same, barriers, work⟩ := p.takeStage_holds k stage
      exact ⟨same, (barriers k).trans (if_pos rfl), work⟩
  · rw [Plant.exerciseVote, if_neg (mt (Plant.current_some_iff _ _).1 none)]
  · have row : p.exerciseVote k = _ := if_pos ((Plant.current_some_iff _ _).2 ⟨active, barrier⟩)
    dsimp only at row
    refine ⟨fun none => ?_, fun stage vote => ?_⟩
    · rw [row, show p.exerciseVotes k = [] from none]
      rfl
    · rw [row, show voteStage (p.exerciseVotes k) = some stage from Voted.voteStage vote]
      rfl
  · have row := Plant.assessSurge_surging (surges.2 surge)
    refine ⟨?_, row⟩
    rw [row]
    split_ifs
    · exact Plant.barrier_setBarrier ..
    · rw [Plant.endSessionOn_barrier, (Plant.recomputeFor_step _ k).only.barrier, Plant.barrier_setBarrier]
  · have row := Plant.assessSurge_clearing (mt surges.1 calm) stopped
    refine ⟨?_, row⟩
    rw [row]
    split_ifs
    · rw [(Plant.recomputeFor_step _ k).only.barrier, Plant.barrier_setBarrier]
    · exact Plant.barrier_setBarrier ..
  · exact Plant.assessSurge_holding (mt surges.1 calm) running
  · refine ⟨?_, Plant.assessBreach_latched (latches.2 latch)⟩
    rw [p.assessBreach_barrier, if_pos rfl, latches.2 latch]
  · have unlatched := Bool.eq_false_iff.2 (mt latches.1 clear)
    refine ⟨?_, Plant.assessBreach_clear unlatched⟩
    rw [p.assessBreach_barrier, if_pos rfl, unlatched]

/-- Settles O25, by the owner of the head entry. -/
theorem evaluationTakesHead : Obligations.EvaluationTakesHead := by
  intro s run
  have row : exec .evaluationBegin s = .next { s with plant := s.plant.beginEvaluation } :=
    congrArg Host.Outcome.next (State.running_of_out run _)
  refine ⟨row, fun busy => ?_, fun e rest idle queue => ⟨fun k owner => ?_, fun k owner session => ?_⟩⟩
  · rw [row, Plant.beginEvaluation_of_busy busy]
  · rw [row, Plant.beginEvaluation_barrierEntry idle queue owner, Plant.carriedRate_eq] <;> rfl
  · rw [row, Plant.beginEvaluation_exerciseEntry idle queue owner session]

end Sys2Proof.Proofs
end

section
/-! Completions: a barrier's results and their hand-on, the exercise estimate's, and the recomputation of villages. -/

namespace Sys2Proof.Machine

/-! ### What a completion writes and hands on (R94 to R101) -/

/-- The condition of a re-offer: fullness changed, or full with another effective rate (R101). -/
theorem reoffers_eq (before : Option Estimate) (after : Estimate) : reoffers before after =
    (decide (before.map Estimate.fill = some 1000) != decide (after.fill = 1000) ||
      decide (after.fill = 1000 ∧ before.map Estimate.effRate ≠ some after.effRate)) := by
  have was : (before.any fun e => e.fill == Config.fullFill) = decide (before.map Estimate.fill = some 1000) := by
    cases before <;> simp [Config.fullFill, Bool.beq_eq_decide_eq]
  unfold reoffers
  rw [was]
  simp only [Bool.beq_eq_decide_eq, Config.fullFill, bne, Bool.decide_and, decide_not, ne_eq]

/-- A barrier's completion, up to the tests of the session: its record written, BARRIER_BLIND and the recomputation. -/
def Plant.resultTold (p : Plant) (k : Fin 4) (e : Estimate) (ring : List HistoryRec) : Plant :=
  let written := { p with flight := none }.setBarrier k ((p.barrier k).completed e ring)
  (if (p.barrier k).estimate = none ∧ (p.barrier k).voteQuality = some .blind then written.post .barrierBlind k.1 e.fill
    else written).recomputeFor k

section
variable (p : Plant) (ceiling : Nat) (k : Fin 4) (e : Estimate) (ring : List HistoryRec)

theorem Plant.takeResult_told : p.takeResult ceiling k e ring = (p.resultTold k e ring).testSession k ceiling e.fill
    (((p.barrier k).completed e ring).overtop && !(p.barrier k).overtop) := by
  rw [Plant.takeResult, Plant.resultTold]
  congr 2
  set b := p.barrier k
  set written := { p with flight := none }.setBarrier k (b.completed e ring) with hwritten
  have now : (b.completed e ring).quality = b.voteQuality := rfl
  have posted : written.postBlind k = if b.voteQuality = some .blind then written.post .barrierBlind k.1 e.fill else written := by
    rw [Plant.postBlind, show written.barrier k = b.completed e ring from Plant.barrier_setBarrier .., now]
    rfl
  rw [now, posted]
  cases estimate : b.estimate with
  | none =>
    have before : b.quality = none := by simp only [Barrier.quality, estimate]
    rw [before]
    by_cases blind : b.voteQuality = some .blind
    · rw [if_neg (by rw [blind]; simp), if_pos blind, if_pos ⟨rfl, blind⟩]
    · rw [if_neg blind, ite_self, if_neg fun both => blind both.2]
  | some x =>
    have before : b.quality = b.voteQuality := by simp only [Barrier.quality, estimate]
    rw [before, if_pos rfl, if_neg fun both => by cases both.1]

theorem Plant.testSession_eq (appeared : Bool) (fill : Nat) : p.testSession k ceiling fill appeared =
    if p.session.active = true ∧ p.session.barrier = some k then
      if appeared = true then p.endSession .breach else if ceiling ≤ fill then p.endSession .ceiling else p
    else p := by
  unfold Plant.testSession
  simp only [Plant.endSessionOn_eq]
  split_ifs <;> rfl

/-- The village side of a barrier's completion stands on the barriers as they are then (R100). -/
theorem Plant.resultTold_spec : p.BarrierSideOnly (p.resultTold k e ring) ∧
    (∀ j, (p.resultTold k e ring).barrier j = if j = k then (p.barrier k).completed e ring else p.barrier j) ∧
    ∀ v, (p.village v).inUse = true → (p.village v).routed k = true →
      (p.resultTold k e ring).village v = (p.village v).form (p.resultTold k e ring).barrier := by
  set written := { p with flight := none }.setBarrier k ((p.barrier k).completed e ring) with hwritten
  have frame : ∃ q, written.VillageSideOnly q ∧ q.villages = p.villages ∧ p.resultTold k e ring = q.recomputeFor k := by
    refine ⟨_, ?_, ?_, rfl⟩
    · split_ifs
      · exact Plant.post_only _ _ _ _
      · exact .refl _
    · split_ifs <;> rfl
  obtain ⟨q, only, villages, eq⟩ := frame
  have told := q.recomputeFor_step k
  have village (v : Fin 8) : q.village v = p.village v := by rw [Plant.village, villages]; rfl
  rw [eq]
  refine ⟨?_, fun j => ?_, fun v use routed => ?_⟩
  · exact (show p.BarrierSideOnly written from rfl).trans (only.trans told.only).toBarrierSideOnly
  · rw [told.only.barrier, only.barrier, hwritten]
    by_cases own : j = k
    · rw [own, if_pos rfl, Plant.barrier_setBarrier]
    · rw [if_neg own, Plant.barrier_setBarrier_of_ne _ own]
      rfl
  · rw [Plant.recomputeFor_village, told.only.barrier, village, use, routed]
    rfl

end

/-- The end of a session keeps every real level. -/
theorem Plant.endSession_real (p : Plant) (reason : EndReason) (v : Fin 8) :
    ((p.endSession reason).village v).computed = (p.village v).computed ∧
    ((p.endSession reason).village v).announced = (p.village v).announced := by
  by_cases active : p.session.active = true
  · obtain ⟨-, -, -, villages, -⟩ := p.endSessionOf_result reason p.exercising p.exercising_nodup active
    rw [show (p.endSession reason).village v = _ from villages v]
    split_ifs
    · exact ⟨rfl, rfl⟩
    · exact ⟨rfl, rfl⟩
  · rw [Plant.endSession, Plant.endSessionOf, if_neg active]
    exact ⟨rfl, rfl⟩

theorem Plant.testSession_real (p : Plant) (k : Fin 4) (ceiling fill : Nat) (appeared : Bool) (v : Fin 8) :
    ((p.testSession k ceiling fill appeared).village v).computed = (p.village v).computed ∧
    ((p.testSession k ceiling fill appeared).village v).announced = (p.village v).announced := by
  rw [Plant.testSession_eq]
  split_ifs
  · exact p.endSession_real _ v
  · exact p.endSession_real _ v
  · exact ⟨rfl, rfl⟩
  · exact ⟨rfl, rfl⟩

/-- A village is formed from the barriers but for their superseded counts. -/
theorem Village.form_congr {vl : Village} {a b : Fin 4 → Barrier} (same : ∀ k, ∃ n, b k = { a k with superseded := n }) :
    vl.form b = vl.form a := by
  have entries : vl.withEntries b = vl.withEntries a := by
    unfold Village.withEntries
    congr 2
    funext k
    obtain ⟨n, eq⟩ := same k
    rw [eq]
    rfl
  rw [Village.form_def, Village.form_def, entries]

theorem field16_small {n : Nat} (small : n ≤ 65535) : field16 n = [BitVec.ofNat 8 (n / 256), BitVec.ofNat 8 (n % 256)] := by
  have low : BitVec.ofNat 8 n = BitVec.ofNat 8 (n % 256) := BitVec.eq_of_toNat_eq (by simp)
  rw [field16, Nat.min_eq_left small, low]

theorem State.wake_ends {s : State} {k : Fin 4} {w : Wait} {r : Request} (executing : s.mgmt.executing = some w)
    (head : s.mgmt.requests.head? = some r) (mine : w.barrier = k) :
    s.wake k = { s with mgmt := s.mgmt.complete r .done (w.data s.plant) } := by
  obtain ⟨rest, requests⟩ := List.head?_eq_some_iff.1 head
  unfold State.wake
  rw [executing, requests]
  dsimp only
  rw [if_pos mine]

theorem State.wake_idle {s : State} {k : Fin 4} (idle : ∀ w, s.mgmt.executing = some w → w.barrier ≠ k) : s.wake k = s := by
  unfold State.wake
  split
  · rename_i w r _ executing _
    rw [if_neg (idle w executing)]
  · rfl

theorem State.wake_only (s : State) (k : Fin 4) : s.wake k = { s with mgmt := (s.wake k).mgmt } := by
  unfold State.wake
  split
  · split_ifs <;> rfl
  · rfl

theorem State.barrierDone_eq {s : State} {f : Flight} {k : Fin 4} (flight : s.plant.flight = some f)
    (owner : f.owner = .barrier k) : s.barrierDone =
      (({ s with plant := s.plant.completeBarrier s.mgmt.settings.ceiling k f }.wake k).onPlant Plant.beginEvaluation) := by
  simp only [State.barrierDone, flight, owner]
  rfl

/-- The real levels after a completion are formed from the barriers as they stand then (R100). -/
theorem Plant.completeWith_levels (p : Plant) (ceiling : Nat) (k : Fin 4) (e : Estimate) (ring : List HistoryRec) (v : Fin 8)
    (use : (p.village v).inUse = true) (routed : (p.village v).routed k = true) :
    let q := p.completeWith ceiling k e ring
    (q.village v).computed = ((p.village v).form q.barrier).computed ∧
    (q.village v).announced = ((p.village v).form q.barrier).announced := by
  intro q
  obtain ⟨-, barriers, formed⟩ := p.resultTold_spec k e ring
  have reoffered : q.village v = (p.takeResult ceiling k e ring).village v := by
    show (p.completeWith ceiling k e ring).village v = _
    unfold Plant.completeWith
    split_ifs
    · rw [(Plant.reofferBelow_only _ k).1]
      rfl
    · rfl
  have same : (p.village v).form q.barrier = (p.village v).form (p.resultTold k e ring).barrier := Village.form_congr fun j => by
    obtain ⟨own, others⟩ := p.completeWith_barrier ceiling k e ring
    rw [barriers]
    by_cases here : j = k
    · exact ⟨_, by rw [here, if_pos rfl, show q.barrier k = _ from own]⟩
    · exact ⟨_, by rw [if_neg here]; exact others j here⟩
  rw [reoffered, p.takeResult_told, same, ← formed v use routed]
  exact Plant.testSession_real _ k ceiling e.fill _ v

/-! ### The exercise estimate (R108, R128) -/

theorem Plant.beginEvaluation_dispatch (p : Plant) : p.beginEvaluation.dispatch = p.dispatch := by
  rw [p.beginEvaluation_only]

theorem Plant.beginEvaluation_villages_dispatch (p : Plant) (villages : Vector Village 8) (dispatch : Vector Dispatch 8) :
    ({ p with villages := villages, dispatch := dispatch } : Plant).beginEvaluation =
      { p.beginEvaluation with villages := villages, dispatch := dispatch } := by
  cases p with
  | mk now stations channels patterns tables barriers queue flight =>
    cases flight <;> cases queue <;> rfl

theorem Plant.exerciseDone_eq {p : Plant} {f : Flight} {k : Fin 4} (flight : p.flight = some f) (owner : f.owner = .exercise)
    (active : p.session.active = true) (barrier : p.session.barrier = some k) :
    let result := f.evaluate (p.barrier k).rateWindow (p.barrier k).spacing
    p.exerciseDone = (Plant.recomputeExerciseFor
      { p with flight := none, exercise := p.exercise.completed result.1 result.2 } k).beginEvaluation := by
  have current : p.session.current = some k := (Plant.current_some_iff _ _).2 ⟨active, barrier⟩
  simp only [Plant.exerciseDone, flight, owner, if_true, Plant.completeExercise, current]

/-- An exercise recomputation leaves all but villages and dispatch records (R129). -/
theorem Plant.recomputeExerciseFor_only (p : Plant) (k : Fin 4) : p.recomputeExerciseFor k =
    { p with villages := (p.recomputeExerciseFor k).villages, dispatch := (p.recomputeExerciseFor k).dispatch } := by
  obtain ⟨step, notices, -⟩ := p.recomputeExerciseFor_spec k
  refine step.only.eq.trans ?_
  rw [notices]

/-- A permitted village's exercise levels with a route to the session barrier (R128). -/
theorem Village.formExercise_routed {vl : Village} {k : Fin 4} {b : Barrier} {e : Estimate} {r : Route}
    (permit : vl.permit = true) (route : vl.routes.get k = some r) :
    let a := availableTime e.ttf r.travel
    let floored := fillFloors b.watchFill b.warnFill e.fill (vl.project a, .projection)
    vl.formExercise (some (k, b, e)) =
      { vl with exComputed := floored.1, exAnnounced := floored.1, exCause := floored.2, exAvailable := a } := by
  intro a floored
  have level : vl.exerciseLevel (some (k, b, e)) = (floored.1, floored.2, a) := by
    simp only [Village.exerciseLevel, permit, route]
    rfl
  rw [Village.formExercise, level]

/-! ### The deciding entry (R122) -/

/-- The deciding entry heads the entries: higher level, then smaller available, then lower barrier index. -/
def Heads (a b : Fin 4 × Route) : Prop :=
  b.2.level.code < a.2.level.code ∨
    b.2.level = a.2.level ∧ (a.2.available < b.2.available ∨ a.2.available = b.2.available ∧ a.1.1 ≤ b.1.1)

theorem Heads.refl (a : Fin 4 × Route) : Heads a a := .inr ⟨rfl, .inr ⟨rfl, le_rfl⟩⟩

theorem Heads.trans {a b c : Fin 4 × Route} (h : Heads a b) (h' : Heads b c) : Heads a c := by
  rcases h with h | ⟨level, h⟩
  · rcases h' with h' | ⟨level', -⟩
    · exact .inl (h'.trans h)
    · exact .inl (by rw [level']; exact h)
  · rcases h' with h' | ⟨level', h'⟩
    · exact .inl (by rw [← level]; exact h')
    · exact .inr ⟨level'.trans level, by omega⟩

/-- One step of the search for the deciding entry. -/
def better (best e : Fin 4 × Route) : Fin 4 × Route :=
  if best.2.level.code < e.2.level.code ∨ (best.2.level = e.2.level ∧ e.2.available < best.2.available) then e else best

theorem better_heads {best e : Fin 4 × Route} (later : best.1.1 ≤ e.1.1) :
    Heads (better best e) best ∧ Heads (better best e) e ∧ (better best e = best ∨ better best e = e) := by
  unfold better
  split_ifs with h
  · refine ⟨?_, .refl e, .inr rfl⟩
    rcases h with h | ⟨level, h⟩
    · exact .inl h
    · exact .inr ⟨level, .inl h⟩
  · refine ⟨.refl best, ?_, .inl rfl⟩
    obtain ⟨level, available⟩ := not_or.1 h
    rcases Nat.lt_or_eq_of_le (Nat.not_lt.1 level) with less | same
    · exact .inl less
    · have same := Level.code_injective same
      refine .inr ⟨same, ?_⟩
      have : ¬ e.2.available < best.2.available := fun less => available ⟨same.symm, less⟩
      omega

theorem decidingEntry_cons (e : Fin 4 × Route) (entries : List (Fin 4 × Route)) :
    decidingEntry (e :: entries) = some (entries.foldl better e) := by
  have fold (l : List (Fin 4 × Route)) : ∀ best, l.foldl (init := some best) (fun best e =>
      match best with
      | none => some e
      | some b =>
        if b.2.level.code < e.2.level.code ∨ (b.2.level = e.2.level ∧ e.2.available < b.2.available) then some e
        else some b) = some (l.foldl better best) := by
    induction l with
    | nil => intro; rfl
    | cons x l ih =>
      intro best
      rw [List.foldl_cons, List.foldl_cons, ← ih (better best x)]
      congr 1
      exact (apply_ite some _ _ _).symm
  exact fold entries e

/-- The entries in ascending barrier index: the deciding one is among them and heads them all. -/
theorem foldl_better : ∀ (l : List (Fin 4 × Route)) (best : Fin 4 × Route),
    (best :: l).Pairwise (fun a b => a.1.1 ≤ b.1.1) →
    l.foldl better best ∈ best :: l ∧ ∀ e ∈ best :: l, Heads (l.foldl better best) e
  | [], best, _ => ⟨List.mem_singleton.2 rfl, fun e mem => by rw [List.mem_singleton.1 mem]; exact .refl best⟩
  | x :: l, best, sorted => by
    obtain ⟨first, rest⟩ := List.pairwise_cons.1 sorted
    obtain ⟨second, tail⟩ := List.pairwise_cons.1 rest
    obtain ⟨overBest, overNext, which⟩ := better_heads (first x List.mem_cons_self)
    have sorted' : (better best x :: l).Pairwise fun a b => a.1.1 ≤ b.1.1 := by
      refine List.pairwise_cons.2 ⟨fun y mem => ?_, tail⟩
      rcases which with eq | eq
      · rw [eq]
        exact first y (List.mem_cons_of_mem _ mem)
      · rw [eq]
        exact second y mem
    obtain ⟨mem, heads⟩ := foldl_better l (better best x) sorted'
    have chosen := heads _ List.mem_cons_self
    refine ⟨?_, fun e he => ?_⟩
    · rcases List.mem_cons.1 mem with eq | mem
      · rw [List.foldl_cons, eq]
        rcases which with eq | eq
        · rw [eq]
          exact List.mem_cons_self
        · rw [eq]
          exact List.mem_cons_of_mem _ List.mem_cons_self
      · exact List.mem_cons_of_mem _ (List.mem_cons_of_mem _ mem)
    · rcases List.mem_cons.1 he with rfl | he
      · exact chosen.trans overBest
      · rcases List.mem_cons.1 he with rfl | he
        · exact chosen.trans overNext
        · exact heads e (List.mem_cons_of_mem _ he)

theorem Village.mem_entries (vl : Village) (k : Fin 4) (r : Route) : (k, r) ∈ vl.entries ↔ vl.routes.get k = some r := by
  simp [Village.entries, List.mem_filterMap, List.mem_finRange]

theorem Village.entries_sorted (vl : Village) : vl.entries.Pairwise fun a b => a.1.1 ≤ b.1.1 := by
  refine List.Pairwise.filterMap _ ?_ (List.pairwise_le_finRange 4)
  intro k j le a ha b hb
  obtain ⟨r, -, rfl⟩ := Option.map_eq_some_iff.1 ha
  obtain ⟨q, -, rfl⟩ := Option.map_eq_some_iff.1 hb
  exact le

/-- The deciding entry of a village, if it has entries (R122). -/
theorem Village.decidingEntry_spec (vl : Village) :
    (decidingEntry vl.entries = none ∧ ∀ k, vl.routes.get k = none) ∨
    ∃ k r, decidingEntry vl.entries = some (k, r) ∧ vl.routes.get k = some r ∧
      ∀ j q, vl.routes.get j = some q → Heads (k, r) (j, q) := by
  have mem := vl.mem_entries
  have sorted := vl.entries_sorted
  cases entries : vl.entries with
  | nil =>
    rw [entries] at mem
    refine .inl ⟨rfl, fun k => Option.eq_none_iff_forall_ne_some.2 fun r route => ?_⟩
    cases (mem k r).2 route
  | cons e l =>
    rw [entries] at mem sorted
    obtain ⟨found, heads⟩ := foldl_better l e sorted
    exact .inr ⟨_, _, decidingEntry_cons e l, (mem _ _).1 found, fun j q route => heads (j, q) ((mem j q).2 route)⟩

theorem Village.judge_none {vl : Village} (h : decidingEntry vl.entries = none) : vl.judge =
    { vl with computed := .clear, decBarrier := none, decCause := .projection, decAvailable := 65535, decFill := none } := by
  rw [Village.judge, h]
  rfl

theorem Village.judge_some {vl : Village} {k : Fin 4} {r : Route} (h : decidingEntry vl.entries = some (k, r)) : vl.judge =
    { vl with computed := r.level, decBarrier := some k, decCause := r.cause, decAvailable := r.available,
              decFill := r.fill } := by
  rw [Village.judge, h]

theorem Village.form_judged (vl : Village) (barrier : Fin 4 → Barrier) :
    let judged := (vl.withEntries barrier).judge
    (vl.form barrier).computed = judged.computed ∧ (vl.form barrier).decBarrier = judged.decBarrier ∧
    (vl.form barrier).decCause = judged.decCause ∧ (vl.form barrier).decAvailable = judged.decAvailable ∧
    (vl.form barrier).decFill = judged.decFill := by
  rw [Village.form_def, Village.announce_eq, Village.latchBreach_eq]
  exact ⟨rfl, rfl, rfl, rfl, rfl⟩

theorem Village.withEntries_routes (vl : Village) (barrier : Fin 4 → Barrier) (k : Fin 4) :
    (vl.withEntries barrier).routes.get k = (vl.routes.get k).map fun r => r.form (barrier k) vl :=
  Vector.getElem_ofFn k.2

end Sys2Proof.Machine

namespace Sys2Proof.Proofs

open Sys2Proof.Machine

/-- Settles O27: the record and its telling, the session's tests, the re-offer, the waiting request, the next head. -/
theorem barrierEvaluationCompletes : Obligations.BarrierEvaluationCompletes := by
  intro s f k run flight owner b result e after written blind cascades
  set done := s.plant.completeWith s.mgmt.settings.ceiling k e result.2 with hdone
  have completed : exec .barrierEvaluationCompletion s = .next
    (({ s with plant := done }.wake k).onPlant Plant.beginEvaluation) :=
    congrArg Host.Outcome.next ((State.running_of_out run _).trans (State.barrierDone_eq flight owner))
  have row : exec .barrierEvaluationCompletion s =
      .next { s with plant := done.beginEvaluation, mgmt := ({ s with plant := done }.wake k).mgmt } := by
    rw [completed, State.wake_only]
    rfl
  obtain ⟨own, others⟩ := s.plant.completeWith_barrier s.mgmt.settings.ceiling k e result.2
  have barriers : done.beginEvaluation.barrier = done.barrier := funext done.beginEvaluation_barrier
  refine ⟨_, s.plant.resultTold k e result.2, s.plant.takeResult s.mgmt.settings.ceiling k e result.2, done, rfl, ?_, ?_, row,
    rfl, (s.plant.completeWith_step _ k e result.2).only.trans done.beginEvaluation_step.only,
    Plant.AtWork.of_beginEvaluation _, (done.beginEvaluation_barrier k).trans own, fun j other => ?_, fun v use routed => ?_,
    fun w r executing head mine => ⟨?_, ?_⟩, fun idle => ?_⟩
  · rw [Plant.takeResult_told, Plant.testSession_eq]
    simp only [Bool.and_eq_true, Bool.not_eq_true']
    rfl
  · rw [← Plant.reofferBelow_eq, hdone, Plant.completeWith, reoffers_eq]
  · dsimp only
    rw [barriers]
    exact others j other
  · dsimp only
    rw [barriers, Plant.village, Plant.beginEvaluation_villages]
    exact s.plant.completeWith_levels s.mgmt.settings.ceiling k e result.2 v use routed
  · dsimp only
    rw [State.wake_ends (s := { s with plant := done }) executing head mine]
    exact Mgmt.complete_eq _ _ _ _
  · rintro rfl
    have fill : e.fill ≤ 65535 := (Nat.min_le_right _ _).trans (by decide)
    rw [← field16_small fill]
    show field16 (((done.barrier k).estimate.map Estimate.fill).getD 0) = _
    rw [own]
    rfl
  · dsimp only
    rw [State.wake_idle (s := { s with plant := done }) idle]

/-- Settles O28, from the exercise recomputation for the session barrier. -/
theorem exerciseEvaluationCompletes : Obligations.ExerciseEvaluationCompletes := by
  intro s f k run flight owner active barrier b result written
  have row : exec .exerciseEvaluationCompletion s = .next { s with plant := s.plant.exerciseDone } :=
    congrArg Host.Outcome.next (State.running_of_out run _)
  rw [Plant.exerciseDone_eq flight owner active barrier] at row
  change exec _ s = .next { s with plant := (written.recomputeExerciseFor k).beginEvaluation } at row
  have only := written.recomputeExerciseFor_only k
  obtain ⟨-, -, villages⟩ := written.recomputeExerciseFor_spec k
  have handed := written.recomputeExerciseFor_disp k
  have basis : written.exerciseBasis = some (k, b, result.1) := by
    have current : written.session.current = some k := (Plant.current_some_iff _ _).2 ⟨active, barrier⟩
    simp only [Plant.exerciseBasis, current]
    rfl
  rw [basis] at villages handed
  have session : written.session.active = true := active
  have same : written.village = s.plant.village ∧ written.disp = s.plant.disp ∧ written.now = s.plant.now := ⟨rfl, rfl, rfl⟩
  clear_value written
  obtain ⟨village, disp, now⟩ := same
  rw [village, disp, session, now] at handed
  rw [village] at villages
  set q := written.recomputeExerciseFor k
  have begun : q.beginEvaluation = { written.beginEvaluation with villages := q.villages, dispatch := q.dispatch } :=
    (congrArg Plant.beginEvaluation only).trans (written.beginEvaluation_villages_dispatch _ _)
  have villages' (v : Fin 8) : q.beginEvaluation.village v = _ :=
    (congrArg (Vector.get · v) q.beginEvaluation_villages).trans (villages v)
  have handed' (v : Fin 8) : q.beginEvaluation.disp v = _ :=
    (congrArg (Vector.get · v) q.beginEvaluation_dispatch).trans (handed v)
  clear_value q
  generalize q.beginEvaluation = t at row begun villages' handed'
  refine ⟨_, row, rfl, ?_, fun v => ?_, fun v r use permit route => ?_, fun v outside => ?_⟩
  · rw [begun]
  · dsimp only
    rw [villages']
    split_ifs <;> rfl
  · have reached : ((s.plant.village v).inUse && (s.plant.village v).permit && (s.plant.village v).routed k) = true := by
      simp [use, permit, Village.routed, route]
    have formed := (villages' v).trans (if_pos reached)
    have told := (handed' v).trans (if_pos reached)
    rw [Village.formExercise_routed permit route] at formed told
    intro a floored
    dsimp only
    rw [formed, told]
    refine ⟨rfl, rfl, rfl, rfl, ?_⟩
    rw [← permit]
    rfl
  · have missed : ¬ ((s.plant.village v).inUse && (s.plant.village v).permit && (s.plant.village v).routed k) = true := by
      simpa [Village.routed, Option.isSome_iff_ne_none, and_assoc] using outside
    exact ⟨(villages' v).trans (if_neg missed), (handed' v).trans (if_neg missed)⟩

/-- Settles O32: the search for the deciding entry, and the recomputation for a barrier. -/
theorem decidingEntry : Obligations.DecidingEntry := by
  constructor
  · intro vl barrier out entry
    have routes := vl.withEntries_routes barrier
    obtain ⟨computed, decBarrier, decCause, decAvailable, decFill⟩ := vl.form_judged barrier
    rcases (vl.withEntries barrier).decidingEntry_spec with ⟨search, bare⟩ | ⟨k, r, search, route, heads⟩
    · rw [Village.judge_none search] at computed decBarrier decCause decAvailable decFill
      refine ⟨vl.form_routes barrier, fun _ => ⟨computed, decBarrier, decCause, decAvailable, decFill⟩, ?_⟩
      rintro ⟨k, some⟩
      refine absurd ?_ some
      exact Option.map_eq_none_iff.1 ((routes k).symm.trans (bare k))
    · rw [Village.judge_some search] at computed decBarrier decCause decAvailable decFill
      refine ⟨vl.form_routes barrier, fun bare => ?_, fun _ => ⟨k, r, decBarrier, (routes k).symm.trans route, computed, decCause,
        decAvailable, decFill, fun j q other => heads j q ((routes j).trans other)⟩⟩
      rw [routes, bare] at route
      cases route
  · intro p k t reached raised
    have reach (v : Fin 8) : ((p.village v).inUse && (p.village v).routed k) = true ↔ reached v := by
      rw [Bool.and_eq_true, Village.routed, Option.isSome_iff_ne_none]
    have village (v : Fin 8) (h : reached v) : t.village v = (p.village v).form p.barrier :=
      (p.recomputeFor_village k v).trans (if_pos ((reach v).2 h))
    have raising (v : Fin 8) : raised v ↔ p.raisedBy k v := by
      constructor
      · rintro ⟨here, clear, latched⟩
        rw [village v here] at latched
        exact ⟨by simpa using (reach v).2 here, clear, latched⟩
      · rintro ⟨here, clear, latched⟩
        have here : reached v := (reach v).1 (by simpa using here)
        exact ⟨here, clear, by rw [village v here]; exact latched⟩
    obtain ⟨quiet, last⟩ := p.recomputeFor_notices k
    refine ⟨(p.recomputeFor_step k).only, fun v h => ⟨village v h, ?_⟩, fun v h => ⟨?_, ?_⟩,
      fun none => ?_, fun v up highest => ?_⟩
    · rw [village v h]
      exact (p.recomputeFor_disp k v).trans (if_pos ((reach v).2 h))
    · exact (p.recomputeFor_village k v).trans (if_neg (mt (reach v).1 h))
    · exact (p.recomputeFor_disp k v).trans (if_neg (mt (reach v).1 h))
    · exact quiet fun v => mt (raising v).2 (none v)
    · obtain ⟨before, notices⟩ := last v ((raising v).1 up) fun w other => highest w ((raising w).2 other)
      obtain ⟨here, clear, latched⟩ := up
      rw [village v here] at latched ⊢
      have breach : ((p.village v).form p.barrier).computed = .breach := by
        rw [Village.form_latch, clear] at latched
        simpa using latched
      obtain ⟨j, deciding⟩ := (p.village v).form_decBarrier p.barrier (by rw [breach]; decide)
      refine ⟨j, deciding, ?_⟩
      rw [show t.notices = _ from notices, deciding]
      exact (postInto_cases _ _ _ _ _).2.2

end Sys2Proof.Proofs
end

section
/-! Stage–storage tables: the check's verdict and the interpolation through a VALID table (R74, R75, R78, R79). -/

namespace Sys2Proof.Machine

/-! ### The first broken condition (R74) -/

section
variable {bad : Point → Point → Bool} {none : Point}

theorem firstBroken_first : ∀ (ps : List Point) (from_ i : Nat), i + 1 < ps.length →
    bad (ps.getD i none) (ps.getD (i + 1) none) = true →
    (∀ j < i, bad (ps.getD j none) (ps.getD (j + 1) none) = false) → firstBroken bad from_ ps = some (from_ + i)
  | a :: b :: rest, from_, 0, _, broken, _ => if_pos broken
  | a :: b :: rest, from_, i + 1, short, broken, first => by
    have whole : bad a b = false := first 0 (Nat.succ_pos i)
    have later := firstBroken_first (b :: rest) (from_ + 1) i (by simpa using short) broken fun j less =>
      first (j + 1) (Nat.succ_lt_succ less)
    rw [firstBroken, if_neg (by rw [whole]; decide), later]
    congr 1
    omega

theorem firstBroken_none : ∀ (ps : List Point) (from_ : Nat),
    (∀ j, j + 1 < ps.length → bad (ps.getD j none) (ps.getD (j + 1) none) = false) → firstBroken bad from_ ps = Option.none
  | [], _, _ => rfl
  | [a], _, _ => rfl
  | a :: b :: rest, from_, whole => by
    have here : bad a b = false := whole 0 (by simp)
    rw [firstBroken, if_neg (by rw [here]; decide)]
    exact firstBroken_none (b :: rest) (from_ + 1) fun j short => whole (j + 1) (by simpa using short)

theorem isChain_of_firstBroken : ∀ (ps : List Point) (from_ : Nat), firstBroken bad from_ ps = Option.none →
    ps.IsChain fun a b => bad a b = false
  | [], _, _ => .nil
  | [a], _, _ => .singleton a
  | a :: b :: rest, from_, h => by
    rw [firstBroken] at h
    split_ifs at h with broken
    exact .cons_cons (Bool.eq_false_iff.2 broken) (isChain_of_firstBroken (b :: rest) (from_ + 1) h)

end

/-! ### The points in use (R73) -/

section
variable {t : Table}

theorem Table.inUse_length (small : t.count ≤ 16) : t.inUse.length = t.count := by
  simp [Table.inUse, small]

theorem Table.inUse_getD {i : Nat} (less : i < t.count) :
    t.inUse.getD i ⟨0, 0⟩ = t.points.toList.getD i ⟨0, 0⟩ := by
  rw [List.getD_eq_getElem?_getD, List.getD_eq_getElem?_getD, Table.inUse, List.getElem?_take_of_lt less]

theorem Table.inUse_head? (small : t.count ≤ 16) (some_ : 0 < t.count) :
    t.inUse.head? = some (t.points.toList.getD 0 ⟨0, 0⟩) := by
  have length := t.inUse_length small
  rw [← Table.inUse_getD some_]
  cases points : t.inUse with
  | nil =>
    rw [points, List.length_nil] at length
    omega
  | cons a rest => rfl

theorem Table.inUse_getLast? (small : t.count ≤ 16) (some_ : 0 < t.count) :
    t.inUse.getLast? = some (t.points.toList.getD (t.count - 1) ⟨0, 0⟩) := by
  have length := t.inUse_length small
  rw [← Table.inUse_getD (by omega), List.getLast?_eq_getElem?, length, List.getD_eq_getElem?_getD,
    List.getElem?_eq_getElem (by omega), Option.getD_some]

section
variable {bad : Point → Point → Bool}

/-- A point in use stands in a relation to its predecessor (R74). -/
def Table.breaks (t : Table) (bad : Point → Point → Bool) (i : Nat) : Prop :=
  1 ≤ i ∧ i < t.count ∧ bad (t.points.toList.getD (i - 1) ⟨0, 0⟩) (t.points.toList.getD i ⟨0, 0⟩) = true

theorem Table.firstBroken_of_first (small : t.count ≤ 16) {i : Nat} (broken : t.breaks bad i)
    (first : ∀ j < i, ¬ t.breaks bad j) : firstBroken bad 1 t.inUse = some i := by
  obtain ⟨later, inside, rel⟩ := broken
  obtain ⟨i, rfl⟩ := Nat.exists_eq_add_of_le' later
  have found := firstBroken_first (bad := bad) (none := ⟨0, 0⟩) t.inUse 1 i (by rw [t.inUse_length small]; exact inside)
    (by rw [Table.inUse_getD (by omega), Table.inUse_getD inside]; exact rel) fun j less => by
      rw [Table.inUse_getD (by omega), Table.inUse_getD (by omega)]
      exact Bool.eq_false_iff.2 fun rel => first (j + 1) (by omega) ⟨by omega, by omega, rel⟩
  rw [found, Nat.add_comm]

theorem Table.firstBroken_of_none (small : t.count ≤ 16) (whole : ∀ i, ¬ t.breaks bad i) :
    firstBroken bad 1 t.inUse = none :=
  firstBroken_none (none := ⟨0, 0⟩) t.inUse 1 fun j short => by
    rw [t.inUse_length small] at short
    rw [Table.inUse_getD (by omega), Table.inUse_getD short]
    exact Bool.eq_false_iff.2 fun rel => whole (j + 1) ⟨by omega, short, rel⟩

end

/-- The check as a list of conditions on the points (R74). -/
theorem Table.checked_eq (small : t.count ≤ 16) (two : 2 ≤ t.count) : t.checked =
    let pt := fun i => t.points.toList.getD i ⟨0, 0⟩
    if pt 0 ≠ ⟨0, 0⟩ then .invalid .origin (some 0)
    else
      match firstBroken (fun a b => b.stage ≤ a.stage) 1 t.inUse with
      | some i => .invalid .stageOrder (some i)
      | none =>
        match firstBroken (fun a b => b.volume < a.volume) 1 t.inUse with
        | some i => .invalid .volumeOrder (some i)
        | none => if (pt (t.count - 1)).volume = 0 then .invalid .capacity (some (t.count - 1))
          else .valid (pt (t.count - 1)).stage (pt (t.count - 1)).volume := by
  rw [Table.checked, Table.inUse_head? small (by omega), Table.inUse_getLast? small (by omega)]
  exact if_neg (by omega)

theorem Table.checked_short (short : t.count < 2) : t.checked = .invalid .count none := by
  rw [Table.checked]
  split
  · rw [if_pos short]
  · rfl

end

/-! ### Interpolation (R79) -/

/-- Points that rise from one to the next: stages strictly, volumes without a fall. -/
def Rising (ps : List Point) : Prop := ps.IsChain fun a b => a.stage < b.stage ∧ a.volume ≤ b.volume

theorem rising_of_chains : ∀ {ps : List Point}, (ps.IsChain fun a b => decide (b.stage ≤ a.stage) = false) →
    (ps.IsChain fun a b => decide (b.volume < a.volume) = false) → Rising ps
  | [], _, _ => .nil
  | [a], _, _ => .singleton a
  | a :: b :: rest, stages, volumes => by
    obtain ⟨stage, stages⟩ := List.isChain_cons_cons.1 stages
    obtain ⟨volume, volumes⟩ := List.isChain_cons_cons.1 volumes
    exact .cons_cons ⟨Nat.not_le.1 (of_decide_eq_false stage), Nat.not_lt.1 (of_decide_eq_false volume)⟩
      (rising_of_chains stages volumes)

theorem Rising.head_le {a : Point} : ∀ {l : List Point}, Rising (a :: l) → ∀ x ∈ a :: l, a.stage ≤ x.stage
  | [], _, x, mem => by rw [List.mem_singleton.1 mem]
  | b :: rest, rising, x, mem => by
    obtain ⟨step, tail⟩ := List.isChain_cons_cons.1 rising
    rcases List.mem_cons.1 mem with rfl | later
    · exact le_rfl
    · exact step.1.le.trans (Rising.head_le tail x later)

theorem Rising.le_last {ps : List Point} {last : Point} : Rising ps → ps.getLast? = some last →
    ∀ x ∈ ps, x.stage ≤ last.stage ∧ x.volume ≤ last.volume := by
  induction ps with
  | nil => intro _ _ x mem; cases mem
  | cons a l ih =>
    intro rising ends x mem
    cases l with
    | nil =>
      obtain rfl := Option.some.inj ends
      rw [List.mem_singleton.1 mem]
      exact ⟨le_rfl, le_rfl⟩
    | cons b rest =>
      obtain ⟨step, tail⟩ := List.isChain_cons_cons.1 rising
      have later := ih tail (by rwa [List.getLast?_cons_cons] at ends)
      rcases List.mem_cons.1 mem with rfl | mem
      · exact ⟨step.1.le.trans (later b List.mem_cons_self).1, step.2.trans (later b List.mem_cons_self).2⟩
      · exact later x mem

/-- The volume of a stage between two points (R79). -/
def between (a b : Point) (s : Nat) : Nat := a.volume + (b.volume - a.volume) * (s - a.stage) / (b.stage - a.stage)

theorem between_le {a b : Point} {s : Nat} (volume : a.volume ≤ b.volume) (below : s < b.stage) : between a b s ≤ b.volume := by
  have part : (b.volume - a.volume) * (s - a.stage) / (b.stage - a.stage) ≤ b.volume - a.volume :=
    Nat.div_le_of_le_mul (by rw [Nat.mul_comm]; exact Nat.mul_le_mul_right _ (by omega))
  unfold between
  omega

theorem between_mono {a b : Point} {s s' : Nat} (le : s ≤ s') : between a b s ≤ between a b s' :=
  Nat.add_le_add_left (Nat.div_le_div_right (Nat.mul_le_mul_left _ (by omega))) _

theorem segmentVolume_cons (s : Nat) (a b : Point) (rest : List Point) : segmentVolume s (a :: b :: rest) =
    if s < b.stage then between a b s else segmentVolume s (b :: rest) := rfl

theorem Rising.volume_le_segment (s : Nat) {a : Point} : ∀ {l : List Point}, Rising (a :: l) →
    a.volume ≤ segmentVolume s (a :: l)
  | [], _ => le_rfl
  | b :: rest, rising => by
    obtain ⟨step, tail⟩ := List.isChain_cons_cons.1 rising
    rw [segmentVolume_cons]
    split_ifs
    · exact Nat.le_add_right _ _
    · exact step.2.trans (Rising.volume_le_segment s tail)

theorem Rising.segment_le_last (s : Nat) {last : Point} {ps : List Point} : Rising ps → ps.getLast? = some last →
    segmentVolume s ps ≤ last.volume := by
  induction ps with
  | nil => intro _ ends; cases ends
  | cons a l ih =>
    intro rising ends
    cases l with
    | nil =>
      obtain rfl := Option.some.inj ends
      exact le_rfl
    | cons b rest =>
      obtain ⟨step, tail⟩ := List.isChain_cons_cons.1 rising
      rw [List.getLast?_cons_cons] at ends
      rw [segmentVolume_cons]
      split_ifs with below
      · exact (between_le step.2 below).trans (Rising.le_last tail ends b List.mem_cons_self).2
      · exact ih tail ends

theorem Rising.segment_mono {s s' : Nat} (le : s ≤ s') : ∀ {ps : List Point}, Rising ps →
    segmentVolume s ps ≤ segmentVolume s' ps
  | [], _ => le_rfl
  | [a], _ => le_rfl
  | a :: b :: rest, rising => by
    obtain ⟨step, tail⟩ := List.isChain_cons_cons.1 rising
    rw [segmentVolume_cons, segmentVolume_cons]
    by_cases below : s < b.stage
    · rw [if_pos below]
      split_ifs
      · exact between_mono le
      · exact (between_le step.2 below).trans (Rising.volume_le_segment s' tail)
    · rw [if_neg below, if_neg (by omega)]
      exact Rising.segment_mono le tail

theorem Rising.segment_at {s : Nat} : ∀ {ps : List Point} {i : Nat}, Rising ps → i + 1 < ps.length →
    (ps.getD i ⟨0, 0⟩).stage ≤ s → s < (ps.getD (i + 1) ⟨0, 0⟩).stage →
    segmentVolume s ps = between (ps.getD i ⟨0, 0⟩) (ps.getD (i + 1) ⟨0, 0⟩) s
  | a :: b :: rest, 0, _, _, _, below => if_pos below
  | a :: b :: rest, i + 1, rising, short, above, below => by
    obtain ⟨-, tail⟩ := List.isChain_cons_cons.1 rising
    have inside : (b :: rest).getD i ⟨0, 0⟩ ∈ b :: rest := by
      rw [List.getD_eq_getElem _ _ (by simp at short ⊢; omega)]
      exact List.getElem_mem _
    have reached : b.stage ≤ s := (Rising.head_le tail _ inside).trans above
    rw [segmentVolume_cons, if_neg (Nat.not_lt.2 reached)]
    exact Rising.segment_at tail (by simpa using short) above below

/-- A VALID table rises through its points to crest and capacity (R74, R75). -/
theorem Table.rising_of_valid {t : Table} {crest capacity : Nat} (small : t.count ≤ 16)
    (valid : t.checked = .valid crest capacity) :
    2 ≤ t.count ∧ Rising t.inUse ∧ t.inUse.getLast? = some ⟨crest, capacity⟩ := by
  have two : 2 ≤ t.count := by
    by_contra short
    rw [Table.checked_short (by omega)] at valid
    cases valid
  rw [Table.checked_eq small two] at valid
  dsimp only at valid
  by_cases origin : t.points.toList.getD 0 ⟨0, 0⟩ ≠ ⟨0, 0⟩
  · rw [if_pos origin] at valid
    cases valid
  rw [if_neg origin] at valid
  cases stages : firstBroken (fun a b => decide (b.stage ≤ a.stage)) 1 t.inUse with
  | some i =>
    rw [stages] at valid
    cases valid
  | none =>
    rw [stages] at valid
    dsimp only at valid
    cases volumes : firstBroken (fun a b => decide (b.volume < a.volume)) 1 t.inUse with
    | some i =>
      rw [volumes] at valid
      cases valid
    | none =>
      rw [volumes] at valid
      dsimp only at valid
      split_ifs at valid
      obtain ⟨rfl, rfl⟩ := Verdict.valid.inj valid
      exact ⟨two, rising_of_chains (isChain_of_firstBroken _ _ stages) (isChain_of_firstBroken _ _ volumes),
        Table.inUse_getLast? small (by omega)⟩

/-- A stage in a VALID table (R78, R79). -/
theorem Table.interpolate_valid {t : Table} {crest capacity : Nat} (valid : t.checked = .valid crest capacity) (s : Nat) :
    { t with verdict := t.checked }.interpolate s =
      if crest ≤ s then (capacity, decide (crest < s)) else (segmentVolume s t.inUse, false) := by
  have above : Nat.blt crest s = decide (crest < s) := by
    rw [Bool.eq_iff_iff, Nat.blt_eq, decide_eq_true_iff]
  rw [valid, ← above]
  rfl

end Sys2Proof.Machine

namespace Sys2Proof.Proofs

open Sys2Proof.Machine

/-- Settles O30, condition by condition. -/
theorem tableCheckJudges : Obligations.TableCheckJudges := by
  intro t small pt stageBreak volumeBreak
  refine ⟨Table.checked_short, fun two => ?_⟩
  have check := Table.checked_eq small two
  have stages (i : Nat) : t.breaks (fun a b => decide (b.stage ≤ a.stage)) i ↔ stageBreak i :=
    and_congr_right fun _ => and_congr_right fun _ => decide_eq_true_iff
  have volumes (i : Nat) : t.breaks (fun a b => decide (b.volume < a.volume)) i ↔ volumeBreak i :=
    and_congr_right fun _ => and_congr_right fun _ => decide_eq_true_iff
  refine ⟨fun origin => check.trans (if_pos origin), fun origin => ?_⟩
  replace check := check.trans (if_neg (not_not.2 origin))
  refine ⟨fun i broken first => ?_, fun rising => ?_⟩
  · rw [check, Table.firstBroken_of_first small ((stages i).2 broken) fun j less => mt (stages j).1 (first j less)]
  · rw [Table.firstBroken_of_none small fun i => mt (stages i).1 (rising i)] at check
    refine ⟨fun i broken first => ?_, fun steady => ?_⟩
    · rw [check, Table.firstBroken_of_first small ((volumes i).2 broken) fun j less => mt (volumes j).1 (first j less)]
    · rw [Table.firstBroken_of_none small fun i => mt (volumes i).1 (steady i)] at check
      exact ⟨fun empty => check.trans (if_pos empty), fun some => check.trans (if_neg some)⟩

/-- Settles O29: the crest, the segment of a stage, and what the segments of rising points give. -/
theorem interpolationFollowsTable : Obligations.InterpolationFollowsTable := by
  intro t crest capacity small valid u pt
  obtain ⟨two, rising, ends⟩ := Table.rising_of_valid small valid
  have volume (s : Nat) : u.interpolate s = _ := Table.interpolate_valid valid s
  have point {i : Nat} (less : i < t.count) : t.inUse.getD i ⟨0, 0⟩ = pt i := Table.inUse_getD less
  have inside {i : Nat} (less : i < t.count) : pt i ∈ t.inUse := by
    rw [← point less, List.getD_eq_getElem _ _ (by rw [t.inUse_length small]; exact less)]
    exact List.getElem_mem _
  have top : pt (t.count - 1) = ⟨crest, capacity⟩ :=
    Option.some.inj ((Table.inUse_getLast? small (by omega)).symm.trans ends)
  have most (s : Nat) : (u.interpolate s).1 ≤ capacity := by
    rw [volume]
    split_ifs
    · exact le_rfl
    · exact Rising.segment_le_last s rising ends
  have segment (i s : Nat) (short : i + 1 < t.count) (above : (pt i).stage ≤ s) (below : s < (pt (i + 1)).stage) :
      u.interpolate s = (between (pt i) (pt (i + 1)) s, false) := by
    have under : s < crest := below.trans_le (Rising.le_last rising ends _ (inside short)).1
    have cut := Rising.segment_at (s := s) (i := i) rising (by rw [t.inUse_length small]; exact short)
    rw [point (by omega), point short] at cut
    rw [volume, if_neg (Nat.not_le.2 under), cut above below]
  refine ⟨fun s high => (volume s).trans (if_pos high), segment, fun i less => ?_, most, fun s s' le => ?_⟩
  · by_cases last : i + 1 < t.count
    · have rises : (pt i).stage < (pt (i + 1)).stage := by
        have step := List.isChain_iff_getElem.1 rising i (by rw [t.inUse_length small]; exact last)
        rw [← List.getD_eq_getElem _ ⟨0, 0⟩, ← List.getD_eq_getElem _ ⟨0, 0⟩, point less, point last] at step
        exact step.1
      rw [segment i _ last le_rfl rises, between, Nat.sub_self, Nat.mul_zero, Nat.zero_div, Nat.add_zero]
    · have here : i = t.count - 1 := by omega
      rw [here, top, volume, if_pos le_rfl]
  · rw [volume s']
    split_ifs with high
    · exact most s
    · rw [volume, if_neg (by omega)]
      exact Rising.segment_mono le rising

end Sys2Proof.Proofs
end


section
/-! Requests to the part: the three checks of a request's admission (R169), the counters and the inspection flag (R174,
R177), and the resets LINES and ALL (R25, R182, R183). -/

namespace Sys2Proof.Machine

/-! ### Admission (R169) -/

section
variable {s : State} {r : Request}

theorem State.precheck_unknown (unknown : catalogue r.code = none) : s.precheck r = some .badValue := by
  simp only [State.precheck, unknown]

theorem State.precheck_inspecting {length : Nat} (write : catalogue r.code = some (.write, length))
    (inspecting : s.mgmt.settings.inspecting = true) : s.precheck r = some .inspecting := by
  simp only [State.precheck, write, inspecting, and_self, if_true]

theorem State.precheck_length {cls : ReqClass} {length : Nat} (known : catalogue r.code = some (cls, length))
    (allowed : cls ≠ .write ∨ s.mgmt.settings.inspecting = false) (wrong : r.args.length ≠ length) :
    s.precheck r = some .badValue := by
  have pass : ¬ (s.mgmt.settings.inspecting = true ∧ cls = .write) := fun ⟨on, write⟩ =>
    allowed.elim (fun other => other write) fun off => by rw [off] at on; cases on
  simp only [State.precheck, known]
  rw [if_neg pass, if_pos wrong]

theorem State.settle_refused (s : State) (r : Request) (o : ReqOutcome) :
    s.settle r (.refused o) = { s with mgmt := s.mgmt.answered r o [] } := by
  rw [State.settle, Mgmt.complete_eq]

theorem State.head_of_free (free : s.mgmt.executing = none) (head : s.mgmt.requests.head? = some r) : s.head = some r := by
  simp [State.head, free, head]

/-- A request that the admission refuses is only answered, whatever its rule (R169). -/
theorem State.request_of_refused {mine : Request → Bool} {o : ReqOutcome} (running : s.nresetLow = false)
    (head : s.head = some r) (own : mine r = true) (refused : s.precheck r = some o)
    (rule : Request → State → State × ReqResult) :
    s.request mine rule = { s with mgmt := s.mgmt.answered r o [] } := by
  rw [State.request, State.running_of_out running, head]
  dsimp only
  rw [if_pos own, State.execute, refused]
  exact s.settle_refused r o

theorem execResetAll_of_refused {straps : Straps} {o : ReqOutcome} (running : s.nresetLow = false)
    (head : s.head = some r) (own : r.resetOf scopeAll = true) (refused : s.precheck r = some o) :
    execResetAll straps s = .next { s with mgmt := s.mgmt.answered r o [] } := by
  rw [execResetAll, State.running_of_out running, head]
  dsimp only
  rw [if_pos own, refused]
  exact congrArg _ (s.settle_refused r o)

/-- The row of a request that the admission refuses answers it and does nothing else (R169). -/
theorem exec_of_refused {c : Instr} {o : ReqOutcome} (running : s.nresetLow = false) (head : s.head = some r)
    (own : c.executes r = true) (refused : s.precheck r = some o) :
    exec c s = .next { s with mgmt := s.mgmt.answered r o [] } := by
  cases c
  case resetAll straps => exact execResetAll_of_refused running head own refused
  case powerOn | nresetAssert | nresetRelease | receiveByte | gapTimeout | breakDetected | breakEnd | goodFrameU | goodFrameD |
      uTransmitStart | uTransmitCompletion | grant | dTransmitCompletion | silenceTimerExpiry | surgeHoldExpiry |
      evaluationBegin | barrierEvaluationCompletion | exerciseEvaluationCompletion | holdTimerExpiry | ackTimerExpiry |
      reachTimerExpiry | repeatTimerExpiry | durationTimerExpiry | wholeSecondBoundary => cases own
  all_goals exact congrArg Host.Outcome.next (State.request_of_refused running head own refused _)

end

/-! ### Counters (R177) -/

theorem Plant.countersCleared_station (p : Plant) (i : Fin 24) :
    p.countersCleared.station i = { p.station i with accepted := 0, duplicate := 0, gap := 0, malformed := 0 } :=
  mapAll_get ..

theorem Plant.countersCleared_disp (p : Plant) (v : Fin 8) :
    p.countersCleared.disp v = { p.disp v with stale := 0 } := mapAll_get ..

/-! ### RESET LINES (R25) -/

section
variable (s : State)

/-- With no ALERT on D-tx the dispatcher is told nothing (R25). -/
theorem State.cutD_of_other (other : ∀ f v o b, s.line.dTx ≠ some ⟨f, .alert v o b⟩) : s.cutD = s := by
  unfold State.cutD
  split
  · next f v o b sent => exact absurd sent (other f v o b)
  · rfl

/-- An ALERT cut on D-tx is told to its village's record (R142). -/
theorem State.cutD_of_alert {f : Frame} {v : Fin 8} {o : Option Content} {b : Bool}
    (sent : s.line.dTx = some ⟨f, .alert v o b⟩) :
    s.cutD = s.onPlant fun p => p.setDisp v ((p.disp v).alertCut o b) := by
  unfold State.cutD
  rw [sent] <;> rfl

/-- The line side after RESET LINES, from the plant that the cut ALERT leaves. -/
def State.linesReset (s : State) (p : Plant) : State :=
  { s with
    line := { u := s.line.u.resetLine, d := s.line.d.resetLine, ud := [], du := [], uTx := none, dTx := none,
              originSeq := 0, lastGrant := .none }
    plant := p }

theorem State.cutD_sides : s.cutD.line = s.line ∧ s.cutD.mgmt = s.mgmt ∧ s.cutD.nresetLow = s.nresetLow ∧
    s.cutD.straps = s.straps ∧ s.cutD.pending = s.pending := by
  unfold State.cutD
  split <;> exact ⟨rfl, rfl, rfl, rfl, rfl⟩

theorem State.resetLineSide_eq : s.resetLineSide = s.linesReset s.cutD.plant := by
  obtain ⟨line, mgmt, low, straps, pending⟩ := s.cutD_sides
  simp only [State.resetLineSide, State.linesReset, line, mgmt, low, straps, pending]

/-- The port that RESET LINES leaves, its break state as the line stood (R25). -/
theorem PortRec.resetLine_eq (p : PortRec) :
    p.resetLine = { state := .waiting, rx := .hunt, brk := if p.brk = .marking then .marking else .spacing,
                    good := 0, check := 0, framing := 0, breaks := 0, drops := 0 } := by
  unfold PortRec.resetLine PortRec.cleared
  cases p.brk <;> rfl

end

section
variable (d : Dispatch) (o : Option Content) (b : Bool)

theorem Dispatch.alertCut_of_due {reason : DueReason} {time : Nat} {c : Content} (sent : d.onLine = true)
    (due : d.state = .due reason time c) : d.alertCut o b = { d with onLine := false, offered := o, openOffer := b } := by
  rw [Dispatch.alertCut, if_pos sent, due]

theorem Dispatch.alertCut_of_not_due (sent : d.onLine = true) (other : ∀ reason time c, d.state ≠ .due reason time c) :
    d.alertCut o b = { d with onLine := false } := by
  rw [Dispatch.alertCut, if_pos sent]
  cases state : d.state with
  | due reason time c => exact absurd state (other reason time c)
  | quiet | await | unreached => rfl

theorem Dispatch.alertCut_of_off (off : d.onLine = false) : d.alertCut o b = d := by
  rw [Dispatch.alertCut, if_neg (by simp [off])]

end

/-! ### The scope of a RESET (R182) -/

section
variable {s : State} {r : Request} (begins : s.Begins r 0x07 1)
include begins

theorem State.Begins.resetOf (scope : Nat) : r.resetOf scope = decide ((r.byte 0).toNat = scope) := by
  have code : (r.code == codeReset) = true := by rw [begins.code]; rfl
  have length : (r.args.length == 1) = true := by rw [begins.length]; rfl
  rw [Request.resetOf, code, length]
  rfl

/-- The row of RESET LINES with that scope resets the line side and answers. -/
theorem State.Begins.resetLines (allowed : s.mgmt.settings.inspecting = false) (scope : r.byte 0 = 2) :
    exec .resetLines s = .next { s.linesReset s.cutD.plant with mgmt := s.mgmt.answered r .done [] } := by
  have own : r.resetOf scopeLines = true := by rw [begins.resetOf, scope]; rfl
  refine congrArg Host.Outcome.next ((begins.execute rfl (fun _ => allowed) _ own _).trans ?_)
  rw [State.settle, Mgmt.complete_eq, s.resetLineSide_eq]
  rfl

/-- The row of RESET ALL with that scope is a full reset with the reply in the emptied queue. -/
theorem State.Begins.resetAll (allowed : s.mgmt.settings.inspecting = false) (scope : r.byte 0 = 3) (straps : Straps) :
    exec (.resetAll straps) s = .next (s.resetAll straps r) := by
  have own : r.resetOf scopeAll = true := by rw [begins.resetOf, scope]; rfl
  show execResetAll straps s = _
  rw [execResetAll, State.running_of_out begins.running, begins.head_eq]
  dsimp only
  rw [if_pos own, begins.precheck rfl fun _ => allowed]

end

end Sys2Proof.Machine

namespace Sys2Proof.Proofs

open Sys2Proof.Machine

/-- Settles O33: each check that fails is the outcome, whatever the row's rule. -/
theorem requestAdmission : Obligations.RequestAdmission := by
  intro c s r running free head own
  have answer {o : ReqOutcome} (refused : s.precheck r = some o) : ∃ t, exec c s = .next t ∧ s.OnlyAnswers r o t :=
    ⟨_, exec_of_refused running (State.head_of_free free head) own refused, rfl⟩
  exact ⟨fun unknown => answer (State.precheck_unknown unknown),
    fun _ write inspecting => answer (State.precheck_inspecting write inspecting),
    fun _ _ known allowed wrong => answer (State.precheck_length known allowed wrong)⟩

/-- Settles O36, row by row. -/
theorem countersClearedAndInspection : Obligations.CountersClearedAndInspection := by
  intro s r zero withFlag
  refine ⟨fun begins off => ?_, fun begins off => ?_, fun begins on => ?_, fun begins => ?_⟩
  · refine ⟨{ s.clearCounters with mgmt := s.clearCounters.mgmt.answered r .done [] },
      congrArg Host.Outcome.next ((begins.execute rfl (fun _ => off) _ begins.isCode _).trans ?_), rfl,
      s.plant.countersCleared_station, s.plant.countersCleared_barrier, s.plant.countersCleared_disp⟩
    rw [State.settle, Mgmt.complete_eq]
  · refine congrArg Host.Outcome.next ((begins.execute rfl (fun _ => off) _ begins.isCode _).trans ?_)
    rw [State.settle, Mgmt.complete_eq]
    rfl
  · have write : catalogue r.code = some (.write, 0) := by rw [begins.code]; rfl
    exact ⟨_, exec_of_refused begins.running begins.head_eq (c := .inspectOn) begins.isCode
      (State.precheck_inspecting write on), rfl⟩
  · refine congrArg Host.Outcome.next ((begins.execute (cls := .inspectOff) rfl nofun _ begins.isCode _).trans ?_)
    rw [State.settle, Mgmt.complete_eq]
    rfl

/-- Settles O38, by what the D transmitter held and by the state of the record that it was of. -/
theorem resetLinesClearsPorts : Obligations.ResetLinesClearsPorts := by
  intro s r begins off scope port t
  have row : exec .resetLines s = .next (t s.cutD.plant) := by
    rw [begins.resetLines off scope, State.linesReset, PortRec.resetLine_eq, PortRec.resetLine_eq]
  refine ⟨fun other => ?_, fun f v o b sent => ?_⟩
  · rw [row, s.cutD_of_other other]
  · have cut : exec .resetLines s = .next (t (s.plant.setDisp v ((s.plant.disp v).alertCut o b))) := by
      rw [row, s.cutD_of_alert sent] <;> rfl
    refine ⟨fun reason time c on due => ?_, fun on other => ?_, fun idle => ?_⟩
    · rw [cut, Dispatch.alertCut_of_due _ _ _ on due]
    · rw [cut, Dispatch.alertCut_of_not_due _ _ _ on other]
    · rw [cut, Dispatch.alertCut_of_off _ _ _ idle]

/-- Settles O39: the full reset of both is the same, and the reply finds the queue empty. -/
theorem resetAllResetsAndReplies : Obligations.ResetAllResetsAndReplies := by
  intro s r straps begins off scope
  refine ⟨_, _, begins.resetAll off scope straps, rfl, ?_⟩
  have spacing (p : PortRec) : p.lineSpacing = decide (p.brk ≠ .marking) := by
    unfold PortRec.lineSpacing
    cases p.brk <;> rfl
  rw [State.resetAll, spacing, spacing]
  rfl

end Sys2Proof.Proofs
end


section
/-! Reads and status requests (R13, R41, R65, R76, R109, R132, R153, R157, R166, R178): the data of each report is its fields,
laid one after the other, and what the row of each read answers. -/

namespace Sys2Proof.Machine

/-! ### Fields laid one after the other -/

/-- Each field begins where the one before it ends. -/
def Contiguous (start : Nat) : List (Nat × List Byte) → Prop
  | [] => True
  | f :: fs => f.1 = start ∧ Contiguous (start + f.2.length) fs

theorem FieldsAt.of_contiguous {fields : List (Nat × List Byte)} : ∀ {start : Nat}, Contiguous start fields →
    ∀ pre : List Byte, pre.length = start → FieldsAt (pre ++ (fields.map Prod.snd).flatten) fields := by
  induction fields with
  | nil => exact fun _ _ _ => nofun
  | cons f fs ih =>
    rintro start ⟨at_, rest⟩ pre length g g_mem
    rcases List.mem_cons.1 g_mem with rfl | tail
    · rw [at_, ← length]
      simp
    · have later := ih rest (pre ++ f.2) (by rw [List.length_append, length]) g tail
      rwa [List.append_assoc] at later

/-- A report that is its fields one after the other has each at its offset. -/
theorem FieldsAt.of_blocks {data : List Byte} {fields : List (Nat × List Byte)}
    (blocks : data = (fields.map Prod.snd).flatten) (contiguous : Contiguous 0 fields) : FieldsAt data fields := by
  rw [blocks]
  exact .of_contiguous contiguous [] rfl

theorem FieldsAt.append {data : List Byte} {a b : List (Nat × List Byte)} :
    FieldsAt data (a ++ b) ↔ FieldsAt data a ∧ FieldsAt data b := by
  simp only [FieldsAt, List.mem_append, or_imp, forall_and]

/-! ### The coding of a field (R186) -/

theorem ofNat_mod_256 (n : Nat) : BitVec.ofNat 8 (n % 256) = BitVec.ofNat 8 n :=
  BitVec.eq_of_toNat_eq (by simp)

theorem field8_eq (n : Nat) : field8 n = b8 n := rfl

theorem field16_eq (n : Nat) : field16 n = be16 n := by
  simp only [field16, be16, ofNat_mod_256]

theorem field32_eq (n : Nat) : field32 n = be32 n := by
  simp only [field32, be32, ofNat_mod_256]

theorem field16?_eq (o : Option Nat) : field16? o = orAbsent o := field16_eq _

theorem fieldBool_eq (b : Bool) : fieldBool b = yes b := by cases b <;> rfl

theorem fieldIx_eq {n : Nat} (o : Option (Fin n)) : fieldIx o = ix o := by cases o <;> rfl

theorem fieldWord_eq (w : Half) : fieldWord w = word w := by
  have small : min w.toNat 65535 = w.toNat := min_eq_left (by have := w.isLt; omega)
  rw [fieldWord, word, be16, small, ofNat_mod_256]
  congr 1
  exact BitVec.eq_of_toNat_eq (by simp [highByte, Nat.shiftRight_eq_div_pow])

theorem fieldInt_eq (i : Int) : fieldInt i = signed i := fieldWord_eq _

theorem contentByte_eq (o : Option Content) : contentByte o = contentOf o := by
  cases o with
  | none => rfl
  | some c => cases h : c.marked <;> simp [contentByte, contentOf, Content.code, boolCode, h, field8_eq]

theorem be16_secondsSince (now since : Nat) : be16 (secondsSince now since) = be16 (now - since) := by
  simp only [be16, secondsSince, Config.counterMax, min_assoc, min_self]

theorem b8_min (n : Nat) : b8 (min n 255) = b8 n := by
  simp only [b8, min_assoc, min_self]

@[simp] theorem be16_length (n : Nat) : (be16 n).length = 2 := rfl
@[simp] theorem be32_length (n : Nat) : (be32 n).length = 4 := rfl
@[simp] theorem word_length (w : Half) : (word w).length = 2 := rfl
@[simp] theorem signed_length (i : Int) : (signed i).length = 2 := rfl
@[simp] theorem orAbsent_length (o : Option Nat) : (orAbsent o).length = 2 := rfl

theorem mul_boolCode (n : Nat) (b : Bool) : n * boolCode b = if b = true then n else 0 := by
  cases b <;> simp [boolCode]

theorem Plant.evalState_code (p : Plant) (o : EvalOwner) : (p.evalState o).code =
    if p.flight.any (fun f => f.owner = o) then 2 else if p.evalQueue.any (fun e => e.owner = o) then 1 else 0 := by
  have flying : p.inFlight o = p.flight.any fun f => f.owner = o := rfl
  have waiting : p.queued o = p.evalQueue.any fun e => e.owner = o := rfl
  rw [Plant.evalState, flying, waiting]
  split_ifs <;> rfl

/-! ### Stations, channels, patterns, tables, barriers -/

theorem stationData_fields (now : Nat) (st : Station) : FieldsAt (stationData now st) (fieldsOfStation now st) := by
  have slots : st.slots.toList.map fieldIx = st.slots.toList.map ix := List.map_congr_left fun o _ => fieldIx_eq o
  refine .of_blocks ?_ (by simp [Contiguous, fieldsOfStation])
  simp only [stationData, fieldsOfStation, slots]
  cases st.state <;> simp [field16_eq, field16?_eq, field8_eq, fieldBool_eq, be16_secondsSince]

theorem channelData_fields (ch : Channel) : FieldsAt (channelData ch) (fieldsOfChannel ch) := by
  have level : (if ch.barrier.isSome then field8 ch.kind.code else 255) =
      if ch.barrier = none then 255 else b8 ch.kind.code := by cases ch.barrier <;> rfl
  refine .of_blocks ?_ ?_
  · simp only [channelData, level, fieldsOfChannel, channelBlock]
    cases ch.kind with
    | stage => simp [pathData, field16_eq, field16?_eq, field8_eq, fieldBool_eq, fieldIx_eq, fieldInt_eq]
    | surge => simp [pathData, field16_eq, field16?_eq, field8_eq, fieldBool_eq, fieldIx_eq, fieldInt_eq]
    | wire => cases ch.lastReading with
      | none => simp [field16_eq, field8_eq, fieldBool_eq, fieldIx_eq, fieldInt_eq]
      | some w => cases w <;> simp [field16_eq, field8_eq, fieldBool_eq, fieldIx_eq, fieldInt_eq]
  · simp only [fieldsOfChannel]
    cases ch.kind <;> simp [Contiguous]

theorem patternData_fields (q : Pattern) : FieldsAt (patternData q) (fieldsOfPattern q) := by
  refine .of_blocks ?_ (by simp [Contiguous, fieldsOfPattern])
  simp [patternData, fieldsOfPattern, field16_eq, field8_eq, fieldBool_eq, fieldInt_eq, fieldWord_eq]

theorem barrierData_fields (b : Barrier) : FieldsAt (barrierData b) (fieldsOfBarrier b) := by
  refine .of_blocks ?_ (by simp [Contiguous, fieldsOfBarrier])
  simp [barrierData, fieldsOfBarrier, Barrier.spacing, field16_eq, field8_eq, fieldBool_eq]

theorem take_drop_eq_map_range (l : List Point) {start n : Nat} (long : start + n ≤ l.length) :
    (l.drop start).take n = (List.range n).map fun i => l.getD (start + i) ⟨0, 0⟩ := by
  refine List.ext_getElem (by simp; omega) fun i left right => ?_
  have less : i < n := by simpa using right
  simp [List.getElem?_eq_getElem (show start + i < l.length by omega)]

theorem tableData_fields (t : Table) {half : Nat} (small : half ≤ 1) :
    FieldsAt (tableData t half) (fieldsOfTable t half) := by
  have points := take_drop_eq_map_range t.points.toList (start := 8 * half) (n := 8) (by simp; omega)
  refine .of_blocks ?_ (by simp [Contiguous, fieldsOfTable, List.range_succ])
  simp only [tableData, points]
  simp [fieldsOfTable, pointData, List.range_succ, field16_eq, field16?_eq, field8_eq]

/-! ### The barrier's status -/

theorem estimateBlock_eq (at_ : Nat) (o : Option Estimate) :
    estimateBlock o = ((fieldsOfEstimate at_ o).map Prod.snd).flatten := by
  cases o with
  | none => simp [estimateBlock, fieldsOfEstimate]
  | some e => simp [estimateBlock, fieldsOfEstimate, field16_eq, field8_eq, fieldInt_eq, mul_boolCode]

theorem fieldsOfEstimate_contiguous (at_ : Nat) (o : Option Estimate) {more : List (Nat × List Byte)}
    (rest : Contiguous (at_ + 11) more) : Contiguous at_ (fieldsOfEstimate at_ o ++ more) := by
  cases o <;> simpa [fieldsOfEstimate, Contiguous, Nat.add_assoc] using rest

theorem historyData_eq (o : Option HistoryRec) :
    historyData o = be32 ((o.map HistoryRec.time).getD 0) ++ be16 ((o.map HistoryRec.volume).getD 0) := by
  rw [historyData, field16_eq, field32_eq]

/-- The fields of STATUS_BARRIER as their table lists them, from their order in the data. -/
theorem FieldsAt.barrier_order {data : List Byte} {head ring tail estimate first last : List (Nat × List Byte)}
    (h : FieldsAt data (head ++ (estimate ++ (ring ++ (first ++ (last ++ tail)))))) :
    FieldsAt data (head ++ ring ++ tail ++ estimate ++ first ++ last) := by
  simp only [FieldsAt.append] at h ⊢
  obtain ⟨head, estimate, ring, first, last, tail⟩ := h
  exact ⟨⟨⟨⟨⟨head, ring⟩, tail⟩, estimate⟩, first⟩, last⟩

theorem barrierStatus_fields (p : Plant) (k : Fin 4) : FieldsAt (barrierStatus p k) (fieldsOfBarrierStatus p k) := by
  refine FieldsAt.barrier_order (head := [_, _]) (ring := [_]) (tail := [_, _, _, _]) (estimate := fieldsOfEstimate 9 _)
    (first := [_, _]) (last := [_, _]) (.of_blocks ?_ ?_)
  · have quality : field8 (((p.barrier k).quality.map VoteQuality.code).getD 3) =
        if (p.barrier k).estimate = none then 3
        else ((p.barrier k).voteQuality.map fun q => b8 q.code).getD 3 := by
      unfold Barrier.quality
      cases (p.barrier k).estimate <;> cases (p.barrier k).voteQuality <;> rfl
    have vote : field8 (((p.barrier k).voteQuality.map VoteQuality.code).getD 255) =
        ((p.barrier k).voteQuality.map fun q => b8 q.code).getD 255 := by cases (p.barrier k).voteQuality <;> rfl
    have state : field8 (p.evalState (.barrier k)).code =
        if p.flight.any (fun f => f.owner = .barrier k) then 2
        else if p.evalQueue.any (fun e => e.owner = .barrier k) then 1 else 0 := by
      rw [p.evalState_code]
      split_ifs <;> rfl
    have flag : boolCode (p.barrier k).wire = if (p.barrier k).wire = true then 1 else 0 := rfl
    simp only [barrierStatus, quality, vote, state, historyData_eq, estimateBlock_eq 9, field8_eq, field16_eq, field16?_eq,
      fieldBool_eq, mul_boolCode, flag]
    simp [Timer.left, Plant.queued, Plant.assigned] <;> rfl
  · refine ⟨rfl, rfl, fieldsOfEstimate_contiguous 9 _ ?_⟩
    simp [Contiguous]

/-! ### Villages -/

theorem padTo_append (block rest : List Byte) (n : Nat) :
    padTo (block.length + n) (block ++ rest) = block ++ padTo n rest := by
  simp [padTo, Nat.add_sub_add_left]

theorem padTo_add_nil (m n : Nat) : padTo (m + n) [] = List.replicate m 0 ++ padTo n [] := by
  simp only [padTo, List.nil_append, List.length_nil, Nat.sub_zero, List.replicate_add]

/-- Blocks of `m` bytes with places for `n` of them, the places beyond the blocks 0. -/
theorem padTo_blocks {α : Type} {m : Nat} {block : α → List Byte} (length : ∀ a, (block a).length = m) :
    ∀ (n : Nat) (l : List α), l.length ≤ n → padTo (n * m) (l.map block).flatten =
      ((List.range n).map fun i => ((l[i]?).map block).getD (List.replicate m 0)).flatten := by
  intro n
  induction n with
  | zero =>
    intro l short
    rw [List.length_eq_zero_iff.1 (Nat.le_zero.1 short)]
    simp [padTo]
  | succ n ih =>
    intro l short
    rw [List.range_succ_eq_map, List.map_cons, List.flatten_cons, List.map_map, Nat.succ_mul, Nat.add_comm]
    cases l with
    | nil => exact (padTo_add_nil m _).trans (congrArg _ (ih [] (Nat.zero_le n)))
    | cons a l =>
      have split := padTo_append (block a) (l.map block).flatten (n * m)
      rw [length] at split
      exact split.trans (congrArg _ (ih l (Nat.le_of_succ_le_succ short)))

theorem Village.entries_length_le (vl : Village) : vl.entries.length ≤ 4 :=
  (List.length_filterMap_le _ _).trans (by simp)

theorem Village.entries_length (vl : Village) : vl.routes.toList.reduceOption.length = vl.entries.length := by
  have all : vl.routes.toList = (List.finRange 4).map vl.routes.get := by
    refine List.ext_getElem (by simp) fun i left right => ?_
    simp [Vector.get]
  rw [all, List.reduceOption, List.filterMap_map, Village.entries]
  simp only [List.length_filterMap_eq_countP]
  congr 1
  funext k
  cases h : vl.routes.get k <;> simp [h]

theorem Village.filterMap_entries (vl : Village) :
    ((List.finRange 4).filterMap fun k => (vl.routes.get k).map fun r => (k, r)) = vl.entries := rfl

theorem Village.entries_map {α : Type} (vl : Village) (f : Fin 4 → Route → α) :
    ((List.finRange 4).filterMap fun k => (vl.routes.get k).map (f k)) = vl.entries.map fun e => f e.1 e.2 := by
  rw [Village.entries, List.map_filterMap]
  simp only [Option.map_map]
  rfl

/-- Place `i` of a report's route places of a width: the block of the village's entry that stands there, or 0. -/
def Village.routePlace (vl : Village) (width : Nat) (block : Fin 4 × Route → List Byte) (i : Nat) : List Byte :=
  ((vl.entries[i]?).map block).getD (List.replicate width 0)

section
variable (vl : Village) {width : Nat} {block : Fin 4 × Route → List Byte} (length : ∀ e, (block e).length = width)
include length

theorem Village.routePlace_length (i : Nat) : (vl.routePlace width block i).length = width := by
  unfold Village.routePlace
  cases vl.entries[i]? with
  | none => simp
  | some e => exact length e

theorem Village.padTo_routes :
    padTo (4 * width) (vl.entries.map block).flatten = ((List.range 4).map (vl.routePlace width block)).flatten :=
  padTo_blocks length 4 vl.entries vl.entries_length_le

end

/-- The block of a route entry in READ_VILLAGE. -/
def travelBlock (e : Fin 4 × Route) : List Byte := BitVec.ofNat 8 e.1.1 :: be16 e.2.travel

theorem travelBlock_length (e : Fin 4 × Route) : (travelBlock e).length = 3 := rfl

theorem fieldsOfVillage_eq (vl : Village) : fieldsOfVillage vl =
    (fieldsOfVillage vl).take 10 ++ (List.range 4).map fun i => (19 + 3 * i, vl.routePlace 3 travelBlock i) := by
  refine congrArg ([_, _, _, _, _, _, _, _, _, _] ++ ·) (List.map_congr_left fun i _ => congrArg (Prod.mk _) ?_)
  show _ = ((vl.entries[i]?).map travelBlock).getD (List.replicate 3 0)
  rw [Village.filterMap_entries]
  cases vl.entries[i]? <;> rfl

theorem villageData_fields (vl : Village) : FieldsAt (villageData vl) (fieldsOfVillage vl) := by
  have routes := vl.padTo_routes travelBlock_length
  have place := vl.routePlace_length travelBlock_length
  rw [fieldsOfVillage_eq]
  refine .of_blocks ?_ ?_
  · simp only [villageData, vl.entries_length]
    rw [vl.entries_map fun k r => [BitVec.ofNat 8 k.1] ++ field16 r.travel]
    simp only [field16_eq, field8_eq, fieldBool_eq, List.singleton_append]
    rw [show (fun e : Fin 4 × Route => BitVec.ofNat 8 e.1.1 :: be16 e.2.travel) = travelBlock from rfl, routes]
    simp [fieldsOfVillage, Mask.code, mul_boolCode, Village.entries, List.range_succ]
  · simp [Contiguous, fieldsOfVillage, List.range_succ, place]

/-- The block of a route entry in STATUS_VILLAGE. -/
def levelBlock (e : Fin 4 × Route) : List Byte :=
  b8 (64 * e.1.1 + 8 * e.2.level.code + e.2.held.code) ::
    (be16 (8192 * e.2.cause.code + min (e.2.fill.getD 1023) 1023) ++ be16 e.2.available)

theorem levelBlock_length (e : Fin 4 × Route) : (levelBlock e).length = 5 := rfl

theorem routeStatus_eq (k : Fin 4) (r : Route) : routeStatus k r = levelBlock (k, r) := by
  simp [routeStatus, levelBlock, field16_eq, field8_eq, fill10]

section
variable (now : Nat) (vl : Village) (d : Dispatch)

theorem fieldsOfVillageStatus_eq : fieldsOfVillageStatus now vl d =
    (fieldsOfVillageStatus now vl d).take 6 ++
      ((List.range 4).map fun i => (11 + 5 * i, vl.routePlace 5 levelBlock i)) ++ (fieldsOfVillageStatus now vl d).drop 10 := by
  refine congrArg (fun l => [_, _, _, _, _, _] ++ l ++ _) (List.map_congr_left fun i _ => congrArg (Prod.mk _) ?_)
  show _ = ((vl.entries[i]?).map levelBlock).getD (List.replicate 5 0)
  rw [Village.filterMap_entries]
  cases vl.entries[i]? <;> rfl

theorem dispatchStatus_eq :
    dispatchStatus now vl.ackMode d = (((fieldsOfVillageStatus now vl d).drop 10).map Prod.snd).flatten := by
  simp only [dispatchStatus, fieldsOfVillageStatus]
  cases vl.ackMode <;> cases d.state <;>
    simp [List.range_succ, field16_eq, field8_eq, contentByte_eq, mul_boolCode, Timer.left, b8_min]

theorem villageStatus_fields : FieldsAt (villageStatus now vl d) (fieldsOfVillageStatus now vl d) := by
  have routes := vl.padTo_routes levelBlock_length
  have place := vl.routePlace_length levelBlock_length
  rw [fieldsOfVillageStatus_eq]
  refine .of_blocks ?_ ?_
  · rw [List.map_append, List.flatten_append, ← dispatchStatus_eq]
    simp only [villageStatus, vl.entries_length]
    rw [vl.entries_map routeStatus]
    simp only [field16_eq, field8_eq, fieldIx_eq, routeStatus_eq]
    rw [routes]
    simp [fieldsOfVillageStatus, mul_boolCode, Village.entries, List.range_succ, Timer.left, fill10]
  · simp [Contiguous, fieldsOfVillageStatus, List.range_succ, place]

end

/-! ### The line side and the part -/

theorem portStatus_eq (s : State) (r : PortRec) (queue : List Frame) : portStatus s.plant.now r queue =
    [b8 r.state.code] ++ be16 (match r.state with | .down since => s.plant.now - since | .waiting | .up => 0) ++
      be16 r.good ++ be16 r.check ++ be16 r.framing ++ be16 r.breaks ++ be16 r.drops ++ [b8 queue.length] := by
  simp only [portStatus, field16_eq, field8_eq]
  cases r.state <;> simp [be16_secondsSince]

theorem linesStatus_fields (s : State) : FieldsAt (linesStatus s) (fieldsOfLines s) := by
  refine .of_blocks ?_ (by simp [Contiguous, fieldsOfLines])
  simp [linesStatus, portStatus_eq, fieldsOfLines] <;> rfl

theorem noticeNibbles_eq : ∀ (n : Nat) (kinds : List Nat), noticeNibbles n kinds =
    (List.range n).map fun i => BitVec.ofNat 8 (16 * (kinds[2 * i]?).getD 0 + (kinds[2 * i + 1]?).getD 0) := by
  intro n
  induction n with
  | zero => exact fun _ => rfl
  | succ n ih =>
    intro kinds
    rw [List.range_succ_eq_map, List.map_cons, List.map_map]
    match kinds with
    | [] => simp [noticeNibbles, ih, Function.comp_def]
    | [a] =>
      refine congrArg _ ((ih []).trans (List.map_congr_left fun i _ => ?_))
      simp [Nat.mul_add]
    | a :: b :: rest => simp [noticeNibbles, ih, Nat.mul_add]

theorem sessionSeconds_eq (now : Nat) (s : Session) : sessionSeconds now s =
    match s.start, s.endTime with
    | none, _ => 0
    | some start, ended => if s.active = true then now - start else (ended.map fun e => e - start).getD 0 := by
  unfold sessionSeconds
  cases s.start <;> cases s.endTime <;> rfl

/-- The fields of STATUS_PART as their table lists them, from their order in the data. -/
theorem FieldsAt.part_order {data : List Byte} {head tail estimate : List (Nat × List Byte)}
    (h : FieldsAt data (head ++ (estimate ++ tail))) : FieldsAt data (head ++ tail ++ estimate) := by
  simp only [FieldsAt.append] at h ⊢
  obtain ⟨head, estimate, tail⟩ := h
  exact ⟨⟨head, tail⟩, estimate⟩

theorem partStatus_fields (s : State) : FieldsAt (partStatus s) (fieldsOfPart s) := by
  refine FieldsAt.part_order (head := [_, _, _, _, _, _, _, _, _, _, _, _]) (tail := [_])
    (estimate := fieldsOfEstimate 30 _) (.of_blocks ?_ ?_)
  · have unit : 32 * s.mgmt.replies.length + 8 * s.mgmt.requests.length +
        (if s.mgmt.settings.inspecting = true then 4 else 0) + s.straps.rate.toNat =
        (s.straps.rate.toNat + (if s.mgmt.settings.inspecting = true then 4 else 0) + 8 * s.mgmt.requests.length +
          32 * s.mgmt.replies.length) := by omega
    simp only [partStatus, sessionStatus, noticeNibbles_eq, estimateBlock_eq 30, sessionSeconds_eq, Plant.evalState_code,
      field8_eq, field16_eq, field16?_eq, field32_eq, fieldIx_eq, mul_boolCode]
    simp [Timer.left, unit] <;> rfl
  · refine ⟨rfl, rfl, rfl, rfl, rfl, rfl, rfl, rfl, rfl, rfl, rfl, rfl, fieldsOfEstimate_contiguous 30 _ ?_⟩
    simp [Contiguous]

/-! ### What the row of a read answers (R41, R65, R76, R109, R132, R157, R171) -/

section
variable {s : State} {r : Request} {c : Instr} {code length : Nat} {cls : ReqClass} {rule : Request → State → ReqResult}
  (row : exec c s = .next (s.request (isCode code) (reading rule)))
  (known : catalogue (BitVec.ofNat 8 code) = some (cls, length)) (noWrite : cls ≠ .write) (begins : s.Begins r code length)
include row known noWrite begins

theorem read_answers {data : List Byte} {fields : List (Nat × List Byte)} {n : Nat} (result : rule r s = .done data)
    (long : data.length = n) (report : FieldsAt data fields) :
    ∃ t data, exec c s = .next t ∧ t.plant = s.plant ∧ s.Answers r .done data t ∧ data.length = n ∧ FieldsAt data fields :=
  ⟨_, data, row.trans (congrArg _ (begins.reading_done known (absurd · noWrite) begins.isCode result)), rfl,
    s.answers_intro r .done data s.plant, long, report⟩

theorem read_refuses {o : ReqOutcome} (result : rule r s = .refused o) : ∃ t, exec c s = .next t ∧ s.OnlyAnswers r o t :=
  ⟨_, row.trans (congrArg _ (begins.reading_refused known (absurd · noWrite) begins.isCode result)), rfl⟩

theorem read_waits {w : Wait} (result : rule r s = .wait w) :
    exec c s = .next { s with mgmt := { s.mgmt with executing := some w } } :=
  row.trans (congrArg _ (begins.reading_wait known (absurd · noWrite) begins.isCode result))

end

section
variable {s : State} {r : Request} {wait : Fin 4 → Wait} {k : Fin 4} (target : r.target.toNat = k.1)
include target

theorem readBarrierWith_done
    (now : r.afterEval = false ∨ (s.plant.barrier k).state ≠ .active ∨ s.plant.evalState (.barrier k) = .idle) :
    readBarrierWith wait r s = .done ((wait k).data s.plant) := by
  simp only [readBarrierWith, Request.index_of_lt k target]
  refine if_neg fun ⟨later, active, busy⟩ => ?_
  rcases now with off | other | idle
  · rw [off] at later; cases later
  · exact other active
  · exact busy idle

theorem readBarrierWith_wait (later : r.afterEval = true) (active : (s.plant.barrier k).state = .active)
    (busy : s.plant.evalState (.barrier k) ≠ .idle) : readBarrierWith wait r s = .wait (wait k) := by
  simp only [readBarrierWith, Request.index_of_lt k target]
  exact if_pos ⟨later, active, busy⟩

end

theorem readBarrierWith_badIndex {s : State} {r : Request} {wait : Fin 4 → Wait} (high : 4 ≤ r.target.toNat) :
    readBarrierWith wait r s = .refused .badIndex := by
  simp only [readBarrierWith, Request.index_of_le high]

end Sys2Proof.Machine

namespace Sys2Proof.Proofs

open Sys2Proof.Machine

/-- Settles O35, row by row: the data of each report is its fields, one after the other. -/
theorem readsOnlyReport : Obligations.ReadsOnlyReport := by
  intro s r answersWith refuses
  refine ⟨fun b => ?part, fun b => ?lines, fun b => ?station, fun b => ?channel, fun b => ?pattern, fun b => ?table,
    fun b => ?village, fun b => ?villageStatus, fun b => ?barrier, fun b => ?barrierStatus⟩
  case part => exact read_answers (cls := .status) rfl rfl nofun b rfl (partStatus_length s) (partStatus_fields s)
  case lines => exact read_answers (cls := .status) rfl rfl nofun b rfl (linesStatus_length s) (linesStatus_fields s)
  case station =>
    refine ⟨fun i target => ?_, fun high => ?_⟩
    · exact read_answers (cls := .read) rfl rfl nofun b (by simp only [readStationRule, Request.index_of_lt i target])
        (stationData_length _ _) (stationData_fields _ _)
    · exact read_refuses (cls := .read) rfl rfl nofun b (by simp only [readStationRule, Request.index_of_le high])
  case channel =>
    refine ⟨fun c target => ?_, fun high => ?_⟩
    · exact read_answers (cls := .read) rfl rfl nofun b (by simp only [readChannelRule, Request.index_of_lt c target])
        (channelData_length _) (channelData_fields _)
    · exact read_refuses (cls := .read) rfl rfl nofun b (by simp only [readChannelRule, Request.index_of_le high])
  case pattern =>
    refine ⟨fun c target => ?_, fun high => ?_⟩
    · exact read_answers (cls := .read) rfl rfl nofun b (by simp only [readPatternRule, Request.index_of_lt c target])
        (patternData_length _) (patternData_fields _)
    · exact read_refuses (cls := .read) rfl rfl nofun b (by simp only [readPatternRule, Request.index_of_le high])
  case table =>
    refine ⟨fun k target half => ?_, fun low above => ?_, fun high => ?_⟩
    · exact read_answers (cls := .read) rfl rfl nofun b
        (by simp only [readStagePointsRule, Request.index_of_lt k target]; exact if_neg (Nat.not_lt.2 half))
        (tableData_length _ half) (tableData_fields _ half)
    · exact read_refuses (cls := .read) rfl rfl nofun b
        (by simp only [readStagePointsRule, Request.index_of_lt (n := 4) ⟨_, low⟩ rfl]; exact if_pos above)
    · exact read_refuses (cls := .read) rfl rfl nofun b (by simp only [readStagePointsRule, Request.index_of_le high])
  case village =>
    refine ⟨fun v target => ?_, fun high => ?_⟩
    · exact read_answers (cls := .read) rfl rfl nofun b (by simp only [readVillageRule, Request.index_of_lt v target])
        (villageData_length _) (villageData_fields _)
    · exact read_refuses (cls := .read) rfl rfl nofun b (by simp only [readVillageRule, Request.index_of_le high])
  case villageStatus =>
    refine ⟨fun v target => ?_, fun high => ?_⟩
    · exact read_answers (cls := .status) rfl rfl nofun b (by simp only [statusVillageRule, Request.index_of_lt v target])
        (villageStatus_length _ _ _) (villageStatus_fields _ _ _)
    · exact read_refuses (cls := .status) rfl rfl nofun b (by simp only [statusVillageRule, Request.index_of_le high])
  case barrier =>
    refine ⟨fun k target => ⟨fun now => ?_, fun later active busy => ?_⟩, fun high => ?_⟩
    · exact read_answers (cls := .read) rfl rfl nofun b (readBarrierWith_done (wait := .read) target now)
        (barrierData_length _) (barrierData_fields _)
    · exact read_waits (cls := .read) rfl rfl nofun b (readBarrierWith_wait target later active busy)
    · exact read_refuses (cls := .read) rfl rfl nofun b (readBarrierWith_badIndex high)
  case barrierStatus =>
    refine ⟨fun k target => ⟨fun now => ?_, fun later active busy => ?_⟩, fun high => ?_⟩
    · exact read_answers (cls := .status) rfl rfl nofun b (readBarrierWith_done (wait := .status) target now)
        (barrierStatus_length _ _)
        (barrierStatus_fields _ _)
    · exact read_waits (cls := .status) rfl rfl nofun b (readBarrierWith_wait target later active busy)
    · exact read_refuses (cls := .status) rfl rfl nofun b (readBarrierWith_badIndex high)

end Sys2Proof.Proofs
end


section
/-! RESET EVAL (R44, R68, R110, R133, R163, R182): what the clearing leaves, with and without a session. -/

namespace Sys2Proof.Machine

/-- A village cleared by RESET EVAL already stands as the end of a session forms it. -/
theorem Village.formExercise_resetEval {vl : Village} (use : vl.inUse = true) :
    vl.resetEval.formExercise none = vl.resetEval := by
  rw [Village.resetEval_of_inUse use]
  rfl

theorem Village.resetEval_inUse (vl : Village) : vl.resetEval.inUse = vl.inUse := by
  unfold Village.resetEval
  split_ifs <;> rfl

theorem Plant.evalCleared_rest (p : Plant) :
    p.evalCleared.now = p.now ∧ p.evalCleared.patterns = p.patterns ∧ p.evalCleared.tables = p.tables ∧
    p.evalCleared.exercise = p.exercise.clear ∧ p.evalCleared.dispatch = p.dispatch := by
  simp [Plant.evalCleared]

theorem Plant.evalCleared_work (p : Plant) :
    p.evalCleared.evalQueue = [] ∧ p.evalCleared.flight = none ∧ p.evalCleared.workWithout .exercise = ([], none) := by
  obtain ⟨-, -, -, queue, flight, -⟩ := p.evalCleared_keeps
  refine ⟨queue, flight, ?_⟩
  unfold Plant.workWithout
  rw [queue, flight]
  exact if_neg nofun

/-- With no session running RESET EVAL only clears (R163). -/
theorem Plant.resetEval_of_idle {p : Plant} (idle : p.session.active = false) : p.resetEval = p.evalCleared := by
  obtain ⟨-, -, -, -, -, session⟩ := p.evalCleared_keeps
  rw [p.resetEval_eq, Plant.endSessionOf, session, idle]
  rfl

/-- The end of the session changes no record that RESET EVAL has cleared (R163). -/
structure Plant.ClearedAlike (p t : Plant) : Prop where
  now : t.now = p.now
  patterns : t.patterns = p.patterns
  tables : t.tables = p.tables
  stations : t.stations = p.stations
  channels : t.channels = p.channels
  barriers : t.barriers = p.barriers
  queue : t.evalQueue = p.evalQueue
  flight : t.flight = p.flight
  exercise : t.exercise = p.exercise
  village : ∀ v, t.village v = p.village v

/-- What the end of a running session leaves at RESET EVAL (R163). -/
structure Plant.EvalEnded (p t : Plant) : Prop where
  session : t.session = p.session.ended .reset p.now
  handed : ∀ v, t.disp v =
    if (p.village v).inUse = true ∧ ((p.village v).exComputed ≠ .clear ∨ (p.village v).exAnnounced ≠ .clear) then
      (p.disp v).handOn false p.now ⟨(p.village v).announced, .clear, (p.village v).mask, (p.village v).permit⟩
    else p.disp v
  told : ∃ n ∈ t.notices, n.kind = .exerciseEnded ∧ n.value = EndReason.reset.code

theorem Village.resetEval_keeps (vl : Village) :
    vl.resetEval.announced = vl.announced ∧ vl.resetEval.mask = vl.mask ∧ vl.resetEval.permit = vl.permit := by
  unfold Village.resetEval
  split_ifs <;> exact ⟨rfl, rfl, rfl⟩

theorem Plant.resetEval_of_active {p : Plant} (active : p.session.active = true) :
    p.evalCleared.ClearedAlike p.resetEval ∧ p.EvalEnded p.resetEval := by
  obtain ⟨now, -, notices, -, -, session⟩ := p.evalCleared_keeps
  obtain ⟨-, -, -, -, dispatch⟩ := p.evalCleared_rest
  obtain ⟨queue, flight, workless⟩ := p.evalCleared_work
  have result := p.evalCleared.endSessionOf_result .reset p.exercising p.exercising_nodup (by rw [session]; exact active)
  have post := p.evalCleared.post_mem .exerciseEnded ((p.evalCleared.session.barrier.map Fin.val).getD 255) EndReason.reset.code
  have village := p.evalCleared_village
  have disp (v : Fin 8) : p.evalCleared.disp v = p.disp v := by rw [Plant.disp, dispatch, Plant.disp]
  rw [p.resetEval_eq]
  generalize p.evalCleared = q at *
  obtain ⟨only, ended, work, villages, handed, told⟩ := result
  generalize q.endSessionOf .reset p.exercising = t at *
  obtain ⟨queue', flight'⟩ := Prod.mk.inj (work.trans workless)
  refine ⟨⟨by rw [only], by rw [only], by rw [only], by rw [only], by rw [only], by rw [only], queue'.trans queue.symm,
    flight'.trans flight.symm, by rw [only], fun v => ?_⟩, ⟨?_, fun v => ?_, ?_⟩⟩
  · rw [villages]
    split_ifs with noted
    · obtain ⟨-, use⟩ := noted
      rw [village, Village.resetEval_inUse] at use
      rw [village, Village.formExercise_resetEval use]
    · rfl
  · rw [ended, session, now]
  · obtain ⟨announced, mask, permit⟩ := (p.village v).resetEval_keeps
    rw [handed, village, announced, mask, permit, Village.resetEval_inUse, disp, now]
    refine if_congr ?_ rfl rfl
    rw [Plant.mem_exercising]
    exact ⟨And.left, fun h => ⟨h, h.1⟩⟩
  · obtain ⟨n, mem, kind, -, value⟩ := post
    exact ⟨n, told ▸ mem, kind, value⟩

theorem Plant.resetEval_alike (p : Plant) : p.evalCleared.ClearedAlike p.resetEval := by
  cases active : p.session.active
  · rw [Plant.resetEval_of_idle active]
    exact ⟨rfl, rfl, rfl, rfl, rfl, rfl, rfl, rfl, rfl, fun _ => rfl⟩
  · exact (Plant.resetEval_of_active active).1

/-! ### The row of RESET EVAL (R182) -/

section
variable {s : State} {r : Request} (begins : s.Begins r 0x07 1)
include begins

theorem State.Begins.isResetEval (lines : (r.byte 0).toNat ≠ 2) (all : (r.byte 0).toNat ≠ 3) : isResetEval r = true := by
  have code : (r.code == codeReset) = true := by rw [begins.code]; rfl
  have two : r.resetOf scopeLines = false := (begins.resetOf _).trans (decide_eq_false lines)
  have three : r.resetOf scopeAll = false := (begins.resetOf _).trans (decide_eq_false all)
  rw [Machine.isResetEval, code, two, three]
  rfl

theorem State.Begins.resetEval_unknown (off : s.mgmt.settings.inspecting = false)
    (scope : r.byte 0 = 0 ∨ 3 < (r.byte 0).toNat) :
    exec .resetEval s = .next { s with mgmt := s.mgmt.answered r .badValue [] } := by
  have other : (r.byte 0).toNat ≠ 1 ∧ (r.byte 0).toNat ≠ 2 ∧ (r.byte 0).toNat ≠ 3 := by
    rcases scope with zero | high
    · rw [zero]; decide
    · omega
  obtain ⟨eval, lines, all⟩ := other
  exact congrArg Host.Outcome.next (begins.onPlant_refused rfl (fun _ => off) (begins.isResetEval lines all) (if_neg eval))

theorem State.Begins.resetEval (off : s.mgmt.settings.inspecting = false) (scope : r.byte 0 = 1) :
    exec .resetEval s = .next { s with plant := s.plant.resetEval, mgmt := s.mgmt.answered r .done [] } := by
  have own : Machine.isResetEval r = true := begins.isResetEval (by rw [scope]; decide) (by rw [scope]; decide)
  have eval : r.num 0 = scopeEval := by rw [Request.num, scope]; rfl
  exact congrArg Host.Outcome.next (begins.onPlant_done rfl (fun _ => off) own (if_pos eval))

end

end Sys2Proof.Machine

namespace Sys2Proof.Proofs

open Sys2Proof.Machine

/-- Settles O37, from what the clearing leaves of each record and what the end of a session tells. -/
theorem resetEvalClearsEvaluation : Obligations.ResetEvalClearsEvaluation := by
  intro s r begins off
  refine ⟨fun scope => ⟨_, begins.resetEval_unknown off scope, rfl⟩, fun scope => ?_⟩
  refine ⟨{ s with plant := s.plant.resetEval, mgmt := s.mgmt.answered r .done [] }, begins.resetEval off scope, rfl, ?_⟩
  obtain ⟨now, patterns, tables, stations, channels, barriers, queue, flight, exercise, village⟩ := s.plant.resetEval_alike
  obtain ⟨now', tables', notices', queue', flight', session'⟩ := s.plant.evalCleared_keeps
  obtain ⟨-, patterns', -, exercise', dispatch'⟩ := s.plant.evalCleared_rest
  have idle (off : s.plant.session.active = false) : s.plant.resetEval.session = s.plant.session ∧
      s.plant.resetEval.dispatch = s.plant.dispatch ∧ s.plant.resetEval.notices = s.plant.notices := by
    rw [Plant.resetEval_of_idle off]
    exact ⟨session', dispatch', notices'⟩
  have ended (active : s.plant.session.active = true) := (Plant.resetEval_of_active active).2
  have station := s.plant.evalCleared_station
  have channel := s.plant.evalCleared_channel
  have barrier := s.plant.evalCleared_barrier
  have cleared := s.plant.evalCleared_village
  dsimp only
  generalize s.plant.evalCleared = q at *
  generalize s.plant.resetEval = t at *
  refine ⟨now.trans now', patterns.trans patterns', tables.trans tables', fun i => ?_, fun c => ?_, fun k => ?_,
    queue.trans queue', flight.trans flight', exercise.trans exercise', fun v use => ?_, idle, fun active => ?_⟩
  · rw [Plant.station, stations]
    refine (station i).trans ?_
    simp only [Station.resetEval, Bool.and_eq_true, bne_iff_ne]
  · rw [Plant.channel, channels]
    exact channel c
  · rw [Plant.barrier, barriers]
    exact barrier k
  · rw [village, cleared, Village.resetEval_of_inUse use]
    exact ⟨rfl, fun k => mapAll_get ..⟩
  · obtain ⟨session, handed, told⟩ := ended active
    exact ⟨session, handed, told⟩

end Sys2Proof.Proofs
end


section
/-! The requests LOAD_STATION and RETIRE_STATION (R27 to R30): their checks in the terms of the request's bytes, and the record
and lapses they leave. -/

namespace Sys2Proof.Machine

/-! ### The slots a LOAD_STATION asks for (R27, orders 4 and 5) -/

section
variable {α : Type} {n : Nat} (f : Fin n → Option α)

theorem mem_reduceOption_ofFn (a : α) : a ∈ (Vector.ofFn f).toList.reduceOption ↔ ∃ j, f j = some a := by
  rw [List.reduceOption_mem_iff]
  simp

theorem nodup_reduceOption_ofFn : (Vector.ofFn f).toList.reduceOption.Nodup ↔
    ¬ ∃ i j a, i ≠ j ∧ f i = some a ∧ f j = some a := by
  rw [List.Nodup, List.reduceOption, List.pairwise_filterMap, Vector.toList_ofFn, List.pairwise_ofFn]
  constructor
  · rintro apart ⟨i, j, a, ne, hi, hj⟩
    rcases lt_or_gt_of_ne ne with less | more
    · exact apart less a hi a hj rfl
    · exact apart more a hj a hi rfl
  · rintro once i j less a hi b hj rfl
    exact once ⟨i, j, a, less.ne, hi, hj⟩

end

section
variable {n : Nat} {b : Byte}

theorem indexOrNone_none : indexOrNone n b = none ↔ n ≤ b.toNat ∧ b ≠ 255 := by
  unfold indexOrNone
  split_ifs with low absent
  · exact ⟨nofun, fun ⟨high, _⟩ => by omega⟩
  · exact ⟨nofun, fun ⟨_, other⟩ => absurd absent other⟩
  · exact ⟨fun _ => ⟨Nat.not_lt.1 low, absent⟩, fun _ => rfl⟩

theorem indexOrNone_some (i : Fin n) : indexOrNone n b = some (some i) ↔ b.toNat = i.1 := by
  unfold indexOrNone
  split_ifs with low absent
  · rw [Option.some.injEq, Option.some.injEq, Fin.ext_iff]
  · exact ⟨nofun, fun same => absurd (same ▸ i.2) low⟩
  · exact ⟨nofun, fun same => absurd (same ▸ i.2) low⟩

theorem indexOrNone_absent (small : n ≤ 255) : indexOrNone n b = some none ↔ b = 255 := by
  unfold indexOrNone
  split_ifs with low absent
  · refine ⟨nofun, fun same => ?_⟩
    rw [same] at low
    exact absurd low (Nat.not_lt.2 small)
  · exact iff_of_true rfl absent
  · exact iff_of_false nofun absent

end

section
variable (r : Request) (j : Fin 8)

theorem Request.slot_none : r.slot j = none ↔ 48 ≤ (r.byte (1 + j.1)).toNat ∧ r.byte (1 + j.1) ≠ 255 := indexOrNone_none

/-- Slot `j` of the map asked for: the channel its byte names, if it names one. -/
theorem Request.slotAt_eq : (r.slot j).getD none =
    if h : (r.byte (1 + j.1)).toNat < 48 then some ⟨(r.byte (1 + j.1)).toNat, h⟩ else none := by
  unfold Request.slot indexOrNone
  split_ifs <;> rfl

theorem Request.slotAt_some (c : Fin 48) : (r.slot j).getD none = some c ↔ (r.byte (1 + j.1)).toNat = c.1 := by
  rw [r.slotAt_eq]
  split_ifs with low
  · rw [Option.some.injEq, Fin.ext_iff]
  · exact ⟨nofun, fun same => absurd (same ▸ c.2) low⟩

theorem Request.mem_slots (c : Fin 48) :
    c ∈ r.slots.toList.reduceOption ↔ ∃ j : Fin 8, (r.byte (1 + j.1)).toNat = c.1 :=
  (mem_reduceOption_ofFn _ c).trans (exists_congr fun j => r.slotAt_some j c)

theorem Request.slots_nodup : r.slots.toList.reduceOption.Nodup ↔
    ¬ ∃ a b : Fin 8, a ≠ b ∧ r.byte (1 + a.1) = r.byte (1 + b.1) ∧ (r.byte (1 + a.1)).toNat < 48 := by
  refine (nodup_reduceOption_ofFn _).trans (not_congr ⟨?_, ?_⟩)
  · rintro ⟨a, b, c, ne, ha, hb⟩
    rw [r.slotAt_some] at ha hb
    exact ⟨a, b, ne, BitVec.eq_of_toNat_eq (ha.trans hb.symm), ha ▸ c.2⟩
  · rintro ⟨a, b, ne, same, low⟩
    exact ⟨a, b, ⟨_, low⟩, ne, (r.slotAt_some a _).2 rfl, (r.slotAt_some b _).2 (congrArg BitVec.toNat same.symm)⟩

/-- The record asked for maps the channels its slot bytes name, and none for line address 0. -/
theorem Request.stationRecord_maps (c : Fin 48) :
    r.stationRecord.maps c = true ↔ r.byte 0 ≠ 0 ∧ ∃ j : Fin 8, (r.byte (1 + j.1)).toNat = c.1 := by
  unfold Request.stationRecord
  split_ifs with off
  · rw [Station.cleared_maps_none]
    exact ⟨nofun, fun h => absurd off h.1⟩
  · rw [Station.mem_slots]
    exact (r.mem_slots c).trans (and_iff_right off).symm

end

/-! ### The checks (R27) -/

section
variable (p : Plant)

theorem Plant.stationHolds_iff (addr : Byte) (i : Fin 24) : p.stationHolds addr (some i) = true ↔
    ∃ j, j ≠ i ∧ (p.station j).inUse = true ∧ (p.station j).addr = addr := by
  simp [Plant.stationHolds, List.mem_finRange, and_assoc]

theorem Plant.villageHolds_iff (addr : Byte) : p.villageHolds addr none = true ↔
    ∃ v, (p.village v).inUse = true ∧ (p.village v).addr = addr := by
  simp [Plant.villageHolds, List.mem_finRange]

theorem Plant.slotClash_iff (i : Fin 24) (r : Request) : p.slotClash i r.slots = true ↔
    (∃ a b : Fin 8, a ≠ b ∧ r.byte (1 + a.1) = r.byte (1 + b.1) ∧ (r.byte (1 + a.1)).toNat < 48) ∨
    ∃ (a : Fin 8) (j : Fin 24) (c : Fin 48), j ≠ i ∧ (p.station j).inUse = true ∧ (r.byte (1 + a.1)).toNat = c.1 ∧
      (p.station j).maps c = true := by
  rw [Plant.slotClash, Bool.or_eq_true, Bool.not_eq_true', decide_eq_false_iff_not, r.slots_nodup, not_not, List.any_eq_true]
  refine or_congr Iff.rfl ⟨?_, ?_⟩
  · rintro ⟨c, named, mapped⟩
    obtain ⟨a, ha⟩ := (r.mem_slots c).1 named
    obtain ⟨j, -, hj⟩ := List.any_eq_true.1 mapped
    simp only [Bool.and_eq_true, bne_iff_ne] at hj
    obtain ⟨⟨ne, use⟩, maps⟩ := hj
    exact ⟨a, j, c, ne, use, ha, maps⟩
  · rintro ⟨a, j, c, ne, use, ha, maps⟩
    refine ⟨c, (r.mem_slots c).2 ⟨a, ha⟩, List.any_eq_true.2 ⟨j, List.mem_finRange j, ?_⟩⟩
    simp only [Bool.and_eq_true, bne_iff_ne]
    exact ⟨⟨ne, use⟩, maps⟩

theorem Plant.stationValuesBad_iff (i : Fin 24) (r : Request) : p.stationValuesBad i r = true ↔ r.byte 0 ≠ 0 ∧
    (((∃ j, j ≠ i ∧ (p.station j).inUse = true ∧ (p.station j).addr = r.byte 0) ∨
        ∃ v, (p.village v).inUse = true ∧ (p.village v).addr = r.byte 0) ∨
      (∃ j : Fin 8, 48 ≤ (r.byte (1 + j.1)).toNat ∧ r.byte (1 + j.1) ≠ 255) ∨
      ((∃ a b : Fin 8, a ≠ b ∧ r.byte (1 + a.1) = r.byte (1 + b.1) ∧ (r.byte (1 + a.1)).toNat < 48) ∨
        ∃ (a : Fin 8) (j : Fin 24) (c : Fin 48), j ≠ i ∧ (p.station j).inUse = true ∧ (r.byte (1 + a.1)).toNat = c.1 ∧
          (p.station j).maps c = true)) := by
  have misnamed : ((List.finRange 8).any fun j => (r.slot j).isNone) = true ↔
      ∃ j : Fin 8, 48 ≤ (r.byte (1 + j.1)).toNat ∧ r.byte (1 + j.1) ≠ 255 := by
    simp only [List.any_eq_true, List.mem_finRange, true_and, Option.isNone_iff_eq_none, r.slot_none]
  rw [Plant.stationValuesBad, Bool.and_eq_true, bne_iff_ne, Bool.or_eq_true, Bool.or_eq_true, Bool.or_eq_true, misnamed,
    p.slotClash_iff, p.stationHolds_iff, p.villageHolds_iff, or_assoc (a := _ ∨ _)]

theorem Plant.touchesActive_iff (st : Station) : p.touchesActive st = true ↔ ∃ (c : Fin 48) (k : Fin 4),
    st.maps c = true ∧ (p.channel c).inUse = true ∧ (p.channel c).barrier = some k ∧ (p.barrier k).state = .active := by
  simp only [Plant.touchesActive, Plant.touches, List.any_eq_true, List.mem_finRange, true_and, Bool.and_eq_true,
    beq_iff_eq, Station.mem_channels]
  constructor
  · rintro ⟨k, ⟨c, maps, use, at_⟩, active⟩
    exact ⟨c, k, maps, use, at_, active⟩
  · rintro ⟨c, k, maps, use, at_, active⟩
    exact ⟨k, ⟨c, maps, use, at_⟩, active⟩

end

/-! ### The rules -/

section
variable {s : State} {r : Request} {i : Fin 24} (target : r.target.toNat = i.1)
include target

theorem loadStationRule_badAddress (bad : r.byte 0 = 255 ∨ r.byte 0 = s.ownAddr) :
    loadStationRule r s = refuse s .badValue := by
  simp only [loadStationRule, Request.index_of_lt i target]
  exact if_pos bad

section
variable (good : ¬ (r.byte 0 = 255 ∨ r.byte 0 = s.ownAddr))
include good

theorem loadStationRule_badValue (bad : s.plant.stationValuesBad i r = true) :
    loadStationRule r s = refuse s .badValue := by
  simp only [loadStationRule, Request.index_of_lt i target]
  exact (if_neg good).trans (if_pos bad)

variable (fine : ¬ s.plant.stationValuesBad i r = true)
include fine

theorem loadStationRule_wrongState
    (busy : s.plant.touchesActive (s.plant.station i) = true ∨ s.plant.touchesActive r.stationRecord = true) :
    loadStationRule r s = refuse s .wrongState := by
  simp only [loadStationRule, Request.index_of_lt i target]
  exact (if_neg good).trans ((if_neg fine).trans (if_pos busy))

theorem loadStationRule_done
    (free : ¬ (s.plant.touchesActive (s.plant.station i) = true ∨ s.plant.touchesActive r.stationRecord = true)) :
    loadStationRule r s = finished (s.plant.writeStation i r.stationRecord) := by
  simp only [loadStationRule, Request.index_of_lt i target]
  exact (if_neg good).trans ((if_neg fine).trans (if_neg free))

end

theorem retireStationRule_unused (unused : (s.plant.station i).inUse = false) :
    retireStationRule r s = refuse s .wrongState := by
  simp only [retireStationRule, Request.index_of_lt i target]
  exact if_neg (by simp [unused])

theorem retireStationRule_done (use : (s.plant.station i).inUse = true) :
    retireStationRule r s = finished (s.plant.retire i) := by
  simp only [retireStationRule, Request.index_of_lt i target]
  exact if_pos use

end

theorem exec_loadStation (s : State) : exec .loadStation s = .next (s.request (isCode 0x10) (onPlant loadStationRule)) := rfl

theorem exec_retireStation (s : State) :
    exec .retireStation s = .next (s.request (isCode 0x11) (onPlant retireStationRule)) := rfl

end Sys2Proof.Machine

namespace Sys2Proof.Proofs

open Sys2Proof.Machine

/-- Settles O40, by the answer of the rule of LOAD_STATION in each case of R27. -/
theorem loadStationWritesRecord : Obligations.LoadStationWritesRecord := by
  intro s r begins off refuses
  have refused {o : ReqOutcome} (rule : loadStationRule r s = refuse s o) : refuses o :=
    writeRequest_onlyAnswers exec_loadStation rfl begins off rule
  refine ⟨fun high => refused (by simp only [loadStationRule, Request.index_of_le high]), fun i target => ?_⟩
  intro addr slot taken misnamed shared bad busy
  have values : s.plant.stationValuesBad i r = true ↔ addr ≠ 0 ∧ (taken ∨ misnamed ∨ shared) :=
    s.plant.stationValuesBad_iff i r
  have touches : (s.plant.touchesActive (s.plant.station i) = true ∨ s.plant.touchesActive r.stationRecord = true) ↔ busy := by
    rw [Plant.touchesActive_iff, Plant.touchesActive_iff]
    simp only [r.stationRecord_maps]
    constructor
    · rintro (⟨c, k, maps, rest⟩ | ⟨c, k, named, rest⟩)
      · exact ⟨c, k, .inl maps, rest⟩
      · exact ⟨c, k, .inr named, rest⟩
    · rintro ⟨c, k, maps | named, rest⟩
      · exact .inl ⟨c, k, maps, rest⟩
      · exact .inr ⟨c, k, named, rest⟩
  have split : bad ↔ (addr = 255 ∨ addr = s.ownAddr) ∨ s.plant.stationValuesBad i r = true := by
    rw [values]
    exact or_assoc.symm
  refine ⟨fun isBad => ?_, fun good isBusy => ?_, fun good free => ?_⟩
  · by_cases address : addr = 255 ∨ addr = s.ownAddr
    · exact refused (loadStationRule_badAddress target address)
    · exact refused (loadStationRule_badValue target address ((split.1 isBad).resolve_left address))
  · obtain ⟨address, fine⟩ := not_or.1 (mt split.2 good)
    exact refused (loadStationRule_wrongState target address fine (touches.2 isBusy))
  · obtain ⟨address, fine⟩ := not_or.1 (mt split.2 good)
    obtain ⟨t, row, answers, plant⟩ := writeRequest_answers exec_loadStation rfl begins off
      (loadStationRule_done target address fine (mt touches.1 free))
    refine ⟨t, row, answers, ?_⟩
    obtain ⟨step, written, others, patterns, lapses⟩ :=
      s.plant.setStation_lapseAll_spec i r.stationRecord _ (mappedByEither_nodup (s.plant.station i) r.stationRecord)
    rw [Plant.writeStation] at plant
    rw [← plant] at step written others patterns lapses
    refine ⟨fun used => ?_, fun unused => ?_, others, fun c => ?_, ?_, step.tables, patterns, step.now⟩
    · have record : r.stationRecord = { Station.cleared with
          inUse := true, addr := addr, slots := r.slots, timeout := clampTo 10 3600 (r.num16 9) } := if_neg used
      rw [written, record]
      refine ⟨rfl, rfl, fun j => ?_, rfl, rfl, rfl, rfl, rfl, rfl, rfl, rfl⟩
      exact (Vector.getElem_ofFn j.2).trans (r.slotAt_eq j)
    · exact written.trans (if_pos unused)
    · rw [lapses, written]
      exact if_congr (mem_mappedByEither _ _ c) rfl rfl
    · rw [written]
      exact plant

/-- Settles O41, by the state of the record. -/
theorem retireStation : Obligations.RetireStation := by
  intro s r begins off
  have refused {o : ReqOutcome} (rule : retireStationRule r s = refuse s o) :
      ∃ t, exec .retireStation s = .next t ∧ s.OnlyAnswers r o t :=
    writeRequest_onlyAnswers exec_retireStation rfl begins off rule
  refine ⟨fun high => refused (by simp only [retireStationRule, Request.index_of_le high]), fun i target => ⟨fun unused =>
    refused (retireStationRule_unused target unused), fun use => ?_⟩⟩
  obtain ⟨t, row, answers, plant⟩ := writeRequest_answers exec_retireStation rfl begins off (retireStationRule_done target use)
  refine ⟨t, row, answers, fun retired => plant.trans (if_pos retired), fun active => ?_⟩
  replace plant := plant.trans (if_neg active)
  obtain ⟨step, written, others, patterns, lapses⟩ := s.plant.setStation_lapseAll_spec i
    { s.plant.station i with state := .retired, timer := none, lastSeq := none } _
    ((List.nodup_finRange 48).filter (s.plant.station i).maps)
  rw [Station.channels] at plant
  rw [← plant] at step written others patterns lapses
  refine ⟨written, others, fun c => ?_, ?_, step.tables, patterns, step.now⟩
  · rw [lapses]
    exact if_congr (Station.mem_channels _ c) rfl rfl
  · rw [written]
    exact plant

end Sys2Proof.Proofs
end


section
/-! The requests LOAD_CHANNEL and REARM_WIRE (R46 to R49, R62, R64): the checks in the terms of the request's bytes, the record
written, and what is reported of the old one. -/

namespace Sys2Proof.Machine

/-! ### The record a LOAD_CHANNEL asks for (R46, R47) -/

theorem kindOf_some (n : Nat) (kind : ChannelKind) : kindOf n = some kind ↔ n = kind.code := by
  unfold kindOf
  split <;> cases kind <;> simp_all [ChannelKind.code]

theorem kindOf_none (n : Nat) : kindOf n = none ↔ 2 < n := by
  constructor
  · intro unknown
    by_contra low
    have code : ∃ kind : ChannelKind, n = kind.code := by
      have : n = 0 ∨ n = 1 ∨ n = 2 := by omega
      rcases this with zero | one | two
      · exact ⟨.stage, zero⟩
      · exact ⟨.surge, one⟩
      · exact ⟨.wire, two⟩
    obtain ⟨kind, known⟩ := code
    rw [(kindOf_some n kind).2 known] at unknown
    cases unknown
  · intro high
    cases known : kindOf n with
    | none => rfl
    | some kind =>
      rw [kindOf_some] at known
      cases kind <;> simp only [ChannelKind.code] at known <;> omega

section
variable (r : Request)

theorem Request.flag_eq (i : Nat) : (r.num i != 0) = decide (r.byte i ≠ 0) := by
  rw [Bool.eq_iff_iff, bne_iff_ne, decide_eq_true_iff, not_iff_not, Request.num]
  exact ⟨fun zero => BitVec.eq_of_toNat_eq zero, fun zero => by rw [zero]; rfl⟩

/-- A setting out of range for the kind asked for (R46, orders 4 and 5). -/
def Request.SettingsBad (r : Request) (kind : Nat) : Prop :=
  kind = 0 ∧ (4095 < r.num16 9 ∨ (r.byte 11).toNat < 1 ∨ 7 < (r.byte 11).toNat ∨
    (r.byte 12).toNat ∉ [1, 2, 4, 8] ∨ (r.byte 13).toNat < 1 ∨ 15 < (r.byte 13).toNat) ∨
  kind = 1 ∧ r.num16 16 = 0

theorem Request.settingsGood_iff (kind : ChannelKind) (barrier : Option (Fin 4)) :
    (r.channelRecord kind barrier).settingsGood = true ↔ ¬ r.SettingsBad kind.code := by
  cases kind with
  | stage =>
    have code : ChannelKind.stage.code = 0 := rfl
    simp only [Channel.settingsGood, Request.channelRecord, Bool.and_eq_true, Nat.ble_eq, List.contains_iff_mem,
      Request.SettingsBad, code, Request.num, Config.stageMax, true_and, zero_ne_one, false_and, or_false]
    by_cases window : (r.byte 12).toNat ∈ [1, 2, 4, 8]
    · simp only [window, not_true_eq_false, false_or, and_true]
      omega
    · simp [window]
  | surge => simp [Channel.settingsGood, Request.channelRecord, Request.SettingsBad, ChannelKind.code]
  | wire => simp [Channel.settingsGood, Request.SettingsBad, ChannelKind.code, Request.channelRecord]

end

section
variable (p : Plant) (c : Fin 48) (r : Request)

/-- The barrier asked for holds its cap of the kind without this channel (R46 order 6, R49). -/
def Plant.CapHeld (p : Plant) (c : Fin 48) (r : Request) : Prop :=
  ∃ (kind : ChannelKind) (k : Fin 4), (r.byte 2).toNat = kind.code ∧ (r.byte 3).toNat = k.1 ∧
    channelCap kind ≤ ((p.channelsAt k kind).filter (· ≠ c)).length

/-- Checks 2 to 6 of R46 fail. -/
def Plant.ChannelBad (p : Plant) (c : Fin 48) (r : Request) : Prop :=
  1 < (r.byte 0).toNat ∨ r.byte 0 = 1 ∧
    (2 < (r.byte 2).toNat ∨ 3 < (r.byte 3).toNat ∧ r.byte 3 ≠ 255 ∨ r.SettingsBad (r.byte 2).toNat ∨ p.CapHeld c r)

theorem Plant.atCap_iff (k : Fin 4) (kind : ChannelKind) :
    p.atCap c k kind = true ↔ channelCap kind ≤ ((p.channelsAt k kind).filter (· ≠ c)).length := by
  rw [Plant.atCap, Nat.ble_eq]
  simp only [ne_eq, decide_not, bne]
  rfl

theorem ChannelKind.code_inj {a b : ChannelKind} (same : a.code = b.code) : a = b := by
  cases a <;> cases b <;> first | rfl | cases same

theorem Plant.capHeld_iff {kind : ChannelKind} {barrier : Option (Fin 4)} (code : (r.byte 2).toNat = kind.code)
    (named : indexOrNone 4 (r.byte 3) = some barrier) :
    p.CapHeld c r ↔ (barrier.any fun k => p.atCap c k kind) = true := by
  constructor
  · rintro ⟨kind', k, code', at_, held⟩
    obtain rfl := ChannelKind.code_inj (code.symm.trans code')
    rw [(indexOrNone_some k).2 at_] at named
    rw [← Option.some.inj named]
    exact (p.atCap_iff c k kind).2 held
  · intro held
    cases barrier with
    | none => cases held
    | some k => exact ⟨kind, k, code, (indexOrNone_some k).1 named, (p.atCap_iff c k kind).1 held⟩

theorem Plant.requestedChannel_unused (unused : r.byte 0 = 0) : p.requestedChannel c r = some .cleared := by
  unfold Plant.requestedChannel
  exact if_pos (by rw [Request.num, unused]; rfl)

theorem Plant.requestedChannel_use (use : r.byte 0 = 1) : p.requestedChannel c r =
    match kindOf (r.num 2), indexOrNone 4 (r.byte 3) with
    | some kind, some barrier =>
      if (r.channelRecord kind barrier).settingsGood && !(barrier.any fun k => p.atCap c k kind) then
        some (r.channelRecord kind barrier) else none
    | _, _ => none := by
  have one : r.num 0 = 1 := by rw [Request.num, use]; rfl
  have zero : ¬ r.num 0 = 0 := by rw [one]; exact one_ne_zero
  unfold Plant.requestedChannel
  refine (if_neg zero).trans ((if_pos one).trans ?_)
  cases kindOf (r.num 2) <;> cases indexOrNone 4 (r.byte 3) <;> rfl

theorem Plant.requestedChannel_named (use : r.byte 0 = 1) {kind : ChannelKind} {barrier : Option (Fin 4)}
    (known : kindOf (r.num 2) = some kind) (named : indexOrNone 4 (r.byte 3) = some barrier) :
    p.requestedChannel c r = none ↔ r.SettingsBad (r.byte 2).toNat ∨ p.CapHeld c r := by
  have code : (r.byte 2).toNat = kind.code := (kindOf_some _ kind).1 known
  rw [p.requestedChannel_use c r use, known, named, p.capHeld_iff c r code named, code]
  dsimp only
  by_cases settings : (r.channelRecord kind barrier).settingsGood = true
  · have fine := (r.settingsGood_iff kind barrier).1 settings
    rw [settings, Bool.true_and, or_iff_right fine]
    cases barrier.any fun k => p.atCap c k kind <;> simp
  · have wrong := not_not.1 (mt (r.settingsGood_iff kind barrier).2 settings)
    rw [Bool.eq_false_iff.2 settings]
    exact iff_of_true rfl (.inl wrong)

/-- The request is refused exactly where checks 2 to 6 of R46 fail. -/
theorem Plant.requestedChannel_none : p.requestedChannel c r = none ↔ p.ChannelBad c r := by
  have cases_use : r.byte 0 = 0 ∨ r.byte 0 = 1 ∨ 1 < (r.byte 0).toNat := by
    by_cases zero : (r.byte 0).toNat = 0
    · exact .inl (BitVec.eq_of_toNat_eq zero)
    by_cases one : (r.byte 0).toNat = 1
    · exact .inr (.inl (BitVec.eq_of_toNat_eq one))
    · exact .inr (.inr (by omega))
  rcases cases_use with unused | use | other
  · rw [p.requestedChannel_unused c r unused, Plant.ChannelBad, unused]
    refine iff_of_false nofun ?_
    rintro (high | ⟨one, -⟩)
    · exact absurd high (by decide)
    · exact absurd one (by decide)
  · have low : ¬ 1 < (r.byte 0).toNat := by rw [use]; decide
    rw [Plant.ChannelBad, or_iff_right low, and_iff_right use]
    cases known : kindOf (r.num 2) with
    | none =>
      refine iff_of_true ?_ (.inl ((kindOf_none _).1 known))
      rw [p.requestedChannel_use c r use, known]
    | some kind =>
      have small : ¬ 2 < (r.byte 2).toNat := fun high => by rw [Request.num, (kindOf_none _).2 high] at known; cases known
      cases named : indexOrNone 4 (r.byte 3) with
      | none =>
        refine iff_of_true ?_ (.inr (.inl (indexOrNone_none.1 named)))
        rw [p.requestedChannel_use c r use, known, named]
      | some barrier =>
        have fine : ¬ (3 < (r.byte 3).toNat ∧ r.byte 3 ≠ 255) := fun wrong => by
          rw [indexOrNone_none.2 wrong] at named
          cases named
        rw [p.requestedChannel_named c r use known named, or_iff_right small, or_iff_right fine]
  · refine iff_of_true ?_ (.inl other)
    have num : r.num 0 ≠ 0 ∧ r.num 0 ≠ 1 := by rw [Request.num]; omega
    rw [Plant.requestedChannel, if_neg num.1, if_neg num.2]

/-- A record that is asked for and not refused: cleared, or the one of the bytes (R47, R48). -/
theorem Plant.requestedChannel_some {new : Channel} (asked : p.requestedChannel c r = some new) :
    r.byte 0 = 0 ∧ new = .cleared ∨ r.byte 0 = 1 ∧ ∃ kind barrier, (r.byte 2).toNat = kind.code ∧
      indexOrNone 4 (r.byte 3) = some barrier ∧ new = r.channelRecord kind barrier := by
  unfold Plant.requestedChannel at asked
  split_ifs at asked with unused use
  · exact .inl ⟨BitVec.eq_of_toNat_eq unused, (Option.some.inj asked).symm⟩
  · refine .inr ⟨BitVec.eq_of_toNat_eq use, ?_⟩
    split at asked
    · next kind barrier known named =>
      dsimp only at asked
      split_ifs at asked
      exact ⟨kind, barrier, (kindOf_some _ _).1 known, named, (Option.some.inj asked).symm⟩
    · cases asked

theorem Plant.atActive_iff (ch : Channel) : p.atActive ch = true ↔
    ∃ k : Fin 4, (p.barrier k).state = .active ∧ ch.inUse = true ∧ ch.barrier = some k := by
  unfold Plant.atActive
  cases ch.barrier <;> simp [and_comm]

/-- The record asked for is at an ACTIVE barrier (R46, order 7). -/
theorem Plant.atActive_requested {new : Channel} (asked : p.requestedChannel c r = some new) : p.atActive new = true ↔
    ∃ k : Fin 4, (p.barrier k).state = .active ∧ r.byte 0 = 1 ∧ (r.byte 3).toNat = k.1 := by
  rw [p.atActive_iff]
  refine exists_congr fun k => and_congr_right fun _ => ?_
  rcases p.requestedChannel_some c r asked with ⟨unused, rfl⟩ | ⟨use, kind, barrier, -, named, rfl⟩
  · rw [unused]
    exact iff_of_false (fun h => absurd h.1 (by decide)) (fun h => absurd h.1 (by decide))
  · rw [← indexOrNone_some, named]
    exact ⟨fun h => ⟨use, congrArg some h.2⟩, fun h => ⟨rfl, Option.some.inj h.2⟩⟩

end

/-! ### What is reported of the record (R47, R57, R62) -/

section
variable (p : Plant) (old : Channel)

/-- What a withdrawn record reports: its VALID paths or channel, and a set latch. -/
def Plant.withdrawn (p : Plant) (old : Channel) : Plant :=
  (p.reportLost old).reportLatch old (old.inUse && old.kind == .wire && old.latch)

theorem Plant.reportLatch_unchanged : p.reportLatch old false = p := rfl

theorem Plant.withdrawn_silent (none : old.inUse = false ∨ old.barrier = none) : p.withdrawn old = p := by
  unfold Plant.withdrawn
  rcases none with unused | nowhere
  · rw [p.reportLost_silent old (.inl unused), unused, Bool.false_and, Bool.false_and, Plant.reportLatch_unchanged]
  · rw [p.reportLost_silent old (.inr (.inr nowhere)), Plant.reportLatch_eq, nowhere]
    rfl

variable {p old} {k : Fin 4} (use : old.inUse = true) (barrier : old.barrier = some k)
include use barrier

theorem Plant.withdrawn_stage (kind : old.kind = .stage) : p.withdrawn old =
    if old.exer.valid = true then (if old.real.valid = true then p.vote k else p).exerciseVote k
    else if old.real.valid = true then p.vote k else p := by
  have latch : (old.inUse && old.kind == .wire && old.latch) = false := by rw [kind, use]; rfl
  rw [Plant.withdrawn, latch, Plant.reportLatch_unchanged, p.reportLost_stage old use barrier kind]

theorem Plant.withdrawn_surge (kind : old.kind = .surge) :
    p.withdrawn old = if old.valid = true then p.assessSurge k else p := by
  have latch : (old.inUse && old.kind == .wire && old.latch) = false := by rw [kind, use]; rfl
  rw [Plant.withdrawn, latch, Plant.reportLatch_unchanged, p.reportLost_surge old use barrier kind]

theorem Plant.withdrawn_wire (kind : old.kind = .wire) :
    p.withdrawn old = if old.latch = true then p.assessBreach k else p := by
  have latch : (old.inUse && old.kind == .wire && old.latch) = old.latch := by rw [kind, use]; rfl
  rw [Plant.withdrawn, latch, p.reportLost_silent old (.inr (.inl kind)), Plant.reportLatch_eq, barrier]
  rfl

end

theorem Plant.setChannel_self (p : Plant) (c : Fin 48) : p.setChannel c (p.channel c) = p := by
  simp [Plant.setChannel, Plant.channel, Vector.get]

/-- The plant with a channel's latch clear. -/
def Plant.unlatched (p : Plant) (c : Fin 48) : Plant := p.setChannel c { p.channel c with latch := false }

theorem Plant.rearm_eq (p : Plant) (c : Fin 48) :
    p.rearm c = (p.unlatched c).reported (p.channel c).barrier (p.channel c).latch Plant.assessBreach :=
  Plant.reportLatch_eq ..

theorem Plant.rearm_of_clear {p : Plant} {c : Fin 48} (clear : (p.channel c).latch = false) : p.rearm c = p := by
  have same : p.unlatched c = p := by
    refine Eq.trans (congrArg (p.setChannel c) ?_) (p.setChannel_self c)
    rw [← clear]
  rw [p.rearm_eq, same, clear]
  unfold Plant.reported
  cases (p.channel c).barrier <;> rfl

theorem Plant.rearm_of_set {p : Plant} {c : Fin 48} (set : (p.channel c).latch = true) :
    p.rearm c = (p.channel c).barrier.elim (p.unlatched c) (p.unlatched c).assessBreach := by
  rw [p.rearm_eq, set]
  rfl

/-! ### The rules -/

section
variable {s : State} {r : Request} {c : Fin 48} (target : r.target.toNat = c.1)
include target

theorem loadChannelRule_badValue (bad : s.plant.requestedChannel c r = none) :
    loadChannelRule r s = refuse s .badValue := by
  simp only [loadChannelRule, Request.index_of_lt c target, bad]

section
variable {new : Channel} (asked : s.plant.requestedChannel c r = some new)
include asked

theorem loadChannelRule_wrongState
    (busy : s.plant.atActive (s.plant.channel c) = true ∨ s.plant.atActive new = true) :
    loadChannelRule r s = refuse s .wrongState := by
  simp only [loadChannelRule, Request.index_of_lt c target, asked]
  exact if_pos (by rw [Bool.or_eq_true]; exact busy)

theorem loadChannelRule_done
    (free : ¬ (s.plant.atActive (s.plant.channel c) = true ∨ s.plant.atActive new = true)) :
    loadChannelRule r s = finished (s.plant.writeChannel c new) := by
  simp only [loadChannelRule, Request.index_of_lt c target, asked]
  exact if_neg (by rw [Bool.or_eq_true]; exact free)

end

theorem rearmWireRule_wrongState (other : (s.plant.channel c).inUse = false ∨ (s.plant.channel c).kind ≠ .wire) :
    rearmWireRule r s = refuse s .wrongState := by
  simp only [rearmWireRule, Request.index_of_lt c target]
  refine if_neg fun ⟨use, wire⟩ => ?_
  rcases other with unused | kind
  · rw [unused] at use; cases use
  · exact kind wire

theorem rearmWireRule_done (use : (s.plant.channel c).inUse = true) (wire : (s.plant.channel c).kind = .wire) :
    rearmWireRule r s = finished (s.plant.rearm c) := by
  simp only [rearmWireRule, Request.index_of_lt c target]
  exact if_pos ⟨use, wire⟩

end

theorem exec_loadChannel (s : State) : exec .loadChannel s = .next (s.request (isCode 0x18) (onPlant loadChannelRule)) := rfl

theorem exec_rearmWire (s : State) : exec .rearmWire s = .next (s.request (isCode 0x19) (onPlant rearmWireRule)) := rfl

end Sys2Proof.Machine

namespace Sys2Proof.Proofs

open Sys2Proof.Machine

/-- Settles O42, by the answer of the rule of LOAD_CHANNEL in each case of R46. -/
theorem loadChannelWritesRecord : Obligations.LoadChannelWritesRecord := by
  intro s r begins off refuses
  have refused {o : ReqOutcome} (rule : loadChannelRule r s = refuse s o) : refuses o :=
    writeRequest_onlyAnswers exec_loadChannel rfl begins off rule
  refine ⟨fun high => refused (by simp only [loadChannelRule, Request.index_of_le high]), fun c target => ?_⟩
  intro frame cap bad busy
  have caps (kind : ChannelKind) : cap kind = channelCap kind := by cases kind <;> rfl
  have values : s.plant.requestedChannel c r = none ↔ bad := by
    rw [s.plant.requestedChannel_none c r]
    simp only [Plant.ChannelBad, Request.SettingsBad, Plant.CapHeld, or_assoc, bad, caps]
  have touches {new : Channel} (asked : s.plant.requestedChannel c r = some new) :
      (s.plant.atActive (s.plant.channel c) = true ∨ s.plant.atActive new = true) ↔ busy := by
    rw [s.plant.atActive_iff, s.plant.atActive_requested c r asked, ← exists_or]
    exact exists_congr fun k => and_or_left.symm
  refine ⟨fun isBad => refused (loadChannelRule_badValue target (values.2 isBad)), fun good isBusy => ?_, fun good free => ?_⟩
  · obtain ⟨new, asked⟩ := Option.ne_none_iff_exists'.1 (mt values.1 good)
    exact refused (loadChannelRule_wrongState target asked ((touches asked).2 isBusy))
  · obtain ⟨new, asked⟩ := Option.ne_none_iff_exists'.1 (mt values.1 good)
    obtain ⟨t, row, answers, plant⟩ := writeRequest_answers exec_loadChannel rfl begins off
      (loadChannelRule_done target asked (mt (touches asked).1 free))
    obtain ⟨step, patterns, channels⟩ := s.plant.writeChannel_spec c new
    have report : s.plant.writeChannel c new =
        (s.plant.setChannel c { new.clearState with eligible := s.plant.sourceOf c }).withdrawn (s.plant.channel c) := rfl
    rw [← plant] at step patterns channels report
    have written := (channels c).trans (if_pos rfl)
    rw [← written] at report
    refine ⟨t, row, answers, ⟨fun d other => (channels d).trans (if_neg other), step.only.stations, patterns,
      step.only.tables, step.only.now⟩, fun unused => ?_, fun kind barrier use code named => ?_,
      fun silent => report.trans (Plant.withdrawn_silent _ _ silent), fun k use barrier =>
      ⟨fun kind => report.trans (Plant.withdrawn_stage use barrier kind),
        fun kind => report.trans (Plant.withdrawn_surge use barrier kind),
        fun kind => report.trans (Plant.withdrawn_wire use barrier kind)⟩⟩
    · rw [s.plant.requestedChannel_unused c r unused] at asked
      rw [written, ← Option.some.inj asked]
      rfl
    · have index : indexOrNone 4 (r.byte 3) = some barrier := by
        cases barrier with
        | none => exact (indexOrNone_absent (by decide)).2 named
        | some k => exact (indexOrNone_some k).2 named
      rcases s.plant.requestedChannel_some c r asked with ⟨unused, -⟩ | ⟨-, kind', barrier', code', named', rfl⟩
      · rw [unused] at use
        exact absurd use (by decide)
      · obtain rfl := ChannelKind.code_inj (code.symm.trans code')
        obtain rfl := Option.some.inj (index.symm.trans named')
        rw [written, Request.channelRecord, r.flag_eq, r.flag_eq]
        rfl

/-- Settles O43, by whether the latch was set. -/
theorem rearmWire : Obligations.RearmWire := by
  intro s r begins off
  have refused {o : ReqOutcome} (rule : rearmWireRule r s = refuse s o) :
      ∃ t, exec .rearmWire s = .next t ∧ s.OnlyAnswers r o t :=
    writeRequest_onlyAnswers exec_rearmWire rfl begins off rule
  refine ⟨fun high => refused (by simp only [rearmWireRule, Request.index_of_le high]), fun c target =>
    ⟨fun other => refused (rearmWireRule_wrongState target other), fun use wire => ?_⟩⟩
  obtain ⟨t, row, answers, plant⟩ := writeRequest_answers exec_rearmWire rfl begins off (rearmWireRule_done target use wire)
  obtain ⟨step, patterns, channels⟩ := s.plant.rearm_spec c
  rw [← plant] at step patterns channels
  refine ⟨t, row, answers, (channels c).trans (if_pos rfl), fun d other => (channels d).trans (if_neg other),
    step.only.stations, step.only.tables, patterns, step.only.now, fun clear => plant.trans (Plant.rearm_of_clear clear),
    fun set => ?_, fun k set barrier => ?_⟩
  · rw [plant, Plant.rearm_of_set set, Plant.unlatched]
    dsimp only
    generalize s.plant.setChannel c _ = q
    cases (s.plant.channel c).barrier <;> rfl
  · rw [Plant.rearm_of_set set, barrier] at plant
    replace plant : t.plant = (s.plant.unlatched c).assessBreach k := plant
    have barriers := (s.plant.unlatched c).assessBreach_barrier k
    have kept := ((s.plant.unlatched c).assessBreach_step k).only.channel
    rw [← plant] at barriers kept
    refine ⟨?_, fun j other => (barriers j).trans (if_neg other)⟩
    rw [barriers, if_pos rfl, kept]
    exact Plant.anyLatched_iff _ k

end Sys2Proof.Proofs
end


section
/-! The requests LOAD_STAGE_POINTS, BARRIER_HOLD and BARRIER_RUN (R71, R72, R74, R85 to R88): the checks, what a held barrier
leaves of its work, and the first vote of a started barrier. -/

namespace Sys2Proof.Machine

/-! ### LOAD_STAGE_POINTS (R71, R72) -/

theorem Request.pointsGood_iff (r : Request) : r.pointsGood = true ↔
    ¬ (1 < (r.byte 0).toNat ∨ 16 < (r.byte 1).toNat ∨ ∃ i, i < 8 ∧ 4095 < r.num16 (2 + 4 * i)) := by
  simp only [Request.pointsGood, Bool.and_eq_true, Nat.ble_eq, List.all_eq_true, List.mem_range, Request.num, not_or,
    Nat.not_lt, not_exists, not_and, and_assoc]
  rfl

section
variable {s : State} {r : Request} {k : Fin 4} (target : r.target.toNat = k.1)
include target

theorem loadStagePointsRule_badValue (bad : ¬ r.pointsGood = true) : loadStagePointsRule r s = refuse s .badValue := by
  simp only [loadStagePointsRule, Request.index_of_lt k target]
  exact if_pos (by simpa using bad)

section
variable (good : r.pointsGood = true)
include good

theorem loadStagePointsRule_wrongState (active : (s.plant.barrier k).state = .active) :
    loadStagePointsRule r s = refuse s .wrongState := by
  simp only [loadStagePointsRule, Request.index_of_lt k target]
  exact (if_neg (by simp [good])).trans (if_pos active)

theorem loadStagePointsRule_done (idle : (s.plant.barrier k).state ≠ .active) : loadStagePointsRule r s =
    finished (s.plant.setTable k ((s.plant.table k).loadHalf (r.num 0) (r.num 1) r.point)) := by
  simp only [loadStagePointsRule, Request.index_of_lt k target]
  exact (if_neg (by simp [good])).trans (if_neg idle)

end

end

theorem exec_loadStagePoints (s : State) :
    exec .loadStagePoints s = .next (s.request (isCode 0x20) (onPlant loadStagePointsRule)) := rfl

/-! ### The evaluation work of an owner (R93, R102) -/

section
variable (p : Plant) (o : EvalOwner)

/-- An owner's entry waits or its evaluation is in flight. -/
def Plant.Works (p : Plant) (o : EvalOwner) : Prop := p.queued o = true ∨ p.inFlight o = true

theorem Plant.evalState_idle : p.evalState o = .idle ↔ ¬ p.Works o := by
  unfold Plant.evalState Plant.Works
  cases p.inFlight o <;> cases p.queued o <;> simp

theorem Plant.reofferBelow_works (k : Fin 4) : (p.reofferBelow k).Works (.barrier k) ↔ p.Works (.barrier k) := by
  rw [p.reofferBelow_eq k]
  unfold Plant.reofferedBelow
  dsimp only
  split_ifs with below
  · cases (p.barrier ⟨k.1 + 1, below⟩).lastStage with
    | none => exact Iff.rfl
    | some stage =>
      refine (p.offer_work _ _ stage).trans (or_iff_left fun same => ?_)
      have := congrArg Fin.val (EvalOwner.barrier.inj same)
      simp at this
  · exact Iff.rfl
  · exact Iff.rfl

/-- The end of a session leaves the work of a barrier (R163). -/
theorem Plant.endSessionOn_works (j k : Fin 4) (reason : EndReason) :
    (p.endSessionOn j reason).Works (.barrier k) ↔ p.Works (.barrier k) := by
  unfold Plant.endSessionOn Plant.endSession
  split_ifs with session
  · have told := (p.endSessionOf_spec reason p.exercising ((Plant.current_some_iff _ _).1 session).1).only
    unfold Plant.Works Plant.queued Plant.inFlight
    rw [told.evalQueue, told.flight]
    refine (({ p with session := p.session.ended reason p.now } : Plant).abandon_work .exercise (.barrier k)).trans ?_
    exact and_iff_left nofun
  · exact Iff.rfl

end

/-! ### BARRIER_HOLD (R85) -/

section
variable (p : Plant) (k : Fin 4)

/-- The plant once the ladder knows that the barrier is LOADING. -/
def Plant.heldTold (p : Plant) (k : Fin 4) : Plant := p.changeState k { p.barrier k with state := .loading }

/-- The plant once the work of the held barrier is abandoned and the barrier below it knows. -/
def Plant.heldOffered (p : Plant) (k : Fin 4) : Plant :=
  if (p.barrier k).estimate.map Estimate.fill = some 1000 then
    ((p.heldTold k).abandon (.barrier k)).reofferedBelow k
  else (p.heldTold k).abandon (.barrier k)

theorem Barrier.full_iff (b : Barrier) : b.full = true ↔ b.estimate.map Estimate.fill = some 1000 := by
  unfold Barrier.full
  cases b.estimate <;> simp [Config.fullFill]

theorem Plant.holdActive_eq : p.holdActive k = (p.heldOffered k).endSessionOn k .barrierLeft := by
  unfold Plant.holdActive Plant.heldOffered
  dsimp only
  rw [Plant.reofferBelow_eq]
  exact congrArg (fun q : Plant => q.endSessionOn k .barrierLeft) (if_congr (Barrier.full_iff _) rfl rfl)

theorem Plant.heldTold_barrier (j : Fin 4) :
    (p.heldTold k).barrier j = if j = k then { p.barrier k with state := .loading } else p.barrier j := by
  rw [Plant.heldTold, Plant.changeState, (Plant.recomputeFor_step _ k).only.barrier]
  split_ifs with same
  · rw [same, Plant.barrier_setBarrier]
  · exact Plant.barrier_setBarrier_of_ne _ same _

theorem Plant.heldOffered_barrier (j : Fin 4) : (p.heldOffered k).barrier j =
    { (p.heldTold k).barrier j with superseded := ((p.heldOffered k).barrier j).superseded } := by
  unfold Plant.heldOffered
  split_ifs
  · rw [← Plant.reofferBelow_eq, (Plant.reofferBelow_only _ k).2 j, Plant.abandon_barrier]
  · rw [Plant.abandon_barrier]

theorem Plant.heldOffered_barrier_self : (p.heldOffered k).barrier k = { p.barrier k with state := .loading } := by
  unfold Plant.heldOffered
  split_ifs
  · rw [← Plant.reofferBelow_eq, Plant.reofferBelow_barrier_self, Plant.abandon_barrier, p.heldTold_barrier, if_pos rfl]
  · rw [Plant.abandon_barrier, p.heldTold_barrier, if_pos rfl]

theorem Plant.abandon_now (o : EvalOwner) : (p.abandon o).now = p.now := by rw [p.abandon_only o]

theorem Plant.reofferBelow_side : (p.reofferBelow k).session = p.session ∧ (p.reofferBelow k).now = p.now := by
  rw [(p.reofferBelow_only k).1]
  exact ⟨rfl, rfl⟩

theorem Plant.heldTold_side : (p.heldTold k).session = p.session ∧ (p.heldTold k).now = p.now := by
  rw [Plant.heldTold, Plant.changeState, (Plant.recomputeFor_step _ k).only.session, (Plant.recomputeFor_step _ k).only.now]
  exact ⟨rfl, rfl⟩

theorem Plant.heldOffered_side : (p.heldOffered k).session = p.session ∧ (p.heldOffered k).now = p.now := by
  have told := p.heldTold_side k
  have left : ((p.heldTold k).abandon (.barrier k)).session = p.session ∧
      ((p.heldTold k).abandon (.barrier k)).now = p.now := by
    rw [Plant.abandon_session, Plant.abandon_now]
    exact told
  unfold Plant.heldOffered
  split_ifs
  · obtain ⟨session, now⟩ := ((p.heldTold k).abandon (.barrier k)).reofferBelow_side k
    rw [← Plant.reofferBelow_eq, session, now]
    exact left
  · exact left

theorem Plant.heldOffered_idle : ¬ (p.heldOffered k).Works (.barrier k) := by
  have left := (Plant.evalState_idle _ _).1 ((p.heldTold k).abandon_evalState (.barrier k))
  unfold Plant.heldOffered
  split_ifs
  · rw [← Plant.reofferBelow_eq]
    exact mt (Plant.reofferBelow_works _ k).1 left
  · exact left

variable {p k}

theorem Plant.holdBarrier_loading (state : (p.barrier k).state = .loading) : p.holdBarrier k = p := by
  rw [Plant.holdBarrier, state]

theorem Plant.holdBarrier_unloaded (state : (p.barrier k).state = .unloaded) : p.holdBarrier k = p.heldTold k := by
  rw [Plant.holdBarrier, state] <;> rfl

theorem Plant.holdBarrier_active (state : (p.barrier k).state = .active) :
    p.holdBarrier k = (p.heldOffered k).endSessionOn k .barrierLeft := by
  rw [Plant.holdBarrier, state]
  exact p.holdActive_eq k

/-- The barrier records after BARRIER_HOLD: the held one is LOADING, and of the others a superseded count alone can change. -/
theorem Plant.holdBarrier_barriers : (p.holdBarrier k).barrier k = { p.barrier k with state := .loading } ∧
    ∀ j, j ≠ k → (p.holdBarrier k).barrier j =
      { p.barrier j with superseded := ((p.holdBarrier k).barrier j).superseded } := by
  cases state : (p.barrier k).state with
  | loading =>
    rw [Plant.holdBarrier_loading state]
    exact ⟨by rw [← state], fun _ _ => rfl⟩
  | unloaded =>
    rw [Plant.holdBarrier_unloaded state]
    refine ⟨(p.heldTold_barrier k k).trans (if_pos rfl), fun j other => ?_⟩
    rw [p.heldTold_barrier, if_neg other]
  | active =>
    rw [Plant.holdBarrier_active state, Plant.endSessionOn_barrier]
    refine ⟨p.heldOffered_barrier_self k, fun j other => ?_⟩
    have kept := p.heldOffered_barrier k j
    rw [p.heldTold_barrier, if_neg other] at kept
    exact kept

end

theorem exec_barrierHold (s : State) : exec .barrierHold s = .next (s.request (isCode 0x23) (onPlant barrierHoldRule)) := rfl

/-! ### BARRIER_RUN (R86, R87) -/

section
variable (p : Plant) (k : Fin 4)

/-- The plant with the barrier started, before its villages know (R87). -/
def Plant.started (p : Plant) (k : Fin 4) : Plant := p.setBarrier k (p.barrier k).started

theorem Plant.runBarrier_eq : p.runBarrier k = ((p.started k).recomputeFor k).vote k := rfl

theorem Plant.started_told : (p.started k).VillageSideOnly ((p.started k).recomputeFor k) :=
  (Plant.recomputeFor_step _ k).only

theorem Plant.started_told_barrier : ((p.started k).recomputeFor k).barrier k = (p.barrier k).started := by
  rw [(p.started_told k).barrier]
  exact Plant.barrier_setBarrier ..

theorem Plant.realVotes_congr {p q : Plant} (channels : q.channels = p.channels) : q.realVotes k = p.realVotes k := by
  unfold Plant.realVotes Plant.channelsAt Plant.channel
  rw [channels]

theorem Plant.started_told_votes : ((p.started k).recomputeFor k).realVotes k = p.realVotes k :=
  Plant.realVotes_congr k (p.started_told k).channels

/-- The first vote: the counts of the voters, and with a voted stage the stage, offered (R87, R88, R92). -/
theorem Plant.runBarrier_quiet (none : voteStage (p.realVotes k) = none) :
    (p.runBarrier k).barrier k = (p.barrier k).started.counted (p.realVotes k).length
      (((p.started k).recomputeFor k).assigned k) := by
  have active : (((p.started k).recomputeFor k).barrier k).state = .active := by rw [p.started_told_barrier]; rfl
  rw [p.runBarrier_eq, Plant.vote_of_active active, p.started_told_votes, none]
  dsimp only
  rw [Plant.countVotes_barrier, if_pos rfl, p.started_told_barrier, p.started_told_votes]

theorem Plant.runBarrier_voted {stage : Nat} (voted : voteStage (p.realVotes k) = some stage) :
    (∃ superseded, (p.runBarrier k).barrier k =
      { (p.barrier k).started.counted (p.realVotes k).length (((p.started k).recomputeFor k).assigned k) with
        lastStage := some stage, superseded := superseded }) ∧
    ((p.runBarrier k).evalQueue, (p.runBarrier k).flight) =
      (((p.started k).offer (.barrier k) stage).evalQueue, ((p.started k).offer (.barrier k) stage).flight) ∧
    ((∃ e ∈ (p.runBarrier k).evalQueue, e.owner = .barrier k ∧ e.stage = stage) ∨
      ∃ f, (p.runBarrier k).flight = some f ∧ f.owner = .barrier k ∧ f.stage = stage) := by
  have told := p.started_told k
  have active : (((p.started k).recomputeFor k).barrier k).state = .active := by rw [p.started_told_barrier]; rfl
  have row : p.runBarrier k = (((p.started k).recomputeFor k).countVotes k).takeStage k stage := by
    rw [p.runBarrier_eq, Plant.vote_of_active active, p.started_told_votes, voted]
  have same := p.started_told_barrier k
  have votes := p.started_told_votes k
  obtain ⟨queue, flight⟩ := Plant.offer_congr (p := p.started k) (q := (p.started k).recomputeFor k) told.evalQueue told.flight
    told.tables told.now (by rw [told.session]) (by rw [told.exercise]) (fun j => by rw [told.barrier]; exact ⟨rfl, rfl, rfl⟩)
    (.barrier k) stage
  generalize (p.started k).recomputeFor k = q at *
  obtain ⟨taken, barriers, work⟩ := q.takeStage_holds k stage
  rw [← row] at taken barriers work
  refine ⟨⟨_, ((barriers k).trans (if_pos rfl)).trans (by rw [same, votes])⟩, ?_, ?_⟩
  · rw [work, queue, flight]
  · rw [taken]
    exact Plant.offer_holds ..

end

section
variable {s : State} {r : Request} {k : Fin 4} (target : r.target.toNat = k.1)
include target

theorem barrierRunRule_wrongState (other : (s.plant.barrier k).state ≠ .loading) :
    barrierRunRule r s = refuse s .wrongState := by
  simp only [barrierRunRule, Request.index_of_lt k target]
  cases state : (s.plant.barrier k).state with
  | loading => exact absurd state other
  | unloaded | active => rfl

section
variable (loading : (s.plant.barrier k).state = .loading)
include loading

theorem barrierRunRule_tableInvalid
    (bad : (s.plant.table k).checked.crest?.isNone = true ∨ (s.plant.channelsAt k .stage).length = 0) :
    barrierRunRule r s = (s.plant.checkTable k, .refused .tableInvalid) := by
  have table : (s.plant.checkTable k).table k = (s.plant.table k).check := Plant.table_setTable ..
  simp only [barrierRunRule, Request.index_of_lt k target, loading]
  refine if_pos ?_
  rw [table]
  exact bad

theorem barrierRunRule_started
    (good : ¬ ((s.plant.table k).checked.crest?.isNone = true ∨ (s.plant.channelsAt k .stage).length = 0)) :
    barrierRunRule r s = ((s.plant.checkTable k).runBarrier k,
      if (voteStage (s.plant.realVotes k)).isSome then .wait (.run k) else .done []) := by
  have table : (s.plant.checkTable k).table k = (s.plant.table k).check := Plant.table_setTable ..
  simp only [barrierRunRule, Request.index_of_lt k target, loading]
  refine if_neg ?_
  rw [table]
  exact good

end

end

section
variable (p : Plant) (k : Fin 4)

theorem Plant.runBarrier_keeps : (p.runBarrier k).tables = p.tables ∧ (p.runBarrier k).stations = p.stations ∧
    (p.runBarrier k).channels = p.channels ∧ ∀ j, j ≠ k → (p.runBarrier k).barrier j = p.barrier j := by
  have told := p.started_told k
  have voted := (((p.started k).recomputeFor k).vote_step k).only
  rw [p.runBarrier_eq]
  refine ⟨?_, ?_, ?_, fun j other => ?_⟩
  · rw [voted.tables, told.tables]
    rfl
  · rw [voted.stations, told.stations]
    rfl
  · rw [voted.channels, told.channels]
    rfl
  · rw [Plant.vote_barrier_of_ne _ other, told.barrier]
    exact Plant.barrier_setBarrier_of_ne _ other _

/-- The started barrier after its first vote, but for what the vote may add. -/
theorem Plant.runBarrier_self : ∃ last superseded assigned, (p.runBarrier k).barrier k =
    { (p.barrier k).started.counted (p.realVotes k).length assigned with lastStage := last, superseded := superseded } := by
  cases vote : voteStage (p.realVotes k) with
  | none => exact ⟨_, _, _, p.runBarrier_quiet k vote⟩
  | some stage =>
    obtain ⟨⟨superseded, self⟩, -⟩ := p.runBarrier_voted k vote
    exact ⟨_, superseded, _, self⟩

end

theorem exec_barrierRun (s : State) : exec .barrierRun s = .next (s.request (isCode 0x24) (onPlant barrierRunRule)) := rfl

/-- The row of an accepted BARRIER_RUN: DONE with no voted stage, and waiting with one (R87, R170). -/
theorem barrierRun_row {s : State} {r : Request} {k : Fin 4} (target : r.target.toNat = k.1)
    (loading : (s.plant.barrier k).state = .loading)
    (good : ¬ ((s.plant.table k).checked.crest?.isNone = true ∨ (s.plant.channelsAt k .stage).length = 0))
    (begins : s.Begins r 0x24 0) (off : s.mgmt.settings.inspecting = false) :
    ∃ t, exec .barrierRun s = .next t ∧ t.plant = (s.plant.checkTable k).runBarrier k ∧
      (voteStage (s.plant.realVotes k) = none → s.Answers r .done [] t) ∧
      ∀ stage, voteStage (s.plant.realVotes k) = some stage →
        t = { s with plant := t.plant, mgmt := { s.mgmt with executing := some (.run k) } } := by
  have rule := barrierRunRule_started target loading good
  generalize (s.plant.checkTable k).runBarrier k = p at *
  cases vote : voteStage (s.plant.realVotes k) with
  | none =>
    replace rule : barrierRunRule r s = finished p := by rw [rule, vote]; rfl
    exact ⟨_, (exec_barrierRun s).trans (congrArg _ (begins.onPlant_done rfl (fun _ => off) begins.isCode rule)), rfl,
      fun _ => rfl, nofun⟩
  | some stage =>
    replace rule : barrierRunRule r s = (p, .wait (.run k)) := by rw [rule, vote]; rfl
    exact ⟨_, (exec_barrierRun s).trans (congrArg _ (begins.onPlant_wait rfl (fun _ => off) begins.isCode rule)), rfl,
      nofun, fun _ _ => rfl⟩

end Sys2Proof.Machine

namespace Sys2Proof.Proofs

open Sys2Proof.Machine

/-- Settles O45, by the answer of the rule of LOAD_STAGE_POINTS in each case of R71. -/
theorem loadStagePointsWritesHalf : Obligations.LoadStagePointsWritesHalf := by
  intro s r begins off bad
  have good_iff : r.pointsGood = true ↔ ¬ bad := r.pointsGood_iff
  have refused {o : ReqOutcome} (rule : loadStagePointsRule r s = refuse s o) :
      ∃ t, exec .loadStagePoints s = .next t ∧ s.OnlyAnswers r o t :=
    writeRequest_onlyAnswers exec_loadStagePoints rfl begins off rule
  refine ⟨fun high => refused (by simp only [loadStagePointsRule, Request.index_of_le high]), fun k target =>
    ⟨fun isBad => refused (loadStagePointsRule_badValue target fun good => good_iff.1 good isBad), fun fine active =>
      refused (loadStagePointsRule_wrongState target (good_iff.2 fine) active), fun fine idle => ?_⟩⟩
  obtain ⟨t, row, answers, plant⟩ := writeRequest_answers exec_loadStagePoints rfl begins off
    (loadStagePointsRule_done target (good_iff.2 fine) idle)
  have written : t.plant.table k = (s.plant.table k).loadHalf (r.num 0) (r.num 1) r.point := by
    rw [plant]
    exact Plant.table_setTable ..
  refine ⟨t, row, answers, by rw [written]; exact plant, by rw [written]; rfl, by rw [written]; rfl, fun i => ?_⟩
  rw [written]
  exact Vector.getElem_ofFn i.2

/-- Settles O47, by the state of the barrier. -/
theorem barrierHoldStopsBarrier : Obligations.BarrierHoldStopsBarrier := by
  intro s r begins off
  refine ⟨fun high => writeRequest_onlyAnswers exec_barrierHold rfl begins off
    (by simp only [barrierHoldRule, Request.index_of_le high]), fun k target => ?_⟩
  obtain ⟨t, row, answers, plant⟩ := writeRequest_answers exec_barrierHold rfl begins off (p := s.plant.holdBarrier k)
    (by simp only [barrierHoldRule, Request.index_of_lt k target])
  obtain ⟨held, others⟩ := s.plant.holdBarrier_barriers (k := k)
  rw [← plant] at held others
  refine ⟨t, s.plant.heldTold k, (s.plant.heldTold k).abandon (.barrier k), s.plant.heldOffered k, rfl,
    Plant.abandon_workWithout _ _, rfl, row, answers, by rw [plant]; exact (s.plant.holdBarrier_orderly k).only, held, others,
    fun state => plant.trans (Plant.holdBarrier_loading state), fun state => plant.trans (Plant.holdBarrier_unloaded state),
    fun state => ?_⟩
  have stopped := plant.trans (Plant.holdBarrier_active state)
  obtain ⟨session, now⟩ := s.plant.heldOffered_side k
  refine ⟨?_, fun active barrier => ?_, fun elsewhere => ?_⟩
  · rw [stopped, Plant.evalState_idle, Plant.endSessionOn_works]
    exact s.plant.heldOffered_idle k
  · have running : (s.plant.heldOffered k).session.active = true ∧ (s.plant.heldOffered k).session.barrier = some k := by
      rw [session]
      exact ⟨active, barrier⟩
    refine ⟨stopped.trans ((Plant.endSessionOn_eq _ k _).trans (if_pos running)), ?_⟩
    rw [stopped, Plant.endSessionOn_session, if_pos ((Plant.current_some_iff _ _).2 running), session, now]
    rfl
  · have other : ¬ ((s.plant.heldOffered k).session.active = true ∧ (s.plant.heldOffered k).session.barrier = some k) := by
      rw [session]
      rintro ⟨active, barrier⟩
      rcases elsewhere with idle | away
      · rw [idle] at active; cases active
      · exact away barrier
    have same := stopped.trans ((Plant.endSessionOn_eq _ k _).trans (if_neg other))
    exact ⟨same, by rw [same, session]⟩

/-- Settles O48, by the state of the barrier, the check of its table and the first vote. -/
theorem barrierRunStartsBarrier : Obligations.BarrierRunStartsBarrier := by
  intro s r begins off
  refine ⟨fun high => writeRequest_onlyAnswers exec_barrierRun rfl begins off
    (by simp only [barrierRunRule, Request.index_of_le high]), fun k target => ?_⟩
  intro verdict votes checked started
  refine ⟨fun other => writeRequest_onlyAnswers exec_barrierRun rfl begins off (barrierRunRule_wrongState target other),
    fun loading => ⟨fun bad => ?_, fun valid assigned => ?_⟩⟩
  · exact ⟨_, (exec_barrierRun s).trans (congrArg _ (begins.onPlant_refused rfl (fun _ => off) begins.isCode
      (barrierRunRule_tableInvalid target loading bad))), rfl, rfl⟩
  · have good : ¬ ((s.plant.table k).checked.crest?.isNone = true ∨ (s.plant.channelsAt k .stage).length = 0) := by
      rintro (invalid | empty)
      · rw [Option.isNone_iff_eq_none] at invalid
        rw [show verdict.crest? = none from invalid] at valid
        cases valid
      · omega
    obtain ⟨t, row, plant, answers, waits⟩ := barrierRun_row target loading good begins off
    obtain ⟨tables, stations, channels, others⟩ := (s.plant.checkTable k).runBarrier_keeps k
    obtain ⟨last, superseded, assignedCount, self⟩ := (s.plant.checkTable k).runBarrier_self k
    rw [← plant] at tables stations channels others self
    have counted : (s.plant.checkTable k).realVotes k = votes := rfl
    rw [counted] at self
    refine ⟨t, row, plant, by rw [self]; rfl, by rw [self]; rfl, by rw [self]; rfl, by rw [self]; rfl, by rw [self]; rfl,
      by rw [self]; rfl, by rw [self]; rfl, by rw [self]; rfl, ?_, stations, channels, fun j other => ⟨others j other, ?_⟩,
      fun empty => ?_, fun stage vote => ?_⟩
    · rw [Plant.table, tables]
      exact Plant.table_setTable ..
    · rw [Plant.table, tables]
      exact Plant.table_setTable_of_ne _ other _
    · have none : voteStage (s.plant.realVotes k) = none := congrArg voteStage empty
      refine ⟨answers none, ?_⟩
      rw [plant, (s.plant.checkTable k).runBarrier_quiet k none]
      rfl
    · have voted : voteStage (s.plant.realVotes k) = some stage := Voted.voteStage vote
      obtain ⟨⟨_, here⟩, work, held⟩ := (s.plant.checkTable k).runBarrier_voted k voted
      rw [← plant] at here work held
      exact ⟨waits stage voted, by rw [here], work, held⟩

end Sys2Proof.Proofs
end


section
/-! The requests to the Village Alert Ladder (R113 to R117, R126, R150): LOAD_VILLAGE with the dispatcher's restart, LOAD_ROUTE,
MASK_VILLAGE and RELEASE_BREACH. -/

namespace Sys2Proof.Machine

/-! ### Both recomputations of a rewritten village (R127, R129) -/

/-- A village rewritten with its dispatch record, then formed on both levels with one hand-on. -/
theorem Plant.recomputeBoth_after {p q : Plant} {v : Fin 8} (side : p.VillageSideOnly q) (notices : q.notices = p.notices)
    (others : ∀ w, w ≠ v → q.village w = p.village w ∧ q.disp w = p.disp w) (use : (q.village v).inUse = true) :
    p.VillageFormed (q.recomputeBoth v) v (q.village v).latch (q.disp v) ∧
    ((q.village v).form p.barrier).ExerciseOnly ((q.recomputeBoth v).village v) ∧
    ((q.recomputeBoth v).village v).AtExercise p := by
  obtain ⟨-, village, -⟩ := q.recomputeBoth_spec v
  rw [if_pos use, side.barrier, side.exerciseBasis] at village
  rw [village]
  exact ⟨(q.recomputeBoth_formed v use).after side notices others, Village.formExercise_exerciseOnly _ _,
    Village.formExercise_atExercise _ p⟩

theorem Village.form_travels (vl : Village) (barrier : Fin 4 → Barrier) (k : Fin 4) :
    ((vl.form barrier).routes.get k).map Route.travel = (vl.routes.get k).map Route.travel := by
  rw [vl.form_routes barrier, Option.map_map]
  exact congrArg (Option.map · _) (funext fun r => Route.form_travel _ _ r)

/-! ### MASK_VILLAGE and RELEASE_BREACH (R117, R126) -/

section
variable {s : State} {r : Request} {v : Fin 8} (target : r.target.toNat = v.1)
include target

theorem maskVillageRule_unused (unused : (s.plant.village v).inUse = false) : maskVillageRule r s = refuse s .wrongState := by
  simp only [maskVillageRule, Request.index_of_lt v target]
  exact if_neg (by simp [unused])

section
variable (use : (s.plant.village v).inUse = true)
include use

theorem maskVillageRule_badValue (bad : (r.byte 0).getLsbD 0 = true ∨ (r.byte 0).getLsbD 4 = true) :
    maskVillageRule r s = refuse s .badValue := by
  have mask : maskOf (r.byte 0) = none := if_pos (by rw [Bool.or_eq_true]; exact bad)
  simp only [maskVillageRule, Request.index_of_lt v target, mask]
  exact if_pos use

theorem maskVillageRule_done (clear : (r.byte 0).getLsbD 0 = false) (breach : (r.byte 0).getLsbD 4 = false) :
    maskVillageRule r s = finished ((s.plant.setVillage v { s.plant.village v with
      mask := ⟨(r.byte 0).getLsbD 1, (r.byte 0).getLsbD 2, (r.byte 0).getLsbD 3⟩ }).recompute v) := by
  have mask : maskOf (r.byte 0) = some ⟨(r.byte 0).getLsbD 1, (r.byte 0).getLsbD 2, (r.byte 0).getLsbD 3⟩ :=
    if_neg (by rw [clear, breach]; decide)
  simp only [maskVillageRule, Request.index_of_lt v target, mask]
  exact if_pos use

end

theorem releaseBreachRule_unused (unused : (s.plant.village v).inUse = false) :
    releaseBreachRule r s = refuse s .wrongState := by
  simp only [releaseBreachRule, Request.index_of_lt v target]
  exact if_pos unused

section
variable (use : (s.plant.village v).inUse = true)
include use

theorem releaseBreachRule_clear (clear : (s.plant.village v).latch = false) :
    releaseBreachRule r s = finished s.plant := by
  simp only [releaseBreachRule, Request.index_of_lt v target]
  exact (if_neg (by simp [use])).trans (if_pos clear)

section
variable (latched : (s.plant.village v).latch = true)
include latched

theorem releaseBreachRule_breached (breached : s.plant.stillBreached v = true) :
    releaseBreachRule r s = refuse s .wrongState := by
  simp only [releaseBreachRule, Request.index_of_lt v target]
  exact (if_neg (by simp [use])).trans ((if_neg (by simp [latched])).trans (if_pos breached))

theorem releaseBreachRule_done (ended : ¬ s.plant.stillBreached v = true) :
    releaseBreachRule r s = finished ((s.plant.setVillage v (s.plant.village v).released).handOn v) := by
  simp only [releaseBreachRule, Request.index_of_lt v target]
  exact (if_neg (by simp [use])).trans ((if_neg (by simp [latched])).trans (if_neg ended))

end

end

end

theorem Plant.stillBreached_iff (p : Plant) (v : Fin 8) : p.stillBreached v = true ↔
    ∃ k, (p.village v).routes.get k ≠ none ∧ ((p.barrier k).wire = true ∨ (p.barrier k).overtop = true) := by
  simp [Plant.stillBreached, List.mem_finRange, Village.routed, Barrier.breached, Option.isSome_iff_ne_none]

theorem exec_maskVillage (s : State) : exec .maskVillage s = .next (s.request (isCode 0x32) (onPlant maskVillageRule)) := rfl

theorem exec_releaseBreach (s : State) :
    exec .releaseBreach s = .next (s.request (isCode 0x33) (onPlant releaseBreachRule)) := rfl

/-! ### LOAD_ROUTE (R116) -/

/-- The travel a LOAD_ROUTE asks for, `none` for "none". -/
def Request.askedTravel (r : Request) : Option Nat := if r.num16 1 = 65535 then none else some (r.num16 1)

theorem Request.travel_refused {r : Request} (long : 1440 < r.num16 1) (named : r.num16 1 ≠ 65535) : r.travel = none :=
  (if_neg named).trans (if_pos long)

theorem Request.travel_asked {r : Request} (fine : r.num16 1 ≤ 1440 ∨ r.num16 1 = 65535) :
    r.travel = some r.askedTravel := by
  unfold Request.travel Request.askedTravel
  split_ifs with absent long
  · rfl
  · have : Config.travelMax = 1440 := rfl
    omega
  · rfl

theorem Route.load_travel (old : Option Route) (travel : Option Nat) : (Route.load old travel).map Route.travel = travel := by
  cases travel <;> cases old <;> rfl

theorem loadRouteRule_badIndex {s : State} {r : Request} (high : 8 ≤ r.target.toNat ∨ 4 ≤ (r.byte 0).toNat) :
    loadRouteRule r s = refuse s .badIndex := by
  unfold loadRouteRule
  rcases high with village | barrier
  · rw [Request.index_of_le village]
  · rw [dif_neg (show ¬ r.num 0 < 4 from Nat.not_lt.2 barrier)]
    cases r.index 8 <;> rfl

theorem Request.barrier_index {r : Request} {k : Fin 4} (barrier : (r.byte 0).toNat = k.1) :
    (if h : r.num 0 < 4 then some (⟨r.num 0, h⟩ : Fin 4) else none) = some k := by
  rw [dif_pos (show r.num 0 < 4 from barrier.trans_lt k.2)]
  exact congrArg some (Fin.ext barrier)

section
variable {s : State} {r : Request} {v : Fin 8} {k : Fin 4} (target : r.target.toNat = v.1) (barrier : (r.byte 0).toNat = k.1)
include target barrier

theorem loadRouteRule_unused (unused : (s.plant.village v).inUse = false) : loadRouteRule r s = refuse s .wrongState := by
  have index := Request.barrier_index barrier
  simp only [loadRouteRule, Request.index_of_lt v target, index]
  exact if_neg (by simp [unused])

theorem loadRouteRule_used (use : (s.plant.village v).inUse = true) : loadRouteRule r s =
    r.travel.elim (refuse s .badValue) fun travel => finished (s.plant.writeRoute v k travel) := by
  have index := Request.barrier_index barrier
  simp only [loadRouteRule, Request.index_of_lt v target, index]
  refine (if_pos use).trans ?_
  cases r.travel <;> rfl

end

section
variable {p : Plant} {v : Fin 8} {k : Fin 4} {travel : Option Nat}

/-- A village record with the entry of one barrier as a LOAD_ROUTE leaves it. -/
def Village.rerouted (vl : Village) (k : Fin 4) (travel : Option Nat) : Village :=
  { vl with routes := vl.routes.set k.1 (Route.load (vl.routes.get k) travel) k.2 }

theorem Village.rerouted_travels (vl : Village) (k j : Fin 4) (travel : Option Nat) :
    ((vl.rerouted k travel).routes.get j).map Route.travel =
      if j = k then travel else (vl.routes.get j).map Route.travel := by
  unfold Village.rerouted
  split_ifs with same
  · rw [same]
    exact (congrArg _ (get_set_self ..)).trans (Route.load_travel _ travel)
  · exact congrArg _ (get_set_of_ne _ same _)

theorem Plant.writeRoute_same (absent : travel = none ∧ (p.village v).routes.get k = none) : p.writeRoute v k travel = p :=
  if_pos ⟨Option.isNone_iff_eq_none.2 absent.1, Option.isNone_iff_eq_none.2 absent.2⟩

theorem Plant.writeRoute_changed (change : ¬ (travel = none ∧ (p.village v).routes.get k = none)) :
    p.writeRoute v k travel = (p.setVillage v ((p.village v).rerouted k travel)).recomputeBoth v :=
  if_neg fun h => change ⟨Option.isNone_iff_eq_none.1 h.1, Option.isNone_iff_eq_none.1 h.2⟩

/-- A changed route: the village is formed on both levels from the new entries, and its settings are kept (R116). -/
theorem Plant.writeRoute_formed (use : (p.village v).inUse = true)
    (change : ¬ (travel = none ∧ (p.village v).routes.get k = none)) :
    p.VillageFormed (p.writeRoute v k travel) v (p.village v).latch (p.disp v) ∧
    (((p.village v).rerouted k travel).form p.barrier).ExerciseOnly ((p.writeRoute v k travel).village v) ∧
    ((p.writeRoute v k travel).village v).AtExercise p := by
  have both := Plant.recomputeBoth_after (p := p) (q := p.setVillage v ((p.village v).rerouted k travel)) (v := v) rfl rfl
    (fun w other => ⟨p.village_setVillage_of_ne other _, rfl⟩) (by rw [Plant.village_setVillage]; exact use)
  rw [Plant.village_setVillage] at both
  rw [Plant.writeRoute_changed change]
  exact both

end

theorem exec_loadRoute (s : State) : exec .loadRoute s = .next (s.request (isCode 0x31) (onPlant loadRouteRule)) := rfl

/-! ### LOAD_VILLAGE (R113 to R115, R150) -/

theorem Request.villageGood_iff (r : Request) : r.villageGood = true ↔
    ¬ (¬ (1 ≤ r.num16 1 ∧ r.num16 1 < r.num16 3 ∧ r.num16 3 < r.num16 5 ∧ r.num16 5 ≤ 1440) ∨
      1 < (r.byte 8).toNat ∨ 1 < (r.byte 15).toNat) := by
  simp only [Request.villageGood, Bool.and_eq_true, Nat.ble_eq, Nat.blt_eq, Request.num]
  omega

section
variable (p : Plant)

theorem Plant.villageHolds_other_iff (addr : Byte) (v : Fin 8) : p.villageHolds addr (some v) = true ↔
    ∃ w, w ≠ v ∧ (p.village w).inUse = true ∧ (p.village w).addr = addr := by
  simp [Plant.villageHolds, List.mem_finRange, and_assoc]

theorem Plant.stationHolds_any_iff (addr : Byte) : p.stationHolds addr none = true ↔
    ∃ i, (p.station i).inUse = true ∧ (p.station i).addr = addr := by
  simp [Plant.stationHolds, List.mem_finRange]

/-- Another record holds the address asked for, or a setting is out of range (R113, orders 3 to 6). -/
theorem Plant.villageBad_iff (v : Fin 8) (r : Request) :
    (p.villageHolds (r.byte 0) (some v) || p.stationHolds (r.byte 0) none || !r.villageGood) = true ↔
    ((∃ w, w ≠ v ∧ (p.village w).inUse = true ∧ (p.village w).addr = r.byte 0) ∨
      ∃ i, (p.station i).inUse = true ∧ (p.station i).addr = r.byte 0) ∨
    ¬ (1 ≤ r.num16 1 ∧ r.num16 1 < r.num16 3 ∧ r.num16 3 < r.num16 5 ∧ r.num16 5 ≤ 1440) ∨
      1 < (r.byte 8).toNat ∨ 1 < (r.byte 15).toNat := by
  rw [Bool.or_eq_true, Bool.or_eq_true, p.villageHolds_other_iff, p.stationHolds_any_iff, Bool.not_eq_true',
    ← Bool.not_eq_true, r.villageGood_iff, not_not]

end

section
variable {s : State} {r : Request} {v : Fin 8} (target : r.target.toNat = v.1)
include target

theorem loadVillageRule_foreign (foreign : r.byte 0 = 255 ∨ r.byte 0 = s.ownAddr) :
    loadVillageRule r s = refuse s .badValue := by
  simp only [loadVillageRule, Request.index_of_lt v target]
  exact if_pos foreign

section
variable (own : ¬ (r.byte 0 = 255 ∨ r.byte 0 = s.ownAddr))
include own

theorem loadVillageRule_cleared (none : r.byte 0 = 0) : loadVillageRule r s =
    if (s.plant.village v).inUse = true ∧
      ((s.plant.village v).announced ≠ .clear ∨ (s.plant.village v).exAnnounced ≠ .clear) then refuse s .wrongState
    else finished (s.plant.clearVillage v) := by
  simp only [loadVillageRule, Request.index_of_lt v target]
  exact (if_neg own).trans (if_pos none)

theorem loadVillageRule_written (some : r.byte 0 ≠ 0) : loadVillageRule r s =
    if (s.plant.villageHolds (r.byte 0) (.some v) || s.plant.stationHolds (r.byte 0) .none || !r.villageGood) = true then
      refuse s .badValue
    else finished (s.plant.writeVillage v ((s.plant.village v).loaded r)) := by
  simp only [loadVillageRule, Request.index_of_lt v target]
  exact (if_neg own).trans (if_neg some)

end

end

/-- A dispatch record emptied for a restart; a new line address takes away what was offered and delivered (R150). -/
def Dispatch.emptied (d : Dispatch) (old new : Byte) : Dispatch :=
  { d with
    state := .quiet, openOffer := false, retry := 0, ackTimer := none, reachTimer := none, repeatTimer := none,
    unreachedSince := none, onLine := false, delivered := if old = new then d.delivered else ⟨.clear, false⟩,
    offered := if old = new then d.offered else none }

/-- A tested record of an UNCONFIRMED village starts its repeat timer if it is QUIET with a level delivered (R150). -/
def Dispatch.repeating (tested : Dispatch) (mode : AckMode) (interval : Nat) : Dispatch :=
  if mode = .unconfirmed ∧ tested.state = .quiet ∧ tested.delivered.marked = false ∧ tested.delivered.level ≠ .clear then
    { tested with repeatTimer := some interval }
  else tested

theorem Dispatch.restart_eq (active : Bool) (now : Nat) (vl : Village) (old : Byte) (d : Dispatch) :
    d.restart active now vl (old != vl.addr) =
      ((d.emptied old vl.addr).dueTest active now).repeating vl.ackMode vl.repeatInterval := by
  have delivered : (if (old != vl.addr) = true then Content.clear else d.delivered) =
      if old = vl.addr then d.delivered else ⟨.clear, false⟩ := by
    by_cases same : old = vl.addr <;> simp [same, Content.clear]
  have offered : (if (old != vl.addr) = true then none else d.offered) = if old = vl.addr then d.offered else none := by
    by_cases same : old = vl.addr <;> simp [same]
  unfold Dispatch.restart Dispatch.repeating
  dsimp only
  rw [delivered, offered]
  cases vl.ackMode with
  | confirmed => exact (if_neg fun h => absurd h.1 (by decide)).symm
  | unconfirmed => exact (Dispatch.startRepeat_eq _ _).trans (if_congr (by rw [and_iff_right rfl]; rfl) rfl rfl)

section
variable (p : Plant) (v : Fin 8) (r : Request)

/-- The plant with a village's settings written and its dispatch record restarted, before the recomputations (R114, R150). -/
def Plant.settled (p : Plant) (v : Fin 8) (r : Request) : Plant :=
  (p.setVillage v ((p.village v).loaded r)).restartFor v (p.village v) ((p.village v).loaded r)

theorem Plant.settled_spec : p.VillageSideOnly (p.settled v r) ∧ (p.settled v r).notices = p.notices ∧
    (∀ w, w ≠ v → (p.settled v r).village w = p.village w ∧ (p.settled v r).disp w = p.disp w) ∧
    (p.settled v r).village v = (p.village v).loaded r ∧
    (p.settled v r).disp v =
      if (p.village v).addr = ((p.village v).loaded r).addr ∧ (p.village v).ackMode = ((p.village v).loaded r).ackMode then
        p.disp v
      else (p.disp v).restart p.session.active p.now ((p.village v).loaded r)
        ((p.village v).addr != ((p.village v).loaded r).addr) := by
  unfold Plant.settled Plant.restartFor
  split_ifs with changed same same
  · exact absurd changed (by rintro (addr | mode); exacts [addr same.1, mode same.2])
  · exact ⟨rfl, rfl, fun w other => ⟨Plant.village_setVillage_of_ne p other _, Plant.disp_setDisp_of_ne _ other _⟩,
      Plant.village_setVillage .., Plant.disp_setDisp ..⟩
  · exact ⟨rfl, rfl, fun w other => ⟨Plant.village_setVillage_of_ne p other _, rfl⟩, Plant.village_setVillage .., rfl⟩
  · exact absurd ⟨not_not.1 (not_or.1 changed).1, not_not.1 (not_or.1 changed).2⟩ same

theorem Village.loaded_settings (vl : Village) :
    (vl.loaded r).inUse = true ∧ (vl.loaded r).addr = r.byte 0 ∧
    (vl.loaded r).latch = (vl.inUse && vl.latch) ∧
    (vl.loaded r).mask = (if vl.inUse = true then vl.mask else ⟨false, false, false⟩) ∧
    ∀ k, ((vl.loaded r).routes.get k).map Route.travel =
      if vl.inUse = true then (vl.routes.get k).map Route.travel else none := by
  unfold Village.loaded Village.load
  cases use : vl.inUse
  · refine ⟨rfl, rfl, rfl, rfl, fun k => ?_⟩
    show ((Village.cleared.routes.get k).map Route.travel) = none
    simp [Village.cleared, Vector.get]
  · exact ⟨rfl, rfl, rfl, rfl, fun k => rfl⟩

/-- An UNUSED village loaded has no entry, so it is formed CLEAR and without a latch (R114, R122). -/
theorem Village.loaded_of_unused {vl : Village} (unused : vl.inUse = false) (barrier : Fin 4 → Barrier) :
    ((vl.loaded r).form barrier).latch = false ∧ ((vl.loaded r).form barrier).announced = .clear := by
  have loaded : vl.loaded r = Village.cleared.load r := by
    rw [Village.loaded, unused]
    rfl
  rw [loaded]
  have bare : ((Village.cleared.load r).withEntries barrier).entries = [] := by
    rw [Village.entries, List.filterMap_eq_nil_iff]
    intro k _
    rw [Village.withEntries_routes]
    simp [Village.cleared, Village.load, Vector.get]
  obtain ⟨computed, -⟩ := (Village.cleared.load r).form_judged barrier
  rw [Village.judge_none (by rw [bare]; rfl)] at computed
  have calm : ((Village.cleared.load r).form barrier).computed ≠ .breach := by
    rw [computed]
    exact nofun
  obtain ⟨-, announced⟩ := Village.form_unlatched (vl := Village.cleared.load r) rfl rfl calm
  refine ⟨?_, ?_⟩
  · rw [Village.form_latch, computed]
    rfl
  · rw [announced, computed]
    rfl

end

theorem exec_loadVillage (s : State) : exec .loadVillage s = .next (s.request (isCode 0x30) (onPlant loadVillageRule)) := rfl

end Sys2Proof.Machine

namespace Sys2Proof.Proofs

open Sys2Proof.Machine

/-- Settles O51, by the answers of the two rules. -/
theorem maskAndRelease : Obligations.MaskAndRelease := by
  intro s r off refuses
  refine ⟨fun begins => ?_, fun begins => ?_⟩
  · have refused {o : ReqOutcome} (rule : maskVillageRule r s = refuse s o) : refuses .maskVillage o :=
      writeRequest_onlyAnswers exec_maskVillage rfl begins off rule
    refine ⟨fun high => refused (by simp only [maskVillageRule, Request.index_of_le high]), fun v target => ?_⟩
    intro vl mask
    refine ⟨fun unused => refused (maskVillageRule_unused target unused), fun use =>
      ⟨fun bad => refused (maskVillageRule_badValue target use bad), fun clear breach => ?_⟩⟩
    obtain ⟨t, row, answers, plant⟩ := writeRequest_answers exec_maskVillage rfl begins off
      (maskVillageRule_done target use clear breach)
    have village : (s.plant.setVillage v { vl with mask := mask }).village v = { vl with mask := mask } :=
      Plant.village_setVillage ..
    have formed := Plant.recompute_formed (s.plant.setVillage v { vl with mask := mask }) v (by rw [village]; exact use)
    obtain ⟨-, written, -⟩ := Plant.recompute_spec (s.plant.setVillage v { vl with mask := mask }) v
    rw [village] at formed written
    rw [← plant] at formed written
    replace written : t.plant.village v = Village.form s.plant.barrier { vl with mask := mask } :=
      written.trans (if_pos use)
    refine ⟨t, row, answers, formed.after rfl rfl fun w other => ⟨Plant.village_setVillage_of_ne _ other _, rfl⟩, ?_, written⟩
    rw [written, (Village.form_realOnly _ _).eq]
  · have refused {o : ReqOutcome} (rule : releaseBreachRule r s = refuse s o) : refuses .releaseBreach o :=
      writeRequest_onlyAnswers exec_releaseBreach rfl begins off rule
    refine ⟨fun high => refused (by simp only [releaseBreachRule, Request.index_of_le high]), fun v target => ?_⟩
    intro vl breached
    refine ⟨fun unused => refused (releaseBreachRule_unused target unused), fun use clear => ?_,
      fun use latched still => refused (releaseBreachRule_breached target use latched ((s.plant.stillBreached_iff v).2 still)),
      fun use latched done => ?_⟩
    · obtain ⟨t, row, answers, plant⟩ := writeRequest_answers exec_releaseBreach rfl begins off
        (releaseBreachRule_clear target use clear)
      refine ⟨t, row, ?_⟩
      rw [State.Answers, plant] at answers
      exact answers
    · obtain ⟨t, row, answers, plant⟩ := writeRequest_answers exec_releaseBreach rfl begins off
        (releaseBreachRule_done target use latched (mt (s.plant.stillBreached_iff v).1 done))
      refine ⟨t, row, answers, plant.trans ?_⟩
      rw [Plant.handOn, Plant.village_setVillage]
      rfl

/-- Settles O50, by whether the entry changes. -/
theorem loadRouteWritesEntry : Obligations.LoadRouteWritesEntry := by
  intro s r begins off
  have refused {o : ReqOutcome} (rule : loadRouteRule r s = refuse s o) :
      ∃ t, exec .loadRoute s = .next t ∧ s.OnlyAnswers r o t :=
    writeRequest_onlyAnswers exec_loadRoute rfl begins off rule
  refine ⟨fun high => refused (loadRouteRule_badIndex high), fun v k target barrier =>
    ⟨fun unused => refused (loadRouteRule_unused target barrier unused), fun use => ⟨fun long named => ?_, fun fine => ?_⟩⟩⟩
  · refine refused ((loadRouteRule_used target barrier use).trans ?_)
    rw [Request.travel_refused long named]
    rfl
  · have rule : loadRouteRule r s = finished (s.plant.writeRoute v k r.askedTravel) := by
      refine (loadRouteRule_used target barrier use).trans ?_
      rw [Request.travel_asked fine]
      rfl
    obtain ⟨t, row, answers, plant⟩ := writeRequest_answers exec_loadRoute rfl begins off rule
    have absent : r.askedTravel = none ↔ r.num16 1 = 65535 := by
      unfold Request.askedTravel
      split_ifs with h <;> simp [h]
    refine ⟨t, row, answers, ?_⟩
    by_cases same : r.askedTravel = none ∧ (s.plant.village v).routes.get k = none
    · rw [Plant.writeRoute_same same] at plant
      obtain ⟨noTravel, noEntry⟩ := same
      rw [plant]
      refine ⟨rfl, ?_, fun _ _ => rfl, fun _ _ => ⟨rfl, rfl⟩, fun _ _ => rfl, fun change =>
        absurd ⟨absent.1 noTravel, noEntry⟩ change⟩
      rw [noEntry, if_pos (absent.1 noTravel)]
      rfl
    · obtain ⟨formed, levels, exercise⟩ := Plant.writeRoute_formed use same
      rw [← plant] at formed levels exercise
      have travels (j : Fin 4) : ((t.plant.village v).routes.get j).map Route.travel =
          if j = k then r.askedTravel else ((s.plant.village v).routes.get j).map Route.travel := by
        rw [show t.plant.village v = _ from levels]
        exact (Village.form_travels _ _ j).trans (Village.rerouted_travels _ k j _)
      refine ⟨formed.only, (travels k).trans (if_pos rfl), fun j other => (travels j).trans (if_neg other), formed.others,
        fun none noEntry => absurd ⟨absent.2 none, noEntry⟩ same, fun _ => ?_⟩
      intro vl out entry
      have entered : entry = Route.load (vl.routes.get k) r.askedTravel := by
        unfold Request.askedTravel
        dsimp only [entry]
        split_ifs
        · cases vl.routes.get k <;> rfl
        · cases vl.routes.get k <;> rfl
      refine ⟨formed, ?_, ?_, exercise⟩
      · rw [entered]
        exact levels
      · have real := (((s.plant.village v).rerouted k r.askedTravel).form_realOnly s.plant.barrier).eq
        generalize ((s.plant.village v).rerouted k r.askedTravel).form s.plant.barrier = f at real levels
        have out_eq : out = _ := levels
        rw [real] at out_eq
        rw [out_eq]
        rfl

/-- Settles O49, by the answer of the rule of LOAD_VILLAGE in each case of R113. -/
theorem loadVillageWritesSettings : Obligations.LoadVillageWritesSettings := by
  intro s r begins off refuses
  have refused {o : ReqOutcome} (rule : loadVillageRule r s = refuse s o) : refuses o :=
    writeRequest_onlyAnswers exec_loadVillage rfl begins off rule
  refine ⟨fun high => refused (by simp only [loadVillageRule, Request.index_of_le high]), fun v target => ?_⟩
  intro addr old foreign taken bad warned
  have values := s.plant.villageBad_iff v r
  refine ⟨fun isForeign => refused (loadVillageRule_foreign target isForeign), fun own none isWarned => ?_,
    fun own none calm => ?_, fun own some isBad => ?_, fun own some good => ?_⟩
  · exact refused ((loadVillageRule_cleared target own none).trans (if_pos isWarned))
  · exact writeRequest_answers exec_loadVillage rfl begins off ((loadVillageRule_cleared target own none).trans (if_neg calm))
  · exact refused ((loadVillageRule_written target own some).trans (if_pos (values.2 isBad)))
  · intro mode repeating written d emptied tested restarted
    obtain ⟨t, row, answers, plant⟩ := writeRequest_answers exec_loadVillage rfl begins off
      ((loadVillageRule_written target own some).trans (if_neg (mt values.1 good)))
    obtain ⟨side, notices, others, village, disp⟩ := s.plant.settled_spec v r
    obtain ⟨use, address, latch, mask, travels⟩ := old.loaded_settings r
    have loaded : old.loaded r = written := rfl
    rw [Dispatch.restart_eq] at disp
    have restart : (s.plant.settled v r).disp v = restarted := disp
    obtain ⟨formed, levels, exercise⟩ := Plant.recomputeBoth_after side notices others (by rw [village]; exact use)
    have kept : (s.plant.settled v r).recomputeBoth v = t.plant := plant.symm
    rw [kept, village] at formed levels
    rw [kept] at exercise
    rw [restart, latch] at formed
    have real := ((old.loaded r).form_realOnly s.plant.barrier).eq
    have routes := Village.form_travels (old.loaded r) s.plant.barrier
    have unused (off : old.inUse = false) := Village.loaded_of_unused r off s.plant.barrier
    refine ⟨t, row, answers, formed, levels, exercise, ?_⟩
    generalize (old.loaded r).form s.plant.barrier = f at real routes levels unused
    have out : t.plant.village v = _ := levels
    rw [real] at out
    refine ⟨?_, ?_, ?_, ?_, ?_, ?_, ?_, ?_, ?_, ?_, ?_, ?_, ?_, fun k => ?_, fun inUse latched => ?_, fun off => ?_⟩
    · rw [out]; exact use
    · rw [out]; exact address
    · rw [out]; rfl
    · rw [out]; rfl
    · rw [out]; rfl
    · rw [out]; rfl
    · rw [out]
      show (if (r.byte 8).toNat = 0 then AckMode.confirmed else .unconfirmed) = .confirmed ↔ _
      split_ifs with zero <;> simp [zero]
    · rw [out]; rfl
    · rw [out]; rfl
    · rw [out]; rfl
    · rw [out]; rfl
    · rw [out]
      exact beq_iff_eq
    · rw [out]; exact mask
    · rw [show t.plant.village v = _ from levels]
      exact (routes k).trans (travels k)
    · exact formed.latched.2 (.inl (by rw [inUse, latched]; rfl))
    · rw [show t.plant.village v = _ from levels]
      exact unused off

end Sys2Proof.Proofs
end


section
/-! The requests of an exercise session (R159 to R164): EXERCISE_BEGIN, EXERCISE_SYNC and EXERCISE_END. -/

namespace Sys2Proof.Machine

/-! ### The villages of a session without an estimate (R128, R129) -/

/-- A permitted village in use with a route to the session barrier. -/
def Village.Reached (vl : Village) (k : Fin 4) : Prop := vl.inUse = true ∧ vl.permit = true ∧ vl.routes.get k ≠ none

theorem Village.reached_iff (vl : Village) (k : Fin 4) :
    (vl.inUse && vl.permit && vl.routed k) = true ↔ vl.Reached k := by
  rw [Bool.and_eq_true, Bool.and_eq_true, and_assoc, Village.routed, Option.isSome_iff_ne_none]
  rfl

section
variable (p : Plant) {k : Fin 4} {v : Fin 8}

/-- Without an exercise estimate the reached villages fall to CLEAR exercise levels and are handed on. -/
theorem Plant.recomputeExerciseFor_reached (absent : p.exercise.estimate = none) (reached : (p.village v).Reached k) :
    (p.recomputeExerciseFor k).village v = { p.village v with
      exComputed := .clear, exAnnounced := .clear, exCause := .projection, exAvailable := 65535 } ∧
    (p.recomputeExerciseFor k).disp v = (p.disp v).handOn p.session.active p.now
      ⟨(p.village v).announced, .clear, (p.village v).mask, true⟩ := by
  have basis : p.exerciseBasis = none := by
    unfold Plant.exerciseBasis
    rw [absent]
    cases p.session.current <;> rfl
  obtain ⟨-, -, villages⟩ := p.recomputeExerciseFor_spec k
  have here := (p.village v).reached_iff k
  rw [villages, p.recomputeExerciseFor_disp k v, basis, if_pos (here.2 reached), if_pos (here.2 reached)]
  obtain ⟨-, permit, -⟩ := reached
  refine ⟨rfl, ?_⟩
  rw [← permit]
  rfl

theorem Plant.recomputeExerciseFor_unreached (away : ¬ (p.village v).Reached k) :
    (p.recomputeExerciseFor k).village v = p.village v ∧ (p.recomputeExerciseFor k).disp v = p.disp v := by
  obtain ⟨-, -, villages⟩ := p.recomputeExerciseFor_spec k
  have here := mt ((p.village v).reached_iff k).1 away
  exact ⟨(villages v).trans (if_neg here), (p.recomputeExerciseFor_disp k v).trans (if_neg here)⟩

end

/-- The villages of barrier `k` told of a session that has no estimate yet, from those they were in `p` (R129, R136). -/
def Plant.ToldClear (p t : Plant) (k : Fin 4) : Prop :=
  ∀ v, let vl := p.village v
    (vl.Reached k → t.village v =
        { vl with exComputed := .clear, exAnnounced := .clear, exCause := .projection, exAvailable := 65535 } ∧
      t.disp v = (p.disp v).handOn true p.now ⟨vl.announced, .clear, vl.mask, true⟩) ∧
    (¬ vl.Reached k → t.village v = vl ∧ t.disp v = p.disp v)

theorem Plant.recomputeExerciseFor_toldClear {p q : Plant} (k : Fin 4) (villages : q.villages = p.villages)
    (dispatch : q.dispatch = p.dispatch) (now : q.now = p.now) (active : q.session.active = true)
    (absent : q.exercise.estimate = none) : p.ToldClear (q.recomputeExerciseFor k) k := by
  intro v vl
  have village : q.village v = vl := by
    unfold Plant.village
    rw [villages]
    rfl
  have disp : q.disp v = p.disp v := by
    unfold Plant.disp
    rw [dispatch]
  have reached := q.recomputeExerciseFor_reached (k := k) (v := v) absent
  have unreached := q.recomputeExerciseFor_unreached (k := k) (v := v)
  rw [village, disp, active, now] at reached
  rw [village, disp] at unreached
  exact ⟨reached, unreached⟩

/-! ### EXERCISE_BEGIN (R159) -/

section
variable (p : Plant) (k : Fin 4) (duration : Nat)

/-- The plant of a begun session, before its villages are told. -/
def Plant.begun (p : Plant) (k : Fin 4) (duration : Nat) : Plant :=
  { p with session := p.session.begun k p.now duration }.restartExercise k

theorem Plant.begun_only : p.begun k duration = { p with
    session := p.session.begun k p.now duration, patterns := (p.begun k duration).patterns,
    channels := (p.begun k duration).channels, exercise := p.exercise.clear } :=
  (Plant.restartExercise_spec { p with session := p.session.begun k p.now duration } k).1

theorem Plant.beginExercise_only : p.beginExercise k duration = { p with
    session := p.session.begun k p.now duration, patterns := (p.begun k duration).patterns,
    channels := (p.begun k duration).channels, exercise := p.exercise.clear,
    villages := (p.beginExercise k duration).villages, dispatch := (p.beginExercise k duration).dispatch } := by
  have told := (p.begun k duration).recomputeExerciseFor_only k
  have begun := p.begun_only k duration
  unfold Plant.beginExercise
  rw [show ({ p with session := p.session.begun k p.now duration } : Plant).restartExercise k = p.begun k duration from rfl]
  generalize (p.begun k duration).recomputeExerciseFor k = t at *
  rw [told]
  generalize p.begun k duration = q at *
  rw [begun]

theorem Plant.mayExercise_false (ceiling : Nat) : ¬ p.mayExercise k ceiling = true ↔
    p.session.active = true ∨ (p.barrier k).state ≠ .active ∨
      (∃ e, (p.barrier k).estimate = some e ∧ ceiling ≤ e.fill) ∨ (p.barrier k).surgeFlag = true ∨
      (p.barrier k).wire = true ∨ (p.barrier k).overtop = true := by
  rw [p.mayExercise_iff]
  have breached : (p.barrier k).breached = false ↔ ¬ ((p.barrier k).wire = true ∨ (p.barrier k).overtop = true) := by
    unfold Barrier.breached
    cases (p.barrier k).wire <;> cases (p.barrier k).overtop <;> decide
  have below : (∀ e, (p.barrier k).estimate = some e → e.fill < ceiling) ↔
      ¬ ∃ e, (p.barrier k).estimate = some e ∧ ceiling ≤ e.fill := by
    simp only [not_exists, not_and, Nat.not_le]
  rw [breached, below, ← Bool.not_eq_true, ← Bool.not_eq_true]
  simp only [not_and_or, not_not, ne_eq]

end

/-! ### EXERCISE_SYNC (R161) -/

theorem Plant.workWithout_exercise_congr {p q : Plant}
    (same : q = { p with patterns := q.patterns, channels := q.channels, exercise := q.exercise }) :
    q.workWithout .exercise = p.workWithout .exercise := by
  rw [same]
  unfold Plant.workWithout
  dsimp only
  split_ifs
  · have rest (e : EvalEntry) (mem : e ∈ p.evalQueue.filter fun e => decide (e.owner ≠ .exercise)) :
        ∃ k, e.owner = .barrier k := by
      have other := of_decide_eq_true (List.mem_filter.1 mem).2
      cases owner : e.owner with
      | exercise => exact absurd owner other
      | barrier k => exact ⟨k, rfl⟩
    generalize (p.evalQueue.filter fun e => decide (e.owner ≠ .exercise)) = queue at rest
    cases queue with
    | nil => rfl
    | cons e tail =>
      obtain ⟨k, owner⟩ := rest e List.mem_cons_self
      rw [Plant.beginEvaluation_barrierEntry rfl rfl owner, Plant.beginEvaluation_barrierEntry rfl rfl owner]
      rfl
  · rfl

section
variable (p : Plant) (k : Fin 4)

/-- The plant of a synchronised session, before its villages are told (R161). -/
def Plant.synced (p : Plant) (k : Fin 4) : Plant := (p.restartExercise k).abandon .exercise

theorem Plant.synced_spec :
    p.synced k = { p with
      patterns := (p.restartExercise k).patterns, channels := (p.restartExercise k).channels,
      exercise := p.exercise.clear, evalQueue := (p.workWithout .exercise).1, flight := (p.workWithout .exercise).2 } := by
  obtain ⟨only, -⟩ := p.restartExercise_spec k
  have work := Plant.workWithout_exercise_congr (q := p.restartExercise k) (by rw [only])
  unfold Plant.synced
  rw [Plant.abandon_workWithout, work]
  generalize p.restartExercise k = q at *
  rw [only]

theorem Plant.syncExercise_only : p.syncExercise k = { p.synced k with
    villages := (p.syncExercise k).villages, dispatch := (p.syncExercise k).dispatch } :=
  (p.synced k).recomputeExerciseFor_only k

/-- The evaluation state tells what waits and what is in flight, and nothing else. -/
theorem Plant.evalState_congr {p q : Plant} (queue : q.evalQueue = p.evalQueue) (flight : q.flight = p.flight)
    (o : EvalOwner) : q.evalState o = p.evalState o := by
  unfold Plant.evalState Plant.inFlight Plant.queued
  rw [queue, flight]

/-- Where an owner's work has left, the owner is IDLE (R93, R102). -/
theorem Plant.evalState_workWithout {p q : Plant} {o : EvalOwner} (work : (q.evalQueue, q.flight) = p.workWithout o) :
    q.evalState o = .idle := by
  have left := p.abandon_workWithout o
  obtain ⟨queue, flight⟩ := Prod.mk.inj work
  refine (Plant.evalState_congr (p := p.abandon o) ?_ ?_ o).trans (p.abandon_evalState o)
  · rw [left]
    exact queue
  · rw [left]
    exact flight

end

/-! ### The end of a session (R163, R164) -/

theorem Plant.endSession_of_idle {p : Plant} (idle : p.session.active = false) (reason : EndReason) :
    p.endSession reason = p := by
  unfold Plant.endSession Plant.endSessionOf
  exact if_neg (by simp [idle])

/-- After the end of a session no village in use has an exercise level (R163). -/
theorem Plant.endSession_levels {p : Plant} (active : p.session.active = true) (reason : EndReason) {v : Fin 8}
    (use : (p.village v).inUse = true) :
    ((p.endSession reason).village v).exComputed = .clear ∧ ((p.endSession reason).village v).exAnnounced = .clear := by
  obtain ⟨-, -, -, villages, -⟩ := p.endSessionOf_result reason p.exercising p.exercising_nodup active
  rw [show (p.endSession reason).village v = _ from villages v]
  split_ifs with noted
  · exact ⟨rfl, rfl⟩
  · rw [Plant.mem_exercising] at noted
    by_contra other
    exact noted ⟨⟨use, not_and_or.1 other⟩, use⟩

/-! ### The rules -/

section
variable {s : State} {r : Request} {k : Fin 4} (target : r.target.toNat = k.1)
include target

theorem exerciseBeginRule_wrongState (barred : ¬ s.plant.mayExercise k s.mgmt.settings.ceiling = true) :
    exerciseBeginRule r s = refuse s .wrongState := by
  simp only [exerciseBeginRule, Request.index_of_lt k target]
  exact if_neg barred

theorem exerciseBeginRule_done (may : s.plant.mayExercise k s.mgmt.settings.ceiling = true) :
    exerciseBeginRule r s = finished (s.plant.beginExercise k s.mgmt.settings.duration) := by
  simp only [exerciseBeginRule, Request.index_of_lt k target]
  exact if_pos may

end

theorem exerciseSyncRule_wrongState {s : State} (r : Request) (idle : s.plant.session.active = false) :
    exerciseSyncRule r s = refuse s .wrongState := by
  have none : s.plant.session.current = none := if_neg (by simp [idle])
  rw [exerciseSyncRule, none]

theorem exerciseSyncRule_done {s : State} (r : Request) {k : Fin 4} (active : s.plant.session.active = true)
    (barrier : s.plant.session.barrier = some k) : exerciseSyncRule r s = finished (s.plant.syncExercise k) := by
  rw [exerciseSyncRule, (Plant.current_some_iff _ _).2 ⟨active, barrier⟩]

theorem exec_exerciseBegin (s : State) :
    exec .exerciseBegin s = .next (s.request (isCode 0x40) (onPlant exerciseBeginRule)) := rfl

theorem exec_exerciseSync (s : State) :
    exec .exerciseSync s = .next (s.request (isCode 0x41) (onPlant exerciseSyncRule)) := rfl

theorem exec_exerciseEnd (s : State) : exec .exerciseEnd s =
    .next (s.request (isCode 0x42) (onPlant fun _ s => finished (s.plant.endSession .ended))) := rfl

end Sys2Proof.Machine

namespace Sys2Proof.Proofs

open Sys2Proof.Machine

/-- Settles O52, by whether a check of R159 bars the session. -/
theorem exerciseBegins : Obligations.ExerciseBegins := by
  intro s r begins off
  have refused {o : ReqOutcome} (rule : exerciseBeginRule r s = refuse s o) :
      ∃ t, exec .exerciseBegin s = .next t ∧ s.OnlyAnswers r o t :=
    writeRequest_onlyAnswers exec_exerciseBegin rfl begins off rule
  refine ⟨fun high => refused (by simp only [exerciseBeginRule, Request.index_of_le high]), fun k target => ?_⟩
  intro b barred
  have checks : ¬ s.plant.mayExercise k s.mgmt.settings.ceiling = true ↔ barred := s.plant.mayExercise_false k _
  refine ⟨fun isBarred => refused (exerciseBeginRule_wrongState target (checks.2 isBarred)), fun free => ?_⟩
  obtain ⟨t, row, answers, plant⟩ := writeRequest_answers exec_exerciseBegin rfl begins off
    (exerciseBeginRule_done target (not_not.1 (mt checks.1 free)))
  have only := s.plant.beginExercise_only k s.mgmt.settings.duration
  have begun := s.plant.begun_only k s.mgmt.settings.duration
  obtain ⟨-, patterns, channels⟩ := Plant.restartExercise_spec
    { s.plant with session := s.plant.session.begun k s.plant.now s.mgmt.settings.duration } k
  have told : s.plant.ToldClear (s.plant.beginExercise k s.mgmt.settings.duration) k :=
    Plant.recomputeExerciseFor_toldClear (q := s.plant.begun k s.mgmt.settings.duration) k
      (by rw [begun]) (by rw [begun]) (by rw [begun]) (by rw [begun]; rfl) (by rw [begun]; rfl)
  rw [← plant] at only told
  have samePatterns : t.plant.patterns = (s.plant.begun k s.mgmt.settings.duration).patterns := by rw [only]
  have sameChannels : t.plant.channels = (s.plant.begun k s.mgmt.settings.duration).channels := by rw [only]
  rw [← samePatterns, ← sameChannels] at only
  refine ⟨t, row, answers, only, fun c => ?_, fun c => ?_, told⟩
  · rw [Plant.pattern, samePatterns]
    exact patterns c
  · rw [Plant.channel, sameChannels]
    exact channels c

/-- Settles O53, by whether a session runs. -/
theorem exerciseSyncAndEnd : Obligations.ExerciseSyncAndEnd := by
  intro s r off
  refine ⟨fun begins => ⟨fun idle => ?_, fun k active barrier => ?_⟩, fun begins => ⟨fun idle => ?_, fun active => ?_⟩⟩
  · exact writeRequest_onlyAnswers exec_exerciseSync rfl begins off (exerciseSyncRule_wrongState r idle)
  · obtain ⟨t, row, answers, plant⟩ := writeRequest_answers exec_exerciseSync rfl begins off
      (exerciseSyncRule_done r active barrier)
    have only := s.plant.syncExercise_only k
    have synced := s.plant.synced_spec k
    obtain ⟨-, patterns, channels⟩ := s.plant.restartExercise_spec k
    have told : s.plant.ToldClear (s.plant.syncExercise k) k :=
      Plant.recomputeExerciseFor_toldClear (q := s.plant.synced k) k
        (by rw [synced]) (by rw [synced]) (by rw [synced]) (by rw [synced]; exact active) (by rw [synced]; rfl)
    rw [← plant, synced] at only
    rw [← plant] at told
    have work : (t.plant.evalQueue, t.plant.flight) = s.plant.workWithout .exercise := by rw [only]
    have samePatterns : t.plant.patterns = (s.plant.restartExercise k).patterns := by rw [only]
    have sameChannels : t.plant.channels = (s.plant.restartExercise k).channels := by rw [only]
    rw [← samePatterns, ← sameChannels, ← work] at only
    refine ⟨t, row, answers, only, work, Plant.evalState_workWithout work, fun c => ?_, fun c => ?_, told⟩
    · rw [Plant.pattern, samePatterns]
      exact patterns c
    · rw [Plant.channel, sameChannels]
      exact channels c
  · obtain ⟨t, row, answers, plant⟩ := writeRequest_answers exec_exerciseEnd rfl begins off (p := s.plant.endSession .ended) rfl
    refine ⟨t, row, ?_⟩
    rw [State.Answers, plant, Plant.endSession_of_idle idle] at answers
    exact answers
  · obtain ⟨t, row, answers, plant⟩ := writeRequest_answers exec_exerciseEnd rfl begins off (p := s.plant.endSession .ended) rfl
    have result := s.plant.endSessionOf_result .ended s.plant.exercising s.plant.exercising_nodup active
    rw [← Plant.endSession, ← plant] at result
    obtain ⟨only, session, work, -⟩ := result
    refine ⟨t, row, answers, plant, session, work, Plant.evalState_workWithout work, ?_, ?_, ?_, fun v use => ?_⟩
    · rw [only]
    · rw [only]
    · rw [only]
    · rw [plant]
      exact Plant.endSession_levels active .ended use

end Sys2Proof.Proofs
end
